-- ==== Sys2Proof/Word.lean ====
section
/-!
DEFINITION. The words of the part (bytes, 16-bit head link words, 32-bit positions and trigger indexes), the names of
its repeated blocks (two lanes; four heads, slots and units), and the two small containers that hold one thing per lane
and one thing per head, slot or unit.
-/

namespace Sys2Proof

/-- A byte of the Control Link (09, R164). -/
abbrev Byte := BitVec 8

/-- A 16-bit word of a head link (09, R188). -/
abbrev Half := BitVec 16

/-- A lane position, trigger index or board tag: unsigned, 32 bits, wrapping (00_scope 4.1, 4.2). -/
abbrev Word := BitVec 32

/-- The two lanes (00_scope 1). -/
inductive Lane where
  | a
  | b
deriving DecidableEq, Repr

/-- The lane other than this one (R109). -/
def Lane.other : Lane → Lane
  | .a => .b
  | .b => .a

/-- The numbers 0..3 that name head ports, recipe slots and evaluation units. -/
inductive Four where
  | n0
  | n1
  | n2
  | n3
deriving DecidableEq, Repr

def Four.toNat : Four → Nat
  | .n0 => 0
  | .n1 => 1
  | .n2 => 2
  | .n3 => 3

/-- The number as one of 0..3, or none outside that range. -/
def Four.ofNat? : Nat → Option Four
  | 0 => some .n0
  | 1 => some .n1
  | 2 => some .n2
  | 3 => some .n3
  | _ => none

/-- All four, in the order of their numbers. -/
def Four.all : List Four := [.n0, .n1, .n2, .n3]

/-- A head port HP0..HP3. -/
abbrev HeadId := Four

/-- A recipe slot 0..3. -/
abbrev SlotId := Four

/-- An evaluation unit EU0..EU3. -/
abbrev UnitId := Four

/-- One thing for each lane. -/
structure Pair (α : Type) where
  a : α
  b : α
deriving DecidableEq, Repr

namespace Pair

variable {α : Type}

def get (p : Pair α) : Lane → α
  | .a => p.a
  | .b => p.b

def set (p : Pair α) (l : Lane) (x : α) : Pair α :=
  match l with
  | .a => { p with a := x }
  | .b => { p with b := x }

@[simp] theorem get_set (p : Pair α) (l : Lane) (x : α) : (p.set l x).get l = x := by
  cases l <;> rfl

@[simp] theorem get_set_ne (p : Pair α) {l m : Lane} (x : α) (h : m ≠ l) : (p.set l x).get m = p.get m := by
  cases l <;> cases m <;> first | rfl | exact absurd rfl h

theorem get_set_eq (p : Pair α) (l m : Lane) (x : α) : (p.set l x).get m = if m = l then x else p.get m := by
  cases l <;> cases m <;> rfl

end Pair

/-- One thing for each of four heads, slots or units. -/
structure Quad (α : Type) where
  i0 : α
  i1 : α
  i2 : α
  i3 : α
deriving DecidableEq, Repr

namespace Quad

variable {α β : Type}

def get (q : Quad α) : Four → α
  | .n0 => q.i0
  | .n1 => q.i1
  | .n2 => q.i2
  | .n3 => q.i3

def set (q : Quad α) (n : Four) (x : α) : Quad α :=
  match n with
  | .n0 => { q with i0 := x }
  | .n1 => { q with i1 := x }
  | .n2 => { q with i2 := x }
  | .n3 => { q with i3 := x }

/-- The same thing four times. -/
def all (x : α) : Quad α := ⟨x, x, x, x⟩

/-- Each of the four changed in the same way. -/
def map (f : α → β) (q : Quad α) : Quad β := ⟨f q.i0, f q.i1, f q.i2, f q.i3⟩

@[simp] theorem get_set (q : Quad α) (n : Four) (x : α) : (q.set n x).get n = x := by
  cases n <;> rfl

@[simp] theorem get_set_ne (q : Quad α) {n m : Four} (x : α) (h : m ≠ n) : (q.set n x).get m = q.get m := by
  cases n <;> cases m <;> first | rfl | exact absurd rfl h

theorem get_set_eq (q : Quad α) (n m : Four) (x : α) : (q.set n x).get m = if m = n then x else q.get m := by
  cases n <;> cases m <;> rfl

@[simp] theorem get_all (n : Four) (x : α) : (Quad.all x).get n = x := by
  cases n <;> rfl

@[simp] theorem get_map (f : α → β) (q : Quad α) (n : Four) : (q.map f).get n = f (q.get n) := by
  cases n <;> rfl

end Quad

end Sys2Proof
end

