-- ==== Sys2Proof/Syntax.lean ====
section
/-!
DEFINITION. The commands of the part: one constructor for each of the 47 rows of spec/opcode_table.json.
A request row carries no operands: it is the request handler's taking of the oldest request of the inbox, and the
request's operands are that request's payload bytes (09, R174, R176, R188; log entry 1).
-/

namespace Sys2Proof

/-- The levels sampled when RESET_N is deasserted: the straps (R164), the encoder pairs (R1) and the entry eyes
(R16). `true` is a high level. -/
structure PowerOnPins where
  lrate1 : Bool
  lrate0 : Bool
  encAP : Bool
  encAQ : Bool
  encBP : Bool
  encBQ : Bool
  eyeA : Bool
  eyeB : Bool
deriving DecidableEq, Repr

/-- The commands (spec/opcode_table.json; the rule named in each row governs it). -/
inductive Instr where
  /-- POWER_ON (R187): RESET_N is deasserted with these levels on the sampled inputs. -/
  | powerOn (pins : PowerOnPins)
  /-- ENCODER_STATE_CHANGE (R1): the lane's encoder pair is observed at levels P and Q. -/
  | encoderStateChange (lane : Lane) (p q : Bool)
  /-- LANE_TRIGGER (R13). -/
  | laneTrigger (lane : Lane)
  /-- LEADING_EDGE (R24): the lane's eye input is seen blocked. -/
  | leadingEdge (lane : Lane)
  /-- TRAILING_EDGE (R28): the lane's eye input is seen clear. -/
  | trailingEdge (lane : Lane)
  /-- DEADLINE (R37). -/
  | deadline (lane : Lane)
  /-- GATE_WINDOW_START (R39). -/
  | gateWindowStart (lane : Lane)
  /-- GATE_WINDOW_END (R40). -/
  | gateWindowEnd (lane : Lane)
  /-- FLOOD_END (R27). -/
  | floodEnd (lane : Lane)
  /-- PROFILE_FRAME (R54): a complete frame of these words is received from the head. -/
  | profileFrame (head : HeadId) (words : List Half)
  /-- TRIGGER_TIMEOUT (R52): 2 ms have passed since this outstanding trigger was issued to the head. -/
  | triggerTimeout (head : HeadId) (index : Word)
  /-- EVALUATION_COMPLETE (R116). -/
  | evaluationComplete (unit : UnitId)
  /-- ALIGNMENT_FRAME (R48): a complete frame of these words is received from the head. -/
  | alignmentFrame (head : HeadId) (words : List Half)
  /-- TAP_TIMEOUT (R48): 1 ms has passed since the tap under trial was set. -/
  | tapTimeout (head : HeadId)
  /-- CLOSE_END (R93): the close checks of the slot end. -/
  | closeEnd (slot : SlotId)
  /-- FRAME_RECEIVED (R170): this check byte completes the frame in course. -/
  | frameReceived (byte : Byte)
  /-- HEADER_LENGTH_REJECT (R169): this tag byte completes a header whose length is above 1020. -/
  | headerLengthReject (byte : Byte)
  /-- INTER_BYTE_TIMEOUT (R171). -/
  | interByteTimeout
  /-- STOP_BIT_ERROR (R172). -/
  | stopBitError
  /-- HOLD_IN_CHANGE (R166): `asserted` is the new condition of HOLD_IN (asserted is low). -/
  | holdInChange (asserted : Bool)
  /-- TRANSMIT_START (R166). -/
  | transmitStart
  /-- REPLY_SENT (R166). -/
  | replySent
  /-- UNKNOWN_KIND (R177). -/
  | unknownKind
  /-- MARKED_REQUEST (R184). -/
  | markedRequest
  /-- DESCRIBE (R180). -/
  | describe
  /-- LINK_STATUS (R182): STATUS with target kind link. -/
  | linkStatus
  /-- LANE_STATUS (R17): STATUS with target kind lane. -/
  | laneStatus
  /-- HEAD_STATUS (R65): STATUS with target kind head. -/
  | headStatus
  /-- RESTART (R184). -/
  | restart
  /-- LANE_SETUP (R5). -/
  | laneSetup
  /-- LANE_START (R8). -/
  | laneStart
  /-- LANE_STOP_DRAIN (R10): LANE_STOP with mode DRAIN. -/
  | laneStopDrain
  /-- LANE_STOP_ABANDON (R12): LANE_STOP with mode ABANDON. -/
  | laneStopAbandon
  /-- EXPECT (R21). -/
  | expect
  /-- WITHDRAW (R38). -/
  | withdraw
  /-- HEAD_SETUP (R44). -/
  | headSetup
  /-- HEAD_ALIGN (R47). -/
  | headAlign
  /-- CAL_REQUEST (R72). -/
  | calRequest
  /-- RECIPE_OPEN (R89). -/
  | recipeOpen
  /-- RECIPE_CLASSES (R90). -/
  | recipeClasses
  /-- RECIPE_JOINTS (R91). -/
  | recipeJoints
  /-- RECIPE_CLOSE (R92). -/
  | recipeClose
  /-- RECIPE_RETIRE (R98). -/
  | recipeRetire
  /-- RECIPE_QUERY (R101). -/
  | recipeQuery
  /-- COLLECT (R156). -/
  | collect
  /-- RESET_N_ASSERTED (R187). -/
  | resetNAsserted
  /-- GOOD_BYTE (R168): a byte whose stop bit is sampled high. -/
  | goodByte (byte : Byte)
deriving DecidableEq, Repr

end Sys2Proof
end

