-- ==== Sys2Proof/WellFormed.lean ====
section
/-!
DEFINITION. Which commands are well formed. Lanes, heads, slots, units, bytes and words are typed by their ranges, so
the one check left is on the frame rows: a complete frame has at least one word (03, R48, R54).
-/

namespace Sys2Proof

/-- A complete frame holds at least one word; every other command is well formed as it stands. -/
def Instr.wellFormed : Instr → Bool
  | .profileFrame _ words => !words.isEmpty
  | .alignmentFrame _ words => !words.isEmpty
  | .powerOn _ => true
  | .encoderStateChange _ _ _ => true
  | .laneTrigger _ => true
  | .leadingEdge _ => true
  | .trailingEdge _ => true
  | .deadline _ => true
  | .gateWindowStart _ => true
  | .gateWindowEnd _ => true
  | .floodEnd _ => true
  | .triggerTimeout _ _ => true
  | .evaluationComplete _ => true
  | .tapTimeout _ => true
  | .closeEnd _ => true
  | .frameReceived _ => true
  | .headerLengthReject _ => true
  | .interByteTimeout => true
  | .stopBitError => true
  | .holdInChange _ => true
  | .transmitStart => true
  | .replySent => true
  | .unknownKind => true
  | .markedRequest => true
  | .describe => true
  | .linkStatus => true
  | .laneStatus => true
  | .headStatus => true
  | .restart => true
  | .laneSetup => true
  | .laneStart => true
  | .laneStopDrain => true
  | .laneStopAbandon => true
  | .expect => true
  | .withdraw => true
  | .headSetup => true
  | .headAlign => true
  | .calRequest => true
  | .recipeOpen => true
  | .recipeClasses => true
  | .recipeJoints => true
  | .recipeClose => true
  | .recipeRetire => true
  | .recipeQuery => true
  | .collect => true
  | .resetNAsserted => true
  | .goodByte _ => true

end Sys2Proof
end

