-- ==== Sys2Proof/Decode.lean ====
section
/-!
DEFINITION. The command a word spells by the bits of spec/opcode_table.json. No row of that table gives bits (every
row's "fields" is empty and none has "fixed"), so no word spells a command.
-/

namespace Sys2Proof

/-- No row of spec/opcode_table.json gives bits, so every word is refused (log entry 25). -/
def decodeTableWord (_nbits _w : Nat) : Option Instr := none

end Sys2Proof
end

