-- ==== Sys2Proof/Config.lean ====
section
/-!
DEFINITION. What is fixed for the part: the capacities the spec gives it, and the one free value of the model, the
order of takings between which the spec defines none.
-/

namespace Sys2Proof.Config

/-- FREE VALUE (log entry 3). Where several takings fall in one step and the spec defines no order among them (R13,
R81, R146), the n-th open choice picks the waiting taking of this number, modulo how many wait. It has no body:
nothing may be proved of its value. -/
opaque freeOrder : Nat → Nat

/-- Requests the inbox holds (R174). -/
def inboxDepth : Nat := 8
/-- Replies the outbox has places for (R174). -/
def outboxDepth : Nat := 16
/-- COLLECT requests that may be parked (R154). -/
def parkedLimit : Nat := 4
/-- Verdict records the verdict queue holds (R154). -/
def verdictDepth : Nat := 32
/-- Entries of a defect list (R143). -/
def defectLimit : Nat := 32
/-- Work items a ready queue holds (R108). -/
def readyDepth : Nat := 256
/-- Board records a transit queue holds (R23). -/
def transitDepth : Nat := 8
/-- Entries an expect queue holds (R20). -/
def expectDepth : Nat := 4
/-- Outstanding triggers of a head (R52). -/
def outstandingLimit : Nat := 4
/-- Slots of a line ring (R58). -/
def ringSlots : Nat := 1024
/-- Largest deficit (R2). -/
def deficitLimit : Nat := 1048575
/-- Deficit above which a reverse count sets REVERSED (R3). -/
def reversedLimit : Nat := 4096
/-- Largest untracked and dropped count (R26, R155). -/
def counterLimit : Nat := 65535
/-- Missed run at which SILENT is set (R64). -/
def silentRun : Nat := 64
/-- Lines of a calibration attempt (R75). -/
def attemptLines : Nat := 16
/-- Least number of valid samples of a region (R78). -/
def validSamples : Nat := 192
/-- Largest idle run (R74). -/
def idleLimit : Nat := 4096
/-- Sampling taps of a head link (R48). -/
def taps : Nat := 32
/-- Frames taken at each tap (R48). -/
def tapFrames : Nat := 8
/-- Largest payload of a frame (09, section 9.2). -/
def maxPayload : Nat := 1020
/-- Time after which an outstanding trigger times out, in microseconds (R52). -/
def triggerTimeout : Nat := 2000
/-- Time allowed for a tap, in microseconds (R48). -/
def tapTimeout : Nat := 1000
/-- Least time between bytes that abandons a frame, in microseconds: more than 2 ms (R171). -/
def byteTimeout : Nat := 2001

end Sys2Proof.Config
end

