-- ==== Sys2Proof/Machine/State.lean ====
section
/-!
DEFINITION. The state of the part as plain data: every register, queue, ring, counter, flag and pin the chapters give,
the outcomes of a step, and the machine right after reset. INVENTORY.md lists each piece with its rule and reset value.
-/

namespace Sys2Proof.Machine

/-! ### Recipes (05, section 5.1) -/

/-- A recipe header (05, table Header). -/
structure Header where
  jointCount : Nat
  classCount : Nat
  boardLines : Nat
  lineStep : Nat
  lengthTol : Nat
  headsUsed : Nat
deriving DecidableEq, Repr

/-- A class entry: the thresholds of Chapter 7 for a group of joints (05, table Class entry). -/
structure ClassEntry where
  vmin : Nat
  vmax : Nat
  pmax : Nat
  wetHeight : Nat
  cmin : Nat
  validMin : Nat
  hclamp : Nat
deriving DecidableEq, Repr

/-- The optional gap part of a joint record (05, table Joint record). -/
structure GapPart where
  gcol0 : Nat
  gncols : Nat
  grow0 : Nat
  gnrows : Nat
  bridgeHeight : Nat
  bridgeCount : Nat
deriving DecidableEq, Repr

/-- A joint record (05, table Joint record). -/
structure Joint where
  jointId : Nat
  head : Nat
  cls : Nat
  margin : Nat
  col0 : Nat
  ncols : Nat
  row0 : Nat
  nrows : Nat
  gap : Option GapPart
deriving DecidableEq, Repr

/-- First and last needed row of a joint (R94). -/
structure NeededRows where
  first : Nat
  last : Nat
deriving DecidableEq, Repr

/-- The states of a slot (05, section 5.2). -/
inductive SlotState where
  | empty
  | loading
  | closing
  | ready
  | retiring
deriving DecidableEq, Repr

/-- The codes with which a close fails (R93). -/
inductive CloseCode where
  | incomplete
  | range
  | geometry
  | order
  | duplicate
deriving DecidableEq, Repr

/-- The table in which a close found its fault (R93). -/
inductive FailTable where
  | classTable
  | jointTable
deriving DecidableEq, Repr

/-- The fault of a failed close: code, table and index (R93, R96). -/
structure CloseFailure where
  code : CloseCode
  table : FailTable
  index : Nat
deriving DecidableEq, Repr

/-- One slot of the Recipe Store (05, section 5.1). Joints loaded is the length of `joints`. `closeTag` is the tag of
the RECIPE_CLOSE that is running, whose reply is owed (R92, R175). -/
structure RecipeSlot where
  state : SlotState
  refs : Nat
  header : Option Header
  classes : Option (List ClassEntry)
  joints : List Joint
  needed : List NeededRows
  lastFailure : Option CloseFailure
  closeTag : Option Byte
deriving DecidableEq, Repr

/-- A slot in EMPTY: no contents and no references (R85, R102). -/
def RecipeSlot.empty : RecipeSlot :=
  { state := .empty, refs := 0, header := none, classes := none, joints := [], needed := [], lastFailure := none,
    closeTag := none }

/-! ### Outcomes and verdicts (07, 08) -/

/-- The 11 outcomes of a joint, in the order of their codes (R188). -/
inductive JointOutcome where
  | good
  | insufficient
  | excess
  | nonWet
  | lifted
  | bridged
  | occluded
  | noRef
  | dataLost
  | late
  | skipped
deriving DecidableEq, Repr

/-- The measures an outcome record carries (R137): none, n_v only, or all five. -/
inductive Measures where
  | absent
  | validOnly (nv : Nat)
  | full (vScaled peak coverage : Nat) (zRef : Int) (nv : Nat)
deriving DecidableEq, Repr

/-- The outcome record handed to the Verdict Unit (R137). -/
structure OutcomeRecord where
  jointId : Nat
  outcome : JointOutcome
  measures : Measures
deriving DecidableEq, Repr

/-- The 11 outcome counts of a board (08, section 8.1). -/
structure Counts where
  good : Nat
  insufficient : Nat
  excess : Nat
  nonWet : Nat
  lifted : Nat
  bridged : Nat
  occluded : Nat
  noRef : Nat
  dataLost : Nat
  late : Nat
  skipped : Nat
deriving DecidableEq, Repr

def Counts.zero : Counts := ⟨0, 0, 0, 0, 0, 0, 0, 0, 0, 0, 0⟩

/-- The verdicts (R148). -/
inductive Verdict where
  | pass
  | fail
  | review
  | unjudged
  | withdrawn
deriving DecidableEq, Repr

/-- The five flags of a board (08, section 8.3). -/
structure BoardFlags where
  calStale : Bool
  linesLost : Bool
  lengthMismatch : Bool
  noRecipe : Bool
  abandoned : Bool
deriving DecidableEq, Repr

def BoardFlags.clear : BoardFlags := ⟨false, false, false, false, false⟩

/-- What the Verdict Unit keeps of a board record (08, section 8.1). -/
structure VerdictFields where
  counts : Counts
  defects : List OutcomeRecord
  overflow : Nat
  flags : BoardFlags
  verdict : Option Verdict
  released : Bool
deriving DecidableEq, Repr

/-- The Verdict Unit's fields as a bound record starts with them (R140). -/
def VerdictFields.start : VerdictFields :=
  { counts := Counts.zero, defects := [], overflow := 0, flags := BoardFlags.clear, verdict := none, released := false }

/-- A verdict record (R152). -/
structure VerdictRecord where
  tag : Option Word
  lane : Lane
  slot : Option SlotId
  pLead : Word
  measuredLength : Option Word
  verdict : Verdict
  divert : Bool
  flags : BoardFlags
  counts : Counts
  defects : List OutcomeRecord
  overflow : Nat
  droppedBefore : Nat
deriving DecidableEq, Repr

/-- The Verdict Unit's state for the part as a whole (08, section 8.1): verdict queue, tags of the parked COLLECTs,
dropped count. -/
structure VerdictUnit where
  queue : List VerdictRecord
  parked : List Byte
  dropped : Nat
deriving DecidableEq, Repr

/-! ### Board records (02, section 2.3) -/

/-- What a bound record takes from its expect entry and its slot's header (R24). -/
structure Binding where
  tag : Word
  slot : SlotId
  boardLines : Nat
deriving DecidableEq, Repr

/-- The states of a board record (02, section 2.5). -/
inductive RecordState where
  | entering
  | scanning
  | draining
  | decided
deriving DecidableEq, Repr

/-- One entry of a calibration snapshot (R32). -/
structure SnapEntry where
  zero : Nat
  gain : Nat
  stale : Bool
deriving DecidableEq, Repr

/-- What the Window Scheduler keeps of a board record (R103). -/
structure WorkFields where
  cursor : Nat
  queued : Nat
  inFlight : Nat
deriving DecidableEq, Repr

/-- A board record. `ident` is the model's own number, by which a work item names its record (log entry 17).
`inWindow` holds from the taking of the gate window start (R39; log entry 13). The measured length is computed from
`pLead` and `pTrail`. -/
structure BoardRecord where
  ident : Nat
  binding : Option Binding
  pLead : Word
  pTrail : Option Word
  firstLine : Option Word
  state : RecordState
  jointsComplete : Bool
  snapshot : Option (List SnapEntry)
  divertDecision : Option Bool
  inWindow : Bool
  work : WorkFields
  verdictPart : VerdictFields
deriving DecidableEq, Repr

/-! ### Lanes (01, 02, 06) -/

/-- The lane states (01, section 1.4). -/
inductive LaneMode where
  | disabled
  | running
  | stopping
deriving DecidableEq, Repr

/-- stale_policy (01, section 1.3). -/
inductive StalePolicy where
  | report
  | demote
deriving DecidableEq, Repr

/-- The lane settings (01, section 1.3). -/
structure LaneSettings where
  lineStep : Nat
  dScan : Nat
  dGate : Nat
  gateLead : Nat
  gateTail : Nat
  minBoard : Nat
  stalePolicy : StalePolicy
  idleCalGap : Nat
deriving DecidableEq, Repr

/-- The encoder side of a Lane Tracker (R1, R2): decoder reference (levels of P and Q), raw count, lane position and
deficit. -/
structure Encoder where
  refP : Bool
  refQ : Bool
  raw : Word
  position : Word
  deficit : Nat
deriving DecidableEq, Repr

/-- An expect entry (02, section 2.1). -/
structure ExpectEntry where
  tag : Word
  slot : SlotId
deriving DecidableEq, Repr

/-- The flood end (R27): absent, open, a watched position, or a position that was reached while the transit queue was
not empty (log entry 12). -/
inductive FloodEnd where
  | absent
  | opened
  | position (p : Word)
  | passed
deriving DecidableEq, Repr

/-- A work item (06, section 6.1). -/
structure WorkItem where
  lane : Lane
  record : Nat
  joint : Nat
  head : HeadId
  firstNeeded : Word
  lastNeeded : Word
deriving DecidableEq, Repr

/-- One lane: the Lane Tracker's conveyor side (01) and board side (02), its divert output (08, section 8.7), and the
Window Scheduler's ready queue and trigger seen (06, section 6.1). -/
structure LaneState where
  enc : Encoder
  reversed : Bool
  encoderFault : Bool
  settings : Option LaneSettings
  mode : LaneMode
  triggerIndex : Word
  nextTrigger : Option Word
  eyeBlocked : Bool
  divert : Bool
  expect : List ExpectEntry
  transit : List BoardRecord
  flood : Bool
  floodEnd : FloodEnd
  untracked : Nat
  nextRecord : Nat
  ready : List WorkItem
  triggerSeen : Word
deriving DecidableEq, Repr

/-- A lane after power-on, with the encoder and eye inputs sampled then (R16, R19, R42, R119, R162). -/
def LaneState.powerOn (p q eye : Bool) : LaneState :=
  { enc := { refP := p, refQ := q, raw := 0, position := 0, deficit := 0 },
    reversed := false, encoderFault := false, settings := none, mode := .disabled, triggerIndex := 0,
    nextTrigger := none, eyeBlocked := eye, divert := true, expect := [], transit := [], flood := false,
    floodEnd := .absent, untracked := 0, nextRecord := 0, ready := [], triggerSeen := 0 }

/-! ### Heads (03) -/

/-- The head settings (03, section 3.2). `lane` is none for NONE. -/
structure HeadSettings where
  lane : Option Lane
  laneOrder : Nat
  samples : Nat
  zeroCol : Nat
  stepCol : Nat
  stepHeight : Nat
  nominalGain : Nat
  calInterval : Nat
  initialZero : Nat
  initialGain : Nat
deriving DecidableEq, Repr

/-- An alignment sweep in progress (R47, R48): the tag of the HEAD_ALIGN owed a reply, the pass map, the tap being
tried, the frames taken at it, whether all of them matched, and when the tap was set. -/
structure Sweep where
  requestTag : Byte
  passMap : List Bool
  tap : Nat
  frames : Nat
  allMatch : Bool
  tapSetAt : Nat
deriving DecidableEq, Repr

/-- The head states (03, section 3.3); the sweep exists only while ALIGNING. -/
inductive HeadMode where
  | unaligned
  | aligning (sweep : Sweep)
  | aligned
deriving DecidableEq, Repr

/-- An entry of the outstanding list: trigger index and issue time (03, section 3.1). -/
structure Outstanding where
  index : Word
  issued : Nat
deriving DecidableEq, Repr

/-- The status of a line in its slot, with its samples if GOOD (03, section 3.7). -/
inductive LineStatus where
  | pending
  | good (samples : List Nat)
  | missed
deriving DecidableEq, Repr

/-- A line held in a slot of a line ring. -/
structure Line where
  index : Word
  status : LineStatus
deriving DecidableEq, Repr

/-- A line ring: the slots that hold a line, by slot number (Ring.wf in Machine/Ring.lean gives the canonical form). -/
abbrev Ring := List (Nat × Line)

/-- One Head Port (03, section 3.1). The settled front is computed from `outstanding` and `lastTrigger` (R62).
`triggerLine` holds the messages sent on the trigger line since power-on, oldest first (R46; log entry 10). -/
structure HeadPort where
  settings : Option HeadSettings
  mode : HeadMode
  tap : Nat
  outstanding : List Outstanding
  lastTrigger : Option Word
  ring : Ring
  missedRun : Nat
  framing : Bool
  check : Bool
  stray : Bool
  skipped : Bool
  missed : Bool
  silent : Bool
  triggerLine : List (List Half)
deriving DecidableEq, Repr

/-- A Head Port after power-on (R67). -/
def HeadPort.powerOn : HeadPort :=
  { settings := none, mode := .unaligned, tap := 0, outstanding := [], lastTrigger := none, ring := [], missedRun := 0,
    framing := false, check := false, stray := false, skipped := false, missed := false, silent := false,
    triggerLine := [] }

/-! ### Calibration (04) -/

/-- A calibration attempt (04, section 4.1). The next line is `start + collected`. -/
structure Attempt where
  start : Word
  collected : Nat
  zeroSum : Nat
  zeroCount : Nat
  stepSum : Nat
  stepCount : Nat
deriving DecidableEq, Repr

/-- The calibration record of a head (04, section 4.1). -/
structure CalRecord where
  zero : Option Nat
  gain : Option Nat
  balance : Int
  overdue : Bool
  calFaulted : Bool
  faultCount : Nat
  requested : Bool
  idleRun : Nat
  attempt : Option Attempt
deriving DecidableEq, Repr

/-- A calibration record after power-on (R84). -/
def CalRecord.powerOn : CalRecord :=
  { zero := none, gain := none, balance := 0, overdue := false, calFaulted := false, faultCount := 0,
    requested := false, idleRun := 0, attempt := none }

/-! ### Evaluation units (06, section 6.1) -/

/-- The inputs a unit reads at the start of an evaluation (R111, R120). -/
structure EvalInputs where
  joint : Joint
  cls : ClassEntry
  zero : Nat
  gain : Nat
  samples : Nat
  firstLine : Word
deriving DecidableEq, Repr

/-- What a BUSY unit holds. `inputs` is absent only in states no run reaches (log entry 15). -/
structure Evaluation where
  item : WorkItem
  spoiled : Bool
  discard : Bool
  inputs : Option EvalInputs
deriving DecidableEq, Repr

/-! ### The Link Port (09) -/

/-- A request of the inbox (R174); `marked` by RESTART (R184). -/
structure Request where
  kind : Byte
  tag : Byte
  payload : List Byte
  marked : Bool
deriving DecidableEq, Repr

/-- A reply of the outbox (R174). -/
structure Reply where
  kind : Byte
  tag : Byte
  payload : List Byte
deriving DecidableEq, Repr

/-- The receiver (09, section 9.2): the bytes of the frame in course, in the order received. The bytes still due
follow from them. -/
inductive Receiver where
  | hunt
  | header (got : List Byte)
  | body (lenLo lenHi kind tag : Byte) (got : List Byte)
deriving DecidableEq, Repr

/-- The transmitter (R166), with the frame being sent. -/
inductive Transmitter where
  | idle
  | sending (frame : List Byte)
deriving DecidableEq, Repr

/-- The bit rates, in Mbit/s (R164). -/
inductive BitRate where
  | mbit1
  | mbit2
  | mbit4
deriving DecidableEq, Repr

/-- The Link Port. `lastByteAt` is when the last byte of the frame in course was taken, from which the inter-byte time
runs (R171; log entry 4). `holdOut` and `holdIn` hold whether the line is asserted (low). `sent` holds the frames sent
whole on LNK_TX since power-on, oldest first (log entry 10). -/
structure LinkPort where
  bitRate : BitRate
  receiver : Receiver
  lastByteAt : Nat
  transmitter : Transmitter
  inbox : List Request
  outbox : List Reply
  holdOut : Bool
  holdIn : Bool
  linkFraming : Bool
  timeout : Bool
  rejectsDropped : Bool
  sent : List (List Byte)
deriving DecidableEq, Repr

/-- The strap coding (R164). -/
def BitRate.ofStraps (lrate1 lrate0 : Bool) : BitRate :=
  match lrate1, lrate0 with
  | false, false => .mbit1
  | false, true => .mbit2
  | true, false => .mbit4
  | true, true => .mbit4

/-- The Link Port after power-on (R187); HOLD_IN is an input and keeps its level. -/
def LinkPort.powerOn (rate : BitRate) (holdIn : Bool) : LinkPort :=
  { bitRate := rate, receiver := .hunt, lastByteAt := 0, transmitter := .idle, inbox := [], outbox := [],
    holdOut := false, holdIn := holdIn, linkFraming := false, timeout := false, rejectsDropped := false, sent := [] }

/-! ### The part -/

/-- The state of the part and the queue of commands waiting. `due` is the Lane Trackers' due count of each head
(R14); `pointer` the round-robin pointer (R109); `now` the present time in microseconds (log entry 4); `freeCount`
numbers the free values used (log entry 3). -/
structure State where
  lanes : Pair LaneState
  heads : Quad HeadPort
  due : Quad Nat
  cal : Quad CalRecord
  slots : Quad RecipeSlot
  pointer : Lane
  units : Quad (Option Evaluation)
  verdicts : VerdictUnit
  link : LinkPort
  resetAsserted : Bool
  now : Nat
  freeCount : Nat
  pending : List Instr
deriving DecidableEq, Repr

/-- The state after power-on with the sampled levels, RESET_N deasserted (R19, R42, R67, R84, R102, R119, R159,
R187). -/
def State.powerOn (pins : PowerOnPins) : State :=
  { lanes := ⟨LaneState.powerOn pins.encAP pins.encAQ pins.eyeA, LaneState.powerOn pins.encBP pins.encBQ pins.eyeB⟩,
    heads := Quad.all HeadPort.powerOn,
    due := Quad.all 0,
    cal := Quad.all CalRecord.powerOn,
    slots := Quad.all RecipeSlot.empty,
    pointer := .a,
    units := Quad.all none,
    verdicts := { queue := [], parked := [], dropped := 0 },
    link := LinkPort.powerOn (BitRate.ofStraps pins.lrate1 pins.lrate0) false,
    resetAsserted := false,
    now := 0,
    freeCount := 0,
    pending := [] }

/-- The levels State.reset takes at its inputs: straps low, encoder pairs at 00, eyes clear. DESIGN CHOICE, unsafe
(log entry 6). -/
def resetPins : PowerOnPins :=
  { lrate1 := false, lrate0 := false, encAP := false, encAQ := false, encBP := false, encBQ := false, eyeA := false,
    eyeB := false }

/-- The machine right after reset. -/
def State.reset : State := State.powerOn resetPins

/-- The part has no fault that stops it: the spec gives every bad input an effect, so no step answers a fault (safe). -/
inductive Fault where
deriving DecidableEq, Repr

/-- Why a step has no meaning. -/
inductive Refusal where
  /-- Raised by a row whose meaning is not modelled; no arm of exec raises it (safe). -/
  | notModelled (mnemonic : String)
deriving DecidableEq, Repr

/-- One command's outcome. -/
abbrev Result := Host.Outcome State Fault Refusal

end Sys2Proof.Machine
end

