-- ==== Sys2Proof/Machine/Codec.lean ====
section
/-!
DEFINITION. Numbers as bytes and bytes as numbers (09, R188: low byte first, two's complement where signed), the check
byte of Control Link frames (R167), the CRC-16 of head link frames (03, section 3.6; R188), the frame of a reply
(09, section 9.9) and the alignment frame (03, R46).
-/

namespace Sys2Proof.Machine

/-- The low byte of a number. -/
def byteOf (n : Nat) : Byte := BitVec.ofNat 8 n

/-- A number in two bytes, low byte first (R188). -/
def le16 (n : Nat) : List Byte := [byteOf n, byteOf (n / 256)]

/-- A number in three bytes, low byte first (R188). -/
def le24 (n : Nat) : List Byte := [byteOf n, byteOf (n / 256), byteOf (n / 65536)]

/-- A number in four bytes, low byte first (R188). -/
def le32 (n : Nat) : List Byte := [byteOf n, byteOf (n / 256), byteOf (n / 65536), byteOf (n / 16777216)]

/-- A yes/no or present/absent byte. -/
def flagByte (b : Bool) : Byte := if b then 1 else 0

/-- A signed number in one byte, two's complement (R188). -/
def signed8 (z : Int) : List Byte := [BitVec.ofInt 8 z]

/-- A signed number in two bytes, two's complement, low byte first (R188). -/
def signed16 (z : Int) : List Byte := le16 (BitVec.ofInt 16 z).toNat

/-- The unsigned number of some bytes, low byte first (R188). -/
def leNat : List Byte → Nat
  | [] => 0
  | b :: bs => b.toNat + 256 * leNat bs

/-- The field of `len` bytes that begins at byte `off` of a payload. -/
def fieldAt (bytes : List Byte) (off len : Nat) : Nat := leNat ((bytes.drop off).take len)

/-- One bit of the CRC-8 of R167: generator x^8 + x^2 + x + 1, most significant bit first. -/
def crc8Bit (c : Byte) : Byte := if c.msb then (c <<< 1) ^^^ 0x07 else c <<< 1

/-- One byte of the CRC-8 of R167. -/
def crc8Byte (c b : Byte) : Byte := (Nat.repeat crc8Bit 8) (c ^^^ b)

/-- The CRC-8 of R167: the register starts at 0, nothing reflected or inverted. -/
def crc8 (bytes : List Byte) : Byte := bytes.foldl crc8Byte 0

/-- One bit of the CRC-16 of R188: x^16 + x^12 + x^5 + 1, most significant bit first. -/
def crc16Bit (c : Half) : Half := if c.msb then (c <<< 1) ^^^ 0x1021 else c <<< 1

/-- One 16-bit word of the CRC-16 of R188, high byte first: the same as its sixteen bits, most significant first. -/
def crc16Word (c w : Half) : Half := (Nat.repeat crc16Bit 16) (c ^^^ w)

/-- The CRC-16 of R188: the register starts at 0xFFFF, nothing reflected or inverted. -/
def crc16 (words : List Half) : Half := words.foldl crc16Word 0xFFFF

/-- The sync byte of a Control Link frame (09, section 9.2). -/
def syncByte : Byte := 0xC6

/-- The whole frame of a reply (09, section 9.9, table Frame). -/
def frameOf (r : Reply) : List Byte :=
  let covered := le16 r.payload.length ++ [r.kind, r.tag] ++ r.payload
  syncByte :: covered ++ [crc8 covered]

/-- The sync word of a profile frame (R188). -/
def syncWord : Half := 0x7E81

/-- A profile frame: sync, index field, sample count, samples, CRC-16 (R188). -/
def profileWords (index : Half) (samples : List Half) : List Half :=
  let covered := index :: BitVec.ofNat 16 samples.length :: samples
  syncWord :: covered ++ [crc16 covered]

/-- The 64 alternating words of the alignment frame (R46). -/
def alignmentSamples : List Half := (List.replicate 32 [(0x5A3C : Half), 0xC3A5]).flatten

/-- The alignment frame (R46, R188). -/
def alignmentWords : List Half := profileWords 0xFFFF alignmentSamples

/-- The line trigger message (R46, R188). -/
def triggerMessage (t : Word) : List Half := [0xA001, BitVec.ofNat 16 t.toNat]

/-- The alignment start message (R46, R188). -/
def alignStartMessage : List Half := [0xA002]

/-- The alignment stop message (R46, R188). -/
def alignStopMessage : List Half := [0xA003]

end Sys2Proof.Machine
end

