-- ==== Sys2Proof/Machine/Ring.lean ====
section
/-!
DEFINITION. The line ring of a head (03, section 3.7): 1024 slots, held as the list of the slots that hold a line, in
rising slot number. A slot that is not listed is empty.
-/

namespace Sys2Proof.Machine

/-- The slot of line t (R58). -/
def slotOf (t : Word) : Nat := t.toNat % Config.ringSlots

/-- What a slot holds. -/
def Ring.get : Ring → Nat → Option Line
  | [], _ => none
  | (k, x) :: r, n => if n = k then some x else if n < k then none else Ring.get r n

/-- Put a line into a slot. -/
def Ring.put : Ring → Nat → Line → Ring
  | [], n, x => [(n, x)]
  | (k, y) :: r, n, x =>
    if n < k then (n, x) :: (k, y) :: r
    else if n = k then (n, x) :: r
    else (k, y) :: Ring.put r n x

/-- The slot numbers rise strictly, from a bound on. -/
def Ring.risingFrom : Nat → Ring → Bool
  | _, [] => true
  | lo, (k, _) :: r => decide (lo ≤ k) && decide (k < Config.ringSlots) && Ring.risingFrom (k + 1) r

/-- The canonical form: slot numbers strictly rising and below 1024. Every listed slot holds a line, and an unlisted
slot is empty, so equal rings are equal lists. -/
def Ring.wf (r : Ring) : Bool := Ring.risingFrom 0 r

/-- What a read of a line returns (R59). -/
inductive LineRead where
  | good (samples : List Nat)
  | missed
  | pending
  | notHeld
deriving DecidableEq, Repr

/-- A read of line t looks at slot t mod 1024 (R59). -/
def Ring.read (r : Ring) (t : Word) : LineRead :=
  match Ring.get r (slotOf t) with
  | none => .notHeld
  | some x =>
    if x.index = t then
      match x.status with
      | .good samples => .good samples
      | .missed => .missed
      | .pending => .pending
    else .notHeld

/-- Line t settles: its slot, if it holds line t, takes the status (R58). -/
def Ring.settle (r : Ring) (t : Word) (st : LineStatus) : Ring :=
  match Ring.get r (slotOf t) with
  | none => r
  | some x => if x.index = t then Ring.put r (slotOf t) { x with status := st } else r

end Sys2Proof.Machine
end

