-- ==== Sys2Proof/Machine/Ops.lean ====
section
/-!
DEFINITION. The shared operations: reading and changing one block of the state, comparing positions, takings in a free
order, and the inbox and outbox (09, R165, R173 to R178).
-/

namespace Sys2Proof.Machine

namespace State

/-! ### One home for each block: reads and updates -/

def lane (s : State) (l : Lane) : LaneState := s.lanes.get l

def head (s : State) (h : HeadId) : HeadPort := s.heads.get h

def calOf (s : State) (h : HeadId) : CalRecord := s.cal.get h

def slot (s : State) (n : SlotId) : RecipeSlot := s.slots.get n

def unitOf (s : State) (u : UnitId) : Option Evaluation := s.units.get u

def dueOf (s : State) (h : HeadId) : Nat := s.due.get h

def updLane (l : Lane) (f : LaneState → LaneState) (s : State) : State :=
  { s with lanes := s.lanes.set l (f (s.lane l)) }

def updHead (h : HeadId) (f : HeadPort → HeadPort) (s : State) : State :=
  { s with heads := s.heads.set h (f (s.head h)) }

def updCal (h : HeadId) (f : CalRecord → CalRecord) (s : State) : State :=
  { s with cal := s.cal.set h (f (s.calOf h)) }

def updSlot (n : SlotId) (f : RecipeSlot → RecipeSlot) (s : State) : State :=
  { s with slots := s.slots.set n (f (s.slot n)) }

def setDue (h : HeadId) (n : Nat) (s : State) : State :=
  { s with due := s.due.set h n }

def setUnit (u : UnitId) (e : Option Evaluation) (s : State) : State :=
  { s with units := s.units.set u e }

/-- The same change to every BUSY unit. -/
def mapUnits (f : Evaluation → Evaluation) (s : State) : State :=
  { s with units := s.units.map (Option.map f) }

def updLink (f : LinkPort → LinkPort) (s : State) : State :=
  { s with link := f s.link }

def setVerdicts (v : VerdictUnit) (s : State) : State :=
  { s with verdicts := v }

def setPointer (l : Lane) (s : State) : State :=
  { s with pointer := l }

/-- The present time is at least this (log entry 4). -/
def atLeast (t : Nat) (s : State) : State :=
  { s with now := max s.now t }

end State

/-! ### Positions and spans (00_scope 4.1, R73) -/

/-- A position moved on by a number of counts, modulo 2^32. -/
def ahead (p : Word) (n : Nat) : Word := p + BitVec.ofNat 32 n

/-- Position (or line) `p` is reached at `pos`: (pos − p) mod 2^32 is below 2^31 (00_scope 4.1, R105). -/
def reached (pos p : Word) : Bool := decide ((pos - p).toNat < 2147483648)

/-- Position `p` lies below `q`: (q − p) mod 2^32 is non-zero and below 2^31 (00_scope 4.1). -/
def liesBelow (p q : Word) : Bool := decide (q - p ≠ 0) && decide ((q - p).toNat < 2147483648)

/-- The closed range a..b covers x: (x − a) mod 2^32 does not exceed (b − a) mod 2^32 (R73, R112). -/
def inRange (a b x : Word) : Bool := decide ((x - a).toNat ≤ (b - a).toNat)

/-! ### Takings between which no order is defined -/

/-- Take each of some waiting takings once, in an order no rule defines: each open choice is a free value (log entry
3). A single waiting taking leaves no choice. -/
def takeInAnyOrder {α : Type} (f : α → State → State) : Nat → List α → State → State
  | 0, _, s => s
  | _ + 1, [], s => s
  | _ + 1, [a], s => f a s
  | n + 1, a :: b :: rest, s =>
    let waiting := a :: b :: rest
    let k := Config.freeOrder s.freeCount % waiting.length
    let s' := { s with freeCount := s.freeCount + 1 }
    match waiting[k]? with
    | none => s'
    | some x => takeInAnyOrder f n (waiting.eraseIdx k) (f x s')

/-- All of some waiting takings, in a free order. -/
def takeAll {α : Type} (f : α → State → State) (waiting : List α) (s : State) : State :=
  takeInAnyOrder f waiting.length waiting s

/-! ### Service -/

/-- A command that has effect only while RESET_N is deasserted (R187; log entry 7). -/
def inService (f : State → State) (s : State) : Result :=
  .next (if s.resetAsserted then s else f s)

/-! ### Replies (R174, R175, R178) -/

/-- The refusal codes (09, section 9.9). -/
inductive RefusalCode where
  | length
  | kind
  | state
  | range
  | full
  | order
  | notFound
  | busy
  | mismatch
  | geometry
  | duplicate
  | incomplete
  | tooLate
  | restarted
deriving DecidableEq, Repr

def RefusalCode.code : RefusalCode → Byte
  | .length => 1
  | .kind => 2
  | .state => 3
  | .range => 4
  | .full => 5
  | .order => 6
  | .notFound => 7
  | .busy => 8
  | .mismatch => 9
  | .geometry => 10
  | .duplicate => 11
  | .incomplete => 12
  | .tooLate => 13
  | .restarted => 14

/-- The REJECT codes (09, section 9.9). -/
inductive RejectCode where
  | check
  | length
  | full
deriving DecidableEq, Repr

def RejectCode.code : RejectCode → Byte
  | .check => 1
  | .length => 2
  | .full => 3

/-- The kinds of requests (09, section 9.9, table Requests). -/
def kindDescribe : Byte := 0x01
def kindStatus : Byte := 0x02
def kindRestart : Byte := 0x03
def kindLaneSetup : Byte := 0x04
def kindLaneStart : Byte := 0x05
def kindLaneStop : Byte := 0x06
def kindExpect : Byte := 0x07
def kindWithdraw : Byte := 0x08
def kindHeadSetup : Byte := 0x09
def kindHeadAlign : Byte := 0x0A
def kindCalRequest : Byte := 0x0B
def kindRecipeOpen : Byte := 0x0C
def kindRecipeClasses : Byte := 0x0D
def kindRecipeJoints : Byte := 0x0E
def kindRecipeClose : Byte := 0x0F
def kindRecipeRetire : Byte := 0x10
def kindRecipeQuery : Byte := 0x11
def kindCollect : Byte := 0x12

/-- One of the 18 request kinds (R177). -/
def knownKind (k : Byte) : Bool := decide (1 ≤ k.toNat) && decide (k.toNat ≤ 18)

/-- A DONE reply: the request's kind, then the result (09, section 9.9). -/
def doneReply (kind tag : Byte) (result : List Byte) : Reply :=
  { kind := 0x80, tag := tag, payload := kind :: result }

/-- A REFUSED reply: the request's kind, the code, then the detail (09, section 9.9). -/
def refusedReply (kind tag : Byte) (code : RefusalCode) (detail : List Byte) : Reply :=
  { kind := 0x81, tag := tag, payload := kind :: code.code :: detail }

/-- A REJECT: the code and the kind byte received, under the tag received (R173). -/
def rejectReply (kind tag : Byte) (code : RejectCode) : Reply :=
  { kind := 0x82, tag := tag, payload := [code.code, kind] }

/-- A reply joins the back of the outbox (R175). -/
def placeReply (r : Reply) (s : State) : State :=
  s.updLink fun k => { k with outbox := k.outbox ++ [r] }

def replyDone (kind tag : Byte) (result : List Byte) (s : State) : State :=
  placeReply (doneReply kind tag result) s

def replyRefused (kind tag : Byte) (code : RefusalCode) (detail : List Byte) (s : State) : State :=
  placeReply (refusedReply kind tag code detail) s

/-- Whether a head's sweep is running, so that its HEAD_ALIGN is owed a reply (R47). -/
def HeadPort.sweeping (h : HeadPort) : Bool :=
  match h.mode with
  | .aligning _ => true
  | .unaligned => false
  | .aligned => false

/-- Whether a slot is CLOSING, so that its RECIPE_CLOSE is owed a reply (R92). -/
def RecipeSlot.isClosing (n : RecipeSlot) : Bool := decide (n.state = .closing)

/-- The places reserved for replies that lasting work still owes: parked COLLECTs, sweeps, closes (R175). -/
def reservedPlaces (s : State) : Nat :=
  s.verdicts.parked.length + (Four.all.filter fun h => (s.head h).sweeping).length
    + (Four.all.filter fun n => (s.slot n).isClosing).length

/-- Free places: 16 minus the replies held minus the places reserved (R175). -/
def freePlaces (s : State) : Nat := Config.outboxDepth - s.link.outbox.length - reservedPlaces s

/-- A REJECT is placed if the outbox has a free place, else REJECTS_DROPPED is set (R173). -/
def offerReject (kind tag : Byte) (code : RejectCode) (s : State) : State :=
  if 0 < freePlaces s then placeReply (rejectReply kind tag code) s
  else s.updLink fun k => { k with rejectsDropped := true }

/-! ### The inbox (R165, R174, R176) -/

/-- HOLD_OUT by the inbox level: asserted at 6 or more, deasserted at 4 or fewer, kept at 5 (R165). -/
def holdLevel (level : Nat) (before : Bool) : Bool :=
  if 6 ≤ level then true else if level ≤ 4 then false else before

/-- The inbox takes a new content and HOLD_OUT follows its level (R165). -/
def LinkPort.withInbox (k : LinkPort) (inbox : List Request) : LinkPort :=
  { k with inbox := inbox, holdOut := holdLevel inbox.length k.holdOut }

/-- The request handler takes the oldest request of the inbox, if it is the one this row stands for and the outbox has
a free place, and acts on it in the same taking; the place reserved is that of the reply `act` places, or of the
lasting work it starts (R176). Otherwise the taking does not arise (log entry 1). -/
def takeRequest (wanted : Request → Bool) (act : Request → State → State) (s : State) : State :=
  match s.link.inbox with
  | [] => s
  | r :: rest =>
    if wanted r && decide (0 < freePlaces s) then act r (s.updLink fun k => k.withInbox rest) else s

end Sys2Proof.Machine
end

