-- ==== Sys2Proof/Machine/Divert.lean ====
section
/-! DEFINITION. The divert output of a lane (08, section 8.7; R160 to R162). -/

namespace Sys2Proof.Machine

/-- Deasserted only while the lane is RUNNING or STOPPING, FLOOD is clear, and no record in its gate window has divert
decision yes (R160). -/
def divertLevel (x : LaneState) : Bool :=
  decide (x.mode = .disabled) || x.flood
    || x.transit.any fun r => r.inWindow && decide (r.divertDecision = some true)

/-- The output takes the level that R160 gives (R161). -/
def LaneState.reevaluate (x : LaneState) : LaneState := { x with divert := divertLevel x }

def reevaluate (l : Lane) (s : State) : State := s.updLane l LaneState.reevaluate

end Sys2Proof.Machine
end

