-- ==== Sys2Proof/Machine/Operands.lean ====
section
/-!
DEFINITION. The operands of requests: the payload layouts of 09, section 9.9 read as settings, headers, class entries
and joint records (R188, R189), the ranges each field is accepted in (01, 1.3; 03, 3.2; 05, 5.1), the payload length
check of the request handler (R177), and the stored settings written back as bytes.
-/

namespace Sys2Proof.Machine

/-! ### Names coded in one byte -/

/-- A lane code: 0 lane A, 1 lane B (R188). -/
def laneOf? : Nat → Option Lane
  | 0 => some .a
  | 1 => some .b
  | _ => none

/-- A HEAD_SETUP lane code, with 2 for NONE (R188): none where the code names nothing. -/
def headLaneOf? : Nat → Option (Option Lane)
  | 0 => some (some .a)
  | 1 => some (some .b)
  | 2 => some none
  | _ => none

def laneCode : Lane → Byte
  | .a => 0
  | .b => 1

def headLaneCode : Option Lane → Byte
  | some l => laneCode l
  | none => 2

/-- stale_policy: 0 REPORT, 1 DEMOTE (R188). -/
def stalePolicyOf? : Nat → Option StalePolicy
  | 0 => some .report
  | 1 => some .demote
  | _ => none

def stalePolicyCode : StalePolicy → Byte
  | .report => 0
  | .demote => 1

/-- A number within a range, both ends included (00_scope 4.3). -/
def within (lo hi n : Nat) : Bool := decide (lo ≤ n) && decide (n ≤ hi)

/-- Clamped into a range (00_scope 4.4). -/
def clampTo (lo hi n : Nat) : Nat := max lo (min hi n)

/-! ### Lane settings (LANE_SETUP, kind 0x04) -/

/-- The lane settings of a LANE_SETUP payload, clamped where R5 clamps; none if stale_policy names no policy. -/
def readLaneSettings (p : List Byte) : Option LaneSettings :=
  (stalePolicyOf? (fieldAt p 18 1)).map fun policy =>
    { lineStep := fieldAt p 1 1
      dScan := fieldAt p 2 4
      dGate := fieldAt p 6 4
      gateLead := fieldAt p 10 2
      gateTail := clampTo 0 4095 (fieldAt p 12 2)
      minBoard := fieldAt p 14 4
      stalePolicy := policy
      idleCalGap := clampTo 64 4096 (fieldAt p 19 2) }

/-- Checks 3 to 7 of R5. -/
def LaneSettings.inRanges (st : LaneSettings) : Bool :=
  within 1 64 st.lineStep && within (16 * st.lineStep) 1048575 st.dScan && within 1 65535 st.gateLead
    && within (st.dScan + st.gateLead + 1) 16777215 st.dGate && within 1 st.dScan st.minBoard

/-- The 21 bytes of LANE_SETUP as stored after clamping (R5; 09, section 9.9). -/
def laneSettingsBytes (l : Lane) (st : LaneSettings) : List Byte :=
  [laneCode l, byteOf st.lineStep] ++ le32 st.dScan ++ le32 st.dGate ++ le16 st.gateLead ++ le16 st.gateTail
    ++ le32 st.minBoard ++ [stalePolicyCode st.stalePolicy] ++ le16 st.idleCalGap

/-! ### Head settings (HEAD_SETUP, kind 0x09) -/

/-- The head settings of a HEAD_SETUP payload whose lane code names `lane`. -/
def readHeadSettings (lane : Option Lane) (p : List Byte) : HeadSettings :=
  { lane := lane
    laneOrder := fieldAt p 2 1
    samples := fieldAt p 3 2
    zeroCol := fieldAt p 5 2
    stepCol := fieldAt p 7 2
    stepHeight := fieldAt p 9 2
    nominalGain := fieldAt p 11 2
    calInterval := fieldAt p 13 4
    initialZero := fieldAt p 17 2
    initialGain := fieldAt p 19 2 }

/-- Check 5 of R43: the ranges of 03, section 3.2. -/
def HeadSettings.inRanges (st : HeadSettings) : Bool :=
  within 0 1 st.laneOrder && within 64 1024 st.samples && within 0 1008 st.zeroCol && within 0 1008 st.stepCol
    && within 100 4000 st.stepHeight && within 1 1023 st.nominalGain && within 1000 1000000 st.calInterval
    && within 0 4094 st.initialZero && within 1 1023 st.initialGain

/-- Check 6 of R43: both 16-column regions lie within the line and share no column. -/
def HeadSettings.regionsFit (st : HeadSettings) : Bool :=
  decide (st.zeroCol + 16 ≤ st.samples) && decide (st.stepCol + 16 ≤ st.samples)
    && (decide (st.zeroCol + 16 ≤ st.stepCol) || decide (st.stepCol + 16 ≤ st.zeroCol))

/-- The 21 bytes of HEAD_SETUP as stored (R44; 09, section 9.9). -/
def headSettingsBytes (h : HeadId) (st : HeadSettings) : List Byte :=
  [byteOf h.toNat, headLaneCode st.lane, byteOf st.laneOrder] ++ le16 st.samples ++ le16 st.zeroCol ++ le16 st.stepCol
    ++ le16 st.stepHeight ++ le16 st.nominalGain ++ le32 st.calInterval ++ le16 st.initialZero ++ le16 st.initialGain

/-! ### Recipe headers (RECIPE_OPEN, kind 0x0C) -/

def readHeader (p : List Byte) : Header :=
  { jointCount := fieldAt p 1 2
    classCount := fieldAt p 3 1
    boardLines := fieldAt p 4 2
    lineStep := fieldAt p 6 1
    lengthTol := fieldAt p 7 2
    headsUsed := fieldAt p 9 1 }

/-- Check 2 of R89: the ranges of 05, table Header. -/
def Header.inRanges (h : Header) : Bool :=
  within 1 8192 h.jointCount && within 1 16 h.classCount && within 1 65535 h.boardLines && within 1 64 h.lineStep
    && within 0 65535 h.lengthTol && within 1 2 h.headsUsed

/-- The nine header bytes, in the order of RECIPE_OPEN and RECIPE_QUERY (09, section 9.9). -/
def headerBytes (h : Header) : List Byte :=
  le16 h.jointCount ++ [byteOf h.classCount] ++ le16 h.boardLines ++ [byteOf h.lineStep] ++ le16 h.lengthTol
    ++ [byteOf h.headsUsed]

/-! ### Class entries (RECIPE_CLASSES, kind 0x0D) -/

def readClass (b : List Byte) : ClassEntry :=
  { vmin := fieldAt b 0 3
    vmax := fieldAt b 3 3
    pmax := fieldAt b 6 2
    wetHeight := fieldAt b 8 2
    cmin := fieldAt b 10 2
    validMin := fieldAt b 12 2
    hclamp := fieldAt b 14 2 }

/-- The 16 bytes of a class entry (09, table Class entry). -/
def classBytes (c : ClassEntry) : List Byte :=
  le24 c.vmin ++ le24 c.vmax ++ le16 c.pmax ++ le16 c.wetHeight ++ le16 c.cmin ++ le16 c.validMin ++ le16 c.hclamp

/-- The class entries of a payload of `k` entries, 16 bytes each, entry 0 first (R189). -/
def readClasses : Nat → List Byte → List ClassEntry
  | 0, _ => []
  | k + 1, bs => readClass (bs.take 16) :: readClasses k (bs.drop 16)

/-- Check 3 of R90: the ranges of 05, table Class entry. -/
def ClassEntry.inRanges (c : ClassEntry) : Bool :=
  within 0 16384000 c.vmin && within 0 16384000 c.vmax && within 1 4000 c.pmax && within 1 4000 c.wetHeight
    && within 0 1000 c.cmin && within 0 1000 c.validMin && within 1 4000 c.hclamp

/-! ### Joint records (RECIPE_JOINTS, kind 0x0E) -/

/-- A joint record as received: the gap presence byte and the record (R189). -/
structure WireJoint where
  presence : Nat
  joint : Joint
deriving DecidableEq, Repr

/-- One joint record: the 12-byte base part, and the gap part where byte 2 is not 0 (R189). -/
def readJoint (b : List Byte) : WireJoint :=
  let presence := fieldAt b 2 1
  { presence := presence
    joint :=
      { jointId := fieldAt b 0 2
        head := fieldAt b 3 1
        cls := fieldAt b 4 1
        margin := fieldAt b 5 1
        col0 := fieldAt b 6 2
        ncols := fieldAt b 8 1
        row0 := fieldAt b 9 2
        nrows := fieldAt b 11 1
        gap :=
          if presence = 0 then none
          else
            some
              { gcol0 := fieldAt b 12 2
                gncols := fieldAt b 14 1
                grow0 := fieldAt b 15 2
                gnrows := fieldAt b 17 1
                bridgeHeight := fieldAt b 18 2
                bridgeCount := fieldAt b 20 2 } } }

/-- The bytes of a joint record (09, table Joint record). -/
def jointBytes (j : Joint) : List Byte :=
  le16 j.jointId ++ [flagByte j.gap.isSome, byteOf j.head, byteOf j.cls, byteOf j.margin] ++ le16 j.col0
    ++ [byteOf j.ncols] ++ le16 j.row0 ++ [byteOf j.nrows]
    ++ match j.gap with
      | none => []
      | some g =>
        le16 g.gcol0 ++ [byteOf g.gncols] ++ le16 g.grow0 ++ [byteOf g.gnrows] ++ le16 g.bridgeHeight
          ++ le16 g.bridgeCount

/-- The length of the record that begins here: 12 bytes, or 22 where byte 2 is not 0 (R189). -/
def jointSize (bs : List Byte) : Nat := if fieldAt bs 2 1 = 0 then 12 else 22

/-- The records of a payload, back to back to its end; none if the last would run beyond it (R189). The first argument
bounds the number of records. -/
def readJoints : Nat → List Byte → Option (List WireJoint)
  | _, [] => some []
  | 0, _ :: _ => none
  | n + 1, b :: bs =>
    let bytes := b :: bs
    if bytes.length < jointSize bytes then none
    else (readJoints n (bytes.drop (jointSize bytes))).map (readJoint bytes :: ·)

/-- The joint records after the slot and first index of a RECIPE_JOINTS payload (R189). -/
def payloadJoints (p : List Byte) : Option (List WireJoint) := readJoints p.length (p.drop 3)

def GapPart.inRanges (g : GapPart) : Bool :=
  within 0 1023 g.gcol0 && within 1 64 g.gncols && within 0 65535 g.grow0 && within 1 64 g.gnrows
    && within 1 4000 g.bridgeHeight && within 1 4096 g.bridgeCount

/-- The ranges of 05, table Joint record. -/
def Joint.inRanges (j : Joint) : Bool :=
  within 1 65535 j.jointId && within 0 1 j.head && within 0 15 j.cls && within 1 8 j.margin && within 0 1023 j.col0
    && within 1 64 j.ncols && within 0 65535 j.row0 && within 1 64 j.nrows
    && match j.gap with
      | none => true
      | some g => g.inRanges

/-- Check 4 of R91, with the gap presence 0 or 1 (R189). -/
def WireJoint.inRanges (w : WireJoint) : Bool := within 0 1 w.presence && w.joint.inRanges

/-! ### The payload length check (R177) -/

/-- The fixed payload length of a kind that has one (09, table Requests). -/
def fixedLength (kind : Byte) : Option Nat :=
  match kind.toNat with
  | 0x01 => some 0
  | 0x02 => some 3
  | 0x03 => some 0
  | 0x04 => some 21
  | 0x05 => some 1
  | 0x06 => some 2
  | 0x07 => some 6
  | 0x08 => some 5
  | 0x09 => some 21
  | 0x0A => some 1
  | 0x0B => some 1
  | 0x0C => some 10
  | 0x0F => some 1
  | 0x10 => some 1
  | 0x11 => some 1
  | 0x12 => some 0
  | _ => none

/-- Whether the payload length is right for a known kind (check 2 of R177). -/
def lengthOk (kind : Byte) (p : List Byte) : Bool :=
  match fixedLength kind with
  | some n => decide (p.length = n)
  | none =>
    if kind = kindRecipeClasses then decide (p.length % 16 = 1) && within 17 257 p.length
    else if kind = kindRecipeJoints then decide (3 ≤ p.length) && (payloadJoints p).isSome
    else false

/-- A taken request of a known kind: refused LENGTH if its payload length is wrong (R177), else handed to the block
that owns it, as `body` (R178). -/
def checkedRequest (body : Byte → List Byte → State → State) (r : Request) (s : State) : State :=
  if lengthOk r.kind r.payload then body r.tag r.payload s else replyRefused r.kind r.tag .length [] s

/-- The taking of an unmarked request of one kind (R176 to R178). -/
def takeKind (kind : Byte) (body : Byte → List Byte → State → State) (s : State) : State :=
  takeRequest (fun r => !r.marked && decide (r.kind = kind)) (checkedRequest body) s

/-- The taking of an unmarked request of one kind whose byte 0 or 1 says which row it is: STATUS by its target kind
(byte 0), LANE_STOP by its mode (byte 1). A request of a wrong length, or whose byte names no row, is taken by any row
of its kind (log entry 21). -/
def takeVariant (kind : Byte) (at' code limit : Nat) (body : Byte → List Byte → State → State) (s : State) : State :=
  takeRequest
    (fun r => !r.marked && decide (r.kind = kind)
      && (!lengthOk kind r.payload || decide (fieldAt r.payload at' 1 = code)
        || decide (limit ≤ fieldAt r.payload at' 1)))
    (checkedRequest body) s

end Sys2Proof.Machine
end

