-- ==== Sys2Proof/Machine/Flags.lean ====
section
/-!
DEFINITION. The flag bytes of the status records (09, section 9.9), and the clear sets of STATUS: which flags a clear
set may name (R18, R66, R181, R182), and what it clears.
-/

namespace Sys2Proof.Machine

/-- Flags as a byte, the first in bit 0 (R188). -/
def packFlags : List Bool → Byte
  | [] => 0
  | b :: bs => (if b then 1 else 0) + 2 * packFlags bs

/-- Whether a clear set names the flag of this bit. -/
def names (clear : Byte) (bit : Nat) : Bool := clear.getLsbD bit

/-- A clear set that names only flags of these bits (R181). -/
def namesOnly (clear : Byte) (bits : List Nat) : Bool := (List.range 8).all fun k => !names clear k || bits.contains k

/-- A sticky flag after a clear set: cleared if named, else kept (R18, R66, R182). -/
def clearedBy (clear : Byte) (bit : Nat) (flag : Bool) : Bool := flag && !names clear bit

/-! ### Lane flags: bit 0 FLOOD (live), bit 1 REVERSED, bit 2 ENCODER_FAULT -/

def laneFlagByte (x : LaneState) : Byte := packFlags [x.flood, x.reversed, x.encoderFault]

def laneSticky : List Nat := [1, 2]

def LaneState.clearFlags (clear : Byte) (x : LaneState) : LaneState :=
  { x with reversed := clearedBy clear 1 x.reversed, encoderFault := clearedBy clear 2 x.encoderFault }

/-! ### Head flags: bits 0..4 FRAMING, CHECK, STRAY, SKIPPED, MISSED; 5 SILENT, 6 OVERDUE, 7 CAL_FAULTED (live) -/

def headFlagByte (h : HeadPort) (c : CalRecord) : Byte :=
  packFlags [h.framing, h.check, h.stray, h.skipped, h.missed, h.silent, c.overdue, c.calFaulted]

def headSticky : List Nat := [0, 1, 2, 3, 4]

def HeadPort.clearFlags (clear : Byte) (h : HeadPort) : HeadPort :=
  { h with
    framing := clearedBy clear 0 h.framing
    check := clearedBy clear 1 h.check
    stray := clearedBy clear 2 h.stray
    skipped := clearedBy clear 3 h.skipped
    missed := clearedBy clear 4 h.missed }

/-! ### Link flags: bit 0 LINK_FRAMING, 1 TIMEOUT, 2 REJECTS_DROPPED -/

def linkFlagByte (k : LinkPort) : Byte := packFlags [k.linkFraming, k.timeout, k.rejectsDropped]

def linkSticky : List Nat := [0, 1, 2]

def LinkPort.clearFlags (clear : Byte) (k : LinkPort) : LinkPort :=
  { k with
    linkFraming := clearedBy clear 0 k.linkFraming
    timeout := clearedBy clear 1 k.timeout
    rejectsDropped := clearedBy clear 2 k.rejectsDropped }

/-! ### Board flags: bit 0 CAL_STALE, 1 LINES_LOST, 2 LENGTH_MISMATCH, 3 NO_RECIPE, 4 ABANDONED -/

def boardFlagByte (f : BoardFlags) : Byte :=
  packFlags [f.calStale, f.linesLost, f.lengthMismatch, f.noRecipe, f.abandoned]

end Sys2Proof.Machine
end

