-- ==== Sys2Proof/Machine/HeadPort.lean ====
section
/-!
DEFINITION. One Head Port on its own (03): the settled front, what a lane trigger, a timeout, an accepted frame and a
lane stop do to it, the check of a profile frame, and the alignment sweep. Each change answers the notices the Head
Port sends to the other blocks.
-/

namespace Sys2Proof.Machine

/-- What a Head Port reports: a MISSED settling to the Verdict Unit (R61), an eviction to the Window Scheduler (R60), an
advance of the settled front to the Window Scheduler and the Calibration Unit (R63). -/
inductive HeadNotice where
  | missedLine (line : Word)
  | evicted (line claiming : Word)
  | frontAdvance (front : Word)
deriving DecidableEq, Repr

namespace HeadPort

/-- The settled front (R62): the oldest outstanding index minus 1, or the last trigger with the list empty. -/
def front (h : HeadPort) : Option Word :=
  match h.outstanding with
  | e :: _ => some (e.index - 1)
  | [] => h.lastTrigger

/-- The report of a change of the settled front, including from absent to present (R63; log entry 22). -/
def frontNotice (before after : HeadPort) : List HeadNotice :=
  if after.front = before.front then []
  else
    match after.front with
    | some f => [.frontAdvance f]
    | none => []

/-- Whether trigger t is outstanding. -/
def listed (h : HeadPort) (t : Word) : Bool := h.outstanding.any fun e => decide (e.index = t)

/-- The entry of trigger t leaves the outstanding list; the others keep their places (R52). -/
def unlist (t : Word) (h : HeadPort) : HeadPort :=
  { h with outstanding := h.outstanding.filter fun e => !decide (e.index = t) }

/-- Line t settles in its slot (R58). -/
def settle (t : Word) (st : LineStatus) (h : HeadPort) : HeadPort :=
  { h with ring := Ring.settle h.ring t st }

/-- A MISSED settling by skip, timeout or claim counts in the missed run, and SILENT is set when the run reaches 64
(R64). -/
def countMissed (h : HeadPort) : HeadPort :=
  let run := min Config.silentRun (h.missedRun + 1)
  { h with missedRun := run, silent := h.silent || decide (run = Config.silentRun) }

/-- A GOOD settling ends the missed run and clears SILENT (R55, R64). -/
def endMissedRun (h : HeadPort) : HeadPort := { h with missedRun := 0, silent := false }

/-- A message is sent on the trigger line (R46). -/
def send (m : List Half) (h : HeadPort) : HeadPort := { h with triggerLine := h.triggerLine ++ [m] }

/-- Trigger t settles MISSED while listed, by timeout or claim: its entry leaves the list, MISSED is set and the
settling counts (R52). -/
def loseTrigger (t : Word) (h : HeadPort) : HeadPort :=
  let h' := ((h.unlist t).settle t .missed).countMissed
  { h' with missed := true }

/-- The line that the slot of line t holds, if any, is evicted; a PENDING line whose trigger is listed is first settled
MISSED (R51 step 2, R58, R60). -/
def evictFor (t : Word) (h : HeadPort) : HeadPort × List HeadNotice :=
  match Ring.get h.ring (slotOf t) with
  | none => (h, [])
  | some old =>
    if old.status = .pending ∧ h.listed old.index = true then
      (h.loseTrigger old.index, [.missedLine old.index, .evicted old.index t])
    else (h, [.evicted old.index t])

/-- The slot of line t is claimed for it: PENDING, no samples (R58). -/
def claim (t : Word) (h : HeadPort) : HeadPort :=
  { h with ring := Ring.put h.ring (slotOf t) { index := t, status := .pending } }

/-- The trigger is skipped: line t settles MISSED at once and SKIPPED is set (R51 step 3). -/
def skip (t : Word) (h : HeadPort) : HeadPort :=
  let h' := (h.settle t .missed).countMissed
  { h' with skipped := true }

/-- The line trigger is sent and listed with its issue time (R51 step 4). -/
def sendTrigger (t : Word) (now : Nat) (h : HeadPort) : HeadPort :=
  let h' := h.send (triggerMessage t)
  { h' with outstanding := h.outstanding ++ [{ index := t, issued := now }] }

/-- Lane trigger t at the Head Port, with its notices (R51, R60, R61, R63). -/
def takeTrigger (t : Word) (now : Nat) (h : HeadPort) : HeadPort × List HeadNotice :=
  let h0 := { h with lastTrigger := some t }
  let (h1, evictions) := h0.evictFor t
  let h2 := h1.claim t
  if Config.outstandingLimit ≤ h2.outstanding.length then
    let h3 := h2.skip t
    (h3, evictions ++ [.missedLine t] ++ frontNotice h h3)
  else
    let h3 := h2.sendTrigger t now
    (h3, evictions ++ frontNotice h h3)

/-- The timeout of outstanding trigger t (R52). A trigger that is not listed does not time out (R57). -/
def timeOut (t : Word) (h : HeadPort) : HeadPort × List HeadNotice :=
  if h.listed t then
    let h' := h.loseTrigger t
    (h', [.missedLine t] ++ frontNotice h h')
  else (h, [])

/-- A frame accepted for listed trigger t (R55): its slot settles GOOD with the samples. -/
def acceptFrame (t : Word) (samples : List Nat) (h : HeadPort) : HeadPort × List HeadNotice :=
  let h' := ((h.unlist t).settle t (.good samples)).endMissedRun
  (h', frontNotice h h')

/-- The lane leaves RUNNING and STOPPING: every outstanding line settles MISSED, oldest first, with no flag, no count
and no report but the advance of the front (R53). -/
def stopLane (h : HeadPort) : HeadPort × List HeadNotice :=
  let ring := h.outstanding.foldl (fun r e => Ring.settle r e.index .missed) h.ring
  let h' := { h with outstanding := [], ring := ring }
  (h', frontNotice h h')

/-! ### Profile frames (R54) -/

/-- What the check of a frame finds. -/
inductive FrameCheck where
  | ignored
  | framing
  | check
  | stray
  | accepted (index : Word) (samples : List Nat)
deriving DecidableEq, Repr

/-- The outstanding trigger whose low 16 bits are the index field (R52, R54 check 5). -/
def matching (h : HeadPort) (field : Half) : Option Outstanding :=
  h.outstanding.find? fun e => decide (BitVec.ofNat 16 e.index.toNat = field)

/-- Checks 2 to 6 of R54 on a frame that check 1 does not discard. -/
def checkBody (h : HeadPort) (words : List Half) : FrameCheck :=
  match h.settings, words with
  | some st, sync :: index :: count :: rest =>
    if sync ≠ syncWord ∨ count.toNat ≠ st.samples ∨ words.length ≠ count.toNat + 4 then .framing
    else
      let samples := rest.take count.toNat
      if [crc16 (index :: count :: samples)] ≠ rest.drop count.toNat then .check
      else if samples.any (fun w => decide (4095 < w.toNat)) then .framing
      else
        match h.matching index with
        | none => .stray
        | some e => .accepted e.index (samples.map BitVec.toNat)
  | _, _ => .framing

/-- The checks of R54 in their order; `active` says that the head's lane is RUNNING or STOPPING. -/
def checkFrame (h : HeadPort) (active : Bool) (words : List Half) : FrameCheck :=
  match words with
  | sync :: index :: _ =>
    if sync = syncWord ∧ index = 0xFFFF ∧ active = false then .ignored else h.checkBody words
  | _ => h.checkBody words

/-- A complete frame at an ALIGNED head (R54 to R56). -/
def receiveProfile (active : Bool) (words : List Half) (h : HeadPort) : HeadPort × List HeadNotice :=
  match h.checkFrame active words with
  | .ignored => (h, [])
  | .framing => ({ h with framing := true }, [])
  | .check => ({ h with check := true }, [])
  | .stray => ({ h with stray := true }, [])
  | .accepted t samples => h.acceptFrame t samples

/-! ### The alignment sweep (R47 to R50) -/

/-- A run of passing taps: its first tap and its length (R49). -/
structure TapRun where
  start : Nat
  length : Nat
deriving DecidableEq, Repr

/-- The longer of two runs, the earlier of two of the same length (R49). -/
def TapRun.better (best cur : TapRun) : TapRun := if best.length < cur.length then cur else best

/-- The longest run of a pass map, the earliest of several of the same length; `tap` is the tap of the map's head,
`cur` the run that ends just before it, `best` the best run so far. -/
def longestRunFrom : Nat → TapRun → TapRun → List Bool → TapRun
  | _, best, _, [] => best
  | tap, best, cur, pass :: rest =>
    if pass then
      let cur' : TapRun := if cur.length = 0 then ⟨tap, 1⟩ else ⟨cur.start, cur.length + 1⟩
      longestRunFrom (tap + 1) (best.better cur') cur' rest
    else longestRunFrom (tap + 1) best ⟨0, 0⟩ rest

/-- The tap that R49 selects, or none if no tap passed: the middle of the longest run, the lower of two middles. -/
def selectTap (passMap : List Bool) : Option Nat :=
  let r := longestRunFrom 0 ⟨0, 0⟩ ⟨0, 0⟩ passMap
  if r.length = 0 then none else some (r.start + (r.length - 1) / 2)

/-- HEAD_ALIGN accepted (R47, R48): ALIGNING, selected tap 0, every entry of the pass map fail, alignment start sent,
and the sweep tries tap 0. -/
def startSweep (tag : Byte) (now : Nat) (h : HeadPort) : HeadPort :=
  let h' := h.send alignStartMessage
  { h' with
    tap := 0
    mode :=
      .aligning
        { requestTag := tag, passMap := List.replicate Config.taps false, tap := 0, frames := 0, allMatch := true,
          tapSetAt := now } }

/-- A pass map in four bytes, tap k in bit k (09, section 9.9). -/
def passMapBytes (m : List Bool) : List Byte :=
  [packFlags (m.take 8), packFlags ((m.drop 8).take 8), packFlags ((m.drop 16).take 8), packFlags ((m.drop 24).take 8)]

/-- The end of the sweep (R48, R49): alignment stop is sent, the tap is selected, and HEAD_ALIGN is owed this result. -/
def endSweep (passMap : List Bool) (h : HeadPort) : HeadPort × List Byte :=
  let h' := h.send alignStopMessage
  match selectTap passMap with
  | some tap => ({ h' with mode := .aligned, tap := tap }, [0] ++ passMapBytes passMap ++ [byteOf tap])
  | none => ({ h' with mode := .unaligned, tap := 0 }, [1] ++ passMapBytes passMap ++ [0])

/-- The tap under trial passes or fails, and the sweep goes on to the next tap or ends after tap 31 (R48). The second
part is the result owed to HEAD_ALIGN at the end. -/
def endTap (sw : Sweep) (pass : Bool) (now : Nat) (h : HeadPort) : HeadPort × Option (List Byte) :=
  let passMap := sw.passMap.set sw.tap pass
  if sw.tap + 1 < Config.taps then
    ({ h with
        mode :=
          .aligning { sw with passMap := passMap, tap := sw.tap + 1, frames := 0, allMatch := true, tapSetAt := now } },
      none)
  else
    let (h', result) := h.endSweep passMap
    (h', some result)

/-- A complete frame taken by the sweep (R48 steps 2 and 3): after the eighth the tap passes if all eight matched. -/
def sweepFrame (sw : Sweep) (words : List Half) (now : Nat) (h : HeadPort) : HeadPort × Option (List Byte) :=
  let allMatch := sw.allMatch && decide (words = alignmentWords)
  if sw.frames + 1 < Config.tapFrames then
    ({ h with mode := .aligning { sw with frames := sw.frames + 1, allMatch := allMatch } }, none)
  else h.endTap { sw with allMatch := allMatch } allMatch now

/-- RESTART ends a sweep in progress (R50): UNALIGNED, selected tap 0, alignment stop sent. -/
def abandonSweep (h : HeadPort) : HeadPort :=
  match h.mode with
  | .aligning _ =>
    let h' := h.send alignStopMessage
    { h' with mode := .unaligned, tap := 0 }
  | .unaligned => h
  | .aligned => h

/-- A head's state as STATUS codes it (R188). -/
def modeCode (h : HeadPort) : Byte :=
  match h.mode with
  | .unaligned => 0
  | .aligning _ => 1
  | .aligned => 2

end HeadPort

end Sys2Proof.Machine
end

