-- ==== Sys2Proof/Machine/Records.lean ====
section
/-!
DEFINITION. The records the part sends, as bytes (09, section 9.9): lane, head and link status (R17, R65, R182), recipe
query (R101), verdict record (R152, R137) and capability record (R180).
-/

namespace Sys2Proof.Machine

/-! ### Board records and counts -/

/-- The measured length (02, section 2.3). -/
def BoardRecord.measuredLength (r : BoardRecord) : Option Word := r.pTrail.map fun p => p - r.pLead

/-- The board tag, or absent. -/
def BoardRecord.tag (r : BoardRecord) : Option Word := r.binding.map (·.tag)

/-- The 11 counts in outcome code order (R188). -/
def Counts.toList (c : Counts) : List Nat :=
  [c.good, c.insufficient, c.excess, c.nonWet, c.lifted, c.bridged, c.occluded, c.noRef, c.dataLost, c.late, c.skipped]

/-- The sum of the 11 counts (R144). -/
def Counts.sum (c : Counts) : Nat :=
  c.good + c.insufficient + c.excess + c.nonWet + c.lifted + c.bridged + c.occluded + c.noRef + c.dataLost + c.late
    + c.skipped

/-! ### Codes (R188) -/

def LaneMode.code : LaneMode → Byte
  | .disabled => 0
  | .running => 1
  | .stopping => 2

def RecordState.code : RecordState → Byte
  | .entering => 0
  | .scanning => 1
  | .draining => 2
  | .decided => 3

def SlotState.code : SlotState → Byte
  | .empty => 0
  | .loading => 1
  | .closing => 2
  | .ready => 3
  | .retiring => 4

def Verdict.code : Verdict → Byte
  | .pass => 0
  | .fail => 1
  | .review => 2
  | .unjudged => 3
  | .withdrawn => 4

def JointOutcome.code : JointOutcome → Byte
  | .good => 0
  | .insufficient => 1
  | .excess => 2
  | .nonWet => 3
  | .lifted => 4
  | .bridged => 5
  | .occluded => 6
  | .noRef => 7
  | .dataLost => 8
  | .late => 9
  | .skipped => 10

def BitRate.code : BitRate → Byte
  | .mbit1 => 1
  | .mbit2 => 2
  | .mbit4 => 4

def CloseCode.refusal : CloseCode → RefusalCode
  | .incomplete => .incomplete
  | .range => .range
  | .geometry => .geometry
  | .order => .order
  | .duplicate => .duplicate

def FailTable.code : FailTable → Byte
  | .classTable => 0
  | .jointTable => 1

/-! ### Status records (09, table Status records) -/

/-- One entry of lane STATUS: board tag (0 absent), record state, verdict (0xFF absent) (R17). -/
def boardEntryBytes (r : BoardRecord) : List Byte :=
  le32 (match r.tag with | some t => t.toNat | none => 0)
    ++ [r.state.code, match r.verdictPart.verdict with | some v => v.code | none => 0xFF]

/-- Lane STATUS (R17). -/
def laneStatusBytes (x : LaneState) : List Byte :=
  [x.mode.code, flagByte x.settings.isSome] ++ le32 x.enc.position.toNat ++ le32 x.enc.raw.toNat
    ++ le32 x.triggerIndex.toNat ++ [byteOf x.expect.length] ++ le16 x.untracked
    ++ [laneFlagByte x, byteOf x.transit.length] ++ (x.transit.map boardEntryBytes).flatten

/-- Two bytes of a value that may be unset: 0xFFFF unset. -/
def unset16 (v : Option Nat) : List Byte :=
  match v with
  | some n => le16 n
  | none => [0xFF, 0xFF]

/-- Head STATUS (R65). With the front absent (presence byte 0) the four bytes of the settled front are sent as 0, which
the table leaves open: the model's choice (log entry 28). -/
def headStatusBytes (h : HeadPort) (c : CalRecord) : List Byte :=
  [flagByte h.settings.isSome, match h.settings with | some st => headLaneCode st.lane | none => 2,
    match h.settings with | some st => byteOf st.laneOrder | none => 0, h.modeCode, byteOf h.tap,
    flagByte h.front.isSome]
    ++ le32 (match h.front with | some f => f.toNat | none => 0)
    ++ [byteOf h.outstanding.length, headFlagByte h c] ++ unset16 c.zero ++ unset16 c.gain ++ signed8 c.balance

/-- Link STATUS (R182): `reserved` counts the place reserved for this reply. -/
def linkStatusBytes (k : LinkPort) (reserved : Nat) : List Byte :=
  [linkFlagByte k, byteOf k.inbox.length, byteOf k.outbox.length, byteOf reserved, k.bitRate.code]

/-! ### Recipe query (R101; 09, table Replies) -/

def recipeQueryBytes (n : RecipeSlot) : List Byte :=
  [n.state.code, byteOf n.refs, flagByte n.header.isSome]
    ++ (match n.header with | some h => headerBytes h | none => List.replicate 9 0)
    ++ [flagByte n.classes.isSome] ++ le16 n.joints.length
    ++ match n.lastFailure with
      | none => [0, 0, 0, 0, 0]
      | some f => [1, f.code.refusal.code, f.table.code] ++ le16 f.index

/-! ### Verdict record (R152) -/

/-- A defect entry, 15 bytes; absent measures are sent as 0 (09, table Verdict record). -/
def defectBytes (d : OutcomeRecord) : List Byte :=
  le16 d.jointId ++ [d.outcome.code]
    ++ match d.measures with
      | .absent => 0 :: List.replicate 11 0
      | .validOnly nv => 1 :: List.replicate 9 0 ++ le16 nv
      | .full v p c z nv => 2 :: le24 v ++ le16 p ++ le16 c ++ signed16 z ++ le16 nv

/-- The verdict record, 45 + 15d bytes (09, table Verdict record). -/
def verdictBytes (v : VerdictRecord) : List Byte :=
  le32 (match v.tag with | some t => t.toNat | none => 0)
    ++ [laneCode v.lane, match v.slot with | some n => byteOf n.toNat | none => 0xFF]
    ++ le32 v.pLead.toNat ++ [flagByte v.measuredLength.isSome]
    ++ le32 (match v.measuredLength with | some m => m.toNat | none => 0)
    ++ [v.verdict.code, flagByte v.divert, boardFlagByte v.flags] ++ (v.counts.toList.map le16).flatten
    ++ le16 v.overflow ++ le16 v.droppedBefore ++ [byteOf v.defects.length] ++ (v.defects.map defectBytes).flatten

/-! ### Capability record (R180) -/

/-- The fixed capability record of the part, 23 bytes (R180; 09, table Capability record). -/
def capabilityBytes : List Byte :=
  le16 3160 ++ [1, 2, 4, 4] ++ le16 8192 ++ [16] ++ le16 1020 ++ [8, 4, 32, 32] ++ le16 1024 ++ [4] ++ le16 1024
    ++ [4, 8, 16]

end Sys2Proof.Machine
end

