-- ==== Sys2Proof/Machine/Verdict.lean ====
section
/-!
DEFINITION. The Verdict Unit (08) and the decision of a board record (02, section 2.5; R35, R113, R114, R148 to R157):
outcome counts, defect lists, flags, the verdict, the release in lane order, the verdict queue and parked COLLECTs.
-/

namespace Sys2Proof.Machine

/-! ### Outcome counts and defect lists (R141 to R143) -/

/-- Joints added to one outcome count (R141, R142). -/
def Counts.add (o : JointOutcome) (n : Nat) (c : Counts) : Counts :=
  match o with
  | .good => { c with good := c.good + n }
  | .insufficient => { c with insufficient := c.insufficient + n }
  | .excess => { c with excess := c.excess + n }
  | .nonWet => { c with nonWet := c.nonWet + n }
  | .lifted => { c with lifted := c.lifted + n }
  | .bridged => { c with bridged := c.bridged + n }
  | .occluded => { c with occluded := c.occluded + n }
  | .noRef => { c with noRef := c.noRef + n }
  | .dataLost => { c with dataLost := c.dataLost + n }
  | .late => { c with late := c.late + n }
  | .skipped => { c with skipped := c.skipped + n }

/-- The eight outcomes of which a defect entry is made (R141). -/
def JointOutcome.isDefect : JointOutcome → Bool
  | .good => false
  | .insufficient => true
  | .excess => true
  | .nonWet => true
  | .lifted => true
  | .bridged => true
  | .occluded => true
  | .noRef => true
  | .dataLost => true
  | .late => false
  | .skipped => false

/-- A defect outcome makes an entry while the list holds fewer than 32, else adds to the overflow (R143). -/
def VerdictFields.addDefect (o : OutcomeRecord) (v : VerdictFields) : VerdictFields :=
  if v.defects.length < Config.defectLimit then { v with defects := v.defects ++ [o] }
  else { v with overflow := v.overflow + 1 }

/-- An outcome record is counted, and a defect outcome listed (R141). -/
def VerdictFields.takeOutcome (o : OutcomeRecord) (v : VerdictFields) : VerdictFields :=
  let v' := { v with counts := v.counts.add o.outcome 1 }
  if o.outcome.isDefect then v'.addDefect o else v'

/-! ### Records of a lane -/

/-- The record of this number. -/
def LaneState.record? (x : LaneState) (ident : Nat) : Option BoardRecord :=
  x.transit.find? fun r => decide (r.ident = ident)

/-- A change to the record of this number. -/
def LaneState.mapRecord (ident : Nat) (f : BoardRecord → BoardRecord) (x : LaneState) : LaneState :=
  { x with transit := x.transit.map fun r => if r.ident = ident then f r else r }

/-- The header of the slot a record names (R88); absent for an unbound record. -/
def headerOf (s : State) (r : BoardRecord) : Option Header :=
  match r.binding with
  | none => none
  | some b => (s.slot b.slot).header

/-- The recipe's joint count; 0 for an unbound record (R118). -/
def jointCountOf (s : State) (r : BoardRecord) : Nat :=
  match headerOf s r with
  | none => 0
  | some h => h.jointCount

/-- The recipe's heads used (R145); 0 for an unbound record. -/
def headsUsedOf (s : State) (r : BoardRecord) : Nat :=
  match headerOf s r with
  | none => 0
  | some h => h.headsUsed

/-! ### Fixing the verdict (R148) -/

/-- The causes that decide a record after its creation (R35). -/
inductive Cause where
  | completion
  | deadline
  | withdraw
  | abandon
deriving DecidableEq, Repr

/-- The verdict: the first row of R148 that holds. -/
def verdictOf (cause : Cause) (policy : StalePolicy) (v : VerdictFields) : Verdict :=
  if cause = .withdraw then .withdrawn
  else if v.flags.noRecipe || v.flags.abandoned then .unjudged
  else if 0 < v.counts.insufficient + v.counts.excess + v.counts.nonWet + v.counts.lifted + v.counts.bridged then .fail
  else if 0 < v.counts.dataLost + v.counts.occluded + v.counts.noRef + v.counts.late
      ∨ v.flags.lengthMismatch = true ∨ (v.flags.calStale = true ∧ policy = .demote) then .review
  else .pass

/-- The divert decision: no for PASS, yes for every other verdict (R149). -/
def divertFor (v : Verdict) : Bool := decide (v ≠ .pass)

/-! ### Release (R151 to R157) -/

/-- The verdict record of a DECIDED record as it stands (R152); dropped before is filled at delivery. A DECIDED record
always has its verdict and divert decision (R35). -/
def verdictRecordOf (l : Lane) (r : BoardRecord) : VerdictRecord :=
  { tag := r.tag
    lane := l
    slot := r.binding.map (·.slot)
    pLead := r.pLead
    measuredLength := r.measuredLength
    verdict := r.verdictPart.verdict.getD .unjudged
    divert := r.divertDecision.getD true
    flags := r.verdictPart.flags
    counts := r.verdictPart.counts
    defects := r.verdictPart.defects
    overflow := r.verdictPart.overflow
    droppedBefore := 0 }

/-- A release that finds no COLLECT parked: the record joins the queue, a full queue dropping its oldest (R154). -/
def VerdictUnit.enqueue (v : VerdictRecord) (u : VerdictUnit) : VerdictUnit :=
  if Config.verdictDepth ≤ u.queue.length then
    { u with queue := u.queue.drop 1 ++ [v], dropped := min Config.counterLimit (u.dropped + 1) }
  else { u with queue := u.queue ++ [v] }

/-- The answer to a COLLECT with a verdict record: a delivery, which carries the dropped count (R155). -/
def deliver (tag : Byte) (v : VerdictRecord) (s : State) : State :=
  replyDone kindCollect tag (verdictBytes { v with droppedBefore := s.verdicts.dropped })
    (s.setVerdicts { s.verdicts with dropped := 0 })

/-- A released verdict record answers the oldest parked COLLECT (R157), or joins the verdict queue (R154). -/
def emitVerdict (v : VerdictRecord) (s : State) : State :=
  match s.verdicts.parked with
  | tag :: rest => deliver tag v (s.setVerdicts { s.verdicts with parked := rest })
  | [] => s.setVerdicts (s.verdicts.enqueue v)

/-- One release (R152): released becomes yes, and the verdict record goes out. -/
def releaseRecord (l : Lane) (r : BoardRecord) (s : State) : State :=
  emitVerdict (verdictRecordOf l r)
    (s.updLane l fun x =>
      x.mapRecord r.ident fun q => { q with verdictPart := { q.verdictPart with released := true } })

/-- The oldest record of the lane that is not released. -/
def LaneState.oldestUnreleased (x : LaneState) : Option BoardRecord :=
  x.transit.find? fun r => !r.verdictPart.released

/-- Release in lane order: while the oldest unreleased record is DECIDED, it is released (R151). The number bounds the
releases. -/
def releaseChain : Nat → Lane → State → State
  | 0, _, s => s
  | n + 1, l, s =>
    match (s.lane l).oldestUnreleased with
    | none => s
    | some r => if r.state = .decided then releaseChain n l (releaseRecord l r s) else s

/-- A record of the lane is offered for release (R149, R151). -/
def offerRelease (l : Lane) (s : State) : State := releaseChain (s.lane l).transit.length l s

/-! ### Deciding a record (R35, R113, R114, R150) -/

/-- The outcome under which a cause counts the outstanding joints: LATE at the deadline (R113), SKIPPED at WITHDRAW and
ABANDON (R114), none at completion. -/
def Cause.cutOutcome : Cause → Option JointOutcome
  | .completion => none
  | .deadline => some .late
  | .withdraw => some .skipped
  | .abandon => some .skipped

/-- The outstanding joints of a record: not reached by the cursor, queued, and in flight (R113 step 1). -/
def outstandingJoints (jointCount : Nat) (w : WorkFields) : Nat := (jointCount - w.cursor) + w.queued + w.inFlight

/-- The flag a deadline sets before its decision (R37): LENGTH_MISMATCH with P_trail absent. -/
def BoardRecord.flagBefore (cause : Cause) (r : BoardRecord) : BoardRecord :=
  if cause = .deadline ∧ r.pTrail = none then
    { r with verdictPart := { r.verdictPart with flags := { r.verdictPart.flags with lengthMismatch := true } } }
  else r

/-- The cursor stops and the outstanding joints are counted under the cause's outcome (R113 steps 1, 4, 5; R142). -/
def BoardRecord.cut (cause : Cause) (jointCount : Nat) (r : BoardRecord) : BoardRecord :=
  match cause.cutOutcome with
  | none => r
  | some o =>
    { r with
      work := { cursor := jointCount, queued := 0, inFlight := 0 }
      verdictPart :=
        { r.verdictPart with counts := r.verdictPart.counts.add o (outstandingJoints jointCount r.work) } }

/-- The flag ABANDON sets before the verdict is fixed (R147). -/
def BoardRecord.flagAbandon (cause : Cause) (r : BoardRecord) : BoardRecord :=
  if cause = .abandon then
    { r with verdictPart := { r.verdictPart with flags := { r.verdictPart.flags with abandoned := true } } }
  else r

/-- The verdict is fixed and the divert decision recorded (R148, R149). -/
def BoardRecord.fix (cause : Cause) (policy : StalePolicy) (r : BoardRecord) : BoardRecord :=
  let v := verdictOf cause policy r.verdictPart
  { r with
    state := .decided
    divertDecision := some (divertFor v)
    verdictPart := { r.verdictPart with verdict := some v } }

/-- A record that is not DECIDED becomes DECIDED, in the order of R150: the deadline's flag, the count, ABANDON's
flag, the verdict, the divert decision. A DECIDED record stays as it is (R35). -/
def BoardRecord.decideBy (cause : Cause) (policy : StalePolicy) (jointCount : Nat) (r : BoardRecord) : BoardRecord :=
  if r.state = .decided then r
  else (((r.flagBefore cause).cut cause jointCount).flagAbandon cause).fix cause policy

/-- The items of a decided record leave the ready queue; the others keep their order (R113 step 2). -/
def LaneState.dropItems (ident : Nat) (x : LaneState) : LaneState :=
  { x with ready := x.ready.filter fun i => !decide (i.record = ident) }

/-- Whether a unit's item belongs to this record. -/
def WorkItem.belongsTo (l : Lane) (ident : Nat) (i : WorkItem) : Bool :=
  decide (i.lane = l) && decide (i.record = ident)

/-- Discard is set on every unit that holds an item of the record (R113 step 3). -/
def discardItems (l : Lane) (ident : Nat) (s : State) : State :=
  s.mapUnits fun e => if e.item.belongsTo l ident then { e with discard := true } else e

/-- The lane's stale_policy; the settings of a lane that holds a record are set (R6). -/
def stalePolicyOf (x : LaneState) : StalePolicy :=
  match x.settings with
  | some st => st.stalePolicy
  | none => .report

/-- The record of this number becomes DECIDED (R35, R150). The output is re-evaluated, though a decision outside the
record's gate window does not change it (R161). -/
def fixRecord (cause : Cause) (l : Lane) (ident : Nat) (s : State) : State :=
  reevaluate l (s.updLane l fun x =>
    x.mapRecord ident fun q => q.decideBy cause (stalePolicyOf x) (jointCountOf s q))

/-- What the Window Scheduler then still holds of the record: nothing at completion; its queued items are removed and
its items in flight discarded otherwise (R113 steps 2 and 3, R114). -/
def cutItems (cause : Cause) (l : Lane) (ident : Nat) (s : State) : State :=
  if cause = .completion then s else discardItems l ident (s.updLane l (LaneState.dropItems ident))

/-- A record of the lane that is not DECIDED is decided by a cause, its joints are taken from the Window Scheduler, and
it is offered for release (R35, R150). The lane is not examined here. -/
def decideRecord (cause : Cause) (l : Lane) (ident : Nat) (s : State) : State :=
  match (s.lane l).record? ident with
  | none => s
  | some r =>
    if r.state = .decided then s else offerRelease l (cutItems cause l ident (fixRecord cause l ident s))

/-! ### Outcome records and joints complete (R36, R141, R144) -/

/-- Joints complete is set to yes (R36). -/
def rememberComplete (l : Lane) (ident : Nat) (s : State) : State :=
  s.updLane l fun x => x.mapRecord ident fun q => { q with jointsComplete := true }

/-- The report of joints complete (R36): decided by completion with P_trail present, else remembered. -/
def jointsCompleteReport (l : Lane) (ident : Nat) (s : State) : State :=
  match (s.lane l).record? ident with
  | none => s
  | some r =>
    if r.state = .decided then s
    else if r.pTrail.isSome then decideRecord .completion l ident s
    else rememberComplete l ident s

/-- A record that is not DECIDED takes an outcome (R141). -/
def BoardRecord.takeOutcome (o : OutcomeRecord) (r : BoardRecord) : BoardRecord :=
  if r.state = .decided then r else { r with verdictPart := r.verdictPart.takeOutcome o }

/-- The record of this number counts an outcome (R141). -/
def countOutcome (l : Lane) (ident : Nat) (o : OutcomeRecord) (s : State) : State :=
  s.updLane l fun x => x.mapRecord ident (BoardRecord.takeOutcome o)

/-- An outcome record for a record that is not DECIDED is taken whole (R141), and joints complete is reported when the
counts reach the joint count (R144). -/
def takeOutcome (l : Lane) (ident : Nat) (o : OutcomeRecord) (s : State) : State :=
  match (s.lane l).record? ident with
  | none => s
  | some r =>
    if r.state = .decided then s
    else
      let s1 := countOutcome l ident o s
      if (r.verdictPart.takeOutcome o).counts.sum = jointCountOf s r then jointsCompleteReport l ident s1 else s1

/-! ### Board flags told by others (R30, R146) -/

/-- A MISSED report for line x on the head of this lane order (R146): LINES_LOST on every record that is not DECIDED,
uses the head, and whose span contains x. -/
def linesLost (s : State) (order : Nat) (x : Word) (r : BoardRecord) : BoardRecord :=
  match r.binding, r.firstLine with
  | some b, some f =>
    if r.state ≠ .decided ∧ order < headsUsedOf s r ∧ inRange f (ahead f (b.boardLines - 1)) x = true then
      { r with verdictPart := { r.verdictPart with flags := { r.verdictPart.flags with linesLost := true } } }
    else r
  | _, _ => r

/-- The report of a MISSED settling of line x on head h of the lane, at the Verdict Unit (R61, R146). -/
def missedReport (l : Lane) (h : HeadId) (x : Word) (s : State) : State :=
  match (s.head h).settings with
  | none => s
  | some st => s.updLane l fun y => { y with transit := y.transit.map (linesLost s st.laneOrder x) }

end Sys2Proof.Machine
end

