-- ==== Sys2Proof/Machine/Scheduler.lean ====
section
/-!
DEFINITION. The Window Scheduler and the arbiter (06): the joint cursor, the ready queues, grants, spoiling, and the
counts of a board record's joints.
-/

namespace Sys2Proof.Machine

/-! ### Heads of a lane -/

/-- Whether a head is assigned to the lane at a lane order. -/
def HeadPort.serves (l : Lane) (order : Nat) (h : HeadPort) : Bool :=
  match h.settings with
  | some st => decide (st.lane = some l) && decide (st.laneOrder = order)
  | none => false

/-- The Head Port assigned to the lane at this lane order (R104). -/
def headAt (s : State) (l : Lane) (order : Nat) : Option HeadId := Four.all.find? fun h => (s.head h).serves l order

/-- The heads of a lane, in lane order. -/
def laneHeads (s : State) (l : Lane) : List HeadId := [0, 1].filterMap (headAt s l)

/-! ### Work items (R104, R105) -/

/-- The work item of a joint of a record (R104); none where the recipe has no such joint or the lane no such head. -/
def workItem? (s : State) (l : Lane) (r : BoardRecord) (joint : Nat) : Option WorkItem :=
  match r.binding, r.firstLine with
  | some b, some f =>
    match (s.slot b.slot).joints[joint]?, (s.slot b.slot).needed[joint]? with
    | some j, some rows =>
      (headAt s l j.head).map fun h =>
        { lane := l, record := r.ident, joint := joint, head := h, firstNeeded := ahead f rows.first,
          lastNeeded := ahead f rows.last }
    | _, _ => none
  | _, _ => none

/-- A joint is ready when the settled front of its head has reached its last needed line (R105). -/
def itemReady (s : State) (i : WorkItem) : Bool :=
  match (s.head i.head).front with
  | some f => reached f i.lastNeeded
  | none => false

/-! ### Examining a lane (R106, R107) -/

/-- The cursor of one record passes joints in table order while the joint is ready and the ready queue has room (R106).
The number bounds the joints passed. -/
def advanceCursor (s : State) (l : Lane) (r : BoardRecord) : Nat → WorkFields → List WorkItem → WorkFields × List WorkItem
  | 0, w, ready => (w, ready)
  | n + 1, w, ready =>
    match workItem? s l r w.cursor with
    | none => (w, ready)
    | some i =>
      if itemReady s i && decide (ready.length < Config.readyDepth) then
        advanceCursor s l r n { w with cursor := w.cursor + 1, queued := w.queued + 1 } (ready ++ [i])
      else (w, ready)

/-- A bound record that is SCANNING or DRAINING (R106). -/
def BoardRecord.isActive (r : BoardRecord) : Bool :=
  r.binding.isSome && (decide (r.state = .scanning) || decide (r.state = .draining))

/-- The records of a lane in turn, oldest leading edge first, each advancing its cursor (R106). -/
def examineRecords (s : State) (l : Lane) : List BoardRecord → List WorkItem → List BoardRecord × List WorkItem
  | [], ready => ([], ready)
  | r :: rest, ready =>
    let (w, ready') :=
      if r.isActive then advanceCursor s l r (jointCountOf s r - r.work.cursor) r.work ready else (r.work, ready)
    let (rest', ready'') := examineRecords s l rest ready'
    ({ r with work := w } :: rest', ready'')

/-- The Window Scheduler examines a lane (R106). -/
def examine (l : Lane) (s : State) : State :=
  let (records, ready) := examineRecords s l (s.lane l).transit (s.lane l).ready
  s.updLane l fun x => { x with transit := records, ready := ready }

/-! ### Grants (R109 to R111) -/

/-- The lowest-numbered IDLE unit (R109). -/
def idleUnit (s : State) : Option UnitId := Four.all.find? fun u => (s.unitOf u).isNone

/-- The lane chosen at a grant: the pointer's lane if it holds an item, else the other if it does (R109). -/
def grantLane (s : State) : Option Lane :=
  if (s.lane s.pointer).ready ≠ [] then some s.pointer
  else if (s.lane s.pointer.other).ready ≠ [] then some s.pointer.other
  else none

/-- Whether the item's first needed line has been evicted (R110). -/
def evictedAtGrant (s : State) (i : WorkItem) : Bool :=
  decide (Config.ringSlots ≤ ((s.lane i.lane).triggerSeen - i.firstNeeded).toNat)

/-- The inputs a unit reads at the start of an evaluation (R111, R120). -/
def readInputs (s : State) (i : WorkItem) : Option EvalInputs :=
  match (s.lane i.lane).record? i.record with
  | none => none
  | some r =>
    match r.binding, r.firstLine, r.snapshot, (s.head i.head).settings with
    | some b, some f, some snap, some st =>
      match (s.slot b.slot).joints[i.joint]?, (s.slot b.slot).classes with
      | some j, some classes =>
        match classes[j.cls]?, snap[j.head]? with
        | some c, some e =>
          some { joint := j, cls := c, zero := e.zero, gain := e.gain, samples := st.samples, firstLine := f }
        | _, _ => none
      | _, _ => none
    | _, _, _, _ => none

/-- The line controller's name for the item's joint (R110). -/
def jointIdOf (s : State) (i : WorkItem) : Nat :=
  match (s.lane i.lane).record? i.record with
  | none => 0
  | some r =>
    match r.binding with
    | none => 0
    | some b =>
      match (s.slot b.slot).joints[i.joint]? with
      | none => 0
      | some j => j.jointId

/-- A change to the Window Scheduler's fields of a record. -/
def updWork (l : Lane) (ident : Nat) (f : WorkFields → WorkFields) (s : State) : State :=
  s.updLane l fun x => x.mapRecord ident fun r => { r with work := f r.work }

/-- An item found evicted at its grant completes at once with DATA_LOST (R110). -/
def completeEvicted (i : WorkItem) (s : State) : State :=
  takeOutcome i.lane i.record { jointId := jointIdOf s i, outcome := .dataLost, measures := .absent } s

/-- A unit starts on an item: BUSY, spoiled and discard clear, inputs read, in_flight incremented (R111). -/
def startEvaluation (u : UnitId) (i : WorkItem) (s : State) : State :=
  updWork i.lane i.record (fun w => { w with inFlight := w.inFlight + 1 })
    (s.setUnit u (some { item := i, spoiled := false, discard := false, inputs := readInputs s i }))

/-- The oldest item of the chosen lane leaves the queue, queued decrements, and the pointer moves to the other lane
(R109). -/
def takeItem (l : Lane) (i : WorkItem) (rest : List WorkItem) (s : State) : State :=
  (updWork l i.record (fun w => { w with queued := w.queued - 1 })
    (s.updLane l fun x => { x with ready := rest })).setPointer l.other

/-- The item is tested for eviction, and completes at once or goes to the unit (R109, R110). -/
def placeItem (u : UnitId) (i : WorkItem) (s : State) : State :=
  if evictedAtGrant s i then completeEvicted i s else startEvaluation u i s

/-- One grant (R109), followed by an examination of the chosen lane (R107). -/
def grantItem (u : UnitId) (l : Lane) (i : WorkItem) (rest : List WorkItem) (s : State) : State :=
  examine l (placeItem u i (takeItem l i rest s))

/-- The arbiter grants again at once while a unit is IDLE and a queue holds an item (R109). The number bounds the
grants. -/
def grantLoop : Nat → State → State
  | 0, s => s
  | n + 1, s =>
    match idleUnit s, grantLane s with
    | some u, some l =>
      match (s.lane l).ready with
      | [] => s
      | i :: rest => grantLoop n (grantItem u l i rest s)
    | _, _ => s

/-- Joints of a lane not yet granted: in the ready queue, or not yet reached by a cursor. No step's grants outnumber
them. -/
def ungranted (s : State) (l : Lane) : Nat :=
  (s.lane l).ready.length + ((s.lane l).transit.map fun r => jointCountOf s r - r.work.cursor).sum

/-- All the grants that can be made now (R109). -/
def grants (s : State) : State := grantLoop (ungranted s .a + ungranted s .b) s

/-- The lane is examined, and the grants that follow are made (R107, R109). -/
def examineAndGrant (l : Lane) (s : State) : State := grants (examine l s)

/-! ### Spoiling (R112) -/

/-- An item is spoiled. -/
def Evaluation.spoil (e : Evaluation) : Evaluation := { e with spoiled := true }

/-- Whether the item's needed range contains a line (R112). -/
def WorkItem.needs (i : WorkItem) (x : Word) : Bool := inRange i.firstNeeded i.lastNeeded x

/-- The Window Scheduler takes lane trigger t: trigger seen, and spoiling of the lane's items that need line t − 1024
(R112). -/
def schedulerTrigger (l : Lane) (t : Word) (s : State) : State :=
  (s.updLane l fun x => { x with triggerSeen := t }).mapUnits fun e =>
    if decide (e.item.lane = l) && e.item.needs (t - 1024) then e.spoil else e

/-- The Window Scheduler takes an eviction notice of a head (R60, R112). -/
def schedulerEviction (h : HeadId) (line : Word) (s : State) : State :=
  s.mapUnits fun e => if decide (e.item.head = h) && e.item.needs line then e.spoil else e

/-! ### Decisions that free places of the ready queue (R107, R113) -/

/-- A record is decided by deadline or WITHDRAW; if items were removed from the ready queue, the lane is then examined
for the places freed (R107, R113, R114). -/
def decideAndExamine (cause : Cause) (l : Lane) (ident : Nat) (s : State) : State :=
  let s' := decideRecord cause l ident s
  if (s'.lane l).ready.length < (s.lane l).ready.length then examineAndGrant l s' else s'

end Sys2Proof.Machine
end

