-- ==== Sys2Proof/Machine/Calibration.lean ====
section
/-!
DEFINITION. The Calibration Unit (04): the balance, gap lines, the start, collection and completion of an attempt, and
the calibration snapshot.
-/

namespace Sys2Proof.Machine

/-! ### Spans of board records (R34) -/

/-- The lines a record occupies under the heads: a closed span, or an open one from a line on (R34, R73). -/
inductive Span where
  | closed (first last : Word)
  | openFrom (first : Word)
deriving DecidableEq, Repr

/-- Whether a span covers a line (R73). -/
def Span.covers (x : Word) : Span → Bool
  | .closed a b => inRange a b x
  | .openFrom a => reached x a

/-- The index of the trigger at the first grid position that reaches p (R34): the grid lies line_step counts apart from
the next trigger position, which carries the trigger index + 1. -/
def indexReaching (index next : Word) (step : Nat) (p : Word) : Word :=
  index + 1 + BitVec.ofInt 32 (((p - next).toInt + step - 1) / step)

/-- The span of a record (R34). -/
def spanOf (st : LaneSettings) (index next : Word) (r : BoardRecord) : Span :=
  let first :=
    match r.firstLine with
    | some f => f
    | none => indexReaching index next st.lineStep (ahead r.pLead st.dScan)
  match r.binding with
  | some b => .closed first (ahead first (b.boardLines - 1))
  | none =>
    match r.pTrail with
    | some p => .closed first (indexReaching index next st.lineStep (ahead p st.dScan))
    | none => .openFrom first

/-- The spans of the lane's records, while it is RUNNING or STOPPING (R34). -/
def spansOf (x : LaneState) : List Span :=
  match x.settings, x.nextTrigger with
  | some st, some next => x.transit.map (spanOf st x.triggerIndex next)
  | _, _ => []

/-- A gap line: no span covers it (R73). -/
def isGapLine (spans : List Span) (x : Word) : Bool := spans.all fun sp => !sp.covers x

/-- Whether the lines t..t + 15 are all gap lines (R73). -/
def gapAhead (spans : List Span) (t : Word) : Bool :=
  (List.range Config.attemptLines).all fun k => isGapLine spans (ahead t k)

namespace CalRecord

/-- A calibration-due event (R70). -/
def due (c : CalRecord) : CalRecord :=
  if c.balance < 8 then { c with balance := c.balance + 1 } else { c with overdue := true }

/-- LANE_START: the balance is raised to at least +1, and the idle run becomes 0 (R71). -/
def startLane (c : CalRecord) : CalRecord := { c with balance := max c.balance 1, idleRun := 0 }

/-- HEAD_SETUP: the initial zero and gain, fault count 0, CAL_FAULTED clear (R69). -/
def setup (z0 g : Nat) (c : CalRecord) : CalRecord :=
  { c with zero := some z0, gain := some g, faultCount := 0, calFaulted := false }

/-- CAL_REQUEST sets requested (R72). -/
def request (c : CalRecord) : CalRecord := { c with requested := true }

/-- The lane stop voids an attempt (R81). -/
def void (c : CalRecord) : CalRecord := { c with attempt := none }

/-- RESTART (R84): zero and gain kept. -/
def restart (c : CalRecord) : CalRecord :=
  { CalRecord.powerOn with zero := c.zero, gain := c.gain }

/-! ### Starting an attempt (R74, R75) -/

/-- A reason to start an attempt: owed, requested, or pull-in (R75). -/
def wantsAttempt (idleCalGap : Nat) (c : CalRecord) : Bool :=
  decide (0 < c.balance) || c.requested || (decide (-8 < c.balance) && decide (idleCalGap ≤ c.idleRun))

/-- An attempt starts at trigger t (R75). -/
def beginAttempt (t : Word) (c : CalRecord) : CalRecord :=
  { c with
    attempt := some { start := t, collected := 0, zeroSum := 0, zeroCount := 0, stepSum := 0, stepCount := 0 }
    idleRun := 0 }

/-- Lane trigger t at a head's record: the start test, then the idle run (R74, R75). `ahead16` says that t..t + 15 are
gap lines, `gap` that t is one. -/
def trigger (idleCalGap : Nat) (ahead16 gap : Bool) (t : Word) (c : CalRecord) : CalRecord :=
  if ahead16 && c.attempt.isNone && c.wantsAttempt idleCalGap then c.beginAttempt t
  else if gap then { c with idleRun := min Config.idleLimit (c.idleRun + 1) }
  else { c with idleRun := 0 }

/-! ### Collecting and completing (R76 to R80) -/

/-- The valid samples of a 16-column region (R76). -/
def region (col : Nat) (samples : List Nat) : List Nat :=
  ((samples.drop col).take 16).filter fun v => !decide (v = 4095)

/-- A line is collected: a GOOD line contributes its valid samples, any other read contributes none (R76, R77). -/
def collectLine (st : HeadSettings) (ring : Ring) (a : Attempt) : Attempt :=
  let a' := { a with collected := a.collected + 1 }
  match Ring.read ring (ahead a.start a.collected) with
  | .good samples =>
    let zs := region st.zeroCol samples
    let ss := region st.stepCol samples
    { a' with
      zeroSum := a.zeroSum + zs.sum
      zeroCount := a.zeroCount + zs.length
      stepSum := a.stepSum + ss.sum
      stepCount := a.stepCount + ss.length }
  | .missed => a'
  | .pending => a'
  | .notHeld => a'

/-- An accepted attempt (R79). -/
def accept (z0 g : Nat) (c : CalRecord) : CalRecord :=
  { c with
    zero := some z0
    gain := some g
    balance := if -8 < c.balance then c.balance - 1 else c.balance
    overdue := false
    calFaulted := false
    requested := false
    faultCount := 0
    attempt := none }

/-- An attempt that is not accepted (R80). -/
def fault (c : CalRecord) : CalRecord :=
  let n := min 3 (c.faultCount + 1)
  { c with faultCount := n, calFaulted := c.calFaulted || decide (n = 3), attempt := none }

/-- The mean of valid samples, rounded half up (R78). -/
def meanOf (sum count : Nat) : Nat := (sum + count / 2) / count

/-- The new zero and gain of a completed attempt, or none if a check of R78 fails. -/
def compute (st : HeadSettings) (a : Attempt) : Option (Nat × Nat) :=
  if a.zeroCount < Config.validSamples then none
  else if a.stepCount < Config.validSamples then none
  else
    let r0 := meanOf a.zeroSum a.zeroCount
    let r1 := meanOf a.stepSum a.stepCount
    if r1 ≤ r0 then none
    else
      let d := r1 - r0
      let gain := (st.stepHeight * 256 + d / 2) / d
      if gain < 1 ∨ 1023 < gain then none
      else if gain < st.nominalGain * 3 / 4 ∨ st.nominalGain * 5 / 4 < gain then none
      else some (r0, gain)

/-- The completion of an attempt (R78): accepted or a fault, and the attempt becomes absent. -/
def complete (st : HeadSettings) (a : Attempt) (c : CalRecord) : CalRecord :=
  match compute st a with
  | some (z0, g) => c.accept z0 g
  | none => c.fault

/-- A settled-front advance at an attempt (R76): each line up to the front is collected in order, and with all 16 the
attempt completes. The number bounds the lines. -/
def collect (st : HeadSettings) (ring : Ring) (front : Word) : Nat → CalRecord → CalRecord
  | 0, c => c
  | n + 1, c =>
    match c.attempt with
    | none => c
    | some a =>
      if reached front (ahead a.start a.collected) then
        let a' := collectLine st ring a
        if Config.attemptLines ≤ a'.collected then c.complete st a'
        else collect st ring front n { c with attempt := some a' }
      else c

/-- A snapshot entry: zero, gain and stale as they stand (R83). The zero and gain of a head of a running lane are set
(R69, R75). -/
def snapshot (c : CalRecord) : SnapEntry :=
  { zero := c.zero.getD 0, gain := c.gain.getD 0, stale := c.overdue || c.calFaulted }

end CalRecord

/-! ### The unit in the part -/

/-- A front advance reported to the Calibration Unit (R76). -/
def calCollect (h : HeadId) (front : Word) (s : State) : State :=
  match (s.head h).settings with
  | none => s
  | some st => s.updCal h (CalRecord.collect st (s.head h).ring front Config.attemptLines)

/-- Each head of the lane changed in the Calibration Unit. -/
def updCals (hs : List HeadId) (f : CalRecord → CalRecord) (s : State) : State :=
  hs.foldl (fun s h => s.updCal h f) s

/-- Lane trigger t at the Calibration Unit (R73 to R75). -/
def calTrigger (l : Lane) (t : Word) (s : State) : State :=
  match (s.lane l).settings with
  | none => s
  | some st =>
    let spans := spansOf (s.lane l)
    updCals (laneHeads s l) (CalRecord.trigger st.idleCalGap (gapAhead spans t) (isGapLine spans t) t) s

/-- The notice of the lane stop at the Calibration Unit (R81). -/
def calStop (l : Lane) (s : State) : State := updCals (laneHeads s l) CalRecord.void s

/-- The calibration snapshot of the lane's heads, in lane order (R32, R83). -/
def laneSnapshot (s : State) (l : Lane) : List SnapEntry := (laneHeads s l).map fun h => (s.calOf h).snapshot

end Sys2Proof.Machine
end

