-- ==== Sys2Proof/Machine/HeadEvents.lean ====
section
/-!
DEFINITION. The Head Ports in the part (03): delivering the notices of a head to the Verdict Unit, the Window Scheduler
and the Calibration Unit, and the events of a head port.
-/

namespace Sys2Proof.Machine

/-- The lane whose triggers a head takes. -/
def headLane (s : State) (h : HeadId) : Option Lane :=
  match (s.head h).settings with
  | some st => st.lane
  | none => none

/-- Whether a head's lane is RUNNING or STOPPING (R54). -/
def headActive (s : State) (h : HeadId) : Bool :=
  match headLane s h with
  | some l => decide ((s.lane l).mode ≠ .disabled)
  | none => false

/-- One notice of a head is taken: a MISSED report (R61), an eviction notice (R60), or an advance of the front, by the
Window Scheduler and the Calibration Unit (R63), whose takings touch different state. -/
def deliverNotice (h : HeadId) (n : HeadNotice) (s : State) : State :=
  match headLane s h with
  | none => s
  | some l =>
    match n with
    | .missedLine x => missedReport l h x s
    | .evicted line _ => schedulerEviction h line s
    | .frontAdvance f => calCollect h f (examineAndGrant l s)

/-- A change of a Head Port, and its notices in a free order (R146; log entry 3). -/
def headEvent (h : HeadId) (f : HeadPort → HeadPort × List HeadNotice) (s : State) : State :=
  takeAll (deliverNotice h) (f (s.head h)).2 (s.updHead h fun _ => (f (s.head h)).1)

/-- Lane trigger t at a Head Port (R51). -/
def headTrigger (h : HeadId) (t : Word) (s : State) : State := headEvent h (HeadPort.takeTrigger t s.now) s

/-- The notice of the lane stop at a Head Port (R53). -/
def headStop (h : HeadId) (s : State) : State := headEvent h HeadPort.stopLane s

/-- A head whose sweep ends is owed this reply to its HEAD_ALIGN (R49). -/
def answerSweep (tag : Byte) (result : Option (List Byte)) (s : State) : State :=
  match result with
  | some bytes => replyDone kindHeadAlign tag bytes s
  | none => s

/-- A complete frame received by a head (R54, R56): discarded while UNALIGNED, given to the sweep while ALIGNING,
checked while ALIGNED. -/
def receiveFrame (h : HeadId) (words : List Half) (s : State) : State :=
  match (s.head h).mode with
  | .unaligned => s
  | .aligning sw =>
    let (h', result) := (s.head h).sweepFrame sw words s.now
    answerSweep sw.requestTag result (s.updHead h fun _ => h')
  | .aligned => headEvent h (HeadPort.receiveProfile (headActive s h) words) s

/-- 1 ms passes since the tap under trial was set, and the tap fails (R48 step 4). -/
def failTap (h : HeadId) (s : State) : State :=
  match (s.head h).mode with
  | .unaligned => s
  | .aligning sw =>
    let s' := s.atLeast (sw.tapSetAt + Config.tapTimeout)
    let (h', result) := (s'.head h).endTap sw false s'.now
    answerSweep sw.requestTag result (s'.updHead h fun _ => h')
  | .aligned => s

/-- 2 ms pass since outstanding trigger t was issued (R52). -/
def timeOutTrigger (h : HeadId) (t : Word) (s : State) : State :=
  match (s.head h).outstanding.find? fun e => decide (e.index = t) with
  | none => s
  | some e => headEvent h (HeadPort.timeOut t) (s.atLeast (e.issued + Config.triggerTimeout))

end Sys2Proof.Machine
end

