-- ==== Sys2Proof/Machine/Recipe.lean ====
section
/-!
DEFINITION. The Recipe Store (05): references, the close checks, and the end of a close.
-/

namespace Sys2Proof.Machine

/-! ### References (R87, R99) -/

/-- A release of one reference: a RETIRING slot whose count falls to 0 becomes EMPTY (R87, R99). -/
def RecipeSlot.release (n : RecipeSlot) : RecipeSlot :=
  if n.state = .retiring ∧ n.refs ≤ 1 then RecipeSlot.empty else { n with refs := n.refs - 1 }

/-- EXPECT adds a reference (R87). -/
def RecipeSlot.addReference (n : RecipeSlot) : RecipeSlot := { n with refs := n.refs + 1 }

def releaseSlot (n : SlotId) (s : State) : State := s.updSlot n RecipeSlot.release

/-- The references of several entries, one after another (R22, R87). -/
def releaseSlots (ns : List SlotId) (s : State) : State := ns.foldl (fun s n => releaseSlot n s) s

/-! ### Needed rows (R94), signed and exact -/

/-- First needed row (R94). -/
def Joint.firstRow (j : Joint) : Int :=
  let base : Int := (j.row0 : Int) - j.margin
  match j.gap with
  | none => base
  | some g => min base g.grow0

/-- Last needed row (R94). -/
def Joint.lastRow (j : Joint) : Int :=
  let base : Int := (j.row0 : Int) + j.nrows - 1 + j.margin
  match j.gap with
  | none => base
  | some g => max base ((g.grow0 : Int) + g.gnrows - 1)

/-- The needed rows a successful close keeps (R94). -/
def Joint.neededRows (j : Joint) : NeededRows := { first := j.firstRow.toNat, last := j.lastRow.toNat }

/-- Check 4 of R93: the joint lies within the board and within the columns 0..1023 (R94). -/
def Joint.fitsBoard (boardLines : Nat) (j : Joint) : Bool :=
  decide (0 ≤ j.firstRow) && decide (j.lastRow ≤ (boardLines : Int) - 1)
    && decide (0 ≤ (j.col0 : Int) - j.margin) && decide (j.col0 + j.ncols - 1 + j.margin ≤ 1023)
    && match j.gap with
      | none => true
      | some g => decide (g.gcol0 + g.gncols - 1 ≤ 1023)

/-! ### The close checks (R93) -/

/-- The lowest index at which a check fails, counting from `k`. -/
def firstFailing {α : Type} (ok : α → Bool) : Nat → List α → Option Nat
  | _, [] => none
  | k, x :: xs => if ok x then firstFailing ok (k + 1) xs else some k

/-- The first joint whose last needed row is below that of the joint before it (check 6); `before` is the last needed
row of the joint before the list. -/
def firstDescent : Option Int → Nat → List Joint → Option Nat
  | _, _, [] => none
  | none, k, j :: js => firstDescent (some j.lastRow) (k + 1) js
  | some before, k, j :: js => if j.lastRow < before then some k else firstDescent (some j.lastRow) (k + 1) js

/-- The first joint whose id an earlier joint already has (check 7); `seen` are the ids before the list. -/
def firstRepeat : List Nat → Nat → List Joint → Option Nat
  | _, _, [] => none
  | seen, k, j :: js => if seen.contains j.jointId then some k else firstRepeat (j.jointId :: seen) (k + 1) js

def failAt (code : CloseCode) (table : FailTable) (index : Option Nat) : Option CloseFailure :=
  index.map fun i => { code := code, table := table, index := i }

/-- Check 2 of R93 on one class entry. -/
def ClassEntry.consistent (c : ClassEntry) : Bool := decide (c.vmin ≤ c.vmax) && decide (c.wetHeight ≤ c.hclamp)

/-- Check 3 of R93 on one joint. -/
def Joint.namesExist (h : Header) (j : Joint) : Bool := decide (j.cls < h.classCount) && decide (j.head < h.headsUsed)

/-- Check 5 of R93 on one joint. -/
def Joint.fitsRing (j : Joint) : Bool := decide (j.lastRow - j.firstRow ≤ 255)

/-- Checks 3 to 7 of R93, each over the whole joint table before the next. -/
def checkJoints (h : Header) (js : List Joint) : Option CloseFailure :=
  (failAt .range .jointTable (firstFailing (Joint.namesExist h) 0 js)).or <|
  (failAt .geometry .jointTable (firstFailing (Joint.fitsBoard h.boardLines) 0 js)).or <|
  (failAt .geometry .jointTable (firstFailing Joint.fitsRing 0 js)).or <|
  (failAt .order .jointTable (firstDescent none 0 js)).or <|
  failAt .duplicate .jointTable (firstRepeat [] 0 js)

/-- The close checks of a slot (R93): the fault that ends the close, or none. -/
def closeCheck (n : RecipeSlot) : Option CloseFailure :=
  match n.classes, n.header with
  | some classes, some h =>
    if n.joints.length ≠ h.jointCount then some { code := .incomplete, table := .jointTable, index := n.joints.length }
    else
      (failAt .range .classTable (firstFailing ClassEntry.consistent 0 classes)).or (checkJoints h n.joints)
  | _, _ => some { code := .incomplete, table := .classTable, index := 0 }

/-- The joints kept after a failed close (R96): those before the fault of a check of the joint table, all otherwise. -/
def keptJoints (f : CloseFailure) (js : List Joint) : List Joint :=
  match f.table, f.code with
  | .classTable, _ => js
  | .jointTable, .incomplete => js
  | .jointTable, _ => js.take f.index

/-- The slot after a close that passes (R95). -/
def RecipeSlot.passClose (n : RecipeSlot) : RecipeSlot :=
  { n with state := .ready, needed := n.joints.map Joint.neededRows, lastFailure := none, closeTag := none }

/-- The slot after a close that fails (R96). -/
def RecipeSlot.failClose (f : CloseFailure) (n : RecipeSlot) : RecipeSlot :=
  { n with state := .loading, joints := keptJoints f n.joints, lastFailure := some f, closeTag := none }

/-- The reply owed to the RECIPE_CLOSE that is running (R95, R96). -/
def answerClose (n : SlotId) (tag : Option Byte) (fault : Option CloseFailure) (jointCount : Nat) (s : State) : State :=
  match tag with
  | none => s
  | some t =>
    match fault with
    | none => replyDone kindRecipeClose t (byteOf n.toNat :: le16 jointCount) s
    | some f => replyRefused kindRecipeClose t f.code.refusal (f.table.code :: le16 f.index) s

/-- The close checks of a CLOSING slot end (R93, R95, R96). -/
def endClose (n : SlotId) (s : State) : State :=
  let before := s.slot n
  if before.state = .closing then
    match closeCheck before with
    | none => answerClose n before.closeTag none before.joints.length (s.updSlot n RecipeSlot.passClose)
    | some f => answerClose n before.closeTag (some f) before.joints.length (s.updSlot n (RecipeSlot.failClose f))
  else s

/-- A slot at RESTART (R102): READY keeps its recipe with count 0; EMPTY stays; the others become EMPTY. -/
def RecipeSlot.restart (n : RecipeSlot) : RecipeSlot :=
  match n.state with
  | .ready => { n with refs := 0, lastFailure := none }
  | .empty => RecipeSlot.empty
  | .loading => RecipeSlot.empty
  | .closing => RecipeSlot.empty
  | .retiring => RecipeSlot.empty

end Sys2Proof.Machine
end

