-- ==== Sys2Proof/Machine/Board.lean ====
section
/-!
DEFINITION. The board side of a Lane Tracker (02) and its divert output (08, section 8.7): positions of a record,
leading and trailing edges, scan start and end, the deadline, the gate window, removal, and the lane stop.
-/

namespace Sys2Proof.Machine

/-! ### Positions of a record (02, section 2.3) -/

def scanStart (st : LaneSettings) (r : BoardRecord) : Word := ahead r.pLead st.dScan

def glitchLimit (st : LaneSettings) (r : BoardRecord) : Word := ahead r.pLead st.minBoard

/-- P_dl = P_lead + d_gate − gate_lead. -/
def deadlineOf (st : LaneSettings) (r : BoardRecord) : Word := ahead r.pLead (st.dGate - st.gateLead)

def gateStart (st : LaneSettings) (r : BoardRecord) : Word := ahead r.pLead st.dGate

/-- P_lead + d_gate + measured length + gate_tail; open while the measured length is absent. -/
def gateEnd? (st : LaneSettings) (r : BoardRecord) : Option Word :=
  r.measuredLength.map fun m => ahead (ahead r.pLead st.dGate + m) st.gateTail

/-! ### The lane stop (R11, R22, R53, R81) -/

/-- What is told at a lane stop: each Head Port of the lane, and the Calibration Unit. -/
inductive StopNotice where
  | head (h : HeadId)
  | calibration
deriving DecidableEq, Repr

def takeStopNotice (l : Lane) (n : StopNotice) (s : State) : State :=
  match n with
  | .head h => headStop h s
  | .calibration => calStop l s

/-- The expect queue is flushed, oldest first, each entry's reference released (R22). -/
def flushExpect (l : Lane) (s : State) : State :=
  releaseSlots ((s.lane l).expect.map (·.slot)) (s.updLane l fun x => { x with expect := [] })

/-- The Head Ports and the Calibration Unit are told that the lane has left RUNNING and STOPPING, in a free order (R11,
R81; log entry 3). -/
def tellStop (l : Lane) (s : State) : State :=
  takeAll (takeStopNotice l) ((laneHeads s l).map StopNotice.head ++ [.calibration]) s

/-- The lane's own change on entering DISABLED (R11, R27): the next trigger position unset, FLOOD cleared, the divert
output asserted. -/
def LaneState.disable (x : LaneState) : LaneState :=
  { x with mode := .disabled, nextTrigger := none, flood := false, floodEnd := .absent, divert := true }

/-- A lane enters DISABLED (R11, R12): the expect queue is flushed, the lane changes, and its heads and the Calibration
Unit are told. -/
def enterDisabled (l : Lane) (s : State) : State :=
  tellStop l ((flushExpect l s).updLane l LaneState.disable)

/-! ### Removal and FLOOD (R27, R29, R40) -/

/-- Whether the flood end has been reached (R27). -/
def floodEndReached (x : LaneState) : Bool :=
  match x.floodEnd with
  | .absent => false
  | .opened => false
  | .position p => reached x.enc.position p
  | .passed => true

/-- FLOOD is cleared and the flood end becomes absent (R27). -/
def LaneState.clearFlood (x : LaneState) : LaneState := { x with flood := false, floodEnd := .absent }

/-- FLOOD is cleared, and the output re-evaluated (R27, R161). -/
def endFlood (l : Lane) (s : State) : State := reevaluate l (s.updLane l LaneState.clearFlood)

/-- A STOPPING lane whose transit queue is empty enters DISABLED (R11). -/
def stopIfEmpty (l : Lane) (s : State) : State :=
  if (s.lane l).transit = [] ∧ (s.lane l).mode = .stopping then enterDisabled l s else s

/-- After a removal: with the transit queue empty, FLOOD is cleared where R27 gives, and a STOPPING lane enters
DISABLED (R11). -/
def afterRemoval (l : Lane) (s : State) : State :=
  stopIfEmpty l (if (s.lane l).transit = [] ∧ floodEndReached (s.lane l) = true then endFlood l s else s)

/-- The slot of a bound record gets its reference back (R40, R41). -/
def releaseBinding (b : Option Binding) (s : State) : State :=
  match b with
  | some b => releaseSlot b.slot s
  | none => s

/-- The front record leaves the transit queue, its reference is released, and the output is re-evaluated (R40, R161). -/
def dropFront (l : Lane) (r : BoardRecord) (rest : List BoardRecord) (s : State) : State :=
  reevaluate l (releaseBinding r.binding (s.updLane l fun x => { x with transit := rest }))

/-- The front record is removed at its gate window end, if that is reached and the record DECIDED, which it always is
by then (R40; log entry 23). -/
def removeFront (l : Lane) (s : State) : State :=
  match (s.lane l).transit, (s.lane l).settings with
  | r :: rest, some st =>
    match gateEnd? st r with
    | none => s
    | some p =>
      if reached (s.lane l).enc.position p ∧ r.state = .decided then afterRemoval l (dropFront l r rest s) else s
  | _, _ => s

/-- The front records whose gate window ends are already reached are removed, oldest first (R39, R40). The number
bounds the removals. -/
def removePassed : Nat → Lane → State → State
  | 0, _, s => s
  | n + 1, l, s =>
    let s' := removeFront l s
    if (s'.lane l).transit.length < (s.lane l).transit.length then removePassed n l s' else s'

/-! ### Leading edge (R24 to R26) -/

/-- A record as it is created (R24): absent fields, ENTERING. -/
def newRecord (ident : Nat) (position : Word) (binding : Option Binding) : BoardRecord :=
  { ident := ident, binding := binding, pLead := position, pTrail := none, firstLine := none, state := .entering,
    jointsComplete := false, snapshot := none, divertDecision := none, inWindow := false,
    work := { cursor := 0, queued := 0, inFlight := 0 }, verdictPart := VerdictFields.start }

/-- An unbound record: DECIDED at its creation, UNJUDGED with NO_RECIPE, divert decision yes (R25, R140). -/
def newUnbound (ident : Nat) (position : Word) : BoardRecord :=
  { newRecord ident position none with
    state := .decided
    divertDecision := some true
    verdictPart :=
      { VerdictFields.start with
        flags := { BoardFlags.clear with noRecipe := true }
        verdict := some .unjudged } }

/-- What a record takes from its entry: tag, slot, and board_lines of the slot's header, which is always present
(R24). -/
def bindingOf (s : State) (e : ExpectEntry) : Binding :=
  { tag := e.tag
    slot := e.slot
    boardLines := match (s.slot e.slot).header with | some h => h.boardLines | none => 0 }

/-- A record joins the transit queue at the back. -/
def LaneState.addRecord (r : BoardRecord) (x : LaneState) : LaneState :=
  { x with transit := x.transit ++ [r], nextRecord := x.nextRecord + 1 }

/-- The front entry is discarded, and its reference released (R26). -/
def discardEntry (l : Lane) (s : State) : State :=
  match (s.lane l).expect with
  | [] => s
  | e :: rest => releaseSlot e.slot (s.updLane l fun x => { x with expect := rest })

/-- An untracked board is counted and sets FLOOD, with the flood end open (R26, R27). -/
def LaneState.countUntracked (x : LaneState) : LaneState :=
  { x with untracked := min Config.counterLimit (x.untracked + 1), flood := true, floodEnd := .opened }

/-- A leading edge at a full transit queue: the board is untracked (R26, R27). -/
def untrackedBoard (l : Lane) (s : State) : State :=
  reevaluate l ((discardEntry l s).updLane l LaneState.countUntracked)

/-- The front entry is bound to a new record (R24). -/
def addBound (l : Lane) (e : ExpectEntry) (rest : List ExpectEntry) (s : State) : State :=
  s.updLane l fun x =>
    { x.addRecord (newRecord x.nextRecord x.enc.position (some (bindingOf s e))) with expect := rest }

/-- A new record for an unannounced board (R25). -/
def addUnbound (l : Lane) (s : State) : State :=
  s.updLane l fun x => x.addRecord (newUnbound x.nextRecord x.enc.position)

/-- A leading edge delivered to the board side (R24 to R26). -/
def leadingEdge (l : Lane) (s : State) : State :=
  if Config.transitDepth ≤ (s.lane l).transit.length then untrackedBoard l s
  else
    match (s.lane l).expect with
    | e :: rest => addBound l e rest s
    | [] => offerRelease l (addUnbound l s)

/-! ### Trailing edge (R28 to R30) -/

/-- A trailing edge establishes an open flood end at its position + d_gate + gate_tail (R27). -/
def establishFloodEnd (st : LaneSettings) (x : LaneState) : LaneState :=
  match x.floodEnd with
  | .opened => { x with floodEnd := .position (ahead (ahead x.enc.position st.dGate) st.gateTail) }
  | .absent => x
  | .position _ => x
  | .passed => x

/-- The length check (R30): LENGTH_MISMATCH if the measured length departs from board_lines × line_step by more than
length_tol. -/
def lengthMismatch (s : State) (st : LaneSettings) (r : BoardRecord) (length : Nat) : Bool :=
  match r.binding, headerOf s r with
  | some b, some h =>
    decide (h.lengthTol < (length - b.boardLines * st.lineStep) + (b.boardLines * st.lineStep - length))
  | _, _ => false

/-- The newest record takes its trailing edge: P_trail, and the length check if it is bound and not DECIDED (R28,
R30). -/
def takeTrail (s : State) (st : LaneSettings) (position : Word) (r : BoardRecord) : BoardRecord :=
  let r' := { r with pTrail := some position }
  if r.state ≠ .decided ∧ lengthMismatch s st r (position - r.pLead).toNat = true then
    { r' with verdictPart := { r'.verdictPart with flags := { r'.verdictPart.flags with lengthMismatch := true } } }
  else r'

/-- The newest record leaves the queue, and its tag and slot return to the front of the expect queue with their
reference (R29). -/
def LaneState.returnEntry (b : Binding) (x : LaneState) : LaneState :=
  { x with transit := x.transit.dropLast, expect := { tag := b.tag, slot := b.slot } :: x.expect }

/-- A glitch (R29). -/
def removeGlitch (l : Lane) (b : Binding) (s : State) : State :=
  afterRemoval l (reevaluate l (s.updLane l (LaneState.returnEntry b)))

/-- Whether the newest record's gate window end is already reached (R4, R39). -/
def endReached (st : LaneSettings) (x : LaneState) (r : BoardRecord) : Bool :=
  match gateEnd? st r with
  | some p => reached x.enc.position p
  | none => false

/-- The record of this number takes its trailing edge at the present position (R28, R30). -/
def closeTrail (l : Lane) (st : LaneSettings) (ident : Nat) (s : State) : State :=
  s.updLane l fun x => x.mapRecord ident (takeTrail s st x.enc.position)

/-- The trailing edge of a record that is no glitch (R28): P_trail, the length check, completion if joints complete is
yes, and removal at once if the gate window end is already reached (R39). -/
def closeRecord (l : Lane) (st : LaneSettings) (r : BoardRecord) (s : State) : State :=
  let s1 := closeTrail l st r.ident s
  let s2 := if r.state ≠ .decided ∧ r.jointsComplete = true then decideRecord .completion l r.ident s1 else s1
  if endReached st (s2.lane l) (takeTrail s st (s.lane l).enc.position r) then
    removePassed (s2.lane l).transit.length l s2
  else s2

/-- A trailing edge delivered to the board side (R28). -/
def trailingEdge (l : Lane) (s : State) : State :=
  match (s.lane l).settings with
  | none => s
  | some st =>
    let s0 := s.updLane l (establishFloodEnd st)
    match (s.lane l).transit.getLast? with
    | none => s0
    | some r =>
      if r.pTrail.isSome then s0
      else
        match r.binding with
        | some b =>
          if r.state = .entering ∧ liesBelow (s.lane l).enc.position (glitchLimit st r) = true then removeGlitch l b s0
          else closeRecord l st r s0
        | none => closeRecord l st r s0

/-! ### Lane triggers at the board side (R31 to R33) -/

/-- CAL_STALE at scan start: a stale entry of a head the recipe uses (R145). -/
def snapshotStale (headsUsed : Nat) (snap : List SnapEntry) : Bool := (snap.take headsUsed).any (·.stale)

/-- Scan start of a record at trigger t issued at q (R31, R32, R145). -/
def scanStartAt (s : State) (l : Lane) (st : LaneSettings) (t q : Word) (r : BoardRecord) : BoardRecord :=
  if r.firstLine = none ∧ reached q (scanStart st r) = true then
    let r' := { r with firstLine := some t }
    if r.state = .entering then
      let snap := laneSnapshot s l
      { r' with
        snapshot := some snap
        state := .scanning
        verdictPart :=
          { r'.verdictPart with
            flags := { r'.verdictPart.flags with calStale := snapshotStale (headsUsedOf s r) snap } } }
    else r'
  else r

/-- Scan end of a record at trigger t: a SCANNING record at first_line + board_lines − 1 becomes DRAINING (R33). -/
def scanEndAt (t : Word) (r : BoardRecord) : BoardRecord :=
  match r.binding, r.firstLine with
  | some b, some f =>
    if r.state = .scanning ∧ t = ahead f (b.boardLines - 1) then { r with state := .draining } else r
  | _, _ => r

/-- The records of the lane take scan start, then scan end, at trigger t (R31 to R33). -/
def scanRecords (l : Lane) (st : LaneSettings) (t q : Word) (s : State) : State :=
  s.updLane l fun x => { x with transit := (x.transit.map (scanStartAt s l st t q)).map (scanEndAt t) }

/-- Whether a record reaches scan start at trigger t (R31). -/
def scanStarts (s : State) (l : Lane) (st : LaneSettings) (t q : Word) : Bool :=
  (s.lane l).transit.any fun r =>
    decide (r.state = .entering) && decide ((scanStartAt s l st t q r).state = .scanning)

/-- Lane trigger t at the board side (R31 to R33); a record that reaches scan start has the lane examined (R107). -/
def boardTrigger (l : Lane) (t q : Word) (s : State) : State :=
  match (s.lane l).settings with
  | none => s
  | some st =>
    if scanStarts s l st t q then examineAndGrant l (scanRecords l st t q s) else scanRecords l st t q s

/-! ### Deadline and gate window (R37, R39) -/

/-- The oldest record that is not DECIDED and whose deadline is reached (R37). -/
def dueDeadline (x : LaneState) : Option BoardRecord :=
  match x.settings with
  | none => none
  | some st =>
    x.transit.find? fun r => decide (r.state ≠ .decided) && reached x.enc.position (deadlineOf st r)

/-- The lane position reaches a deadline (R37). A deadline of a DECIDED record changes nothing. -/
def takeDeadline (l : Lane) (s : State) : State :=
  match dueDeadline (s.lane l) with
  | none => s
  | some r => decideAndExamine .deadline l r.ident s

/-- The oldest record not in its gate window whose gate window start is reached (R39). -/
def dueGateStart (x : LaneState) : Option BoardRecord :=
  match x.settings with
  | none => none
  | some st => x.transit.find? fun r => !r.inWindow && reached x.enc.position (gateStart st r)

/-- The record of this number enters its gate window, and the output is re-evaluated (R39, R161). -/
def enterWindow (l : Lane) (ident : Nat) (s : State) : State :=
  reevaluate l (s.updLane l fun x => x.mapRecord ident fun q => { q with inWindow := true })

/-- The lane position reaches a gate window start (R39, R161). -/
def takeGateStart (l : Lane) (s : State) : State :=
  match dueGateStart (s.lane l) with
  | none => s
  | some r => enterWindow l r.ident s

/-- The lane position reaches the flood end (R27): FLOOD is cleared if the transit queue is empty, and the flood end
is remembered as passed if not (log entry 12). -/
def takeFloodEnd (l : Lane) (s : State) : State :=
  match (s.lane l).floodEnd with
  | .absent => s
  | .opened => s
  | .passed => s
  | .position p =>
    if reached (s.lane l).enc.position p then
      if (s.lane l).transit = [] then endFlood l s else s.updLane l fun x => { x with floodEnd := .passed }
    else s

/-! ### ABANDON (R12, R41, R153) -/

/-- Every record that is not DECIDED is decided by ABANDON, oldest first, each then released in turn (R41 steps 1, 2;
R153). -/
def abandonRecords (l : Lane) (idents : List Nat) (s : State) : State :=
  idents.foldl (fun s i => decideRecord .abandon l i s) s

/-- The slots of the bound records, oldest first. -/
def boundSlots (rs : List BoardRecord) : List SlotId := rs.filterMap fun r => r.binding.map (·.slot)

/-- Every record is removed and its reference released, oldest first (R41 step 3). -/
def removeAll (l : Lane) (s : State) : State :=
  reevaluate l (releaseSlots (boundSlots (s.lane l).transit) (s.updLane l fun x => { x with transit := [] }))

/-- The number of records not DECIDED (R12). -/
def undecidedCount (x : LaneState) : Nat := (x.transit.filter fun r => decide (r.state ≠ .decided)).length

/-- LANE_STOP ABANDON on a RUNNING or STOPPING lane, but for its reply (R12, R41). -/
def abandonLane (l : Lane) (s : State) : State :=
  enterDisabled l (removeAll l (abandonRecords l ((s.lane l).transit.map (·.ident)) s))

end Sys2Proof.Machine
end

