-- ==== Sys2Proof/Machine/LaneTracker.lean ====
section
/-!
DEFINITION. The conveyor side of a Lane Tracker (01): decoding the encoder, counting, lane triggers and due counts,
the entry eye, and the watched positions that are reached but not yet taken.
-/

namespace Sys2Proof.Machine

/-! ### Encoder (R1 to R3) -/

/-- What a change of the encoder pair is taken as (R1). -/
inductive EncoderChange where
  | same
  | forward
  | backward
  | illegal
deriving DecidableEq, Repr

/-- The table of R1, from the reference (P, Q) to the new state (P, Q). -/
def encoderChange : Bool → Bool → Bool → Bool → EncoderChange
  | false, false, true, false => .forward
  | true, false, true, true => .forward
  | true, true, false, true => .forward
  | false, true, false, false => .forward
  | false, false, false, true => .backward
  | false, true, true, true => .backward
  | true, true, true, false => .backward
  | true, false, false, false => .backward
  | false, false, true, true => .illegal
  | true, true, false, false => .illegal
  | true, false, false, true => .illegal
  | false, true, true, false => .illegal
  | false, false, false, false => .same
  | true, false, true, false => .same
  | true, true, true, true => .same
  | false, true, false, true => .same

/-- A forward count (R2): an advance with deficit 0, else the deficit is paid back. -/
def Encoder.forwardCount (e : Encoder) : Encoder :=
  if e.deficit = 0 then { e with raw := e.raw + 1, position := e.position + 1 }
  else { e with raw := e.raw + 1, deficit := e.deficit - 1 }

/-- A reverse count (R2): not counted with deficit 1,048,575. -/
def Encoder.reverseCount (e : Encoder) : Encoder :=
  if e.deficit < Config.deficitLimit then { e with raw := e.raw - 1, deficit := e.deficit + 1 } else e

/-- The new state becomes the decoder reference (R1). -/
def Encoder.observe (p q : Bool) (e : Encoder) : Encoder := { e with refP := p, refQ := q }

/-- The lane after a newly observed encoder state (R1 to R3): REVERSED is set by the reverse count that raises the
deficit from 4096 to 4097. -/
def LaneState.decodeEncoder (p q : Bool) (x : LaneState) : LaneState :=
  match encoderChange x.enc.refP x.enc.refQ p q with
  | .same => x
  | .forward => { x with enc := x.enc.forwardCount.observe p q }
  | .backward =>
    { x with
      enc := x.enc.reverseCount.observe p q
      reversed := x.reversed || decide (x.enc.deficit = Config.reversedLimit) }
  | .illegal => { x with enc := x.enc.observe p q, encoderFault := true }

/-! ### Lane triggers (R13, R14) -/

/-- The due count of a head at a lane trigger (R14): at cal_interval a calibration-due event is sent and the count
starts again. -/
def dueTrigger (h : HeadId) (s : State) : State :=
  match (s.head h).settings with
  | none => s
  | some st =>
    if st.calInterval ≤ s.dueOf h + 1 then (s.setDue h 0).updCal h CalRecord.due
    else s.setDue h (s.dueOf h + 1)

/-- The receivers of a lane trigger (R13 steps 3 to 5). -/
inductive TriggerTaker where
  | headPort (h : HeadId)
  | boardSide
  | scheduler
  | calibration
  | dueCount (h : HeadId)
deriving DecidableEq, Repr

/-- A receiver takes trigger t, issued at position q (R13). -/
def takeTriggerAt (l : Lane) (t q : Word) (r : TriggerTaker) (s : State) : State :=
  match r with
  | .headPort h => headTrigger h t s
  | .boardSide => boardTrigger l t q s
  | .scheduler => schedulerTrigger l t s
  | .calibration => calTrigger l t s
  | .dueCount h => dueTrigger h s

/-- The receivers of the lane's triggers. -/
def triggerReceivers (s : State) (l : Lane) : List TriggerTaker :=
  (laneHeads s l).map TriggerTaker.headPort ++ [.boardSide, .scheduler, .calibration]
    ++ (laneHeads s l).map TriggerTaker.dueCount

/-- Whether the next trigger position is reached on a RUNNING or STOPPING lane (R13). -/
def triggerDue (x : LaneState) : Bool :=
  decide (x.mode ≠ .disabled)
    && match x.nextTrigger with
      | some p => reached x.enc.position p
      | none => false

/-- Steps 1 and 2 of R13: the trigger index increments, and the next trigger position advances by line_step. -/
def LaneState.countTrigger (p : Word) (step : Nat) (x : LaneState) : LaneState :=
  { x with triggerIndex := x.triggerIndex + 1, nextTrigger := some (ahead p step) }

/-- The lane issues a trigger when its next trigger position is reached (R13); its receivers take it in a free order
(log entry 3). -/
def issueTrigger (l : Lane) (s : State) : State :=
  match (s.lane l).nextTrigger, (s.lane l).settings with
  | some p, some st =>
    if triggerDue (s.lane l) then
      takeAll (takeTriggerAt l ((s.lane l).triggerIndex + 1) p) (triggerReceivers s l)
        (s.updLane l (LaneState.countTrigger p st.lineStep))
    else s
  | _, _ => s

/-! ### Watched positions (R4) -/

/-- The events that a watched position attaches (R4). -/
inductive Watched where
  | trigger
  | deadline
  | gateStart
  | gateEnd
  | floodEnd
deriving DecidableEq, Repr

/-- The event of a watched position is taken, if its position is reached. -/
def takeWatched (l : Lane) (w : Watched) (s : State) : State :=
  match w with
  | .trigger => issueTrigger l s
  | .deadline => takeDeadline l s
  | .gateStart => takeGateStart l s
  | .gateEnd => removeFront l s
  | .floodEnd => takeFloodEnd l s

/-- The board events of one record that are reached and not yet taken. -/
def dueOfRecord (st : LaneSettings) (position : Word) (r : BoardRecord) : List Watched :=
  (if r.state ≠ .decided ∧ reached position (deadlineOf st r) = true then [.deadline] else [])
    ++ (if r.inWindow = false ∧ reached position (gateStart st r) = true then [.gateStart] else [])
    ++ match gateEnd? st r with
      | some p => if reached position p then [.gateEnd] else []
      | none => []

/-- The watched positions of a lane that are reached and whose events are not yet taken (R4). -/
def dueEvents (x : LaneState) : List Watched :=
  (if triggerDue x then [.trigger] else [])
    ++ (match x.settings with
      | some st => x.transit.flatMap (dueOfRecord st x.enc.position)
      | none => [])
    ++ match x.floodEnd with
      | .position p => if reached x.enc.position p then [.floodEnd] else []
      | .absent => []
      | .opened => []
      | .passed => []

/-- The events of both lanes that are reached and not yet taken. -/
def reachedEvents (s : State) : List (Lane × Watched) :=
  (dueEvents (s.lane .a)).map (fun w => (.a, w)) ++ (dueEvents (s.lane .b)).map (fun w => (.b, w))

/-- The events that are reached and not yet taken are taken, in a free order (log entries 2, 3). A position is reached
at an advance, and its event is taken then (R4). -/
def takeReached (s : State) : State :=
  if s.resetAsserted then s else takeAll (fun e => takeWatched e.1 e.2) (reachedEvents s) s

/-- A command that the part takes after every event already reached (R4): none comes between an advance and the events
of the positions it reaches (log entry 2). -/
def inTurn (f : State → State) (s : State) : Result := inService f (takeReached s)

/-- A newly observed state of the lane's encoder pair (R1 to R3). A state equal to the reference is no change. -/
def observeEncoder (l : Lane) (p q : Bool) (s : State) : State :=
  s.updLane l (LaneState.decodeEncoder p q)

/-! ### Entry eye (R15, R16) -/

/-- The new level of the eye becomes the eye level (R15). -/
def setEye (l : Lane) (blocked : Bool) (s : State) : State := s.updLane l fun x => { x with eyeBlocked := blocked }

/-- A change from clear to blocked: a leading edge, delivered while the lane is RUNNING or STOPPING (R15). -/
def takeLeadingEdge (l : Lane) (s : State) : State :=
  if (s.lane l).eyeBlocked then s
  else if (s.lane l).mode = .disabled then setEye l true s
  else leadingEdge l (setEye l true s)

/-- A change from blocked to clear: a trailing edge, delivered while the lane is RUNNING or STOPPING (R15). -/
def takeTrailingEdge (l : Lane) (s : State) : State :=
  if (s.lane l).eyeBlocked then
    if (s.lane l).mode = .disabled then setEye l false s else trailingEdge l (setEye l false s)
  else s

end Sys2Proof.Machine
end

