-- ==== Sys2Proof/Machine/Measure.lean ====
section
/-!
DEFINITION. The arithmetic of one joint evaluation (07): cells, validity, heights, reference surface, pad measures,
bridge count, outcome. All of it is exact integer arithmetic; `/` on Int with a positive divisor is floor division
(00_scope 4.4).
-/

namespace Sys2Proof.Machine

/-- Rounded half up: the floor of half the divisor is added before the floor division (00_scope 4.4). -/
def roundedHalfUp (n : Int) (d : Int) : Int := (n + d / 2) / d

/-- A cell of the board: row counted from the board's first line, and column (R121). -/
structure Cell where
  row : Nat
  col : Nat
deriving DecidableEq, Repr

/-- The cells of a rectangle, row by row. -/
def rectangle (row0 nrows col0 ncols : Nat) : List Cell :=
  (List.range nrows).flatMap fun i => (List.range ncols).map fun k => { row := row0 + i, col := col0 + k }

/-- The pad (R121). -/
def Joint.padCells (j : Joint) : List Cell := rectangle j.row0 j.nrows j.col0 j.ncols

/-- Whether a cell lies in the pad. -/
def Joint.inPad (j : Joint) (c : Cell) : Bool :=
  decide (j.row0 ≤ c.row) && decide (c.row < j.row0 + j.nrows) && decide (j.col0 ≤ c.col)
    && decide (c.col < j.col0 + j.ncols)

/-- The reference ring: the pad grown by the margin, less the pad (R121). The close checks keep row0 and col0 at or
above the margin (R94). -/
def Joint.ringCells (j : Joint) : List Cell :=
  (rectangle (j.row0 - j.margin) (j.nrows + 2 * j.margin) (j.col0 - j.margin) (j.ncols + 2 * j.margin)).filter
    fun c => !j.inPad c

/-- The gap window (R121); empty without a gap part. -/
def Joint.gapCells (j : Joint) : List Cell :=
  match j.gap with
  | none => []
  | some g => rectangle g.grow0 g.gnrows g.gcol0 g.gncols

/-- T, the number of pad cells (R121). -/
def Joint.padSize (j : Joint) : Nat := j.ncols * j.nrows

/-- The read of row k of the board, line first_line + k, from the head's ring (R121, R122). -/
def readRow (ring : Ring) (firstLine : Word) (row : Nat) : LineRead := Ring.read ring (ahead firstLine row)

/-- The raw value of a valid sample (R123): its line was read GOOD, its column is below S, and it is not 4095. -/
def validSample (inp : EvalInputs) (ring : Ring) (c : Cell) : Option Nat :=
  match readRow ring inp.firstLine c.row with
  | .good samples =>
    if c.col < inp.samples then
      match samples[c.col]? with
      | some r => if r = 4095 then none else some r
      | none => none
    else none
  | .missed => none
  | .pending => none
  | .notHeld => none

/-- The height of a valid sample in micrometres (R125): ((r − Z0) × G + 128) / 256, rounded down. -/
def heightOf (z0 g r : Nat) : Int := (((r : Int) - z0) * g + 128) / 256

/-- The heights of the valid samples of some cells (R126). -/
def validHeights (inp : EvalInputs) (ring : Ring) (cells : List Cell) : List Int :=
  (cells.filterMap (validSample inp ring)).map (heightOf inp.zero inp.gain)

/-- Whether a pad row was read MISSED (R124). -/
def padRowMissed (inp : EvalInputs) (ring : Ring) : Bool :=
  (List.range inp.joint.nrows).any fun i =>
    decide (readRow ring inp.firstLine (inp.joint.row0 + i) = .missed)

/-- OCCLUDED (R127): no valid pad sample, or the valid per-mille below valid_min. -/
def isOccluded (c : ClassEntry) (nv t : Nat) : Bool := decide (nv = 0) || decide (1000 * nv / t < c.validMin)

/-- The reference height: the mean of the valid ring heights, rounded half up (R129). -/
def referenceHeight (ringHeights : List Int) : Int := roundedHalfUp ringHeights.sum ringHeights.length

/-- A pad height above reference, clamped into 0..hclamp (R130). -/
def clampedHeight (hclamp : Nat) (zRef z : Int) : Nat := min hclamp (z - zRef).toNat

/-- The pad measures (R131 to R133). -/
structure PadMeasures where
  vScaled : Nat
  peak : Nat
  coverage : Nat
deriving DecidableEq, Repr

/-- Scaled volume, peak and coverage of the clamped heights of the valid pad samples (R131 to R133). -/
def padMeasures (c : ClassEntry) (t : Nat) (hs : List Nat) : PadMeasures :=
  let nv := hs.length
  { vScaled := (hs.sum * t + nv / 2) / nv
    peak := hs.foldl max 0
    coverage := 1000 * (hs.filter fun h => decide (c.wetHeight ≤ h)).length / nv }

/-- BRIDGED (R134): the gap part is present, and at least bridge_count valid gap samples stand bridge_height or more
above reference, unclamped. -/
def isBridged (j : Joint) (zRef : Int) (gapHeights : List Int) : Bool :=
  match j.gap with
  | none => false
  | some g => decide (g.bridgeCount ≤ (gapHeights.filter fun z => decide ((g.bridgeHeight : Int) ≤ z - zRef)).length)

/-- The outcome of measured pad and gap: rows 4 to 9 of R136. -/
def gradeOutcome (c : ClassEntry) (bridged : Bool) (m : PadMeasures) : JointOutcome :=
  if bridged then .bridged
  else if c.pmax < m.peak then .lifted
  else if m.vScaled < c.vmin then .insufficient
  else if c.vmax < m.vScaled then .excess
  else if m.coverage < c.cmin then .nonWet
  else .good

/-- The evaluation of an item that is not spoiled: outcome and measures in the order of R136, with the fields of
R137. -/
def measureJoint (inp : EvalInputs) (ring : Ring) : OutcomeRecord :=
  let j := inp.joint
  let record (o : JointOutcome) (m : Measures) : OutcomeRecord := { jointId := j.jointId, outcome := o, measures := m }
  if padRowMissed inp ring then record .dataLost .absent
  else
    let pad := validHeights inp ring j.padCells
    let nv := pad.length
    if isOccluded inp.cls nv j.padSize then record .occluded (.validOnly nv)
    else
      let refs := validHeights inp ring j.ringCells
      if refs.length < 8 then record .noRef (.validOnly nv)
      else
        let zRef := referenceHeight refs
        let m := padMeasures inp.cls j.padSize (pad.map (clampedHeight inp.cls.hclamp zRef))
        let bridged := isBridged j zRef (validHeights inp ring j.gapCells)
        record (gradeOutcome inp.cls bridged m) (.full m.vScaled m.peak m.coverage zRef nv)

/-- Whether a read of a line of the item returns not held (R112, R122). The lines are the item's range, first to last
needed line. -/
def rangeNotHeld (ring : Ring) (item : WorkItem) : Bool :=
  (List.range ((item.lastNeeded - item.firstNeeded).toNat + 1)).any fun k =>
    decide (Ring.read ring (ahead item.firstNeeded k) = .notHeld)

/-- The outcome record at a completion with discard clear (R116, R122): DATA_LOST with no measures if the item is
spoiled or a read returned not held, else the measurement. Inputs are absent only in states no run reaches (log entry
15). -/
def evaluationOutcome (e : Evaluation) (ring : Ring) : OutcomeRecord :=
  match e.inputs with
  | none => { jointId := 0, outcome := .dataLost, measures := .absent }
  | some inp =>
    if e.spoiled || rangeNotHeld ring e.item then
      { jointId := inp.joint.jointId, outcome := .dataLost, measures := .absent }
    else measureJoint inp ring

end Sys2Proof.Machine
end

