-- ==== Sys2Proof/Machine/FieldCommands.lean ====
section
/-!
DEFINITION. The meanings of the field rows: the belt, the watched positions, the heads, the evaluation units and the
end of a close.
-/

namespace Sys2Proof.Machine

/-- ENCODER_STATE_CHANGE (R1). -/
def execEncoderStateChange (l : Lane) (p q : Bool) (s : State) : Result := inTurn (observeEncoder l p q) s

/-- LANE_TRIGGER (R13). -/
def execLaneTrigger (l : Lane) (s : State) : Result := inService (issueTrigger l) s

/-- LEADING_EDGE (R24). -/
def execLeadingEdge (l : Lane) (s : State) : Result := inTurn (takeLeadingEdge l) s

/-- TRAILING_EDGE (R28). -/
def execTrailingEdge (l : Lane) (s : State) : Result := inTurn (takeTrailingEdge l) s

/-- DEADLINE (R37). -/
def execDeadline (l : Lane) (s : State) : Result := inService (takeDeadline l) s

/-- GATE_WINDOW_START (R39). -/
def execGateWindowStart (l : Lane) (s : State) : Result := inService (takeGateStart l) s

/-- GATE_WINDOW_END (R40). -/
def execGateWindowEnd (l : Lane) (s : State) : Result := inService (removeFront l) s

/-- FLOOD_END (R27). -/
def execFloodEnd (l : Lane) (s : State) : Result := inService (takeFloodEnd l) s

/-- PROFILE_FRAME (R54, R56). -/
def execProfileFrame (h : HeadId) (words : List Half) (s : State) : Result := inTurn (receiveFrame h words) s

/-- ALIGNMENT_FRAME (R48, R56). -/
def execAlignmentFrame (h : HeadId) (words : List Half) (s : State) : Result := inTurn (receiveFrame h words) s

/-- TRIGGER_TIMEOUT (R52). -/
def execTriggerTimeout (h : HeadId) (t : Word) (s : State) : Result := inTurn (timeOutTrigger h t) s

/-- TAP_TIMEOUT (R48). -/
def execTapTimeout (h : HeadId) (s : State) : Result := inTurn (failTap h) s

/-- A unit becomes IDLE (R116). -/
def freeUnit (u : UnitId) (s : State) : State := s.setUnit u none

/-- The end of an evaluation (R116, R117): with discard set the result is dropped; else the outcome record goes to the
Verdict Unit and in_flight decrements in the same event. The unit becomes IDLE and may take a grant. -/
def completeEvaluation (u : UnitId) (s : State) : State :=
  match s.unitOf u with
  | none => s
  | some e =>
    if e.discard then grants (freeUnit u s)
    else
      let outcome := evaluationOutcome e (s.head e.item.head).ring
      let s1 := updWork e.item.lane e.item.record (fun w => { w with inFlight := w.inFlight - 1 }) (freeUnit u s)
      grants (takeOutcome e.item.lane e.item.record outcome s1)

/-- EVALUATION_COMPLETE (R116). -/
def execEvaluationComplete (u : UnitId) (s : State) : Result := inTurn (completeEvaluation u) s

/-- CLOSE_END (R93). -/
def execCloseEnd (n : SlotId) (s : State) : Result := inTurn (endClose n) s

end Sys2Proof.Machine
end

