-- ==== Sys2Proof/Machine/HeadCommands.lean ====
section
/-!
DEFINITION. The meanings of the head requests (03, 04): HEAD_SETUP, HEAD_ALIGN and CAL_REQUEST.
-/

namespace Sys2Proof.Machine

/-- Whether a lane, or NONE, is not DISABLED (R43 checks 3 and 4). -/
def laneActive (s : State) (l : Option Lane) : Bool :=
  match l with
  | some l => decide ((s.lane l).mode ≠ .disabled)
  | none => false

/-! ### HEAD_SETUP (R43, R44) -/

/-- Check 7 of R43: another head is already assigned to the lane at the same lane order. -/
def orderTaken (s : State) (h : HeadId) (st : HeadSettings) : Bool :=
  match st.lane with
  | none => false
  | some l => Four.all.any fun g => decide (g ≠ h) && (s.head g).serves l st.laneOrder

/-- The Head Port after an accepted HEAD_SETUP (R44): settings stored, ring emptied, last trigger and front absent,
missed run 0, SILENT clear; state, tap and sticky flags kept. The outstanding list is already empty. -/
def HeadPort.setup (st : HeadSettings) (h : HeadPort) : HeadPort :=
  { h with settings := some st, ring := [], lastTrigger := none, outstanding := [], missedRun := 0, silent := false }

/-- An accepted HEAD_SETUP (R44, R14, R69). -/
def storeHead (h : HeadId) (st : HeadSettings) (s : State) : State :=
  ((s.updHead h (HeadPort.setup st)).setDue h 0).updCal h (CalRecord.setup st.initialZero st.initialGain)

/-- HEAD_SETUP for a head and a target lane: checks 2 to 7 of R43. -/
def setupHead (tag : Byte) (h : HeadId) (st : HeadSettings) (s : State) : State :=
  if (s.head h).sweeping then replyRefused kindHeadSetup tag .busy [] s
  else if headActive s h || laneActive s st.lane then replyRefused kindHeadSetup tag .state [] s
  else if !st.inRanges || !st.regionsFit || orderTaken s h st then replyRefused kindHeadSetup tag .range [] s
  else replyDone kindHeadSetup tag (headSettingsBytes h st) (storeHead h st s)

/-- HEAD_SETUP, with check 1 of R43. -/
def headSetupBody (tag : Byte) (p : List Byte) (s : State) : State :=
  match Four.ofNat? (fieldAt p 0 1), headLaneOf? (fieldAt p 1 1) with
  | some h, some l => setupHead tag h (readHeadSettings l p) s
  | _, _ => replyRefused kindHeadSetup tag .range [] s

/-- HEAD_SETUP (R44). -/
def execHeadSetup (s : State) : Result := inTurn (takeKind kindHeadSetup headSetupBody) s

/-! ### HEAD_ALIGN (R47) -/

/-- HEAD_ALIGN for a head: checks 2 and 3 of R47, then the sweep starts and the reply waits for its end. -/
def alignHead (tag : Byte) (h : HeadId) (s : State) : State :=
  if (s.head h).sweeping then replyRefused kindHeadAlign tag .busy [] s
  else if headActive s h then replyRefused kindHeadAlign tag .state [] s
  else s.updHead h (HeadPort.startSweep tag s.now)

/-- HEAD_ALIGN, with check 1 of R47. -/
def headAlignBody (tag : Byte) (p : List Byte) (s : State) : State :=
  match Four.ofNat? (fieldAt p 0 1) with
  | some h => alignHead tag h s
  | none => replyRefused kindHeadAlign tag .range [] s

/-- HEAD_ALIGN (R47). -/
def execHeadAlign (s : State) : Result := inTurn (takeKind kindHeadAlign headAlignBody) s

/-! ### CAL_REQUEST (R72) -/

/-- CAL_REQUEST for a head (R72). -/
def requestCal (tag : Byte) (h : HeadId) (s : State) : State :=
  match headLane s h with
  | none => replyRefused kindCalRequest tag .state [] s
  | some _ =>
    replyDone kindCalRequest tag (signed8 (s.calOf h).balance ++ [flagByte (s.calOf h).attempt.isSome])
      (s.updCal h CalRecord.request)

def calRequestBody (tag : Byte) (p : List Byte) (s : State) : State :=
  match Four.ofNat? (fieldAt p 0 1) with
  | some h => requestCal tag h s
  | none => replyRefused kindCalRequest tag .range [] s

/-- CAL_REQUEST (R72). -/
def execCalRequest (s : State) : Result := inTurn (takeKind kindCalRequest calRequestBody) s

end Sys2Proof.Machine
end

