-- ==== Sys2Proof/Machine/LaneCommands.lean ====
section
/-!
DEFINITION. The meanings of the lane requests (01, 02): LANE_SETUP, LANE_START, LANE_STOP in both modes, EXPECT,
WITHDRAW and lane STATUS. Each is the handler's taking of the oldest request (R176), whose payload gives the operands.
-/

namespace Sys2Proof.Machine

/-! ### LANE_SETUP (R5) -/

/-- A LANE_SETUP that names a lane: checks 2 to 8 of R5, then the settings are stored and echoed. -/
def setupLane (tag : Byte) (p : List Byte) (l : Lane) (s : State) : State :=
  if (s.lane l).mode ≠ .disabled then replyRefused kindLaneSetup tag .state [] s
  else
    match readLaneSettings p with
    | none => replyRefused kindLaneSetup tag .range [] s
    | some st =>
      if st.inRanges then
        replyDone kindLaneSetup tag (laneSettingsBytes l st) (s.updLane l fun x => { x with settings := some st })
      else replyRefused kindLaneSetup tag .range [] s

/-- LANE_SETUP, with check 1 of R5. -/
def laneSetupBody (tag : Byte) (p : List Byte) (s : State) : State :=
  match laneOf? (fieldAt p 0 1) with
  | none => replyRefused kindLaneSetup tag .range [] s
  | some l => setupLane tag p l s

/-- LANE_SETUP (R5). -/
def execLaneSetup (s : State) : Result := inTurn (takeKind kindLaneSetup laneSetupBody) s

/-! ### LANE_START (R8) -/

/-- Whether a head is ALIGNED. -/
def HeadPort.isAligned (h : HeadPort) : Bool :=
  match h.mode with
  | .aligned => true
  | .aligning _ => false
  | .unaligned => false

/-- Checks 4 to 6 of R8: some head is assigned, the lane orders are 0, or 0 and 1, and every assigned head is
ALIGNED. -/
def headsReady (s : State) (l : Lane) : Bool :=
  (headAt s l 0).isSome && (laneHeads s l).all fun h => (s.head h).isAligned

/-- The lane starts to run (R8), and its output is re-evaluated (R161). -/
def LaneState.start (st : LaneSettings) (x : LaneState) : LaneState :=
  ({ x with nextTrigger := some (ahead x.enc.position st.lineStep), untracked := 0, mode := .running } :
    LaneState).reevaluate

/-- What an accepted LANE_START does (R8). -/
def startLane (st : LaneSettings) (l : Lane) (s : State) : State :=
  updCals (laneHeads s l) CalRecord.startLane (s.updLane l (LaneState.start st))

/-- A LANE_START that names a lane: checks 2 to 6 of R8, then the start. -/
def laneStartOn (tag : Byte) (l : Lane) (s : State) : State :=
  if (s.lane l).mode ≠ .disabled then replyRefused kindLaneStart tag .state [] s
  else
    match (s.lane l).settings with
    | none => replyRefused kindLaneStart tag .state [] s
    | some st =>
      if headsReady s l then
        replyDone kindLaneStart tag
          (le32 (s.lane l).enc.position.toNat ++ le32 (s.lane l).triggerIndex.toNat) (startLane st l s)
      else replyRefused kindLaneStart tag .state [] s

/-- LANE_START, with check 1 of R8. -/
def laneStartBody (tag : Byte) (p : List Byte) (s : State) : State :=
  match laneOf? (fieldAt p 0 1) with
  | none => replyRefused kindLaneStart tag .range [] s
  | some l => laneStartOn tag l s

/-- LANE_START (R8). -/
def execLaneStart (s : State) : Result := inTurn (takeKind kindLaneStart laneStartBody) s

/-! ### LANE_STOP (R10, R12) -/

/-- The DONE result of LANE_STOP: lane state and records abandoned (09, section 9.9). -/
def stopResult (m : LaneMode) (abandoned : Nat) : List Byte := [m.code, byteOf abandoned]

/-- LANE_STOP DRAIN by the lane state (R10). -/
def drainLane (tag : Byte) (l : Lane) (s : State) : State :=
  match (s.lane l).mode with
  | .disabled => replyRefused kindLaneStop tag .state [] s
  | .stopping => replyDone kindLaneStop tag (stopResult .stopping 0) s
  | .running =>
    if (s.lane l).transit = [] then replyDone kindLaneStop tag (stopResult .disabled 0) (enterDisabled l s)
    else replyDone kindLaneStop tag (stopResult .stopping 0) (s.updLane l fun x => { x with mode := .stopping })

/-- LANE_STOP ABANDON by the lane state (R12); the reply follows the releases (R153). -/
def abandonOn (tag : Byte) (l : Lane) (s : State) : State :=
  if (s.lane l).mode = .disabled then replyRefused kindLaneStop tag .state [] s
  else replyDone kindLaneStop tag (stopResult .disabled (undecidedCount (s.lane l))) (abandonLane l s)

/-- LANE_STOP: the lane, then the mode, then the lane state (R10). -/
def laneStopBody (tag : Byte) (p : List Byte) (s : State) : State :=
  match laneOf? (fieldAt p 0 1) with
  | none => replyRefused kindLaneStop tag .range [] s
  | some l =>
    match fieldAt p 1 1 with
    | 0 => drainLane tag l s
    | 1 => abandonOn tag l s
    | _ => replyRefused kindLaneStop tag .range [] s

/-- LANE_STOP_DRAIN (R10). -/
def execLaneStopDrain (s : State) : Result := inTurn (takeVariant kindLaneStop 1 0 2 laneStopBody) s

/-- LANE_STOP_ABANDON (R12). -/
def execLaneStopAbandon (s : State) : Result := inTurn (takeVariant kindLaneStop 1 1 2 laneStopBody) s

/-! ### EXPECT (R21) -/

/-- A provisional record (R21 check 6): bound, ENTERING, without a trailing edge, its glitch limit not reached. -/
def isProvisional (st : LaneSettings) (position : Word) (r : BoardRecord) : Bool :=
  r.binding.isSome && decide (r.state = .entering) && r.pTrail.isNone && !reached position (glitchLimit st r)

/-- Whether the newest record of the lane is provisional. -/
def newestProvisional (st : LaneSettings) (x : LaneState) : Bool :=
  match x.transit.getLast? with
  | some r => isProvisional st x.enc.position r
  | none => false

/-- The expect queue counts as full (R21 check 6). -/
def expectFull (st : LaneSettings) (x : LaneState) : Bool :=
  decide (Config.expectDepth ≤ x.expect.length)
    || (decide (x.expect.length = Config.expectDepth - 1) && newestProvisional st x)

/-- Whether a board tag stands in the expect queue or the transit queue (R20). -/
def tagStands (tag : Word) (x : LaneState) : Bool :=
  (x.expect.any fun e => decide (e.tag = tag)) || x.transit.any fun r => decide (r.tag = some tag)

/-- Checks 4 to 7 of R21 in their order: the refusal, or none. -/
def expectRefusal (s : State) (l : Lane) (st : LaneSettings) (h : Header) (tag : Word) : Option RefusalCode :=
  if h.lineStep ≠ st.lineStep ∨ (laneHeads s l).length < h.headsUsed then some .mismatch
  else if st.dGate - st.gateLead < st.dScan + h.boardLines * st.lineStep then some .geometry
  else if expectFull st (s.lane l) then some .full
  else if tagStands tag (s.lane l) then some .duplicate
  else none

/-- An accepted EXPECT: the entry joins the back, the slot takes a reference (R21). -/
def addExpect (l : Lane) (e : ExpectEntry) (s : State) : State :=
  (s.updLane l fun x => { x with expect := x.expect ++ [e] }).updSlot e.slot RecipeSlot.addReference

/-- An EXPECT whose operands name a lane, a tag and a slot: checks 2 to 7 of R21. -/
def expectOn (reqTag : Byte) (l : Lane) (tag : Word) (n : SlotId) (s : State) : State :=
  if (s.lane l).mode ≠ .running then replyRefused kindExpect reqTag .state [] s
  else if (s.slot n).state ≠ .ready then replyRefused kindExpect reqTag .state [] s
  else
    match (s.lane l).settings, (s.slot n).header with
    | some st, some h =>
      match expectRefusal s l st h tag with
      | some code => replyRefused kindExpect reqTag code [] s
      | none =>
        replyDone kindExpect reqTag [byteOf ((s.lane l).expect.length + 1)] (addExpect l { tag := tag, slot := n } s)
    | _, _ => replyRefused kindExpect reqTag .state [] s

/-- EXPECT, with check 1 of R21. -/
def expectBody (reqTag : Byte) (p : List Byte) (s : State) : State :=
  match laneOf? (fieldAt p 0 1), Four.ofNat? (fieldAt p 5 1) with
  | some l, some n =>
    if fieldAt p 1 4 = 0 then replyRefused kindExpect reqTag .range [] s
    else expectOn reqTag l (BitVec.ofNat 32 (fieldAt p 1 4)) n s
  | _, _ => replyRefused kindExpect reqTag .range [] s

/-- EXPECT (R21). -/
def execExpect (s : State) : Result := inTurn (takeKind kindExpect expectBody) s

/-! ### WITHDRAW (R38) -/

/-- The entry of this tag leaves the expect queue, and its reference is released (R38 step 1). -/
def withdrawEntry (l : Lane) (e : ExpectEntry) (s : State) : State :=
  releaseSlot e.slot (s.updLane l fun x => { x with expect := x.expect.eraseP fun f => decide (f.tag = e.tag) })

/-- The transit record of a tag, if any. -/
def LaneState.taggedRecord (tag : Word) (x : LaneState) : Option BoardRecord :=
  x.transit.find? fun r => decide (r.tag = some tag)

/-- WITHDRAW of a tag on a lane: the expect queue first, then the transit queue (R38). The releases that the decision
brings come before the reply, so the answers they give to parked COLLECTs (R157) stand in the outbox ahead of it. The
spec states this order for ABANDON only (R153): here it is the model's choice (log entry 27). -/
def withdrawOn (reqTag : Byte) (l : Lane) (tag : Word) (s : State) : State :=
  match (s.lane l).expect.find? fun e => decide (e.tag = tag) with
  | some e => replyDone kindWithdraw reqTag [0, 0xFF] (withdrawEntry l e s)
  | none =>
    match (s.lane l).taggedRecord tag with
    | none => replyRefused kindWithdraw reqTag .notFound [] s
    | some r =>
      if r.state = .decided then replyRefused kindWithdraw reqTag .tooLate [] s
      else replyDone kindWithdraw reqTag [1, r.state.code] (decideAndExamine .withdraw l r.ident s)

/-- WITHDRAW, with its range check (R38). -/
def withdrawBody (reqTag : Byte) (p : List Byte) (s : State) : State :=
  match laneOf? (fieldAt p 0 1) with
  | none => replyRefused kindWithdraw reqTag .range [] s
  | some l =>
    if fieldAt p 1 4 = 0 then replyRefused kindWithdraw reqTag .range [] s
    else withdrawOn reqTag l (BitVec.ofNat 32 (fieldAt p 1 4)) s

/-- WITHDRAW (R38). -/
def execWithdraw (s : State) : Result := inTurn (takeKind kindWithdraw withdrawBody) s

/-! ### STATUS (R17, R18, R65, R66, R181, R182) -/

/-- The clear set of a STATUS payload. -/
def clearSet (p : List Byte) : Byte := byteOf (fieldAt p 2 1)

/-- STATUS for a lane (R17, R18). -/
def statusOfLane (tag : Byte) (l : Lane) (clear : Byte) (s : State) : State :=
  if namesOnly clear laneSticky then
    replyDone kindStatus tag (laneStatusBytes (s.lane l)) (s.updLane l (LaneState.clearFlags clear))
  else replyRefused kindStatus tag .range [] s

/-- STATUS for a head (R65, R66). -/
def statusOfHead (tag : Byte) (h : HeadId) (clear : Byte) (s : State) : State :=
  if namesOnly clear headSticky then
    replyDone kindStatus tag (headStatusBytes (s.head h) (s.calOf h)) (s.updHead h (HeadPort.clearFlags clear))
  else replyRefused kindStatus tag .range [] s

/-- STATUS for the link (R182): the reserved places count the one of this reply. -/
def statusOfLink (tag : Byte) (clear : Byte) (s : State) : State :=
  if namesOnly clear linkSticky then
    replyDone kindStatus tag (linkStatusBytes s.link (reservedPlaces s + 1)) (s.updLink (LinkPort.clearFlags clear))
  else replyRefused kindStatus tag .range [] s

/-- STATUS by its target kind: 0 link, 1 lane, 2 head (R181). -/
def statusBody (tag : Byte) (p : List Byte) (s : State) : State :=
  match fieldAt p 0 1 with
  | 0 => statusOfLink tag (clearSet p) s
  | 1 =>
    match laneOf? (fieldAt p 1 1) with
    | some l => statusOfLane tag l (clearSet p) s
    | none => replyRefused kindStatus tag .range [] s
  | 2 =>
    match Four.ofNat? (fieldAt p 1 1) with
    | some h => statusOfHead tag h (clearSet p) s
    | none => replyRefused kindStatus tag .range [] s
  | _ => replyRefused kindStatus tag .range [] s

/-- LINK_STATUS (R182). -/
def execLinkStatus (s : State) : Result := inTurn (takeVariant kindStatus 0 0 3 statusBody) s

/-- LANE_STATUS (R17). -/
def execLaneStatus (s : State) : Result := inTurn (takeVariant kindStatus 0 1 3 statusBody) s

/-- HEAD_STATUS (R65). -/
def execHeadStatus (s : State) : Result := inTurn (takeVariant kindStatus 0 2 3 statusBody) s

end Sys2Proof.Machine
end

