-- ==== Sys2Proof/Machine/LinkCommands.lean ====
section
/-!
DEFINITION. The meanings of the rows of the serial line (09, sections 9.1, 9.2): the receiver, the transmitter and the
flow control.
-/

namespace Sys2Proof.Machine

/-- The payload length of a header (09, section 9.2). -/
def headerLength (lenLo lenHi : Byte) : Nat := lenLo.toNat + 256 * lenHi.toNat

/-- The receiver returns to HUNT. -/
def toHunt (s : State) : State := s.updLink fun k => { k with receiver := .hunt }

/-- A byte of a frame is taken: the receiver goes on in HEADER or BODY, and the inter-byte time starts again (R168,
R171). -/
def collectInto (r : Receiver) (s : State) : State :=
  s.updLink fun k => { k with receiver := r, lastByteAt := s.now }

/-- The receiver rejects a frame and returns to HUNT (R169, R170, R173). The REJECT is placed after the answers to the
events already reached (R4; log entry 2). -/
def rejectFrame (kind tag : Byte) (code : RejectCode) (s : State) : State :=
  offerReject kind tag code (toHunt (takeReached s))

/-- A header is complete (R168, R169): a length above 1020 is rejected LENGTH, else the body follows. -/
def completeHeader (lenLo lenHi kind tag : Byte) (s : State) : State :=
  if Config.maxPayload < headerLength lenLo lenHi then rejectFrame kind tag .length s
  else collectInto (.body lenLo lenHi kind tag []) s

/-- A frame enters the inbox at the back, and HOLD_OUT follows (R165, R170 step 3). -/
def enterInbox (r : Request) (s : State) : State := s.updLink fun k => k.withInbox (k.inbox ++ [r])

/-- A frame is complete (R170): rejected CHECK, rejected FULL, or taken into the inbox. -/
def completeFrame (lenLo lenHi kind tag : Byte) (payload : List Byte) (check : Byte) (s : State) : State :=
  if crc8 ([lenLo, lenHi, kind, tag] ++ payload) ≠ check then rejectFrame kind tag .check s
  else if Config.inboxDepth ≤ s.link.inbox.length then rejectFrame kind tag .full s
  else enterInbox { kind := kind, tag := tag, payload := payload, marked := false } (toHunt s)

/-- A good byte is taken by the receiver (R168 to R170). -/
def takeByte (b : Byte) (s : State) : State :=
  match s.link.receiver with
  | .hunt => if b = syncByte then collectInto (.header []) s else s
  | .header [lenLo, lenHi, kind] => completeHeader lenLo lenHi kind b s
  | .header got => collectInto (.header (got ++ [b])) s
  | .body lenLo lenHi kind tag got =>
    if headerLength lenLo lenHi ≤ got.length then completeFrame lenLo lenHi kind tag got b s
    else collectInto (.body lenLo lenHi kind tag (got ++ [b])) s

/-- Whether the next byte is the tag byte of a header whose length is above 1020 (R169). -/
def awaitsBadTag (r : Receiver) : Bool :=
  match r with
  | .header [lenLo, lenHi, _] => decide (Config.maxPayload < headerLength lenLo lenHi)
  | .header _ => false
  | .hunt => false
  | .body _ _ _ _ _ => false

/-- Whether the next byte is the check byte of a frame (R170). -/
def awaitsCheck (r : Receiver) : Bool :=
  match r with
  | .body lenLo lenHi _ _ got => decide (headerLength lenLo lenHi ≤ got.length)
  | .header _ => false
  | .hunt => false

/-- GOOD_BYTE (R168): the byte is taken, with all that it completes (log entry 9). -/
def execGoodByte (b : Byte) (s : State) : Result := inService (takeByte b) s

/-- FRAME_RECEIVED (R170): the check byte of the frame in BODY is taken (log entry 9). -/
def execFrameReceived (b : Byte) (s : State) : Result :=
  inService (fun s => if awaitsCheck s.link.receiver then takeByte b s else s) s

/-- HEADER_LENGTH_REJECT (R169): the tag byte of a header with length above 1020 is taken (log entry 9). -/
def execHeaderLengthReject (b : Byte) (s : State) : Result :=
  inService (fun s => if awaitsBadTag s.link.receiver then takeByte b s else s) s

/-- More than 2 ms have passed since the last byte of the frame in course: its bytes are discarded and TIMEOUT set
(R171). -/
def loseSlowFrame (s : State) : State :=
  (s.atLeast (s.link.lastByteAt + Config.byteTimeout)).updLink fun k => { k with receiver := .hunt, timeout := true }

/-- A frame in HEADER or BODY is abandoned; in HUNT no time is measured (R171). -/
def abandonSlowFrame (s : State) : State :=
  match s.link.receiver with
  | .hunt => s
  | .header _ => loseSlowFrame s
  | .body _ _ _ _ _ => loseSlowFrame s

/-- INTER_BYTE_TIMEOUT (R171). Time moves on only after the events already reached (R4; log entries 2, 4): a trigger
already reached is issued at the time before. -/
def execInterByteTimeout (s : State) : Result := inTurn abandonSlowFrame s

/-- STOP_BIT_ERROR (R172): LINK_FRAMING is set and any frame in course abandoned. -/
def execStopBitError (s : State) : Result :=
  inService (fun s => s.updLink fun k => { k with receiver := .hunt, linkFraming := true }) s

/-- HOLD_IN_CHANGE (R166): the level of the input, which the transmitter reads before it starts a reply. An input keeps
its level while RESET_N is asserted (log entry 7). -/
def execHoldInChange (asserted : Bool) (s : State) : Result :=
  .next (s.updLink fun k => { k with holdIn := asserted })

/-- An IDLE transmitter with a reply in the outbox and HOLD_IN deasserted starts on the oldest reply (R166). -/
def startTransmit (s : State) : State :=
  match s.link.transmitter, s.link.outbox with
  | .idle, r :: _ => if s.link.holdIn then s else s.updLink fun k => { k with transmitter := .sending (frameOf r) }
  | _, _ => s

/-- TRANSMIT_START (R166). -/
def execTransmitStart (s : State) : Result := inTurn startTransmit s

/-- The check byte has been sent: the reply leaves the outbox, its place is free, the transmitter is IDLE (R166). -/
def finishTransmit (s : State) : State :=
  match s.link.transmitter with
  | .idle => s
  | .sending frame =>
    s.updLink fun k => { k with transmitter := .idle, outbox := k.outbox.drop 1, sent := k.sent ++ [frame] }

/-- REPLY_SENT (R166). -/
def execReplySent (s : State) : Result := inService finishTransmit s

end Sys2Proof.Machine
end

