-- ==== Sys2Proof/Machine/RecipeCommands.lean ====
section
/-!
DEFINITION. The meanings of the recipe requests (05) and of COLLECT (08, R156).
-/

namespace Sys2Proof.Machine

/-- The checks of R86 on the slot a RECIPE_ request names: RANGE outside 0..3, BUSY while CLOSING. -/
def onSlot (kind tag : Byte) (p : List Byte) (body : SlotId → State → State) (s : State) : State :=
  match Four.ofNat? (fieldAt p 0 1) with
  | none => replyRefused kind tag .range [] s
  | some n => if (s.slot n).state = .closing then replyRefused kind tag .busy [] s else body n s

/-! ### RECIPE_OPEN (R89) -/

/-- A slot as an accepted RECIPE_OPEN leaves it (R89). -/
def openedSlot (h : Header) : RecipeSlot := { RecipeSlot.empty with state := .loading, header := some h }

def openSlot (tag : Byte) (p : List Byte) (n : SlotId) (s : State) : State :=
  if (s.slot n).state ≠ .empty then replyRefused kindRecipeOpen tag .state [] s
  else if (readHeader p).inRanges then
    replyDone kindRecipeOpen tag (byteOf n.toNat :: headerBytes (readHeader p))
      (s.updSlot n fun _ => openedSlot (readHeader p))
  else replyRefused kindRecipeOpen tag .range [] s

def recipeOpenBody (tag : Byte) (p : List Byte) (s : State) : State :=
  onSlot kindRecipeOpen tag p (openSlot tag p) s

/-- RECIPE_OPEN (R89). -/
def execRecipeOpen (s : State) : Result := inTurn (takeKind kindRecipeOpen recipeOpenBody) s

/-! ### RECIPE_CLASSES (R90) -/

/-- The class entries of a RECIPE_CLASSES payload (R189). -/
def payloadClasses (p : List Byte) : List ClassEntry := readClasses ((p.length - 1) / 16) (p.drop 1)

/-- The class count of a slot's header; a LOADING slot always has one (R89). -/
def RecipeSlot.classCount (n : RecipeSlot) : Nat :=
  match n.header with
  | some h => h.classCount
  | none => 0

def loadClasses (tag : Byte) (p : List Byte) (n : SlotId) (s : State) : State :=
  let cs := payloadClasses p
  if (s.slot n).state ≠ .loading then replyRefused kindRecipeClasses tag .state [] s
  else if cs.length ≠ (s.slot n).classCount then replyRefused kindRecipeClasses tag .range [] s
  else
    match firstFailing ClassEntry.inRanges 0 cs with
    | some i => replyRefused kindRecipeClasses tag .range [byteOf i] s
    | none =>
      replyDone kindRecipeClasses tag [byteOf cs.length] (s.updSlot n fun x => { x with classes := some cs })

def recipeClassesBody (tag : Byte) (p : List Byte) (s : State) : State :=
  onSlot kindRecipeClasses tag p (loadClasses tag p) s

/-- RECIPE_CLASSES (R90). -/
def execRecipeClasses (s : State) : Result := inTurn (takeKind kindRecipeClasses recipeClassesBody) s

/-! ### RECIPE_JOINTS (R91) -/

/-- The joint count of a slot's header; a LOADING slot always has one (R89). -/
def RecipeSlot.jointCount (n : RecipeSlot) : Nat :=
  match n.header with
  | some h => h.jointCount
  | none => 0

/-- A run of joint records at the end of the joint table (R91). -/
def appendJoints (tag : Byte) (ws : List WireJoint) (n : SlotId) (s : State) : State :=
  let loaded := (s.slot n).joints.length
  if ws = [] ∨ (s.slot n).jointCount < loaded + ws.length then replyRefused kindRecipeJoints tag .range [] s
  else
    match firstFailing WireJoint.inRanges loaded ws with
    | some i => replyRefused kindRecipeJoints tag .range (le16 i) s
    | none =>
      replyDone kindRecipeJoints tag (le16 (loaded + ws.length))
        (s.updSlot n fun x => { x with joints := x.joints ++ ws.map (·.joint) })

def loadJoints (tag : Byte) (p : List Byte) (n : SlotId) (s : State) : State :=
  if (s.slot n).state ≠ .loading then replyRefused kindRecipeJoints tag .state [] s
  else if fieldAt p 1 2 ≠ (s.slot n).joints.length then
    replyRefused kindRecipeJoints tag .order (le16 (s.slot n).joints.length) s
  else appendJoints tag ((payloadJoints p).getD []) n s

def recipeJointsBody (tag : Byte) (p : List Byte) (s : State) : State :=
  onSlot kindRecipeJoints tag p (loadJoints tag p) s

/-- RECIPE_JOINTS (R91). -/
def execRecipeJoints (s : State) : Result := inTurn (takeKind kindRecipeJoints recipeJointsBody) s

/-! ### RECIPE_CLOSE (R92) -/

def closeSlot (tag : Byte) (n : SlotId) (s : State) : State :=
  if (s.slot n).state = .loading then s.updSlot n fun x => { x with state := .closing, closeTag := some tag }
  else replyRefused kindRecipeClose tag .state [] s

def recipeCloseBody (tag : Byte) (p : List Byte) (s : State) : State :=
  onSlot kindRecipeClose tag p (closeSlot tag) s

/-- RECIPE_CLOSE (R92). -/
def execRecipeClose (s : State) : Result := inTurn (takeKind kindRecipeClose recipeCloseBody) s

/-! ### RECIPE_RETIRE (R98) -/

def retireSlot (tag : Byte) (n : SlotId) (s : State) : State :=
  let x := s.slot n
  match x.state with
  | .empty => replyRefused kindRecipeRetire tag .state [] s
  | .retiring => replyRefused kindRecipeRetire tag .state [] s
  | .closing => replyRefused kindRecipeRetire tag .busy [] s
  | .loading =>
    replyDone kindRecipeRetire tag [SlotState.empty.code, 0] (s.updSlot n fun _ => RecipeSlot.empty)
  | .ready =>
    if x.refs = 0 then
      replyDone kindRecipeRetire tag [SlotState.empty.code, 0] (s.updSlot n fun _ => RecipeSlot.empty)
    else
      replyDone kindRecipeRetire tag [SlotState.retiring.code, byteOf x.refs]
        (s.updSlot n fun y => { y with state := .retiring })

def recipeRetireBody (tag : Byte) (p : List Byte) (s : State) : State :=
  onSlot kindRecipeRetire tag p (retireSlot tag) s

/-- RECIPE_RETIRE (R98). -/
def execRecipeRetire (s : State) : Result := inTurn (takeKind kindRecipeRetire recipeRetireBody) s

/-! ### RECIPE_QUERY (R101) -/

def querySlot (tag : Byte) (n : SlotId) (s : State) : State :=
  replyDone kindRecipeQuery tag (recipeQueryBytes (s.slot n)) s

def recipeQueryBody (tag : Byte) (p : List Byte) (s : State) : State :=
  onSlot kindRecipeQuery tag p (querySlot tag) s

/-- RECIPE_QUERY (R101). -/
def execRecipeQuery (s : State) : Result := inTurn (takeKind kindRecipeQuery recipeQueryBody) s

end Sys2Proof.Machine
end

