-- ==== Sys2Proof/Machine/SystemCommands.lean ====
section
/-!
DEFINITION. The meanings of the remaining rows: COLLECT (08, R156), DESCRIBE (R180), the refusals of the request
handler (R177, R184), RESTART (R183 to R186), and power-on (R187).
-/

namespace Sys2Proof.Machine

/-! ### COLLECT (R156) -/

/-- COLLECT: delivered from the queue, parked, or refused FULL (R156). -/
def collectBody (tag : Byte) (_ : List Byte) (s : State) : State :=
  match s.verdicts.queue with
  | v :: rest => deliver tag v (s.setVerdicts { s.verdicts with queue := rest })
  | [] =>
    if s.verdicts.parked.length < Config.parkedLimit then
      s.setVerdicts { s.verdicts with parked := s.verdicts.parked ++ [tag] }
    else replyRefused kindCollect tag .full [] s

/-- COLLECT (R156). -/
def execCollect (s : State) : Result := inTurn (takeKind kindCollect collectBody) s

/-! ### DESCRIBE (R180) -/

def describeBody (tag : Byte) (_ : List Byte) (s : State) : State := replyDone kindDescribe tag capabilityBytes s

/-- DESCRIBE (R180). -/
def execDescribe (s : State) : Result := inTurn (takeKind kindDescribe describeBody) s

/-! ### The refusals of the request handler (R177, R184) -/

/-- REFUSED KIND: the kind byte carries the kind received (R177). -/
def refuseKind (r : Request) (s : State) : State := replyRefused r.kind r.tag .kind [] s

/-- UNKNOWN_KIND (R177). -/
def execUnknownKind (s : State) : Result := inTurn (takeRequest (fun r => !knownKind r.kind) refuseKind) s

/-- A marked request is answered after the checks of R177: KIND, LENGTH, or RESTARTED (R184). -/
def refuseMarked (r : Request) (s : State) : State :=
  if knownKind r.kind then
    if lengthOk r.kind r.payload then replyRefused r.kind r.tag .restarted [] s
    else replyRefused r.kind r.tag .length [] s
  else refuseKind r s

/-- MARKED_REQUEST (R184). -/
def execMarkedRequest (s : State) : Result := inTurn (takeRequest (·.marked) refuseMarked) s

/-! ### RESTART (R183 to R186) -/

/-- Step 1 of R184: each parked COLLECT, oldest first, is answered REFUSED RESTARTED. -/
def endCollects (s : State) : State :=
  s.verdicts.parked.foldl (fun s tag => replyRefused kindCollect tag .restarted [] s) s

/-- Step 2 of R184: each running sweep's HEAD_ALIGN, in the order of the head numbers. -/
def endSweeps (s : State) : State :=
  Four.all.foldl
    (fun s h =>
      match (s.head h).mode with
      | .aligning sw => replyRefused kindHeadAlign sw.requestTag .restarted [] s
      | .unaligned => s
      | .aligned => s)
    s

/-- Step 3 of R184: each running close's RECIPE_CLOSE, in the order of the slot numbers. -/
def endCloses (s : State) : State :=
  Four.all.foldl
    (fun s n =>
      match (s.slot n).closeTag with
      | some tag => replyRefused kindRecipeClose tag .restarted [] s
      | none => s)
    s

/-- A lane after RESTART (R19, R42, R119, R162): counts, position, trigger index, decoder reference and eye level
kept. -/
def LaneState.restart (x : LaneState) : LaneState :=
  { LaneState.powerOn x.enc.refP x.enc.refQ x.eyeBlocked with
    enc := x.enc
    triggerIndex := x.triggerIndex
    triggerSeen := x.triggerIndex
    nextRecord := x.nextRecord }

/-- The selected tap after RESTART: kept if ALIGNED, 0 otherwise (R67). -/
def HeadPort.keptTap (h : HeadPort) : Nat :=
  match h.mode with
  | .aligned => h.tap
  | .aligning _ => 0
  | .unaligned => 0

/-- A Head Port after RESTART (R50, R67): settings, ALIGNED with its tap, and UNALIGNED kept. -/
def HeadPort.restart (h : HeadPort) : HeadPort :=
  let h' := h.abandonSweep
  { HeadPort.powerOn with settings := h'.settings, mode := h'.mode, tap := h.keptTap, triggerLine := h'.triggerLine }

/-- The Link Port after RESTART (R184, R185): requests present are marked, the flags clear, all else kept. -/
def LinkPort.restart (k : LinkPort) : LinkPort :=
  { k.withInbox (k.inbox.map fun r => { r with marked := true }) with
    linkFraming := false, timeout := false, rejectsDropped := false }

/-- The per-block effects of RESTART (09, table RESTART across the blocks). -/
def restartBlocks (s : State) : State :=
  { s with
    lanes := ⟨s.lanes.a.restart, s.lanes.b.restart⟩
    heads := s.heads.map HeadPort.restart
    due := Quad.all 0
    cal := s.cal.map CalRecord.restart
    slots := s.slots.map RecipeSlot.restart
    pointer := .a
    units := Quad.all none
    verdicts := { queue := [], parked := [], dropped := 0 }
    link := s.link.restart }

/-- RESTART: refused STATE unless both lanes are DISABLED (R183); else the replies of R184, in order, and the effects on
the blocks. -/
def restartBody (tag : Byte) (_ : List Byte) (s : State) : State :=
  if (s.lane .a).mode = .disabled ∧ (s.lane .b).mode = .disabled then
    restartBlocks (replyDone kindRestart tag [] (endCloses (endSweeps (endCollects s))))
  else replyRefused kindRestart tag .state [] s

/-- RESTART (R184). -/
def execRestart (s : State) : Result := inTurn (takeKind kindRestart restartBody) s

/-! ### Power-on (R187) -/

/-- POWER_ON: RESET_N is deasserted, the straps and inputs are sampled, every block takes its power-on values. What
stands outside the part stays: the commands waiting, the level of HOLD_IN, the time, and the count of free values. -/
def powerOn (pins : PowerOnPins) (s : State) : State :=
  let fresh := State.powerOn pins
  { fresh with
    link := { fresh.link with holdIn := s.link.holdIn }
    now := s.now
    freeCount := s.freeCount
    pending := s.pending }

/-- POWER_ON (R187). -/
def execPowerOn (pins : PowerOnPins) (s : State) : Result := .next (powerOn pins s)

/-- RESET_N asserted: the frame being sent is cut off and the frame in course lost, HOLD_OUT is deasserted, both
divert outputs are asserted, and nothing is taken until POWER_ON (R162, R164, R187; log entry 7). -/
def assertReset (s : State) : State :=
  let s1 := (s.updLane .a fun x => { x with divert := true }).updLane .b fun x => { x with divert := true }
  { s1.updLink fun k => { k with transmitter := .idle, receiver := .hunt, holdOut := false } with resetAsserted := true }

/-- RESET_N_ASSERTED (R187). It cuts no event off that an advance has already reached (R4; log entry 2). -/
def execResetNAsserted (s : State) : Result := .next (assertReset (takeReached s))

end Sys2Proof.Machine
end

