-- ==== Sys2Proof/Machine/Dispatch.lean ====
section
/-! DEFINITION. The meaning of each command: one arm per constructor of Instr, one call of its meaning. -/

namespace Sys2Proof.Machine

def exec (i : Instr) (s : State) : Host.Outcome State Fault Refusal :=
  match i with
  | .powerOn pins => Sys2Proof.Machine.execPowerOn pins s
  | .encoderStateChange lane p q => Sys2Proof.Machine.execEncoderStateChange lane p q s
  | .laneTrigger lane => Sys2Proof.Machine.execLaneTrigger lane s
  | .leadingEdge lane => Sys2Proof.Machine.execLeadingEdge lane s
  | .trailingEdge lane => Sys2Proof.Machine.execTrailingEdge lane s
  | .deadline lane => Sys2Proof.Machine.execDeadline lane s
  | .gateWindowStart lane => Sys2Proof.Machine.execGateWindowStart lane s
  | .gateWindowEnd lane => Sys2Proof.Machine.execGateWindowEnd lane s
  | .floodEnd lane => Sys2Proof.Machine.execFloodEnd lane s
  | .profileFrame head words => Sys2Proof.Machine.execProfileFrame head words s
  | .triggerTimeout head index => Sys2Proof.Machine.execTriggerTimeout head index s
  | .evaluationComplete unit => Sys2Proof.Machine.execEvaluationComplete unit s
  | .alignmentFrame head words => Sys2Proof.Machine.execAlignmentFrame head words s
  | .tapTimeout head => Sys2Proof.Machine.execTapTimeout head s
  | .closeEnd slot => Sys2Proof.Machine.execCloseEnd slot s
  | .frameReceived byte => Sys2Proof.Machine.execFrameReceived byte s
  | .headerLengthReject byte => Sys2Proof.Machine.execHeaderLengthReject byte s
  | .interByteTimeout => Sys2Proof.Machine.execInterByteTimeout s
  | .stopBitError => Sys2Proof.Machine.execStopBitError s
  | .holdInChange asserted => Sys2Proof.Machine.execHoldInChange asserted s
  | .transmitStart => Sys2Proof.Machine.execTransmitStart s
  | .replySent => Sys2Proof.Machine.execReplySent s
  | .unknownKind => Sys2Proof.Machine.execUnknownKind s
  | .markedRequest => Sys2Proof.Machine.execMarkedRequest s
  | .describe => Sys2Proof.Machine.execDescribe s
  | .linkStatus => Sys2Proof.Machine.execLinkStatus s
  | .laneStatus => Sys2Proof.Machine.execLaneStatus s
  | .headStatus => Sys2Proof.Machine.execHeadStatus s
  | .restart => Sys2Proof.Machine.execRestart s
  | .laneSetup => Sys2Proof.Machine.execLaneSetup s
  | .laneStart => Sys2Proof.Machine.execLaneStart s
  | .laneStopDrain => Sys2Proof.Machine.execLaneStopDrain s
  | .laneStopAbandon => Sys2Proof.Machine.execLaneStopAbandon s
  | .expect => Sys2Proof.Machine.execExpect s
  | .withdraw => Sys2Proof.Machine.execWithdraw s
  | .headSetup => Sys2Proof.Machine.execHeadSetup s
  | .headAlign => Sys2Proof.Machine.execHeadAlign s
  | .calRequest => Sys2Proof.Machine.execCalRequest s
  | .recipeOpen => Sys2Proof.Machine.execRecipeOpen s
  | .recipeClasses => Sys2Proof.Machine.execRecipeClasses s
  | .recipeJoints => Sys2Proof.Machine.execRecipeJoints s
  | .recipeClose => Sys2Proof.Machine.execRecipeClose s
  | .recipeRetire => Sys2Proof.Machine.execRecipeRetire s
  | .recipeQuery => Sys2Proof.Machine.execRecipeQuery s
  | .collect => Sys2Proof.Machine.execCollect s
  | .resetNAsserted => Sys2Proof.Machine.execResetNAsserted s
  | .goodByte byte => Sys2Proof.Machine.execGoodByte byte s

end Sys2Proof.Machine
end

