-- ==== Sys2Proof/Safety.lean ====
section
/-!
DEFINITION. What the part guarantees in every state that a run reaches: one predicate for each kind of state, each the
sentence of the rule it names. The statements of Certificates/ say that every step keeps them.
-/

namespace Sys2Proof.Machine

/-! ### Lanes -/

/-- The deficit is the lane position minus the raw count, modulo 2^32, and lies in 0..1,048,575 (R2). -/
def Encoder.Sound (e : Encoder) : Prop :=
  e.position = e.raw + BitVec.ofNat 32 e.deficit ∧ e.deficit ≤ 1048575

/-- Every lane's encoder is sound (R2). -/
def EncodersSound (s : State) : Prop := ∀ l, (s.lane l).enc.Sound

/-- A DISABLED lane holds no board record and no expect entry, has no next trigger position and FLOOD clear (R7, R22,
R27); a RUNNING or STOPPING lane has settings and a next trigger position (R6, R8, R13). -/
def LaneState.ModeSound (x : LaneState) : Prop :=
  (x.mode = .disabled → x.transit = [] ∧ x.expect = [] ∧ x.nextTrigger = none ∧ x.flood = false)
    ∧ (x.mode ≠ .disabled → x.settings.isSome = true ∧ x.nextTrigger.isSome = true)

/-- Every lane is in accordance with its state. -/
def LaneModesSound (s : State) : Prop := ∀ l, (s.lane l).ModeSound

/-- The transit queue holds at most 8 records (R23), the expect queue at most 4 entries (R20), the ready queue at most
256 items (R108), and the untracked counter is at most 65,535 (R26). -/
def LaneState.QueuesSound (x : LaneState) : Prop :=
  x.transit.length ≤ 8 ∧ x.expect.length ≤ 4 ∧ x.ready.length ≤ 256 ∧ x.untracked ≤ 65535

/-- What keeps a place for the entry of a glitch (R21, R29): settings are in their ranges (R5); only the newest record
can lack its P_trail, and then the board covers the eye (R15, R28); no record that is not DECIDED has passed its deadline
(R4, R37); and while the trailing edge of the newest record would show it a glitch, the expect queue has room. -/
def LaneState.GlitchRoom (x : LaneState) : Prop :=
  (∀ st, x.settings = some st → st.inRanges = true)
    ∧ (∀ r ∈ x.transit.dropLast, r.pTrail.isSome = true)
    ∧ (∀ r, x.transit.getLast? = some r → r.pTrail = none → x.eyeBlocked = true)
    ∧ (∀ st, x.settings = some st → ∀ r ∈ x.transit, r.state ≠ .decided →
        (x.enc.position - r.pLead).toNat ≤ st.dGate - st.gateLead)
    ∧ ∀ st, x.settings = some st → ∀ r, x.transit.getLast? = some r → r.binding ≠ none → r.pTrail = none →
        r.state = .entering → liesBelow x.enc.position (r.pLead + BitVec.ofNat 32 st.minBoard) = true →
          x.expect.length ≤ 3

/-- Every lane's queues are within their capacities, and stay so. -/
def LaneQueuesSound (s : State) : Prop := ∀ l, (s.lane l).QueuesSound ∧ (s.lane l).GlitchRoom

/-- The divert output is asserted while RESET_N is asserted (R162), and otherwise as R160 gives: deasserted exactly
while the lane is RUNNING or STOPPING, FLOOD is clear, and no record in its gate window has divert decision yes. -/
def DivertSound (s : State) : Prop :=
  ∀ l, (s.lane l).divert = false ↔
    s.resetAsserted = false ∧ (s.lane l).mode ≠ .disabled ∧ (s.lane l).flood = false
      ∧ ∀ r ∈ (s.lane l).transit, r.inWindow = true → r.divertDecision ≠ some true

/-! ### Board records -/

/-- Verdicts are released in the order of the leading edges (R151): record numbers rise along the transit queue and stay
below the next number, a released record is DECIDED, and no unreleased record stands before a released one. -/
def LaneState.ReleaseSound (x : LaneState) : Prop :=
  x.transit.Pairwise (fun a b => a.ident < b.ident ∧ (b.verdictPart.released = true → a.verdictPart.released = true))
    ∧ ∀ r ∈ x.transit, r.ident < x.nextRecord ∧ (r.verdictPart.released = true → r.state = .decided)

/-- Every lane releases its verdicts in order. -/
def ReleaseOrderSound (s : State) : Prop := ∀ l, (s.lane l).ReleaseSound

/-- The expect entries of a lane that name a slot. -/
def LaneState.entriesNaming (n : SlotId) (x : LaneState) : Nat := x.expect.countP fun e => decide (e.slot = n)

/-- The board records of a lane that name a slot. -/
def LaneState.recordsNaming (n : SlotId) (x : LaneState) : Nat :=
  x.transit.countP fun r => decide (r.binding.map (·.slot) = some n)

/-- The expect entries and board records of both lanes that name a slot (R87). -/
def referencesTo (s : State) (n : SlotId) : Nat :=
  (s.lane .a).entriesNaming n + (s.lane .a).recordsNaming n
    + ((s.lane .b).entriesNaming n + (s.lane .b).recordsNaming n)

/-- Each slot's reference count is the number of expect entries and board records that name it; it is 0 in EMPTY,
LOADING and CLOSING (R87), and above 0 in RETIRING (R99). -/
def ReferencesSound (s : State) : Prop :=
  ∀ n, (s.slot n).refs = referencesTo s n
    ∧ ((s.slot n).state = .empty ∨ (s.slot n).state = .loading ∨ (s.slot n).state = .closing → (s.slot n).refs = 0)
    ∧ ((s.slot n).state = .retiring → 0 < (s.slot n).refs)

/-- The items of one record in the lane's ready queue. -/
def LaneState.queuedOf (ident : Nat) (x : LaneState) : Nat := x.ready.countP fun i => decide (i.record = ident)

/-- Whether a unit evaluates an item of this record whose result still counts (R111, R117). -/
def holdsItemOf (l : Lane) (ident : Nat) (unit : Option Evaluation) : Bool :=
  match unit with
  | some e => !e.discard && e.item.belongsTo l ident
  | none => false

/-- The units that evaluate an item of this record whose result still counts. -/
def heldOf (s : State) (l : Lane) (ident : Nat) : Nat := Four.all.countP fun u => holdsItemOf l ident (s.unitOf u)

/-- The accounting of one record (R118): the joints not yet reached by the cursor, the queued, those in flight and the
counts by outcome make the joint count. Queued and in_flight are what the ready queue and the units hold of the record
(R108, R111); an ENTERING record has started no cursor (R106); a DECIDED record, or one with joints complete, has every
joint counted (R36, R113, R144). -/
def BoardRecord.Accounted (jointCount queued held : Nat) (r : BoardRecord) : Prop :=
  r.work.cursor ≤ jointCount
    ∧ (jointCount - r.work.cursor) + r.work.queued + r.work.inFlight + r.verdictPart.counts.sum = jointCount
    ∧ r.work.queued = queued ∧ r.work.inFlight = held
    ∧ (r.state = .entering → r.work.cursor = 0)
    ∧ (r.state = .decided ∨ r.jointsComplete = true → r.verdictPart.counts.sum = jointCount)

/-- Every record of a lane is accounted for, and every item the ready queue or a unit holds is one of a record of the
lane (R108, R118). -/
def LaneState.JointsSound (jointCount : BoardRecord → Nat) (held : Nat → Nat) (l : Lane) (x : LaneState) : Prop :=
  (∀ r ∈ x.transit, r.Accounted (jointCount r) (x.queuedOf r.ident) (held r.ident))
    ∧ (∀ i ∈ x.ready, i.lane = l ∧ ∃ r ∈ x.transit, r.ident = i.record)
    ∧ ∀ ident, held ident ≠ 0 → ∃ r ∈ x.transit, r.ident = ident

/-- The joints of every board record are accounted for (R118). -/
def JointsSound (s : State) : Prop := ∀ l, (s.lane l).JointsSound (jointCountOf s) (heldOf s l) l

/-! ### Heads and calibration -/

/-- A sweep in progress: a pass map of 32 entries, a tap 0..31 under trial, fewer than 8 frames taken at it (R48). -/
def HeadPort.SweepSound (h : HeadPort) : Prop :=
  match h.mode with
  | .aligning sw => sw.passMap.length = 32 ∧ sw.tap < 32 ∧ sw.frames < 8
  | .unaligned => True
  | .aligned => True

/-- The line ring is canonical (R58), at most 4 triggers are outstanding (R52), the missed run is at most 64 and SILENT is
set exactly at 64 (R64), the selected tap is 0..31 (R49). -/
def HeadPort.Sound (h : HeadPort) : Prop :=
  Ring.wf h.ring = true ∧ h.outstanding.length ≤ 4 ∧ h.missedRun ≤ 64 ∧ (h.silent = true ↔ h.missedRun = 64)
    ∧ h.tap < 32 ∧ h.SweepSound

/-- Every Head Port is sound. -/
def HeadsSound (s : State) : Prop := ∀ h, (s.head h).Sound

/-- Two heads of one lane have different lane orders, 0 and 1 (R43), and a head whose lane is RUNNING or STOPPING is
ALIGNED (R45). -/
def HeadLanesSound (s : State) : Prop :=
  (∀ h st, (s.head h).settings = some st → st.laneOrder ≤ 1)
    ∧ (∀ g h st su, g ≠ h → (s.head g).settings = some st → (s.head h).settings = some su → st.lane = su.lane →
        st.lane ≠ none → st.laneOrder ≠ su.laneOrder)
    ∧ ∀ h, headActive s h = true → (s.head h).mode = .aligned

/-- The balance lies within −8..+8 and OVERDUE is set only at +8 (R68); the fault count is at most 3 and CAL_FAULTED is
set exactly at 3 (R80); the idle run is at most 4096 (R74). -/
def CalRecord.Sound (c : CalRecord) : Prop :=
  -8 ≤ c.balance ∧ c.balance ≤ 8 ∧ (c.overdue = true → c.balance = 8) ∧ c.faultCount ≤ 3
    ∧ (c.calFaulted = true ↔ c.faultCount = 3) ∧ c.idleRun ≤ 4096

/-- Every calibration record is sound. -/
def CalibrationSound (s : State) : Prop := ∀ h, (s.calOf h).Sound

/-! ### Verdict Unit and Link Port -/

/-- The verdict queue holds at most 32 records, at most 4 COLLECTs are parked, the two are never both non-empty, and the
dropped count is at most 65,535 (R154). -/
def VerdictUnitSound (s : State) : Prop :=
  s.verdicts.queue.length ≤ 32 ∧ s.verdicts.parked.length ≤ 4 ∧ (s.verdicts.queue = [] ∨ s.verdicts.parked = [])
    ∧ s.verdicts.dropped ≤ 65535

/-- The inbox holds at most 8 requests (R174); while RESET_N is deasserted, HOLD_OUT is asserted at 6 or more and
deasserted at 4 or fewer (R165). -/
def InboxSound (s : State) : Prop :=
  s.link.inbox.length ≤ 8
    ∧ (s.resetAsserted = false →
        (6 ≤ s.link.inbox.length → s.link.holdOut = true) ∧ (s.link.inbox.length ≤ 4 → s.link.holdOut = false))

/-- The outbox has 16 places: the replies held and the places reserved for lasting work are at most 16 together (R175);
a slot is CLOSING exactly while its RECIPE_CLOSE is owed a reply (R92). -/
def PlacesSound (s : State) : Prop :=
  s.link.outbox.length + reservedPlaces s ≤ 16 ∧ ∀ n, (s.slot n).state = .closing ↔ (s.slot n).closeTag.isSome = true

/-- All that the part guarantees in every state that a run reaches. -/
def State.Sound (s : State) : Prop :=
  EncodersSound s ∧ LaneModesSound s ∧ LaneQueuesSound s ∧ DivertSound s ∧ ReleaseOrderSound s ∧ ReferencesSound s
    ∧ JointsSound s ∧ HeadsSound s ∧ HeadLanesSound s ∧ CalibrationSound s ∧ VerdictUnitSound s ∧ InboxSound s ∧ PlacesSound s

/-! ### The taking of a request, as the statements speak of it -/

/-- The request handler can take this unmarked request of this kind, of the right length, from the front of the inbox
(R176, R177): RESET_N is deasserted and the outbox has a free place. -/
def CanTake (kind : Byte) (r : Request) (rest : List Request) (s : State) : Prop :=
  s.resetAsserted = false ∧ s.link.inbox = r :: rest ∧ r.marked = false ∧ r.kind = kind
    ∧ lengthOk kind r.payload = true ∧ s.link.outbox.length + reservedPlaces s < 16

/-- The state after the request at the front has left the inbox, and before its reply (R176, R165). -/
def afterTaking (rest : List Request) (s : State) : State :=
  { s with link := { s.link with inbox := rest, holdOut := holdLevel rest.length s.link.holdOut } }

/-- A state with a reply added at the back of the outbox (R175). -/
def withReply (r : Reply) (s : State) : State :=
  { s with link := { s.link with outbox := s.link.outbox ++ [r] } }

/-- The command ends in this state, with the request answered DONE with this result (R178; 09, section 9.9). -/
def answersDone (kind : Byte) (r : Request) (result : List Byte) (s : State) : Result :=
  .next (withReply { kind := 0x80, tag := r.tag, payload := kind :: result } s)

/-- The command ends in this state, with the request answered REFUSED with this code and detail (R178; 09, section
9.9). -/
def answersRefused (kind : Byte) (r : Request) (code : RefusalCode) (detail : List Byte) (s : State) : Result :=
  .next (withReply { kind := 0x81, tag := r.tag, payload := kind :: code.code :: detail } s)

/-- The kind of the requests that a request row takes (09, section 9.9, table Requests); none for the other rows. -/
def requestKind : Instr → Option Byte
  | .describe => some 0x01
  | .linkStatus => some 0x02
  | .laneStatus => some 0x02
  | .headStatus => some 0x02
  | .restart => some 0x03
  | .laneSetup => some 0x04
  | .laneStart => some 0x05
  | .laneStopDrain => some 0x06
  | .laneStopAbandon => some 0x06
  | .expect => some 0x07
  | .withdraw => some 0x08
  | .headSetup => some 0x09
  | .headAlign => some 0x0A
  | .calRequest => some 0x0B
  | .recipeOpen => some 0x0C
  | .recipeClasses => some 0x0D
  | .recipeJoints => some 0x0E
  | .recipeClose => some 0x0F
  | .recipeRetire => some 0x10
  | .recipeQuery => some 0x11
  | .collect => some 0x12
  | .powerOn _ => none
  | .encoderStateChange _ _ _ => none
  | .laneTrigger _ => none
  | .leadingEdge _ => none
  | .trailingEdge _ => none
  | .deadline _ => none
  | .gateWindowStart _ => none
  | .gateWindowEnd _ => none
  | .floodEnd _ => none
  | .profileFrame _ _ => none
  | .triggerTimeout _ _ => none
  | .evaluationComplete _ => none
  | .alignmentFrame _ _ => none
  | .tapTimeout _ => none
  | .closeEnd _ => none
  | .frameReceived _ => none
  | .headerLengthReject _ => none
  | .interByteTimeout => none
  | .stopBitError => none
  | .holdInChange _ => none
  | .transmitStart => none
  | .replySent => none
  | .unknownKind => none
  | .markedRequest => none
  | .resetNAsserted => none
  | .goodByte _ => none

/-! ### Takings in a free order, as the statements speak of them -/

/-- Some takings one after another, in this order. Where more than one is left, the choice of the next counts a free
value (log entry 3). -/
def takeInOrder {α : Type} (f : α → State → State) : List α → State → State
  | [], s => s
  | [a], s => f a s
  | a :: b :: rest, s => takeInOrder f (b :: rest) (f a { s with freeCount := s.freeCount + 1 })

/-! ### Frames: what a taking leaves unchanged, as the statements speak of it -/

/-- Nothing has changed but what decisions, outcomes, examinations and grants change: the records, ready queues and
divert outputs of the lanes, the units and the pointer, the Verdict Unit and the replies it places, and the count of
free values. -/
def OnlyRecordsChange (s t : State) : Prop :=
  t = { s with
    lanes := t.lanes, pointer := t.pointer, units := t.units, verdicts := t.verdicts, freeCount := t.freeCount,
    link := { s.link with outbox := t.link.outbox } }
    ∧ ∀ m, t.lane m = { s.lane m with
        transit := (t.lane m).transit, ready := (t.lane m).ready, divert := (t.lane m).divert }

/-- A lane has left RUNNING and STOPPING (R11, R22, R41): it is DISABLED, without next trigger position, FLOOD, records
or entries, its output asserted, and each slot has back the references that its records and entries held. Each of its
heads has settled its outstanding lines MISSED, oldest first (R53), and has no attempt; all else of its calibration
record is as it was, unless the report of its front came before the notice of the stop and the attempt collected the
lines up to it (R81). The other heads are unchanged. Of the other lane only records, ready queue and divert output may
have changed; with no record on the lane that stops, and the arbiter's grants made (R109), the reports of the fronts
find nothing to queue or grant, and the other lane, the ready queues, the units, the Verdict Unit and the Link Port are
unchanged. -/
def LaneLeft (l : Lane) (s t : State) : Prop :=
  t.lane l = { s.lane l with
    mode := .disabled, nextTrigger := none, flood := false, floodEnd := .absent, divert := true, expect := [],
    transit := [], ready := (t.lane l).ready }
    ∧ (∀ m, m ≠ l → t.lane m = { s.lane m with
        transit := (t.lane m).transit, ready := (t.lane m).ready, divert := (t.lane m).divert })
    ∧ (∀ n, t.slot n = RecipeSlot.release^[(s.lane l).entriesNaming n + (s.lane l).recordsNaming n] (s.slot n))
    ∧ (∀ h ∈ laneHeads s l,
        t.head h = { s.head h with
          outstanding := []
          ring := (s.head h).outstanding.foldl (fun r e => Ring.settle r e.index .missed) (s.head h).ring }
        ∧ ∃ c, t.calOf h = { c with attempt := none }
          ∧ (c = s.calOf h
            ∨ ∃ st front, (s.head h).settings = some st ∧ (t.head h).front = some front ∧ (s.head h).front ≠ some front
                ∧ c = CalRecord.collect st (t.head h).ring front 16 (s.calOf h)))
    ∧ (∀ h, h ∉ laneHeads s l → t.head h = s.head h ∧ t.calOf h = s.calOf h)
    ∧ ((s.lane l).transit = [] → idleUnit s = none ∨ grantLane s = none →
        (t.lane l).ready = (s.lane l).ready ∧ (∀ m, m ≠ l → t.lane m = s.lane m) ∧ t.pointer = s.pointer
          ∧ t.units = s.units ∧ t.verdicts = s.verdicts ∧ t.link = s.link)
    ∧ t = { s with
        lanes := t.lanes, heads := t.heads, cal := t.cal, slots := t.slots, pointer := t.pointer, units := t.units,
        verdicts := t.verdicts, freeCount := t.freeCount, link := { s.link with outbox := t.link.outbox } }

/-- Nothing has changed but one Head Port, its calibration record, and what its notices change. -/
def OnlyHeadChanges (h : HeadId) (s t : State) : Prop :=
  t = { s with
    heads := s.heads.set h (t.head h), cal := s.cal.set h (t.calOf h), lanes := t.lanes, pointer := t.pointer,
    units := t.units, verdicts := t.verdicts, freeCount := t.freeCount,
    link := { s.link with outbox := t.link.outbox } }
    ∧ ∀ m, t.lane m = { s.lane m with
        transit := (t.lane m).transit, ready := (t.lane m).ready, divert := (t.lane m).divert }

/-- Several commands, one after another. -/
def runAll : List Instr → State → Result
  | [], s => .next s
  | c :: cs, s =>
    match exec c s with
    | .next t => runAll cs t
    | .fault f => .fault f
    | .refused r => .refused r

end Sys2Proof.Machine
end

