-- ==== Sys2Proof/Certificates/Slice0/Obligations.lean ====
section
/-!
DEFINITION. The statements for the provers. Each is a named proposition; OBLIGATIONS.json gives its title, its rules
and its tier. Most rows are taken after every event of a watched position already reached (R4): a statement about such
a row speaks of the state s after those events, s = takeReached s₀ of the state s₀ that the row meets, which
`EncoderCountsTheBelt` describes and which is s₀ itself where no such event waits. A request statement is about a
request at the front of the inbox that the handler can take (`CanTake`); its conclusion is the whole next state, from
the state after the taking (`afterTaking`), so what it does not name is unchanged.
-/

section

open Sys2Proof Sys2Proof.Machine

/-! ### The part as a whole -/

/-- A step runs the command at the front of the queue on the state with the queue's rest; on an empty queue the block
idles, which is the model's choice (log entry 5). -/
def Obligations.StepTakesTheFront : Prop :=
  (∀ (c : Instr) (rest : List Instr) (s : State), s.pending = c :: rest →
      step s = exec c { s with pending := rest })
    ∧ ∀ s : State, s.pending = [] → step s = .next s

/-- Every command has an effect in every state: no step of the part stops, and the queue is left alone. -/
def Obligations.EveryCommandAnswers : Prop :=
  ∀ (c : Instr) (s : State), ∃ t, exec c s = .next t ∧ t.pending = s.pending

/-- RESET_N and HOLD_IN (R162, R187): power-on, with the inputs sampled then, gives every block the power-on values of
its table; while RESET_N is asserted the outputs stand as R162 and R164 give, and nothing is taken but power-on and the
level of HOLD_IN (log entries 7, 8). RESET_N is asserted after the events already reached (R4; log entry 2). -/
def Obligations.ResetLineAndHoldIn : Prop :=
  ∀ s : State,
    (∀ pins : PowerOnPins,
      let lane (p q eye : Bool) : LaneState :=
        { enc := { refP := p, refQ := q, raw := 0, position := 0, deficit := 0 }, reversed := false,
          encoderFault := false, settings := none, mode := .disabled, triggerIndex := 0, nextTrigger := none,
          eyeBlocked := eye, divert := true, expect := [], transit := [], flood := false, floodEnd := .absent,
          untracked := 0, nextRecord := 0, ready := [], triggerSeen := 0 }
      let head : HeadPort :=
        { settings := none, mode := .unaligned, tap := 0, outstanding := [], lastTrigger := none, ring := [],
          missedRun := 0, framing := false, check := false, stray := false, skipped := false, missed := false,
          silent := false, triggerLine := [] }
      let cal : CalRecord :=
        { zero := none, gain := none, balance := 0, overdue := false, calFaulted := false, faultCount := 0,
          requested := false, idleRun := 0, attempt := none }
      let slot : RecipeSlot :=
        { state := .empty, refs := 0, header := none, classes := none, joints := [], needed := [], lastFailure := none,
          closeTag := none }
      exec (.powerOn pins) s = .next
        { lanes := ⟨lane pins.encAP pins.encAQ pins.eyeA, lane pins.encBP pins.encBQ pins.eyeB⟩
          heads := ⟨head, head, head, head⟩
          due := ⟨0, 0, 0, 0⟩
          cal := ⟨cal, cal, cal, cal⟩
          slots := ⟨slot, slot, slot, slot⟩
          pointer := .a
          units := ⟨none, none, none, none⟩
          verdicts := { queue := [], parked := [], dropped := 0 }
          link :=
            { bitRate := if pins.lrate1 then .mbit4 else if pins.lrate0 then .mbit2 else .mbit1
              receiver := .hunt, lastByteAt := 0, transmitter := .idle, inbox := [], outbox := [], holdOut := false,
              holdIn := s.link.holdIn, linkFraming := false, timeout := false, rejectsDropped := false, sent := [] }
          resetAsserted := false
          now := s.now
          freeCount := s.freeCount
          pending := s.pending })
    ∧ (let v := takeReached s
      exec .resetNAsserted s = .next
        { v with
          lanes := ⟨{ v.lanes.a with divert := true }, { v.lanes.b with divert := true }⟩
          link := { v.link with transmitter := .idle, receiver := .hunt, holdOut := false }
          resetAsserted := true })
    ∧ (∀ asserted : Bool, exec (.holdInChange asserted) s = .next { s with link := { s.link with holdIn := asserted } })
    ∧ (s.resetAsserted = true → ∀ c : Instr,
        (∀ pins, c ≠ .powerOn pins) → c ≠ .resetNAsserted → (∀ asserted, c ≠ .holdInChange asserted) →
          exec c s = .next s)

/-- The machine right after reset meets every invariant. -/
def Obligations.ResetIsSound : Prop := State.Sound State.reset

/-! ### Invariants that every step keeps -/

/-- The deficit is the lane position minus the raw count, and lies in 0..1,048,575 (R2). -/
def Obligations.StepKeepsEncoders : Prop := ∀ s t : State, EncodersSound s → step s = .next t → EncodersSound t

/-- A DISABLED lane holds no record, no entry and no next trigger position; a lane that runs has settings and a next
trigger position (R6, R7, R22, R27). -/
def Obligations.StepKeepsLaneModes : Prop := ∀ s t : State, LaneModesSound s → step s = .next t → LaneModesSound t

/-- The queues of a lane and the joints of its records. Transit queues hold at most 8 records, expect queues at most 4
entries, ready queues at most 256 items, untracked counters at most 65,535 (R20, R23, R26, R108), given what keeps the
place of a glitch's entry (`GlitchRoom`; R21, R29). And every joint is accounted for: those not reached by a record's
cursor, the queued, those in flight and the counts by outcome make the record's joint count (R118). -/
def Obligations.StepKeepsLaneQueues : Prop :=
  (∀ s t : State, LaneModesSound s → ReleaseOrderSound s → LaneQueuesSound s → step s = .next t → LaneQueuesSound t)
    ∧ ∀ s t : State, ReleaseOrderSound s → ReferencesSound s → JointsSound s → step s = .next t → JointsSound t

/-- The divert outputs stand as R160 gives, and asserted while RESET_N is asserted (R160, R162). That a record is in
its gate window is held as inWindow, from the start taken to the removal (log entry 13). -/
def Obligations.StepKeepsDivertOutputs : Prop := ∀ s t : State, DivertSound s → step s = .next t → DivertSound t

/-- Verdicts of a lane are released in the order of its leading edges (R151). -/
def Obligations.StepKeepsReleaseOrder : Prop :=
  ∀ s t : State, ReleaseOrderSound s → step s = .next t → ReleaseOrderSound t

/-- Each slot's reference count is the number of expect entries and board records that name it (R87, R99). -/
def Obligations.StepKeepsReferences : Prop := ∀ s t : State, ReferencesSound s → step s = .next t → ReferencesSound t

/-- Line rings are canonical, at most 4 triggers are outstanding, SILENT is set exactly at a missed run of 64, taps and
sweeps are in range (R48, R49, R52, R58, R64). -/
def Obligations.StepKeepsHeads : Prop := ∀ s t : State, HeadsSound s → step s = .next t → HeadsSound t

/-- Two heads of one lane have different lane orders, and a head of a lane that runs is ALIGNED (R43, R45). -/
def Obligations.StepKeepsHeadLanes : Prop := ∀ s t : State, HeadLanesSound s → step s = .next t → HeadLanesSound t

/-- Balances lie in −8..+8, OVERDUE is set only at +8, CAL_FAULTED exactly at fault count 3 (R68, R74, R80). -/
def Obligations.StepKeepsCalibration : Prop := ∀ s t : State, CalibrationSound s → step s = .next t → CalibrationSound t

/-- The verdict queue and the parked COLLECTs are within their limits and never both non-empty (R154). -/
def Obligations.StepKeepsVerdictUnit : Prop := ∀ s t : State, VerdictUnitSound s → step s = .next t → VerdictUnitSound t

/-- The inbox holds at most 8 requests, and HOLD_OUT follows its level (R165, R174). -/
def Obligations.StepKeepsInbox : Prop := ∀ s t : State, InboxSound s → step s = .next t → InboxSound t

/-- The replies held and the places reserved are at most 16, and a slot is CLOSING exactly while its close is owed a
reply (R92, R175). -/
def Obligations.StepKeepsPlaces : Prop := ∀ s t : State, PlacesSound s → step s = .next t → PlacesSound t

/-! ### Encodings -/

/-- The 21 bytes that answer a LANE_SETUP are a LANE_SETUP payload of the same lane and settings, for all settings that
can be stored (R5, R188). -/
def Obligations.LaneSettingsRoundTrip : Prop :=
  ∀ (l : Lane) (st : LaneSettings), st.inRanges = true → st.gateTail ≤ 4095 → 64 ≤ st.idleCalGap →
    st.idleCalGap ≤ 4096 →
      (laneSettingsBytes l st).length = 21 ∧ laneOf? (fieldAt (laneSettingsBytes l st) 0 1) = some l
        ∧ readLaneSettings (laneSettingsBytes l st) = some st

/-- The 21 bytes that answer a HEAD_SETUP are a HEAD_SETUP payload of the same head and settings, for all settings in
their ranges (R44, R188). -/
def Obligations.HeadSettingsRoundTrip : Prop :=
  ∀ (h : HeadId) (st : HeadSettings), st.inRanges = true →
    (headSettingsBytes h st).length = 21 ∧ Four.ofNat? (fieldAt (headSettingsBytes h st) 0 1) = some h
      ∧ headLaneOf? (fieldAt (headSettingsBytes h st) 1 1) = some st.lane
      ∧ readHeadSettings st.lane (headSettingsBytes h st) = st

/-- Numbers are sent low byte first (R188). A header, a class table and a run of joint records in their ranges have the
bytes of their tables (R188, R189) and are read back from them, the joint records with the gap presence that their gap
parts give. -/
def Obligations.RecipeRecordsRoundTrip : Prop :=
  (∀ n : Nat,
      let byte (k : Nat) : Byte := BitVec.ofNat 8 (n / 256 ^ k)
      le16 n = [byte 0, byte 1] ∧ le24 n = [byte 0, byte 1, byte 2] ∧ le32 n = [byte 0, byte 1, byte 2, byte 3])
    ∧ (∀ c : ClassEntry, classBytes c =
        le24 c.vmin ++ le24 c.vmax ++ le16 c.pmax ++ le16 c.wetHeight ++ le16 c.cmin ++ le16 c.validMin
          ++ le16 c.hclamp)
    ∧ (∀ j : Joint, jointBytes j =
        le16 j.jointId ++ [if j.gap.isSome then 1 else 0, byteOf j.head, byteOf j.cls, byteOf j.margin] ++ le16 j.col0
          ++ [byteOf j.ncols] ++ le16 j.row0 ++ [byteOf j.nrows]
          ++ (match j.gap with
            | none => []
            | some g =>
              le16 g.gcol0 ++ [byteOf g.gncols] ++ le16 g.grow0 ++ [byteOf g.gnrows] ++ le16 g.bridgeHeight
                ++ le16 g.bridgeCount))
    ∧ (∀ (n : SlotId) (h : Header), h.inRanges = true →
      (byteOf n.toNat :: headerBytes h).length = 10 ∧ readHeader (byteOf n.toNat :: headerBytes h) = h)
    ∧ (∀ cs : List ClassEntry, (∀ c ∈ cs, c.inRanges = true) →
        (cs.flatMap classBytes).length = 16 * cs.length ∧ readClasses cs.length (cs.flatMap classBytes) = cs)
    ∧ ∀ (js : List Joint) (n : Nat), (∀ j ∈ js, j.inRanges = true) → js.length ≤ n →
        readJoints n (js.flatMap jointBytes)
          = some (js.map fun j => { presence := if j.gap.isSome then 1 else 0, joint := j })

/-- A frame of the table Frame sent byte by byte from HUNT reaches the inbox as its request, when the inbox has room
and the payload is at most 1020 bytes (R167 to R170). The time of the last byte is the model's own (log entry 4). -/
def Obligations.FrameReachesTheInbox : Prop :=
  ∀ (s : State) (kind tag : Byte) (payload : List Byte), s.resetAsserted = false → s.link.receiver = .hunt →
    s.link.inbox.length < 8 → payload.length ≤ 1020 →
      runAll ((frameOf { kind := kind, tag := tag, payload := payload }).map .goodByte) s = .next
        { s with
          link :=
            { s.link with
              inbox := s.link.inbox ++ [{ kind := kind, tag := tag, payload := payload, marked := false }]
              holdOut :=
                if 6 ≤ s.link.inbox.length + 1 then true
                else if s.link.inbox.length + 1 ≤ 4 then false else s.link.holdOut
              lastByteAt := s.now } }

/-! ### The serial line -/

/-- The receiver (R168 to R171): what each good byte does in HUNT, HEADER and BODY, the rejects LENGTH, CHECK and FULL
with their places (R173), the frame that enters the inbox (R165), and the frame abandoned when more than 2 ms pass.
The times are the model's own (log entry 4), and the rows FRAME_RECEIVED and HEADER_LENGTH_REJECT are the taking of the
byte that completes the frame or the header (log entry 9). A REJECT, and a timeout, come after the events already
reached (R4; log entry 2). -/
def Obligations.ReceiverTakesBytes : Prop :=
  ∀ (s : State) (b : Byte), s.resetAsserted = false →
    let goOn (r : Receiver) : Result := .next { s with link := { s.link with receiver := r, lastByteAt := s.now } }
    let v := takeReached s
    let reject (kind tag : Byte) (code : RejectCode) : Result :=
      .next
        (if v.link.outbox.length + reservedPlaces v < 16 then
          { v with
            link :=
              { v.link with
                receiver := .hunt
                outbox := v.link.outbox ++ [{ kind := 0x82, tag := tag, payload := [code.code, kind] }] } }
        else { v with link := { v.link with receiver := .hunt, rejectsDropped := true } })
    (s.link.receiver = .hunt → exec (.goodByte b) s = if b = 0xC6 then goOn (.header []) else .next s)
    ∧ (∀ got, s.link.receiver = .header got → got.length < 3 → exec (.goodByte b) s = goOn (.header (got ++ [b])))
    ∧ (∀ lo hi kind, s.link.receiver = .header [lo, hi, kind] →
        (lo.toNat + 256 * hi.toNat ≤ 1020 → exec (.goodByte b) s = goOn (.body lo hi kind b []))
        ∧ (1020 < lo.toNat + 256 * hi.toNat →
            exec (.goodByte b) s = reject kind b .length ∧ exec (.headerLengthReject b) s = reject kind b .length))
    ∧ (∀ lo hi kind tag got, s.link.receiver = .body lo hi kind tag got →
        (got.length < lo.toNat + 256 * hi.toNat → exec (.goodByte b) s = goOn (.body lo hi kind tag (got ++ [b])))
        ∧ (lo.toNat + 256 * hi.toNat ≤ got.length →
            exec (.frameReceived b) s = exec (.goodByte b) s
            ∧ (crc8 ([lo, hi, kind, tag] ++ got) ≠ b → exec (.frameReceived b) s = reject kind tag .check)
            ∧ (crc8 ([lo, hi, kind, tag] ++ got) = b → 8 ≤ s.link.inbox.length →
                exec (.frameReceived b) s = reject kind tag .full)
            ∧ (crc8 ([lo, hi, kind, tag] ++ got) = b → s.link.inbox.length < 8 →
                exec (.frameReceived b) s = .next
                  { s with
                    link :=
                      { s.link with
                        receiver := .hunt
                        inbox := s.link.inbox ++ [{ kind := kind, tag := tag, payload := got, marked := false }]
                        holdOut :=
                          if 6 ≤ s.link.inbox.length + 1 then true
                          else if s.link.inbox.length + 1 ≤ 4 then false else s.link.holdOut } })))
    ∧ (v.link.receiver = s.link.receiver ∧ v.link.lastByteAt = s.link.lastByteAt ∧ v.now = s.now)
    ∧ (s.link.receiver ≠ .hunt →
        exec .interByteTimeout s = .next
          { v with
            now := max s.now (s.link.lastByteAt + 2001)
            link := { v.link with receiver := .hunt, timeout := true } })
    ∧ (s.link.receiver = .hunt → exec .interByteTimeout s = .next v)

/-- A stop-bit error (R172): LINK_FRAMING is set, any frame in course is abandoned, no REJECT is sent. -/
def Obligations.StopBitErrorAbandonsTheFrame : Prop :=
  ∀ s : State, s.resetAsserted = false →
    exec .stopBitError s = .next { s with link := { s.link with receiver := .hunt, linkFraming := true } }

/-- The transmitter (R166): it starts on the oldest reply when IDLE with HOLD_IN deasserted, is not interrupted, and
frees the reply's place when the frame has been sent. That the frame is logged whole is the model's choice (log entries
10, 11). It starts after the events already reached (R4; log entry 2). -/
def Obligations.TransmitterSendsReplies : Prop :=
  (∀ s₀ : State,
    let s := takeReached s₀
    s.resetAsserted = false →
      (∀ r rest, s.link.transmitter = .idle → s.link.outbox = r :: rest → s.link.holdIn = false →
        exec .transmitStart s₀ = .next { s with link := { s.link with transmitter := .sending (frameOf r) } })
      ∧ (s.link.transmitter = .idle → s.link.outbox = [] ∨ s.link.holdIn = true → exec .transmitStart s₀ = .next s)
      ∧ ∀ frame, s.link.transmitter = .sending frame → exec .transmitStart s₀ = .next s)
    ∧ ∀ s : State, s.resetAsserted = false →
        (∀ frame, s.link.transmitter = .sending frame →
          exec .replySent s = .next
            { s with
              link :=
                { s.link with
                  transmitter := .idle
                  outbox := s.link.outbox.drop 1
                  sent := s.link.sent ++ [frame] } })
        ∧ (s.link.transmitter = .idle → exec .replySent s = .next s)

/-! ### The request handler -/

/-- The checks of the request handler (R177, R184), on the request at the front of the inbox when a place is free: KIND
for a kind that is none of the 18, LENGTH for a wrong payload length, RESTARTED for a marked request that passes both;
the right payload length of each kind; and the codes of R188 for refusals and REJECTs. That every row of a kind gives
LENGTH, so that each STATUS and each LANE_STOP row does, is the model's choice (log entry 21). It starts after the
events already reached (R4; log entry 2). -/
def Obligations.HandlerRefusesBadRequests : Prop :=
  (∀ (s₀ : State) (r : Request) (rest : List Request),
     let s := takeReached s₀
     s.resetAsserted = false → s.link.inbox = r :: rest →
    s.link.outbox.length + reservedPlaces s < 16 →
      (¬(1 ≤ r.kind.toNat ∧ r.kind.toNat ≤ 18) →
        exec .unknownKind s₀ = answersRefused r.kind r .kind [] (afterTaking rest s)
        ∧ (r.marked = true → exec .markedRequest s₀ = answersRefused r.kind r .kind [] (afterTaking rest s)))
      ∧ (1 ≤ r.kind.toNat ∧ r.kind.toNat ≤ 18 → r.marked = true →
          (lengthOk r.kind r.payload = false →
            exec .markedRequest s₀ = answersRefused r.kind r .length [] (afterTaking rest s))
          ∧ (lengthOk r.kind r.payload = true →
              exec .markedRequest s₀ = answersRefused r.kind r .restarted [] (afterTaking rest s)))
      ∧ (r.marked = false → lengthOk r.kind r.payload = false → ∀ c : Instr, requestKind c = some r.kind →
          exec c s₀ = answersRefused r.kind r .length [] (afterTaking rest s)))
    ∧ (∀ p : List Byte, ∀ row ∈
        [((0x01 : Byte), 0), (0x02, 3), (0x03, 0), (0x04, 21), (0x05, 1), (0x06, 2), (0x07, 6), (0x08, 5), (0x09, 21),
          (0x0A, 1), (0x0B, 1), (0x0C, 10), (0x0F, 1), (0x10, 1), (0x11, 1), (0x12, 0)],
        (lengthOk row.1 p = true ↔ p.length = row.2))
    ∧ (∀ p : List Byte, lengthOk 0x0D p = true ↔ ∃ k, 1 ≤ k ∧ k ≤ 16 ∧ p.length = 1 + 16 * k)
    ∧ (∀ p : List Byte, lengthOk 0x0E p = true ↔ 3 ≤ p.length ∧ (payloadJoints p).isSome = true)
    ∧ ([.length, .kind, .state, .range, .full, .order, .notFound, .busy, .mismatch, .geometry, .duplicate, .incomplete,
        .tooLate, .restarted] : List RefusalCode).map RefusalCode.code = [1, 2, 3, 4, 5, 6, 7, 8, 9, 10, 11, 12, 13, 14]
    ∧ ([.check, .length, .full] : List RejectCode).map RejectCode.code = [1, 2, 3]

/-- The handler waits (R176): with the inbox empty, or no place of the outbox free, no request row changes anything. It
starts after the events already reached (R4; log entry 2). -/
def Obligations.HandlerWaitsForAPlace : Prop :=
  ∀ (s₀ : State) (c : Instr),
    let s := takeReached s₀
    s.link.inbox = [] ∨ 16 ≤ s.link.outbox.length + reservedPlaces s →
    (requestKind c).isSome = true ∨ c = .unknownKind ∨ c = .markedRequest → exec c s₀ = .next s

/-- DESCRIBE (R180): it is taken in every state and answers the fixed capability record of the part. It starts after
the events already reached (R4; log entry 2). -/
def Obligations.DescribeAnswersTheCapabilities : Prop :=
  ∀ (s₀ : State) (r : Request) (rest : List Request),
    let s := takeReached s₀
    CanTake 0x01 r rest s →
    exec .describe s₀ = answersDone 0x01 r
      [0x58, 0x0C, 1, 2, 4, 4, 0x00, 0x20, 16, 0xFC, 0x03, 8, 4, 32, 32, 0x00, 0x04, 4, 0x00, 0x04, 4, 8, 16]
      (afterTaking rest s)

/-- STATUS (R17, R18, R65, R66, R181, R182): the record of the target is answered as it stands, field by field with
the codes of R188, and then the sticky flags that the clear set names are cleared; a clear set that names another
flag, or a target that does not exist, is refused RANGE and clears nothing. That every STATUS row takes and refuses a
target kind of 3 or more is the model's choice (log entry 21); so are the zero bytes of an absent settled front in
head STATUS (log entry 28). It starts after the events already reached (R4; log entry 2). -/
def Obligations.StatusAnswersThenClears : Prop :=
  ∀ (s₀ : State) (r : Request) (rest : List Request),
    let s := takeReached s₀
    CanTake 0x02 r rest s →
    let u := afterTaking rest s
    let target := fieldAt r.payload 0 1
    let clear : Byte := byteOf (fieldAt r.payload 2 1)
    let refusal : Result := answersRefused 0x02 r .range [] u
    (([.disabled, .running, .stopping] : List LaneMode).map LaneMode.code = [0, 1, 2]
      ∧ ([.entering, .scanning, .draining, .decided] : List RecordState).map RecordState.code = [0, 1, 2, 3]
      ∧ ([.pass, .fail, .review, .unjudged, .withdrawn] : List Verdict).map Verdict.code = [0, 1, 2, 3, 4]
      ∧ ([.mbit1, .mbit2, .mbit4] : List BitRate).map BitRate.code = [1, 2, 4])
    ∧ (target = 0 →
      (clear.toNat < 8 →
        exec .linkStatus s₀ = answersDone 0x02 r
          [flagByte s.link.linkFraming + 2 * flagByte s.link.timeout + 4 * flagByte s.link.rejectsDropped,
            byteOf rest.length, byteOf s.link.outbox.length, byteOf (reservedPlaces s + 1), s.link.bitRate.code]
          { u with
            link :=
              { u.link with
                linkFraming := s.link.linkFraming && !clear.getLsbD 0
                timeout := s.link.timeout && !clear.getLsbD 1
                rejectsDropped := s.link.rejectsDropped && !clear.getLsbD 2 } })
      ∧ (8 ≤ clear.toNat → exec .linkStatus s₀ = refusal))
    ∧ (target = 1 →
        (∀ l, laneOf? (fieldAt r.payload 1 1) = some l →
          (clear.toNat % 2 = 0 ∧ clear.toNat < 8 →
            exec .laneStatus s₀ = answersDone 0x02 r
              ([(s.lane l).mode.code, flagByte (s.lane l).settings.isSome] ++ le32 (s.lane l).enc.position.toNat
                ++ le32 (s.lane l).enc.raw.toNat ++ le32 (s.lane l).triggerIndex.toNat
                ++ [byteOf (s.lane l).expect.length] ++ le16 (s.lane l).untracked
                ++ [flagByte (s.lane l).flood + 2 * flagByte (s.lane l).reversed
                      + 4 * flagByte (s.lane l).encoderFault,
                    byteOf (s.lane l).transit.length]
                ++ ((s.lane l).transit.map fun b =>
                    le32 (match b.binding with | some t => t.tag.toNat | none => 0)
                      ++ [b.state.code, match b.verdictPart.verdict with | some v => v.code | none => 0xFF]).flatten)
              (u.updLane l fun x =>
                { x with
                  reversed := x.reversed && !clear.getLsbD 1
                  encoderFault := x.encoderFault && !clear.getLsbD 2 }))
          ∧ (¬(clear.toNat % 2 = 0 ∧ clear.toNat < 8) → exec .laneStatus s₀ = refusal))
        ∧ (2 ≤ fieldAt r.payload 1 1 → exec .laneStatus s₀ = refusal))
    ∧ (target = 2 →
        (∀ h, Four.ofNat? (fieldAt r.payload 1 1) = some h →
          (clear.toNat < 32 →
            let x := s.head h
            let c := s.calOf h
            let orUnset (v : Option Nat) : List Byte := match v with | some n => le16 n | none => [0xFF, 0xFF]
            let lane : Byte :=
              match x.settings with
              | none => 2
              | some st => match st.lane with | some .a => 0 | some .b => 1 | none => 2
            let laneOrder : Byte := match x.settings with | some st => byteOf st.laneOrder | none => 0
            let mode : Byte := match x.mode with | .unaligned => 0 | .aligning _ => 1 | .aligned => 2
            exec .headStatus s₀ = answersDone 0x02 r
              ([flagByte x.settings.isSome, lane, laneOrder, mode, byteOf x.tap]
                ++ (match x.front with | some f => 1 :: le32 f.toNat | none => [0, 0, 0, 0, 0])
                ++ [byteOf x.outstanding.length,
                    flagByte x.framing + 2 * flagByte x.check + 4 * flagByte x.stray + 8 * flagByte x.skipped
                      + 16 * flagByte x.missed + 32 * flagByte x.silent + 64 * flagByte c.overdue
                      + 128 * flagByte c.calFaulted]
                ++ orUnset c.zero ++ orUnset c.gain ++ [BitVec.ofInt 8 c.balance])
              (u.updHead h fun x =>
                { x with
                  framing := x.framing && !clear.getLsbD 0
                  check := x.check && !clear.getLsbD 1
                  stray := x.stray && !clear.getLsbD 2
                  skipped := x.skipped && !clear.getLsbD 3
                  missed := x.missed && !clear.getLsbD 4 }))
          ∧ (32 ≤ clear.toNat → exec .headStatus s₀ = refusal))
        ∧ (4 ≤ fieldAt r.payload 1 1 → exec .headStatus s₀ = refusal))
    ∧ (3 ≤ target → exec .linkStatus s₀ = refusal ∧ exec .laneStatus s₀ = refusal ∧ exec .headStatus s₀ = refusal)

/-- RESTART (R183 to R186, and the table RESTART across the blocks): refused STATE unless both lanes are DISABLED; else
the parked COLLECTs, the sweeps and the closes are answered RESTARTED in this order, then the RESTART is answered DONE,
the requests present are marked, and every block takes its values after RESTART. It starts after the events already
reached (R4; log entry 2). -/
def Obligations.RestartActsOnEveryBlock : Prop :=
  ∀ (s₀ : State) (r : Request) (rest : List Request),
    let s := takeReached s₀
    CanTake 0x03 r rest s →
    let lane (x : LaneState) : LaneState :=
      { enc := x.enc, reversed := false, encoderFault := false, settings := none, mode := .disabled,
        triggerIndex := x.triggerIndex, nextTrigger := none, eyeBlocked := x.eyeBlocked, divert := true, expect := [],
        transit := [], flood := false, floodEnd := .absent, untracked := 0, nextRecord := x.nextRecord, ready := [],
        triggerSeen := x.triggerIndex }
    let head (x : HeadPort) : HeadPort :=
      { settings := x.settings
        mode := if x.mode = .aligned then .aligned else .unaligned
        tap := if x.mode = .aligned then x.tap else 0
        outstanding := [], lastTrigger := none, ring := [], missedRun := 0, framing := false, check := false,
        stray := false, skipped := false, missed := false, silent := false
        triggerLine := if x.sweeping then x.triggerLine ++ [[0xA003]] else x.triggerLine }
    let cal (c : CalRecord) : CalRecord :=
      { zero := c.zero, gain := c.gain, balance := 0, overdue := false, calFaulted := false, faultCount := 0,
        requested := false, idleRun := 0, attempt := none }
    let slot (n : RecipeSlot) : RecipeSlot :=
      if n.state = .ready then { n with refs := 0, lastFailure := none }
      else
        { state := .empty, refs := 0, header := none, classes := none, joints := [], needed := [], lastFailure := none,
          closeTag := none }
    let ended (kind tag : Byte) : Reply := { kind := 0x81, tag := tag, payload := [kind, 14] }
    ((s.lane .a).mode = .disabled ∧ (s.lane .b).mode = .disabled →
      exec .restart s₀ = .next
        { s with
          lanes := ⟨lane s.lanes.a, lane s.lanes.b⟩
          heads := ⟨head s.heads.i0, head s.heads.i1, head s.heads.i2, head s.heads.i3⟩
          due := ⟨0, 0, 0, 0⟩
          cal := ⟨cal s.cal.i0, cal s.cal.i1, cal s.cal.i2, cal s.cal.i3⟩
          slots := ⟨slot s.slots.i0, slot s.slots.i1, slot s.slots.i2, slot s.slots.i3⟩
          pointer := .a
          units := ⟨none, none, none, none⟩
          verdicts := { queue := [], parked := [], dropped := 0 }
          link :=
            { s.link with
              inbox := rest.map fun q => { q with marked := true }
              holdOut := if 6 ≤ rest.length then true else if rest.length ≤ 4 then false else s.link.holdOut
              linkFraming := false
              timeout := false
              rejectsDropped := false
              outbox :=
                s.link.outbox ++ s.verdicts.parked.map (ended 0x12)
                  ++ ([s.heads.i0, s.heads.i1, s.heads.i2, s.heads.i3].filterMap fun h =>
                      match h.mode with
                      | .aligning sw => some (ended 0x0A sw.requestTag)
                      | .unaligned => none
                      | .aligned => none)
                  ++ ([s.slots.i0, s.slots.i1, s.slots.i2, s.slots.i3].filterMap fun n => n.closeTag.map (ended 0x0F))
                  ++ [{ kind := 0x80, tag := r.tag, payload := [0x03] }] } })
    ∧ (¬((s.lane .a).mode = .disabled ∧ (s.lane .b).mode = .disabled) →
        exec .restart s₀ = answersRefused 0x03 r .state [] (afterTaking rest s))

/-! ### Lane requests -/

/-- LANE_SETUP (R5): the checks in their order, the clamps of gate_tail and idle_cal_gap, the settings stored whole and
answered as stored, and nothing else changed. It starts after the events already reached (R4; log entry 2). -/
def Obligations.LaneSetupChecksAndStores : Prop :=
  ∀ (s₀ : State) (r : Request) (rest : List Request),
    let s := takeReached s₀
    CanTake 0x04 r rest s →
    let u := afterTaking rest s
    let lineStep := fieldAt r.payload 1 1
    let dScan := fieldAt r.payload 2 4
    let dGate := fieldAt r.payload 6 4
    let gateLead := fieldAt r.payload 10 2
    let gateTail := fieldAt r.payload 12 2
    let minBoard := fieldAt r.payload 14 4
    let policy := fieldAt r.payload 18 1
    let idleCalGap := fieldAt r.payload 19 2
    let inRange : Prop :=
      (1 ≤ lineStep ∧ lineStep ≤ 64) ∧ (16 * lineStep ≤ dScan ∧ dScan ≤ 1048575) ∧ (1 ≤ gateLead ∧ gateLead ≤ 65535)
        ∧ (dGate ≤ 16777215 ∧ dScan + gateLead < dGate) ∧ (minBoard ≠ 0 ∧ minBoard ≤ dScan) ∧ (policy = 0 ∨ policy = 1)
    let st : LaneSettings :=
      { lineStep := lineStep, dScan := dScan, dGate := dGate, gateLead := gateLead, gateTail := min gateTail 4095,
        minBoard := minBoard, stalePolicy := if policy = 0 then .report else .demote,
        idleCalGap := max 64 (min idleCalGap 4096) }
    (2 ≤ fieldAt r.payload 0 1 → exec .laneSetup s₀ = answersRefused 0x04 r .range [] u)
    ∧ ∀ l, laneOf? (fieldAt r.payload 0 1) = some l →
        ((s.lane l).mode ≠ .disabled → exec .laneSetup s₀ = answersRefused 0x04 r .state [] u)
        ∧ ((s.lane l).mode = .disabled → ¬inRange → exec .laneSetup s₀ = answersRefused 0x04 r .range [] u)
        ∧ ((s.lane l).mode = .disabled → inRange →
            exec .laneSetup s₀ = answersDone 0x04 r (laneSettingsBytes l st)
              (u.updLane l fun x => { x with settings := some st }))

/-- LANE_START (R8, R71): refused RANGE or STATE by its checks; else the lane runs from its position, its untracked
counter is 0, its divert output follows R160, and each of its heads owes a calibration. With the assignments of heads
that R43 admits (`HeadLanesSound`), checks 4 and 5 come to a head at lane order 0. It starts after the events already
reached (R4; log entry 2). -/
def Obligations.LaneStartRunsTheLane : Prop :=
  ∀ (s₀ : State) (r : Request) (rest : List Request),
    let s := takeReached s₀
    CanTake 0x05 r rest s → HeadLanesSound s →
    let u := afterTaking rest s
    let refusal : Result := answersRefused 0x05 r .state [] u
    (2 ≤ fieldAt r.payload 0 1 → exec .laneStart s₀ = answersRefused 0x05 r .range [] u)
    ∧ ∀ l, laneOf? (fieldAt r.payload 0 1) = some l →
        let ready : Prop :=
          (∃ h st, (s.head h).settings = some st ∧ st.lane = some l ∧ st.laneOrder = 0)
            ∧ ∀ h st, (s.head h).settings = some st → st.lane = some l → (s.head h).mode = .aligned
        let started (h : HeadId) : CalRecord :=
          match (s.head h).settings with
          | none => s.calOf h
          | some st =>
            if st.lane = some l then { s.calOf h with balance := max (s.calOf h).balance 1, idleRun := 0 }
            else s.calOf h
        ((s.lane l).mode ≠ .disabled → exec .laneStart s₀ = refusal)
        ∧ ((s.lane l).settings = none → exec .laneStart s₀ = refusal)
        ∧ (¬ready → exec .laneStart s₀ = refusal)
        ∧ ∀ st, (s.lane l).mode = .disabled → (s.lane l).settings = some st → ready →
            exec .laneStart s₀ = answersDone 0x05 r
              (le32 (s.lane l).enc.position.toNat ++ le32 (s.lane l).triggerIndex.toNat)
              { u.updLane l fun x =>
                  { x with
                    nextTrigger := some (x.enc.position + BitVec.ofNat 32 st.lineStep)
                    untracked := 0
                    mode := .running
                    divert := x.flood || x.transit.any fun b => b.inWindow && decide (b.divertDecision = some true) } with
                cal := ⟨started .n0, started .n1, started .n2, started .n3⟩ }

/-- LANE_STOP (R10 to R12, R22, R27, R41, R53, R81, R153): refused RANGE or STATE; DRAIN of a lane with boards puts it
in STOPPING; DRAIN of an empty lane and ABANDON of any lane end with the lane left (`LaneLeft`): DISABLED, its queues
empty and their references released, its heads and its attempts ended. ABANDON decides every record that is not DECIDED
and releases the held verdicts, oldest first, before its reply, and takes the decided records' items from queue and
units; said where no decided record waits for release that could go (R151) and the arbiter has made its grants (R109).
That each LANE_STOP row takes and refuses a mode of 2 or more is the model's choice (log entry 21). It starts after the
events already reached (R4; log entry 2). -/
def Obligations.LaneStopDrainsOrAbandons : Prop :=
  ∀ (s₀ : State) (r : Request) (rest : List Request),
    let s := takeReached s₀
    CanTake 0x06 r rest s →
    let u := afterTaking rest s
    let mode := fieldAt r.payload 1 1
    let refusal (code : RefusalCode) : Result := answersRefused 0x06 r code [] u
    (2 ≤ mode ∨ 2 ≤ fieldAt r.payload 0 1 →
      (mode ≠ 1 → exec .laneStopDrain s₀ = refusal .range) ∧ (mode ≠ 0 → exec .laneStopAbandon s₀ = refusal .range))
    ∧ ∀ l, laneOf? (fieldAt r.payload 0 1) = some l →
        (mode = 0 →
          ((s.lane l).mode = .disabled → exec .laneStopDrain s₀ = refusal .state)
          ∧ ((s.lane l).mode = .stopping → exec .laneStopDrain s₀ = answersDone 0x06 r [2, 0] u)
          ∧ ((s.lane l).mode = .running → (s.lane l).transit ≠ [] →
              exec .laneStopDrain s₀ = answersDone 0x06 r [2, 0] (u.updLane l fun x => { x with mode := .stopping }))
          ∧ ((s.lane l).mode = .running → (s.lane l).transit = [] →
              ∃ t, exec .laneStopDrain s₀ = answersDone 0x06 r [0, 0] t ∧ LaneLeft l u t))
        ∧ (mode = 1 →
            ((s.lane l).mode = .disabled → exec .laneStopAbandon s₀ = refusal .state)
            ∧ ((s.lane l).mode ≠ .disabled →
                ∃ t, exec .laneStopAbandon s₀ = answersDone 0x06 r
                    [0, byteOf ((s.lane l).transit.filter fun b => decide (b.state ≠ .decided)).length] t
                  ∧ LaneLeft l u t
                  ∧ ∀ out held, (s.lane l).transit = out ++ held →
                      (∀ b ∈ out, b.state = .decided ∧ b.verdictPart.released = true) →
                      (∀ b more, held = b :: more → b.state ≠ .decided) → (s.lane l).ReleaseSound →
                      idleUnit s = none ∨ grantLane s = none →
                        let decided (b : BoardRecord) : BoardRecord :=
                          b.decideBy .abandon (stalePolicyOf (s.lane l)) (jointCountOf s b)
                        let released : State := held.foldl (fun v b => emitVerdict (verdictRecordOf l (decided b)) v) u
                        let cut (i : WorkItem) : Bool :=
                          held.any fun b => decide (b.state ≠ .decided) && decide (i.record = b.ident)
                        t.verdicts = released.verdicts ∧ t.link.outbox = released.link.outbox
                          ∧ (t.lane l).ready = (s.lane l).ready.filter (fun i => !cut i)
                          ∧ (∀ v, t.unitOf v = (s.unitOf v).map fun e =>
                              if e.item.lane = l ∧ cut e.item = true then { e with discard := true } else e)
                          ∧ t.pointer = s.pointer ∧ ∀ m, m ≠ l → t.lane m = s.lane m))

/-- EXPECT (R21): the checks in their order; an accepted entry joins the back of the expect queue, its slot takes a
reference, and the depth is answered. It starts after the events already reached (R4; log entry 2). -/
def Obligations.ExpectQueuesAnEntry : Prop :=
  ∀ (s₀ : State) (r : Request) (rest : List Request),
    let s := takeReached s₀
    CanTake 0x07 r rest s →
    let u := afterTaking rest s
    let refusal (code : RefusalCode) : Result := answersRefused 0x07 r code [] u
    let tag := fieldAt r.payload 1 4
    (2 ≤ fieldAt r.payload 0 1 ∨ tag = 0 ∨ 4 ≤ fieldAt r.payload 5 1 → exec .expect s₀ = refusal .range)
    ∧ ∀ l n, laneOf? (fieldAt r.payload 0 1) = some l → tag ≠ 0 → Four.ofNat? (fieldAt r.payload 5 1) = some n →
        ((s.lane l).mode ≠ .running → exec .expect s₀ = refusal .state)
        ∧ ((s.slot n).state ≠ .ready → exec .expect s₀ = refusal .state)
        ∧ ∀ st h, (s.lane l).mode = .running → (s.slot n).state = .ready → (s.lane l).settings = some st →
            (s.slot n).header = some h →
            let mismatch : Prop := h.lineStep ≠ st.lineStep ∨ (laneHeads s l).length < h.headsUsed
            let tooLong : Prop := st.dGate - st.gateLead < st.dScan + h.boardLines * st.lineStep
            let provisional : Prop :=
              ∃ b, (s.lane l).transit.getLast? = some b ∧ b.binding ≠ none ∧ b.state = .entering ∧ b.pTrail = none
                ∧ reached (s.lane l).enc.position (b.pLead + BitVec.ofNat 32 st.minBoard) = false
            let full : Prop := 4 ≤ (s.lane l).expect.length ∨ ((s.lane l).expect.length = 3 ∧ provisional)
            let stands : Prop :=
              (∃ e ∈ (s.lane l).expect, e.tag = BitVec.ofNat 32 tag)
                ∨ ∃ b ∈ (s.lane l).transit, b.tag = some (BitVec.ofNat 32 tag)
            (mismatch → exec .expect s₀ = refusal .mismatch)
            ∧ (¬mismatch → tooLong → exec .expect s₀ = refusal .geometry)
            ∧ (¬mismatch → ¬tooLong → full → exec .expect s₀ = refusal .full)
            ∧ (¬mismatch → ¬tooLong → ¬full → stands → exec .expect s₀ = refusal .duplicate)
            ∧ (¬mismatch → ¬tooLong → ¬full → ¬stands →
                exec .expect s₀ = answersDone 0x07 r [byteOf ((s.lane l).expect.length + 1)]
                  ((u.updLane l fun x =>
                    { x with expect := x.expect ++ [{ tag := BitVec.ofNat 32 tag, slot := n }] }).updSlot n
                      fun y => { y with refs := y.refs + 1 }))

/-- WITHDRAW (R38, R107, R114): an entry of the expect queue is removed and its reference released; a record that is
not DECIDED becomes DECIDED, WITHDRAWN, with its outstanding joints counted SKIPPED, its items leave the ready queue
and are discarded on the units, and the lane is examined for the places freed (R107); a DECIDED record gives TOO_LATE,
no match NOT_FOUND. That the releases it brings answer parked COLLECTs ahead of the reply is the model's choice (log
entry 27). It starts after the events already reached (R4; log entry 2). -/
def Obligations.WithdrawRemovesOrDecides : Prop :=
  ∀ (s₀ : State) (r : Request) (rest : List Request),
    let s := takeReached s₀
    CanTake 0x08 r rest s →
    let u := afterTaking rest s
    let refusal (code : RefusalCode) : Result := answersRefused 0x08 r code [] u
    let number := fieldAt r.payload 1 4
    let tag : Word := BitVec.ofNat 32 number
    (2 ≤ fieldAt r.payload 0 1 ∨ number = 0 → exec .withdraw s₀ = refusal .range)
    ∧ ∀ l, laneOf? (fieldAt r.payload 0 1) = some l → number ≠ 0 →
        (∀ before e after, (s.lane l).expect = before ++ e :: after → e.tag = tag → (∀ f ∈ before, f.tag ≠ tag) →
          exec .withdraw s₀ = answersDone 0x08 r [0, 0xFF]
            ((u.updLane l fun x => { x with expect := before ++ after }).updSlot e.slot fun y =>
              if y.state = .retiring ∧ y.refs ≤ 1 then
                { state := .empty, refs := 0, header := none, classes := none, joints := [], needed := [],
                  lastFailure := none, closeTag := none }
              else { y with refs := y.refs - 1 }))
        ∧ ((∀ e ∈ (s.lane l).expect, e.tag ≠ tag) → (∀ b ∈ (s.lane l).transit, b.tag ≠ some tag) →
            exec .withdraw s₀ = refusal .notFound)
        ∧ ∀ before b after, (∀ e ∈ (s.lane l).expect, e.tag ≠ tag) → (s.lane l).transit = before ++ b :: after →
            b.tag = some tag → (∀ q ∈ before, q.tag ≠ some tag) →
              (b.state = .decided → exec .withdraw s₀ = refusal .tooLate)
              ∧ (b.state ≠ .decided → (s.lane l).ReleaseSound →
                  ∃ t b', exec .withdraw s₀ = answersDone 0x08 r [1, b.state.code] t
                    ∧ (t.lane l).transit[before.length]? = some b' ∧ b'.ident = b.ident ∧ b'.state = .decided
                    ∧ b'.divertDecision = some true
                    ∧ b'.verdictPart =
                        { b.verdictPart with
                          counts :=
                            { b.verdictPart.counts with
                              skipped :=
                                b.verdictPart.counts.skipped + outstandingJoints (jointCountOf s b) b.work }
                          verdict := some .withdrawn
                          released := b'.verdictPart.released }
                    ∧ OnlyRecordsChange u t
                    ∧ t =
                        (let decided : State :=
                          offerRelease l
                            ((u.updLane l fun x =>
                              LaneState.reevaluate
                                { x with
                                  transit :=
                                    before ++ b.decideBy .withdraw (stalePolicyOf x) (jointCountOf s b) :: after
                                  ready := x.ready.filter fun i => !decide (i.record = b.ident) }).mapUnits fun e =>
                              if e.item.lane = l ∧ e.item.record = b.ident then { e with discard := true } else e)
                        if (s.lane l).ready.any (fun i => decide (i.record = b.ident)) = true then
                          grants (examine l decided)
                        else decided))

/-! ### Head requests -/

/-- HEAD_SETUP (R43, R44, R69, R14): the checks in their order; an accepted setup stores the settings, empties the
ring, makes last trigger and front absent, ends the missed run, sets the due count to 0 and hands zero and gain to the
Calibration Unit; state, tap, sticky flags, balance, OVERDUE, requested and idle run are kept. It starts after the
events already reached (R4; log entry 2). -/
def Obligations.HeadSetupChecksAndStores : Prop :=
  ∀ (s₀ : State) (r : Request) (rest : List Request),
    let s := takeReached s₀
    CanTake 0x09 r rest s →
    let u := afterTaking rest s
    let refusal (code : RefusalCode) : Result := answersRefused 0x09 r code [] u
    (4 ≤ fieldAt r.payload 0 1 ∨ 3 ≤ fieldAt r.payload 1 1 → exec .headSetup s₀ = refusal .range)
    ∧ ∀ h target, Four.ofNat? (fieldAt r.payload 0 1) = some h → headLaneOf? (fieldAt r.payload 1 1) = some target →
        let st : HeadSettings :=
          { lane := target, laneOrder := fieldAt r.payload 2 1, samples := fieldAt r.payload 3 2,
            zeroCol := fieldAt r.payload 5 2, stepCol := fieldAt r.payload 7 2, stepHeight := fieldAt r.payload 9 2,
            nominalGain := fieldAt r.payload 11 2, calInterval := fieldAt r.payload 13 4,
            initialZero := fieldAt r.payload 17 2, initialGain := fieldAt r.payload 19 2 }
        let sweeping : Prop := ∃ sw, (s.head h).mode = .aligning sw
        let busyLane : Prop :=
          (∃ old l, (s.head h).settings = some old ∧ old.lane = some l ∧ (s.lane l).mode ≠ .disabled)
            ∨ ∃ l, target = some l ∧ (s.lane l).mode ≠ .disabled
        let inRange : Prop :=
          st.laneOrder ≤ 1 ∧ (64 ≤ st.samples ∧ st.samples ≤ 1024) ∧ st.zeroCol ≤ 1008 ∧ st.stepCol ≤ 1008
            ∧ (100 ≤ st.stepHeight ∧ st.stepHeight ≤ 4000) ∧ (1 ≤ st.nominalGain ∧ st.nominalGain ≤ 1023)
            ∧ (1000 ≤ st.calInterval ∧ st.calInterval ≤ 1000000) ∧ st.initialZero ≤ 4094
            ∧ (1 ≤ st.initialGain ∧ st.initialGain ≤ 1023)
        let regions : Prop :=
          st.zeroCol + 15 < st.samples ∧ st.stepCol + 15 < st.samples
            ∧ ∀ c, ¬((st.zeroCol ≤ c ∧ c ≤ st.zeroCol + 15) ∧ (st.stepCol ≤ c ∧ c ≤ st.stepCol + 15))
        let orderTaken : Prop :=
          target ≠ none ∧ ∃ g su, g ≠ h ∧ (s.head g).settings = some su ∧ su.lane = target ∧ su.laneOrder = st.laneOrder
        (sweeping → exec .headSetup s₀ = refusal .busy)
        ∧ (¬sweeping → busyLane → exec .headSetup s₀ = refusal .state)
        ∧ (¬sweeping → ¬busyLane → ¬(inRange ∧ regions ∧ ¬orderTaken) → exec .headSetup s₀ = refusal .range)
        ∧ (¬sweeping → ¬busyLane → inRange → regions → ¬orderTaken →
            exec .headSetup s₀ = answersDone 0x09 r (headSettingsBytes h st)
              (((u.updHead h fun x =>
                { x with
                  settings := some st, ring := [], lastTrigger := none, outstanding := [], missedRun := 0,
                  silent := false }).setDue h 0).updCal h fun c =>
                { c with
                  zero := some st.initialZero, gain := some st.initialGain, faultCount := 0, calFaulted := false }))

/-- HEAD_ALIGN (R47, R48): RANGE, BUSY or STATE by its checks; an accepted one puts the head in ALIGNING with selected
tap 0 and every entry of the pass map fail, sends alignment start, and is not answered yet. It starts after the events
already reached (R4; log entry 2). -/
def Obligations.HeadAlignStartsTheSweep : Prop :=
  ∀ (s₀ : State) (r : Request) (rest : List Request),
    let s := takeReached s₀
    CanTake 0x0A r rest s →
    let u := afterTaking rest s
    (4 ≤ fieldAt r.payload 0 1 → exec .headAlign s₀ = answersRefused 0x0A r .range [] u)
    ∧ ∀ h, Four.ofNat? (fieldAt r.payload 0 1) = some h →
        let sweeping : Prop := ∃ sw, (s.head h).mode = .aligning sw
        let busyLane : Prop :=
          ∃ st l, (s.head h).settings = some st ∧ st.lane = some l ∧ (s.lane l).mode ≠ .disabled
        (sweeping → exec .headAlign s₀ = answersRefused 0x0A r .busy [] u)
        ∧ (¬sweeping → busyLane → exec .headAlign s₀ = answersRefused 0x0A r .state [] u)
        ∧ (¬sweeping → ¬busyLane →
            exec .headAlign s₀ = .next (u.updHead h fun x =>
              { x with
                tap := 0
                triggerLine := x.triggerLine ++ [[0xA002]]
                mode :=
                  .aligning
                    { requestTag := r.tag, passMap := List.replicate 32 false, tap := 0, frames := 0, allMatch := true,
                      tapSetAt := s.now } }))

/-- CAL_REQUEST (R72): a head outside 0..3 gives RANGE, a head with lane NONE or without settings STATE; otherwise
requested is set, and the balance and whether an attempt is present are answered. It starts after the events already
reached (R4; log entry 2). -/
def Obligations.CalRequestSetsRequested : Prop :=
  ∀ (s₀ : State) (r : Request) (rest : List Request),
    let s := takeReached s₀
    CanTake 0x0B r rest s →
    let u := afterTaking rest s
    (4 ≤ fieldAt r.payload 0 1 → exec .calRequest s₀ = answersRefused 0x0B r .range [] u)
    ∧ ∀ h, Four.ofNat? (fieldAt r.payload 0 1) = some h →
        ((s.head h).settings = none → exec .calRequest s₀ = answersRefused 0x0B r .state [] u)
        ∧ ∀ st, (s.head h).settings = some st →
            (st.lane = none → exec .calRequest s₀ = answersRefused 0x0B r .state [] u)
            ∧ (st.lane ≠ none →
                exec .calRequest s₀ = answersDone 0x0B r
                  [BitVec.ofInt 8 (s.calOf h).balance, if (s.calOf h).attempt = none then 0 else 1]
                  (u.updCal h fun c => { c with requested := true }))

/-! ### Recipe requests -/

/-- Every RECIPE_ request is first checked for its slot (R86): outside 0..3 gives RANGE, a CLOSING slot gives BUSY, and
neither changes any slot. It starts after the events already reached (R4; log entry 2). -/
def Obligations.RecipeRequestsCheckTheSlot : Prop :=
  ∀ (s₀ : State) (r : Request) (rest : List Request),
    let s := takeReached s₀
    ∀ row ∈ [(Instr.recipeOpen, (0x0C : Byte)), (.recipeClasses, 0x0D), (.recipeJoints, 0x0E), (.recipeClose, 0x0F),
        (.recipeRetire, 0x10), (.recipeQuery, 0x11)],
      CanTake row.2 r rest s →
        (4 ≤ fieldAt r.payload 0 1 → exec row.1 s₀ = answersRefused row.2 r .range [] (afterTaking rest s))
        ∧ ∀ n, Four.ofNat? (fieldAt r.payload 0 1) = some n → (s.slot n).state = .closing →
            exec row.1 s₀ = answersRefused row.2 r .busy [] (afterTaking rest s)

/-- Loading a recipe (R89 to R91): RECIPE_OPEN stores a header in an EMPTY slot, RECIPE_CLASSES stores the whole class
table, RECIPE_JOINTS appends a run of joint records; each with its refusals, and the index or count they carry. It
starts after the events already reached (R4; log entry 2). -/
def Obligations.RecipeLoadsInOrder : Prop :=
  ∀ (s₀ : State) (r : Request) (rest : List Request) (n : SlotId),
    let s := takeReached s₀
    Four.ofNat? (fieldAt r.payload 0 1) = some n →
    (s.slot n).state ≠ .closing →
      let u := afterTaking rest s
      (CanTake 0x0C r rest s →
        let h : Header :=
          { jointCount := fieldAt r.payload 1 2, classCount := fieldAt r.payload 3 1, boardLines := fieldAt r.payload 4 2,
            lineStep := fieldAt r.payload 6 1, lengthTol := fieldAt r.payload 7 2, headsUsed := fieldAt r.payload 9 1 }
        let inRange : Prop :=
          (1 ≤ h.jointCount ∧ h.jointCount ≤ 8192) ∧ (1 ≤ h.classCount ∧ h.classCount ≤ 16)
            ∧ (1 ≤ h.boardLines ∧ h.boardLines ≤ 65535) ∧ (1 ≤ h.lineStep ∧ h.lineStep ≤ 64) ∧ h.lengthTol ≤ 65535
            ∧ (1 ≤ h.headsUsed ∧ h.headsUsed ≤ 2)
        ((s.slot n).state ≠ .empty → exec .recipeOpen s₀ = answersRefused 0x0C r .state [] u)
        ∧ ((s.slot n).state = .empty → ¬inRange → exec .recipeOpen s₀ = answersRefused 0x0C r .range [] u)
        ∧ ((s.slot n).state = .empty → inRange →
            exec .recipeOpen s₀ = answersDone 0x0C r (byteOf n.toNat :: headerBytes h)
              (u.updSlot n fun _ =>
                { state := .loading, refs := 0, header := some h, classes := none, joints := [], needed := [],
                  lastFailure := none, closeTag := none })))
      ∧ (CanTake 0x0D r rest s →
          let inRange (c : ClassEntry) : Prop :=
            c.vmin ≤ 16384000 ∧ c.vmax ≤ 16384000 ∧ (1 ≤ c.pmax ∧ c.pmax ≤ 4000)
              ∧ (1 ≤ c.wetHeight ∧ c.wetHeight ≤ 4000) ∧ c.cmin ≤ 1000 ∧ c.validMin ≤ 1000
              ∧ (1 ≤ c.hclamp ∧ c.hclamp ≤ 4000)
          ((s.slot n).state ≠ .loading → exec .recipeClasses s₀ = answersRefused 0x0D r .state [] u)
          ∧ ∀ h, (s.slot n).state = .loading → (s.slot n).header = some h →
              let cs := readClasses ((r.payload.length - 1) / 16) (r.payload.drop 1)
              (cs.length ≠ h.classCount → exec .recipeClasses s₀ = answersRefused 0x0D r .range [] u)
              ∧ (∀ k, cs.length = h.classCount → (∀ i c, i < k → cs[i]? = some c → inRange c) →
                  (∃ c, cs[k]? = some c ∧ ¬inRange c) →
                  exec .recipeClasses s₀ = answersRefused 0x0D r .range [byteOf k] u)
              ∧ (cs.length = h.classCount → (∀ c ∈ cs, inRange c) →
                  exec .recipeClasses s₀ = answersDone 0x0D r [byteOf h.classCount]
                    (u.updSlot n fun x => { x with classes := some cs })))
      ∧ (CanTake 0x0E r rest s →
          let inRange (w : WireJoint) : Prop :=
            w.presence ≤ 1 ∧ (1 ≤ w.joint.jointId ∧ w.joint.jointId ≤ 65535) ∧ w.joint.head ≤ 1 ∧ w.joint.cls ≤ 15
              ∧ (1 ≤ w.joint.margin ∧ w.joint.margin ≤ 8) ∧ w.joint.col0 ≤ 1023
              ∧ (1 ≤ w.joint.ncols ∧ w.joint.ncols ≤ 64) ∧ w.joint.row0 ≤ 65535
              ∧ (1 ≤ w.joint.nrows ∧ w.joint.nrows ≤ 64)
              ∧ ∀ g, w.joint.gap = some g →
                  g.gcol0 ≤ 1023 ∧ (1 ≤ g.gncols ∧ g.gncols ≤ 64) ∧ g.grow0 ≤ 65535 ∧ (1 ≤ g.gnrows ∧ g.gnrows ≤ 64)
                    ∧ (1 ≤ g.bridgeHeight ∧ g.bridgeHeight ≤ 4000) ∧ (1 ≤ g.bridgeCount ∧ g.bridgeCount ≤ 4096)
          let loaded := (s.slot n).joints.length
          ((s.slot n).state ≠ .loading → exec .recipeJoints s₀ = answersRefused 0x0E r .state [] u)
          ∧ ((s.slot n).state = .loading → fieldAt r.payload 1 2 ≠ loaded →
              exec .recipeJoints s₀ = answersRefused 0x0E r .order (le16 loaded) u)
          ∧ ∀ h ws, (s.slot n).state = .loading → fieldAt r.payload 1 2 = loaded → (s.slot n).header = some h →
              payloadJoints r.payload = some ws →
                let fits : Prop := ws ≠ [] ∧ loaded + ws.length ≤ h.jointCount
                (¬fits → exec .recipeJoints s₀ = answersRefused 0x0E r .range [] u)
                ∧ (∀ k, fits → (∀ i w, i < k → ws[i]? = some w → inRange w) → (∃ w, ws[k]? = some w ∧ ¬inRange w) →
                    exec .recipeJoints s₀ = answersRefused 0x0E r .range (le16 (loaded + k)) u)
                ∧ (fits → (∀ w ∈ ws, inRange w) →
                    exec .recipeJoints s₀ = answersDone 0x0E r (le16 (loaded + ws.length))
                      (u.updSlot n fun x => { x with joints := x.joints ++ ws.map fun w => w.joint })))

/-- RECIPE_CLOSE, RECIPE_RETIRE and RECIPE_QUERY on a slot that is not CLOSING (R92, R98, R101): a LOADING slot starts
its close and is not answered yet; a slot without references is emptied, one with references RETIRES; a query answers
the slot, field by field (R188), and changes nothing. It starts after the events already reached (R4; log entry 2). -/
def Obligations.RecipeClosesRetiresAndAnswers : Prop :=
  ∀ (s₀ : State) (r : Request) (rest : List Request) (n : SlotId),
    let s := takeReached s₀
    Four.ofNat? (fieldAt r.payload 0 1) = some n →
    (s.slot n).state ≠ .closing →
      let u := afterTaking rest s
      let x := s.slot n
      let emptied : State :=
        u.updSlot n fun _ =>
          { state := .empty, refs := 0, header := none, classes := none, joints := [], needed := [],
            lastFailure := none, closeTag := none }
      (CanTake 0x0F r rest s →
        (x.state ≠ .loading → exec .recipeClose s₀ = answersRefused 0x0F r .state [] u)
        ∧ (x.state = .loading →
            exec .recipeClose s₀ = .next (u.updSlot n fun y => { y with state := .closing, closeTag := some r.tag })))
      ∧ (CanTake 0x10 r rest s →
          (x.state = .empty ∨ x.state = .retiring → exec .recipeRetire s₀ = answersRefused 0x10 r .state [] u)
          ∧ (x.state = .loading ∨ (x.state = .ready ∧ x.refs = 0) →
              exec .recipeRetire s₀ = answersDone 0x10 r [0, 0] emptied)
          ∧ (x.state = .ready → 0 < x.refs →
              exec .recipeRetire s₀ = answersDone 0x10 r [4, byteOf x.refs]
                (u.updSlot n fun y => { y with state := .retiring })))
      ∧ (CanTake 0x11 r rest s →
          let state : Byte :=
            match x.state with
            | .empty => 0
            | .loading => 1
            | .closing => 2
            | .ready => 3
            | .retiring => 4
          let code (f : CloseFailure) : Byte :=
            match f.code with
            | .range => 4
            | .order => 6
            | .geometry => 10
            | .duplicate => 11
            | .incomplete => 12
          let table (f : CloseFailure) : Byte := match f.table with | .classTable => 0 | .jointTable => 1
          exec .recipeQuery s₀ = answersDone 0x11 r
            ([state, byteOf x.refs]
              ++ (match x.header with
                | some h =>
                  1 :: le16 h.jointCount ++ [byteOf h.classCount] ++ le16 h.boardLines ++ [byteOf h.lineStep]
                    ++ le16 h.lengthTol ++ [byteOf h.headsUsed]
                | none => [0, 0, 0, 0, 0, 0, 0, 0, 0, 0])
              ++ [if x.classes.isSome then 1 else 0] ++ le16 x.joints.length
              ++ (match x.lastFailure with
                | some f => [1, code f, table f] ++ le16 f.index
                | none => [0, 0, 0, 0, 0]))
            u)

/-! ### COLLECT and the verdict queue -/

/-- COLLECT and released verdicts (R154 to R157): COLLECT takes the oldest verdict of the queue with the dropped count,
which then is 0; with the queue empty it is parked, or refused FULL with 4 parked. A released verdict record answers
the oldest parked COLLECT; with none parked it joins the queue, a full queue dropping its oldest. The bytes of a verdict
record and of its defect entries, absent fields and measures included (R137, R152, R188). It starts after the events
already reached (R4; log entry 2). -/
def Obligations.CollectDeliversVerdictsInOrder : Prop :=
  (∀ (s₀ : State) (r : Request) (rest : List Request),
     let s := takeReached s₀
     CanTake 0x12 r rest s →
    let u := afterTaking rest s
    (∀ v more, s.verdicts.queue = v :: more →
      exec .collect s₀ = answersDone 0x12 r (verdictBytes { v with droppedBefore := s.verdicts.dropped })
        { u with verdicts := { s.verdicts with queue := more, dropped := 0 } })
    ∧ (s.verdicts.queue = [] → s.verdicts.parked.length < 4 →
        exec .collect s₀ = .next { u with verdicts := { s.verdicts with parked := s.verdicts.parked ++ [r.tag] } })
    ∧ (s.verdicts.queue = [] → 4 ≤ s.verdicts.parked.length →
        exec .collect s₀ = answersRefused 0x12 r .full [] u))
  ∧ (∀ v : VerdictRecord,
      let k := v.counts
      let f := v.flags
      verdictBytes v =
          le32 (match v.tag with | some t => t.toNat | none => 0)
            ++ [(match v.lane with | .a => 0 | .b => 1 : Byte),
                match v.slot with | some n => byteOf n.toNat | none => 0xFF]
            ++ le32 v.pLead.toNat
            ++ (match v.measuredLength with | some m => 1 :: le32 m.toNat | none => [0, 0, 0, 0, 0])
            ++ [v.verdict.code, if v.divert then 1 else 0,
                flagByte f.calStale + 2 * flagByte f.linesLost + 4 * flagByte f.lengthMismatch + 8 * flagByte f.noRecipe
                  + 16 * flagByte f.abandoned]
            ++ [k.good, k.insufficient, k.excess, k.nonWet, k.lifted, k.bridged, k.occluded, k.noRef, k.dataLost, k.late,
                k.skipped].flatMap le16
            ++ le16 v.overflow ++ le16 v.droppedBefore ++ [byteOf v.defects.length] ++ v.defects.flatMap defectBytes
        ∧ (verdictBytes v).length = 45 + 15 * v.defects.length)
  ∧ (∀ (id : Nat) (o : JointOutcome),
      let entry (m : Measures) : List Byte := defectBytes { jointId := id, outcome := o, measures := m }
      entry .absent = le16 id ++ [o.code, 0, 0, 0, 0, 0, 0, 0, 0, 0, 0, 0, 0]
        ∧ (∀ valid, entry (.validOnly valid) = le16 id ++ [o.code, 1, 0, 0, 0, 0, 0, 0, 0, 0, 0] ++ le16 valid)
        ∧ ∀ volume peak coverage zRef valid, entry (.full volume peak coverage zRef valid) =
            le16 id ++ [o.code, 2] ++ le24 volume ++ le16 peak ++ le16 coverage ++ le16 (BitVec.ofInt 16 zRef).toNat
              ++ le16 valid)
  ∧ ([.good, .insufficient, .excess, .nonWet, .lifted, .bridged, .occluded, .noRef, .dataLost, .late,
      .skipped] : List JointOutcome).map JointOutcome.code = [0, 1, 2, 3, 4, 5, 6, 7, 8, 9, 10]
  ∧ ([.pass, .fail, .review, .unjudged, .withdrawn] : List Verdict).map Verdict.code = [0, 1, 2, 3, 4]
  ∧ ∀ (v : VerdictRecord) (s : State),
      (∀ tag more, s.verdicts.parked = tag :: more →
        emitVerdict v s = withReply
          { kind := 0x80, tag := tag,
            payload := 0x12 :: verdictBytes { v with droppedBefore := s.verdicts.dropped } }
          { s with verdicts := { s.verdicts with parked := more, dropped := 0 } })
      ∧ (s.verdicts.parked = [] → s.verdicts.queue.length < 32 →
          emitVerdict v s = { s with verdicts := { s.verdicts with queue := s.verdicts.queue ++ [v] } })
      ∧ (s.verdicts.parked = [] → 32 ≤ s.verdicts.queue.length →
          emitVerdict v s =
            { s with
              verdicts :=
                { s.verdicts with
                  queue := s.verdicts.queue.drop 1 ++ [v]
                  dropped := min 65535 (s.verdicts.dropped + 1) } })

/-- CLOSE_END (R93 to R96): the close checks in their order, each over its whole table; the first that fails, at the
lowest index, sends the slot back to LOADING with that failure, keeping what R96 keeps; a recipe that passes becomes
READY with its needed rows. The RECIPE_CLOSE is answered under its tag. Nothing else changes. It starts after the
events already reached (R4; log entry 2). -/
def Obligations.CloseEndsByItsChecks : Prop :=
  ∀ (s₀ : State) (n : SlotId),
    let s := takeReached s₀
    s.resetAsserted = false →
    let x := s.slot n
    (x.state ≠ .closing → exec (.closeEnd n) s₀ = .next s)
    ∧ ∀ tag, x.state = .closing → x.closeTag = some tag →
        let fails (f : CloseFailure) (kept : List Joint) : Prop :=
          exec (.closeEnd n) s₀ = .next (withReply
            { kind := 0x81, tag := tag, payload := [0x0F, f.code.refusal.code, f.table.code] ++ le16 f.index }
            (s.updSlot n fun y =>
              { y with state := .loading, joints := kept, lastFailure := some f, closeTag := none }))
        (x.classes = none → fails { code := .incomplete, table := .classTable, index := 0 } x.joints)
        ∧ ∀ cs h, x.classes = some cs → x.header = some h →
            let first (j : Joint) : Int :=
              match j.gap with
              | none => (j.row0 : Int) - j.margin
              | some g => min ((j.row0 : Int) - j.margin) g.grow0
            let last (j : Joint) : Int :=
              match j.gap with
              | none => (j.row0 : Int) + j.nrows - 1 + j.margin
              | some g => max ((j.row0 : Int) + j.nrows - 1 + j.margin) ((g.grow0 : Int) + g.gnrows - 1)
            let inconsistent (k : Nat) : Prop := ∃ c, cs[k]? = some c ∧ ¬(c.vmin ≤ c.vmax ∧ c.wetHeight ≤ c.hclamp)
            let unnamed (k : Nat) : Prop :=
              ∃ j, x.joints[k]? = some j ∧ ¬(j.cls < h.classCount ∧ j.head < h.headsUsed)
            let outside (k : Nat) : Prop :=
              ∃ j, x.joints[k]? = some j
                ∧ (first j < 0 ∨ (h.boardLines : Int) - 1 < last j ∨ (j.col0 : Int) - j.margin < 0
                    ∨ 1023 < (j.col0 : Int) + j.ncols - 1 + j.margin
                    ∨ ∃ g, j.gap = some g ∧ 1023 < (g.gcol0 : Int) + g.gncols - 1)
            let tall (k : Nat) : Prop := ∃ j, x.joints[k]? = some j ∧ 255 < last j - first j
            let descends (k : Nat) : Prop :=
              ∃ i a b, k = i + 1 ∧ x.joints[i]? = some a ∧ x.joints[k]? = some b ∧ last b < last a
            let repeats (k : Nat) : Prop :=
              ∃ i a b, i < k ∧ x.joints[i]? = some a ∧ x.joints[k]? = some b ∧ a.jointId = b.jointId
            let lowest (bad : Nat → Prop) (k : Nat) : Prop := bad k ∧ ∀ i < k, ¬bad i
            let never (bad : Nat → Prop) : Prop := ∀ k, ¬bad k
            let jointFault (code : CloseCode) (k : Nat) : Prop :=
              fails { code := code, table := .jointTable, index := k } (x.joints.take k)
            (x.joints.length ≠ h.jointCount →
              fails { code := .incomplete, table := .jointTable, index := x.joints.length } x.joints)
            ∧ (x.joints.length = h.jointCount →
                (∀ k, lowest inconsistent k → fails { code := .range, table := .classTable, index := k } x.joints)
                ∧ (never inconsistent →
                    (∀ k, lowest unnamed k → jointFault .range k)
                    ∧ (∀ k, never unnamed → lowest outside k → jointFault .geometry k)
                    ∧ (∀ k, never unnamed → never outside → lowest tall k → jointFault .geometry k)
                    ∧ (∀ k, never unnamed → never outside → never tall → lowest descends k → jointFault .order k)
                    ∧ (∀ k, never unnamed → never outside → never tall → never descends → lowest repeats k →
                        jointFault .duplicate k)
                    ∧ (never unnamed → never outside → never tall → never descends → never repeats →
                        exec (.closeEnd n) s₀ = .next (withReply
                          { kind := 0x80, tag := tag, payload := [0x0F, byteOf n.toNat] ++ le16 h.jointCount }
                          (s.updSlot n fun y =>
                            { y with
                              state := .ready
                              needed := y.joints.map fun j => { first := (first j).toNat, last := (last j).toNat }
                              lastFailure := none
                              closeTag := none })))))

/-! ### The belt -/

/-- ENCODER_STATE_CHANGE (R1 to R4): after the events already reached, a forward step, a reverse step or an illegal
transition changes the encoder by R1 to R3, a state equal to the reference changes nothing, and nothing else changes.
The events already reached (`takeReached`): on each lane, for each watched position of R4 that is reached and whose
event is not yet taken, its row's own effect, all of them in an order no rule defines (log entries 2, 3). None counts
the belt. -/
def Obligations.EncoderCountsTheBelt : Prop :=
  (∀ (s₀ : State) (l : Lane) (p q : Bool),
    let s := takeReached s₀
    s.resetAsserted = false →
      let e := (s.lane l).enc
      (p = e.refP ∧ q = e.refQ → exec (.encoderStateChange l p q) s₀ = .next s)
      ∧ (p = !e.refQ ∧ q = e.refP →
          exec (.encoderStateChange l p q) s₀ = .next (s.updLane l fun x =>
            { x with
              enc :=
                { refP := p, refQ := q, raw := e.raw + 1,
                  position := if e.deficit = 0 then e.position + 1 else e.position,
                  deficit := e.deficit - 1 } }))
      ∧ (p = e.refQ ∧ q = !e.refP → e.deficit < 1048575 →
          exec (.encoderStateChange l p q) s₀ = .next (s.updLane l fun x =>
            { x with
              enc :=
                { refP := p, refQ := q, raw := e.raw - 1, position := e.position, deficit := e.deficit + 1 }
              reversed := x.reversed || decide (e.deficit = 4096) }))
      ∧ (p = e.refQ ∧ q = !e.refP → e.deficit = 1048575 →
          exec (.encoderStateChange l p q) s₀ = .next (s.updLane l fun x =>
            { x with enc := { e with refP := p, refQ := q } }))
      ∧ (p = !e.refP ∧ q = !e.refQ →
          exec (.encoderStateChange l p q) s₀ = .next (s.updLane l fun x =>
            { x with enc := { e with refP := p, refQ := q }, encoderFault := true })))
  ∧ (∀ s : State, s.resetAsserted = true → takeReached s = s)
  ∧ (∀ s : State, s.resetAsserted = false →
      (takeReached s).resetAsserted = false
      ∧ (∃ order : List (Lane × Watched),
        order.Perm
            ((dueEvents (s.lane .a)).map (fun w => (Lane.a, w)) ++ (dueEvents (s.lane .b)).map fun w => (Lane.b, w))
          ∧ takeReached s = takeInOrder (fun e => takeWatched e.1 e.2) order s)
      ∧ ∀ l, ((takeReached s).lane l).enc = (s.lane l).enc
          ∧ ((takeReached s).lane l).reversed = (s.lane l).reversed
          ∧ ((takeReached s).lane l).encoderFault = (s.lane l).encoderFault
          ∧ exec (.laneTrigger l) s = .next (takeWatched l .trigger s)
          ∧ exec (.deadline l) s = .next (takeWatched l .deadline s)
          ∧ exec (.gateWindowStart l) s = .next (takeWatched l .gateStart s)
          ∧ exec (.gateWindowEnd l) s = .next (takeWatched l .gateEnd s)
          ∧ exec (.floodEnd l) s = .next (takeWatched l .floodEnd s))
  ∧ ∀ (x : LaneState) (st : LaneSettings), x.settings = some st →
      let at' (p : Word) : Bool := reached x.enc.position p
      (dueEvents x).count .trigger =
          (match x.nextTrigger with
          | some p => if x.mode ≠ .disabled ∧ at' p = true then 1 else 0
          | none => 0)
        ∧ (dueEvents x).count .deadline =
            (x.transit.countP fun r =>
              decide (r.state ≠ .decided) && at' (r.pLead + BitVec.ofNat 32 (st.dGate - st.gateLead)))
        ∧ (dueEvents x).count .gateStart =
            (x.transit.countP fun r => !r.inWindow && at' (r.pLead + BitVec.ofNat 32 st.dGate))
        ∧ (dueEvents x).count .gateEnd =
            (x.transit.countP fun r =>
              match r.pTrail with
              | some p => at' (r.pLead + BitVec.ofNat 32 st.dGate + (p - r.pLead) + BitVec.ofNat 32 st.gateTail)
              | none => false)
        ∧ (dueEvents x).count .floodEnd =
            match x.floodEnd with
            | .position p => if at' p = true then 1 else 0
            | .absent => 0
            | .opened => 0
            | .passed => 0

/-- LANE_TRIGGER (R13, R14, R51, R52, R58): a trigger is issued exactly when the lane is not DISABLED and its next
trigger position is reached. The index goes up by one and the position by line_step; the Window Scheduler sees the
trigger; each head of the lane takes it (sent and listed with fewer than 4 outstanding, skipped otherwise; a line of
its slot that is PENDING and listed is first settled MISSED) and its due count advances; the other heads, the slots,
and all but the replies of the Link Port are unchanged. All this is the takings of its receivers, each once, in an
order no rule defines (log entry 3): what the board side, the Calibration Unit, the Window Scheduler and the heads take
is stated of these takings in `ScanFollowsTheTriggers`, `CalibrationAttemptsRunToCompletion`,
`EvaluationsCompleteIntoRecords`, `TriggerTimeoutSettlesMissed` and `DueEventRaisesTheBalance`. The time of issue is
the model's own (log entry 4). -/
def Obligations.LaneTriggerReachesItsReceivers : Prop :=
  ∀ (s : State) (l : Lane), s.resetAsserted = false →
    let x := s.lane l
    let index := x.triggerIndex + 1
    (x.mode = .disabled ∨ (∀ p, x.nextTrigger = some p → reached x.enc.position p = false) →
      exec (.laneTrigger l) s = .next s)
    ∧ ∀ p st, x.mode ≠ .disabled → x.nextTrigger = some p → reached x.enc.position p = true → x.settings = some st →
        ∃ (t : State) (order : List TriggerTaker), exec (.laneTrigger l) s = .next t
          ∧ order.Perm ((laneHeads s l).map TriggerTaker.headPort ++ [.boardSide, .scheduler, .calibration]
              ++ (laneHeads s l).map TriggerTaker.dueCount)
          ∧ t = takeInOrder (takeTriggerAt l index p) order (s.updLane l fun y =>
              { y with triggerIndex := index, nextTrigger := some (p + BitVec.ofNat 32 st.lineStep) })
          ∧ t.lane l =
              { x with
                triggerIndex := index
                nextTrigger := some (p + BitVec.ofNat 32 st.lineStep)
                triggerSeen := index
                transit := (t.lane l).transit
                ready := (t.lane l).ready
                divert := (t.lane l).divert }
          ∧ (∀ m, m ≠ l → t.lane m =
              { s.lane m with
                transit := (t.lane m).transit, ready := (t.lane m).ready, divert := (t.lane m).divert })
          ∧ t = { s with
              lanes := t.lanes, heads := t.heads, due := t.due, cal := t.cal, pointer := t.pointer, units := t.units,
              verdicts := t.verdicts, freeCount := t.freeCount, link := { s.link with outbox := t.link.outbox } }
          ∧ (∀ h, h ∉ laneHeads s l → t.head h = s.head h ∧ t.calOf h = s.calOf h ∧ t.dueOf h = s.dueOf h)
          ∧ ∀ h ∈ laneHeads s l,
              let y := s.head h
              (∀ su, y.settings = some su →
                t.dueOf h = if su.calInterval ≤ s.dueOf h + 1 then 0 else s.dueOf h + 1)
              ∧ t.head h = (takeTriggerAt l index p (.headPort h) s).head h
              ∧ ((∀ old, Ring.get y.ring (slotOf index) = some old →
                    old.status ≠ .pending ∨ ∀ e ∈ y.outstanding, e.index ≠ old.index) →
                  (y.outstanding.length < 4 →
                    t.head h =
                      { y with
                        lastTrigger := some index
                        outstanding := y.outstanding ++ [{ index := index, issued := s.now }]
                        ring := Ring.put y.ring (slotOf index) { index := index, status := .pending }
                        triggerLine := y.triggerLine ++ [[0xA001, BitVec.ofNat 16 index.toNat]] })
                  ∧ (4 ≤ y.outstanding.length →
                      t.head h =
                        { y with
                          lastTrigger := some index
                          ring := Ring.put y.ring (slotOf index) { index := index, status := .missed }
                          missedRun := min 64 (y.missedRun + 1)
                          silent := y.silent || decide (63 ≤ y.missedRun)
                          skipped := true }))
              ∧ ∀ old before e after, Ring.get y.ring (slotOf index) = some old → old.status = .pending →
                  slotOf old.index = slotOf index → y.outstanding = before ++ e :: after → e.index = old.index →
                  (∀ f ∈ before ++ after, f.index ≠ old.index) →
                    ((before ++ after).length < 4 →
                      t.head h =
                        { y with
                          lastTrigger := some index
                          outstanding := before ++ after ++ [{ index := index, issued := s.now }]
                          ring := Ring.put y.ring (slotOf index) { index := index, status := .pending }
                          missedRun := min 64 (y.missedRun + 1)
                          silent := y.silent || decide (63 ≤ y.missedRun)
                          missed := true
                          triggerLine := y.triggerLine ++ [[0xA001, BitVec.ofNat 16 index.toNat]] })
                    ∧ (4 ≤ (before ++ after).length →
                        t.head h =
                          { y with
                            lastTrigger := some index
                            outstanding := before ++ after
                            ring := Ring.put y.ring (slotOf index) { index := index, status := .missed }
                            missedRun := min 64 (y.missedRun + 2)
                            silent := y.silent || decide (62 ≤ y.missedRun)
                            missed := true
                            skipped := true })

/-- Scan start and scan end at a lane trigger (R31 to R33, R107, R145, R83): a record without first_line whose scan
start is reached takes the trigger as first_line; an ENTERING one takes the snapshot of the lane's heads, CAL_STALE by
the heads its recipe uses, and becomes SCANNING; a SCANNING one becomes DRAINING at its last line. Nothing else
changes, but that a record that becomes SCANNING has the lane examined (R107). This is what the board side takes of a
trigger of LANE_TRIGGER (`LaneTriggerReachesItsReceivers`). A zero or gain that the head has not counts as 0, and so do
the heads used of a record without header (log entry 26); neither arises in a lane that runs. -/
def Obligations.ScanFollowsTheTriggers : Prop :=
  ∀ (s : State) (l : Lane) (st : LaneSettings) (trigger position : Word),
    let snapshot : List SnapEntry :=
      (laneHeads s l).map fun h =>
        { zero := (s.calOf h).zero.getD 0, gain := (s.calOf h).gain.getD 0,
          stale := (s.calOf h).overdue || (s.calOf h).calFaulted }
    let start (r : BoardRecord) : BoardRecord :=
      if r.firstLine = none ∧ reached position (r.pLead + BitVec.ofNat 32 st.dScan) = true then
        if r.state = .entering then
          { r with
            firstLine := some trigger
            snapshot := some snapshot
            state := .scanning
            verdictPart :=
              { r.verdictPart with
                flags :=
                  { r.verdictPart.flags with
                    calStale :=
                      (snapshot.take
                        (match r.binding with
                          | none => 0
                          | some b => match (s.slot b.slot).header with | none => 0 | some h => h.headsUsed)).any
                        fun e => e.stale } } }
        else { r with firstLine := some trigger }
      else r
    let finish (r : BoardRecord) : BoardRecord :=
      match r.binding, r.firstLine with
      | some b, some f =>
        if r.state = .scanning ∧ trigger = f + BitVec.ofNat 32 (b.boardLines - 1) then { r with state := .draining }
        else r
      | _, _ => r
    let scanned : State := s.updLane l fun x => { x with transit := x.transit.map fun r => finish (start r) }
    let starts : Prop :=
      ∃ r ∈ (s.lane l).transit, r.state = .entering ∧ r.firstLine = none
        ∧ reached position (r.pLead + BitVec.ofNat 32 st.dScan) = true
    scanRecords l st trigger position s = scanned
      ∧ ((s.lane l).settings = some st →
          (starts → takeTriggerAt l trigger position .boardSide s = grants (examine l scanned))
          ∧ (¬starts → takeTriggerAt l trigger position .boardSide s = scanned))

/-- The due count and the calibration-due event (R14, R70): the event falls when the count reaches cal_interval, which
sets it to 0; the balance goes up by one below +8, and at +8 OVERDUE is set. This is what the due count of a head takes
of a trigger of LANE_TRIGGER (`LaneTriggerReachesItsReceivers`). -/
def Obligations.DueEventRaisesTheBalance : Prop :=
  ∀ (s : State) (l : Lane) (trigger position : Word) (h : HeadId) (st : HeadSettings), (s.head h).settings = some st →
    let taken : State := takeTriggerAt l trigger position (.dueCount h) s
    (s.dueOf h + 1 < st.calInterval → taken = s.setDue h (s.dueOf h + 1))
    ∧ (s.dueOf h + 1 = st.calInterval →
        ((s.calOf h).balance < 8 → taken = (s.setDue h 0).updCal h fun c => { c with balance := c.balance + 1 })
        ∧ ((s.calOf h).balance = 8 → taken = (s.setDue h 0).updCal h fun c => { c with overdue := true }))

/-! ### Boards -/

/-- LEADING_EDGE (R15, R24 to R27): no change if the eye is already blocked; only the eye level in DISABLED; with 8
records the board is untracked, the front entry is discarded and FLOOD set; else a new record, bound to the front entry
or, with no entry, unbound: DECIDED, UNJUDGED with NO_RECIPE, divert yes, and offered for release. It starts after the
events already reached (R4; log entry 2). -/
def Obligations.LeadingEdgeCreatesARecord : Prop :=
  ∀ (s₀ : State) (l : Lane),
    let s := takeReached s₀
    s.resetAsserted = false →
    let x := s.lane l
    let created (binding : Option Binding) : BoardRecord :=
      { ident := x.nextRecord, binding := binding, pLead := x.enc.position, pTrail := none, firstLine := none,
        state := .entering, jointsComplete := false, snapshot := none, divertDecision := none, inWindow := false,
        work := { cursor := 0, queued := 0, inFlight := 0 },
        verdictPart :=
          { counts := Counts.zero, defects := [], overflow := 0, flags := BoardFlags.clear, verdict := none,
            released := false } }
    let flooded (entries : List ExpectEntry) : State :=
      s.updLane l fun y =>
        { y with
          eyeBlocked := true, expect := entries, untracked := min 65535 (y.untracked + 1), flood := true,
          floodEnd := .opened, divert := true }
    (x.eyeBlocked = true → exec (.leadingEdge l) s₀ = .next s)
    ∧ (x.eyeBlocked = false → x.mode = .disabled →
        exec (.leadingEdge l) s₀ = .next (s.updLane l fun y => { y with eyeBlocked := true }))
    ∧ (x.eyeBlocked = false → x.mode ≠ .disabled → 8 ≤ x.transit.length →
        (x.expect = [] → exec (.leadingEdge l) s₀ = .next (flooded []))
        ∧ ∀ e rest, x.expect = e :: rest →
            exec (.leadingEdge l) s₀ = .next ((flooded rest).updSlot e.slot RecipeSlot.release))
    ∧ (x.eyeBlocked = false → x.mode ≠ .disabled → x.transit.length < 8 →
        (∀ e rest h, x.expect = e :: rest → (s.slot e.slot).header = some h →
          exec (.leadingEdge l) s₀ = .next (s.updLane l fun y =>
            { y with
              eyeBlocked := true
              expect := rest
              transit := y.transit ++ [created (some { tag := e.tag, slot := e.slot, boardLines := h.boardLines })]
              nextRecord := y.nextRecord + 1 }))
        ∧ (x.expect = [] →
            exec (.leadingEdge l) s₀ = .next (offerRelease l (s.updLane l fun y =>
              { y with
                eyeBlocked := true
                transit := y.transit ++
                  [{ created none with
                    state := .decided
                    divertDecision := some true
                    verdictPart :=
                      { (created none).verdictPart with
                        flags := { BoardFlags.clear with noRecipe := true }, verdict := some .unjudged } }]
                nextRecord := y.nextRecord + 1 }))))

/-- TRAILING_EDGE (R15, R27 to R30, R36): no change if the eye is already clear; only the eye level in DISABLED. On a
running lane an open flood end is established. The edge is discarded where the newest record has its P_trail or there
is none; a glitch returns its entry to the front of the expect queue; any other newest record takes P_trail and, if
bound and not DECIDED, the length check, and is decided by completion if its joints are complete. It starts after the
events already reached (R4; log entry 2). -/
def Obligations.TrailingEdgeClosesTheNewest : Prop :=
  ∀ (s₀ : State) (l : Lane),
    let s := takeReached s₀
    s.resetAsserted = false →
    let x := s.lane l
    (x.eyeBlocked = false → exec (.trailingEdge l) s₀ = .next s)
    ∧ (x.eyeBlocked = true → x.mode = .disabled →
        exec (.trailingEdge l) s₀ = .next (s.updLane l fun y => { y with eyeBlocked := false }))
    ∧ ∀ st, x.eyeBlocked = true → x.mode ≠ .disabled → x.settings = some st → 1 ≤ st.dGate → st.dGate ≤ 16777215 →
        st.gateTail ≤ 4095 →
          let floodEnd : FloodEnd :=
            if x.floodEnd = .opened then
              .position (x.enc.position + BitVec.ofNat 32 st.dGate + BitVec.ofNat 32 st.gateTail)
            else x.floodEnd
          let endPassed : Bool :=
            match floodEnd with
            | .passed => true
            | .position p => reached x.enc.position p
            | .absent => false
            | .opened => false
          let seen : State := s.updLane l fun y => { y with eyeBlocked := false, floodEnd := floodEnd }
          (x.transit = [] ∨ (∃ r p, x.transit.getLast? = some r ∧ r.pTrail = some p) →
            exec (.trailingEdge l) s₀ = .next seen)
          ∧ ∀ before r, x.transit = before ++ [r] → r.pTrail = none → x.ReleaseSound →
              let isGlitch : Prop :=
                r.binding ≠ none ∧ r.state = .entering
                  ∧ liesBelow x.enc.position (r.pLead + BitVec.ofNat 32 st.minBoard) = true
              (∀ b, isGlitch → r.binding = some b →
                let ended : Bool := decide (before = []) && endPassed
                let returned : State :=
                  s.updLane l fun y =>
                    { y with
                      eyeBlocked := false
                      floodEnd := if ended then .absent else floodEnd
                      flood := y.flood && !ended
                      transit := before
                      expect := { tag := b.tag, slot := b.slot } :: y.expect
                      divert := (y.flood && !ended)
                        || before.any fun q => q.inWindow && decide (q.divertDecision = some true) }
                (before ≠ [] ∨ x.mode = .running → exec (.trailingEdge l) s₀ = .next returned)
                ∧ (before = [] → x.mode = .stopping →
                    ∃ t, exec (.trailingEdge l) s₀ = .next t ∧ LaneLeft l returned t))
              ∧ (¬isGlitch →
                  let length := (x.enc.position - r.pLead).toNat
                  let mismatch : Bool :=
                    decide (r.state ≠ .decided) &&
                      match r.binding with
                      | none => false
                      | some b =>
                        match (s.slot b.slot).header with
                        | none => false
                        | some h =>
                          decide (length + h.lengthTol < b.boardLines * st.lineStep)
                            || decide (b.boardLines * st.lineStep + h.lengthTol < length)
                  let closed : BoardRecord :=
                    { r with
                      pTrail := some x.enc.position
                      verdictPart :=
                        { r.verdictPart with
                          flags :=
                            { r.verdictPart.flags with
                              lengthMismatch := r.verdictPart.flags.lengthMismatch || mismatch } } }
                  (r.state = .decided ∨ r.jointsComplete = false →
                    exec (.trailingEdge l) s₀
                      = .next (seen.updLane l fun y => { y with transit := before ++ [closed] }))
                  ∧ (r.state ≠ .decided → r.jointsComplete = true →
                      ∃ t r', exec (.trailingEdge l) s₀ = .next t ∧ (t.lane l).transit[before.length]? = some r'
                        ∧ r'.ident = r.ident ∧ r'.state = .decided ∧ r'.pTrail = some x.enc.position
                        ∧ (let v := verdictOf .completion st.stalePolicy closed.verdictPart
                          r'.divertDecision = some (decide (v ≠ .pass))
                            ∧ r'.verdictPart =
                                { closed.verdictPart with verdict := some v, released := r'.verdictPart.released })
                        ∧ OnlyRecordsChange seen t
                        ∧ t = offerRelease l (seen.updLane l fun y =>
                            LaneState.reevaluate
                              { y with
                                transit :=
                                  before ++ [closed.decideBy .completion st.stalePolicy (jointCountOf s r)] })))

/-- DEADLINE (R37, R107, R113): the oldest record that is not DECIDED and whose deadline is reached becomes DECIDED,
with LENGTH_MISMATCH if it has no P_trail and its outstanding joints counted LATE; its items leave the ready queue and
are discarded on the units, it is offered for release, and the lane is examined for the places freed. With none such,
nothing changes. -/
def Obligations.DeadlineDecidesTheRecord : Prop :=
  ∀ (s : State) (l : Lane) (st : LaneSettings), s.resetAsserted = false → (s.lane l).settings = some st →
    let x := s.lane l
    let due (r : BoardRecord) : Prop :=
      r.state ≠ .decided
        ∧ reached x.enc.position (r.pLead + BitVec.ofNat 32 (st.dGate - st.gateLead)) = true
    ((∀ r ∈ x.transit, ¬due r) → exec (.deadline l) s = .next s)
    ∧ ∀ before r after, x.transit = before ++ r :: after → (∀ q ∈ before, ¬due q) → due r → x.ReleaseSound →
        let part : VerdictFields :=
          { r.verdictPart with
            flags :=
              { r.verdictPart.flags with
                lengthMismatch := r.verdictPart.flags.lengthMismatch || decide (r.pTrail = none) }
            counts :=
              { r.verdictPart.counts with
                late := r.verdictPart.counts.late + outstandingJoints (jointCountOf s r) r.work } }
        let v := verdictOf .deadline st.stalePolicy part
        ∃ t r', exec (.deadline l) s = .next t ∧ (t.lane l).transit[before.length]? = some r' ∧ r'.ident = r.ident
          ∧ r'.state = .decided ∧ r'.pTrail = r.pTrail ∧ r'.divertDecision = some (decide (v ≠ .pass))
          ∧ r'.verdictPart = { part with verdict := some v, released := r'.verdictPart.released }
          ∧ OnlyRecordsChange s t
          ∧ t =
              (let decided : State :=
                offerRelease l
                  ((s.updLane l fun y =>
                    LaneState.reevaluate
                      { y with
                        transit := before ++ r.decideBy .deadline st.stalePolicy (jointCountOf s r) :: after
                        ready := y.ready.filter fun i => !decide (i.record = r.ident) }).mapUnits fun e =>
                    if e.item.lane = l ∧ e.item.record = r.ident then { e with discard := true } else e)
              if x.ready.any (fun i => decide (i.record = r.ident)) = true then grants (examine l decided) else decided)

/-- GATE_WINDOW_START and FLOOD_END (R39, R27, R160): the oldest record whose gate window start is reached enters its
window, and the output takes the level of R160, read from the windows so entered (log entry 13); at the flood end FLOOD
is cleared if the lane is empty, and the flood end is otherwise remembered as passed (log entry 12). Where no such
position is reached, nothing changes. -/
def Obligations.GateWindowAndFloodPositions : Prop :=
  ∀ (s : State) (l : Lane), s.resetAsserted = false →
    let x := s.lane l
    (∀ st, x.settings = some st →
      let due (r : BoardRecord) : Prop :=
        r.inWindow = false ∧ reached x.enc.position (r.pLead + BitVec.ofNat 32 st.dGate) = true
      ((∀ r ∈ x.transit, ¬due r) → exec (.gateWindowStart l) s = .next s)
      ∧ ∀ before r after, x.transit = before ++ r :: after → (∀ q ∈ before, ¬due q) → due r → x.ReleaseSound →
          exec (.gateWindowStart l) s = .next (s.updLane l fun y =>
            { y with
              transit := before ++ { r with inWindow := true } :: after
              divert := decide (y.mode = .disabled) || y.flood || decide (r.divertDecision = some true)
                || (before ++ after).any fun q => q.inWindow && decide (q.divertDecision = some true) }))
    ∧ (∀ p, x.floodEnd = .position p → reached x.enc.position p = true →
        (x.transit = [] → exec (.floodEnd l) s = .next (s.updLane l fun y =>
          { y with flood := false, floodEnd := .absent, divert := decide (y.mode = .disabled) }))
        ∧ (x.transit ≠ [] → exec (.floodEnd l) s = .next (s.updLane l fun y => { y with floodEnd := .passed })))
    ∧ ((∀ p, x.floodEnd = .position p → reached x.enc.position p = false) → exec (.floodEnd l) s = .next s)

/-- GATE_WINDOW_END (R40, R87, R27, R11): the front record, DECIDED, leaves the transit queue when its gate window end
is reached, and gives back its reference; with the queue then empty, FLOOD is cleared if the flood end has been
reached, and a STOPPING lane is left. Before that, nothing changes. An undecided front record stays, which no run meets
(log entry 23); that the flood end has been reached is remembered (log entry 12), and the output reads the windows
entered (log entry 13). -/
def Obligations.GateWindowEndRemovesTheFront : Prop :=
  ∀ (s : State) (l : Lane), s.resetAsserted = false →
    let x := s.lane l
    let endPassed : Bool :=
      match x.floodEnd with
      | .passed => true
      | .position f => reached x.enc.position f
      | .absent => false
      | .opened => false
    (x.transit = [] → exec (.gateWindowEnd l) s = .next s)
    ∧ ∀ st r rest, x.settings = some st → x.transit = r :: rest →
        (r.pTrail = none ∨ r.state ≠ .decided → exec (.gateWindowEnd l) s = .next s)
        ∧ ∀ p, r.pTrail = some p → r.state = .decided →
            let endPosition : Word :=
              r.pLead + BitVec.ofNat 32 st.dGate + (p - r.pLead) + BitVec.ofNat 32 st.gateTail
            let ended : Bool := decide (rest = []) && endPassed
            let released : State :=
              match r.binding with
              | none => s
              | some b => s.updSlot b.slot RecipeSlot.release
            let removed : State :=
              released.updLane l fun y =>
                { y with
                  transit := rest
                  flood := y.flood && !ended
                  floodEnd := if ended then .absent else y.floodEnd
                  divert := decide (y.mode = .disabled) || (y.flood && !ended)
                    || rest.any fun q => q.inWindow && decide (q.divertDecision = some true) }
            (reached x.enc.position endPosition = false → exec (.gateWindowEnd l) s = .next s)
            ∧ (reached x.enc.position endPosition = true →
                (rest ≠ [] ∨ x.mode ≠ .stopping → exec (.gateWindowEnd l) s = .next removed)
                ∧ (rest = [] → x.mode = .stopping →
                    ∃ t, exec (.gateWindowEnd l) s = .next t ∧ LaneLeft l removed t))

/-! ### Heads -/

/-- PROFILE_FRAME (R54 to R56, R45, R63): an UNALIGNED head discards every frame; an ALIGNED one checks it in the order
of R54, each failed check with its flag; an accepted frame settles its line GOOD, leaves the outstanding list, ends the
missed run, and reports the advance of the settled front, if it advances (R63, one report a taking: log entry 22;
`TriggerTimeoutSettlesMissed` says what a report does). ALIGNMENT_FRAME is the same event (log entry 20). It starts
after the events already reached (R4; log entry 2). -/
def Obligations.ProfileFramesAreChecked : Prop :=
  ∀ (s₀ : State) (h : HeadId) (words : List Half),
    let s := takeReached s₀
    s.resetAsserted = false →
    let y := s.head h
    let active : Prop := ∃ st l, y.settings = some st ∧ st.lane = some l ∧ (s.lane l).mode ≠ .disabled
    let silent : Prop := (∃ rest, words = 0x7E81 :: 0xFFFF :: rest) ∧ ¬active
    let framing : Result := .next (s.updHead h fun x => { x with framing := true })
    exec (.alignmentFrame h words) s₀ = exec (.profileFrame h words) s₀
    ∧ (y.mode = .unaligned → exec (.profileFrame h words) s₀ = .next s)
    ∧ (y.mode = .aligned →
        (silent → exec (.profileFrame h words) s₀ = .next s)
        ∧ (¬silent →
            (y.settings = none → exec (.profileFrame h words) s₀ = framing)
            ∧ ∀ st, y.settings = some st →
                ((¬∃ index count samples crc, words = 0x7E81 :: index :: count :: (samples ++ [crc])
                    ∧ count.toNat = st.samples ∧ samples.length = st.samples) →
                  exec (.profileFrame h words) s₀ = framing)
                ∧ ∀ index count samples crc, words = 0x7E81 :: index :: count :: (samples ++ [crc]) →
                    count.toNat = st.samples → samples.length = st.samples →
                      (crc ≠ crc16 (index :: count :: samples) →
                        exec (.profileFrame h words) s₀ = .next (s.updHead h fun x => { x with check := true }))
                      ∧ (crc = crc16 (index :: count :: samples) →
                          ((∃ w ∈ samples, 4095 < w.toNat) → exec (.profileFrame h words) s₀ = framing)
                          ∧ ((∀ w ∈ samples, w.toNat ≤ 4095) →
                              ((∀ e ∈ y.outstanding, BitVec.ofNat 16 e.index.toNat ≠ index) →
                                exec (.profileFrame h words) s₀ = .next (s.updHead h fun x => { x with stray := true }))
                              ∧ ∀ before e after, y.outstanding = before ++ e :: after →
                                  BitVec.ofNat 16 e.index.toNat = index →
                                  (∀ f ∈ before ++ after, BitVec.ofNat 16 f.index.toNat ≠ index) →
                                    ∃ t, exec (.profileFrame h words) s₀ = .next t
                                      ∧ t.head h =
                                          { y with
                                            outstanding := before ++ after
                                            ring := Ring.settle y.ring e.index (.good (samples.map BitVec.toNat))
                                            missedRun := 0
                                            silent := false }
                                      ∧ OnlyHeadChanges h s t
                                      ∧ t = takeInOrder (deliverNotice h)
                                          (if (t.head h).front = y.front then []
                                            else (t.head h).front.toList.map HeadNotice.frontAdvance)
                                          (s.updHead h fun _ => t.head h)))))

/-- The alignment sweep (R48, R49): 8 frames at a tap, which passes if all are the alignment frame and fails otherwise
or after 1 ms; the next tap, or after tap 31 the end: alignment stop, the tap of R49 selected, HEAD_ALIGN answered. The
selection is the middle tap of the longest run, the earliest of several, the lower of two middles. TAP_TIMEOUT
establishes the time it needs (log entry 4); the tap under trial lives in the sweep, apart from the selected tap (log
entry 19); a frame in a sweep is the same event under either row (log entry 20). It starts after the events already
reached (R4; log entry 2). -/
def Obligations.SweepTriesEveryTap : Prop :=
  (∀ (s₀ : State) (h : HeadId) (sw : Sweep),
     let s := takeReached s₀
     s.resetAsserted = false → (s.head h).mode = .aligning sw →
    let endTap (u : State) (pass : Bool) : Result :=
      let passMap := sw.passMap.set sw.tap pass
      let ended (mode : HeadMode) (tap : Nat) (result : List Byte) : Result :=
        .next (withReply
          { kind := 0x80, tag := sw.requestTag, payload := 0x0A :: result }
          (u.updHead h fun x =>
            { x with mode := mode, tap := tap, triggerLine := x.triggerLine ++ [[0xA003]] }))
      if sw.tap + 1 < 32 then
        .next (u.updHead h fun x =>
          { x with
            mode :=
              .aligning
                { sw with passMap := passMap, tap := sw.tap + 1, frames := 0, allMatch := true, tapSetAt := u.now } })
      else
        match HeadPort.selectTap passMap with
        | some tap => ended .aligned tap ([0] ++ HeadPort.passMapBytes passMap ++ [byteOf tap])
        | none => ended .unaligned 0 ([1] ++ HeadPort.passMapBytes passMap ++ [0])
    (∀ words,
      let pass := sw.allMatch && decide (words = alignmentWords)
      (sw.frames + 1 < 8 →
        exec (.alignmentFrame h words) s₀ = .next (s.updHead h fun x =>
          { x with mode := .aligning { sw with frames := sw.frames + 1, allMatch := pass } }))
      ∧ (8 ≤ sw.frames + 1 → exec (.alignmentFrame h words) s₀ = endTap s pass)
      ∧ exec (.profileFrame h words) s₀ = exec (.alignmentFrame h words) s₀)
    ∧ exec (.tapTimeout h) s₀ = endTap { s with now := max s.now (sw.tapSetAt + 1000) } false)
  ∧ (∀ (s₀ : State) (h : HeadId),
      let s := takeReached s₀
      s.resetAsserted = false → (∀ sw, (s.head h).mode ≠ .aligning sw) → exec (.tapTimeout h) s₀ = .next s)
  ∧ ∀ passMap : List Bool,
      let isRun (start length : Nat) : Prop :=
        1 ≤ length ∧ (∀ k, start ≤ k → k < start + length → passMap[k]? = some true)
          ∧ (start = 0 ∨ passMap[start - 1]? = some false) ∧ passMap[start + length]? ≠ some true
      (HeadPort.selectTap passMap = none ↔ ∀ k : Nat, passMap[k]? ≠ some true)
      ∧ ∀ start length, isRun start length →
          (∀ i n, isRun i n → n ≤ length ∧ (n = length → start ≤ i)) →
            HeadPort.selectTap passMap = some (start + (length - 1) / 2)

/-- TRIGGER_TIMEOUT (R52, R58, R64) and the notices of a head (R60 to R63, R146): an outstanding trigger leaves the
list whatever its place, its line settles MISSED and counts in the missed run; a trigger that is not listed changes
nothing. A report sets LINES_LOST on every record that is not DECIDED, uses the head, and whose span contains the line.
What a head reports (R60, R61, R63) at a timeout and at a lane trigger, in an order no rule defines (log entry 3), the
front once a taking (log entry 22): MISSED lines to the Verdict Unit, an evicted line to the Window Scheduler, and an
advance of the settled front, at which the lane is examined and the head's attempt collects. The row establishes the
time it needs (log entry 4). It starts after the events already reached (R4; log entry 2). -/
def Obligations.TriggerTimeoutSettlesMissed : Prop :=
  let advance (y y' : HeadPort) : List HeadNotice :=
    if y'.front = y.front then [] else y'.front.toList.map HeadNotice.frontAdvance
  (∀ (s₀ : State) (h : HeadId) (index : Word),
     let s := takeReached s₀
     s.resetAsserted = false →
    let y := s.head h
    ((∀ e ∈ y.outstanding, e.index ≠ index) → exec (.triggerTimeout h index) s₀ = .next s)
    ∧ ∀ before e after, y.outstanding = before ++ e :: after → e.index = index →
        (∀ f ∈ before ++ after, f.index ≠ index) →
          ∃ (t : State) (order : List HeadNotice), exec (.triggerTimeout h index) s₀ = .next t
            ∧ t = takeInOrder (deliverNotice h) order
                ({ s with now := max s.now (e.issued + 2000) }.updHead h fun _ => t.head h)
            ∧ order.Perm ([.missedLine index] ++ advance y (t.head h))
            ∧ t.head h =
                { y with
                  outstanding := before ++ after
                  ring := Ring.settle y.ring index .missed
                  missedRun := min 64 (y.missedRun + 1)
                  silent := y.silent || decide (63 ≤ y.missedRun)
                  missed := true }
            ∧ OnlyHeadChanges h { s with now := max s.now (e.issued + 2000) } t)
  ∧ (∀ (s : State) (l : Lane) (h : HeadId) (line : Word) (st : HeadSettings), (s.head h).settings = some st →
      let reported (r : BoardRecord) : BoardRecord :=
        match r.binding, r.firstLine with
        | some b, some f =>
          match (s.slot b.slot).header with
          | none => r
          | some k =>
            if r.state ≠ .decided ∧ st.laneOrder < k.headsUsed
                ∧ (line - f).toNat ≤ (f + BitVec.ofNat 32 (b.boardLines - 1) - f).toNat then
              { r with verdictPart := { r.verdictPart with flags := { r.verdictPart.flags with linesLost := true } } }
            else r
        | _, _ => r
      missedReport l h line s = s.updLane l fun x => { x with transit := x.transit.map reported })
  ∧ (∀ (s : State) (l : Lane) (h : HeadId) (trigger position : Word),
      let y := s.head h
      let y' := (takeTriggerAt l trigger position (.headPort h) s).head h
      let held : Option Line := Ring.get y.ring (slotOf trigger)
      let lost : List Line := held.toList.filter fun old =>
        decide (old.status = .pending) && y.outstanding.any fun e => decide (e.index = old.index)
      let kept : List Outstanding := y.outstanding.filter fun e => !lost.any fun old => decide (e.index = old.index)
      ∃ order : List HeadNotice,
        takeTriggerAt l trigger position (.headPort h) s
            = takeInOrder (deliverNotice h) order (s.updHead h fun _ => y')
          ∧ order.Perm (lost.map (fun old => HeadNotice.missedLine old.index)
              ++ held.toList.map (fun old => HeadNotice.evicted old.index trigger)
              ++ (if 4 ≤ kept.length then [.missedLine trigger] else []) ++ advance y y'))
  ∧ ∀ (s : State) (h : HeadId) (st : HeadSettings), (s.head h).settings = some st →
      ((s.head h).front =
        match (s.head h).outstanding with
        | e :: _ => some (e.index - 1)
        | [] => (s.head h).lastTrigger)
      ∧ (st.lane = none → ∀ n, deliverNotice h n s = s)
      ∧ ∀ l, st.lane = some l →
          (∀ line, deliverNotice h (.missedLine line) s = missedReport l h line s)
          ∧ (∀ line trigger, deliverNotice h (.evicted line trigger) s = s.mapUnits fun e =>
              if e.item.head = h
                  ∧ (line - e.item.firstNeeded).toNat ≤ (e.item.lastNeeded - e.item.firstNeeded).toNat then
                { e with spoiled := true }
              else e)
          ∧ ∀ front, deliverNotice h (.frontAdvance front) s =
              (grants (examine l s)).updCal h (CalRecord.collect st (s.head h).ring front 16)

/-! ### Evaluations -/

/-- EVALUATION_COMPLETE (R116, R117, R141, R144, R36) and spoiling (R112): a discarded result is dropped; else the
outcome record is counted and in_flight decrements, the last outcome decides a record that has its P_trail, and
otherwise is remembered; the unit becomes IDLE and the arbiter grants. A spoiled item is DATA_LOST with no measures.
The item's lines are read from the ring at the completion (log entry 14). What the Window Scheduler takes of a trigger
of LANE_TRIGGER (`LaneTriggerReachesItsReceivers`) is the trigger seen and the spoiling. It starts after the events
already reached (R4; log entry 2). -/
def Obligations.EvaluationsCompleteIntoRecords : Prop :=
  (∀ (s₀ : State) (u : UnitId),
     let s := takeReached s₀
     s.resetAsserted = false →
    let idle : State := s.setUnit u none
    (s.unitOf u = none → exec (.evaluationComplete u) s₀ = .next s)
    ∧ ∀ e, s.unitOf u = some e →
        (e.discard = true → exec (.evaluationComplete u) s₀ = .next (grants idle))
        ∧ ∀ before r after, e.discard = false → (s.lane e.item.lane).transit = before ++ r :: after →
            e.item.record = r.ident → r.state ≠ .decided → (s.lane e.item.lane).ReleaseSound →
              let o := evaluationOutcome e (s.head e.item.head).ring
              let counted : VerdictFields := { r.verdictPart with counts := r.verdictPart.counts.add o.outcome 1 }
              let part : VerdictFields :=
                if o.outcome = .good ∨ o.outcome = .late ∨ o.outcome = .skipped then counted
                else if r.verdictPart.defects.length < 32 then { counted with defects := r.verdictPart.defects ++ [o] }
                else { counted with overflow := r.verdictPart.overflow + 1 }
              let taken : BoardRecord :=
                { r with work := { r.work with inFlight := r.work.inFlight - 1 }, verdictPart := part }
              let withRecord (q : BoardRecord) : State :=
                idle.updLane e.item.lane fun x => { x with transit := before ++ q :: after }
              let complete : Prop := part.counts.sum = jointCountOf s r
              (¬complete → exec (.evaluationComplete u) s₀ = .next (grants (withRecord taken)))
              ∧ (complete → r.pTrail = none →
                  exec (.evaluationComplete u) s₀ = .next (grants (withRecord { taken with jointsComplete := true })))
              ∧ (complete → r.pTrail ≠ none →
                  exec (.evaluationComplete u) s₀ = .next (grants (offerRelease e.item.lane
                    (reevaluate e.item.lane (withRecord
                      (taken.decideBy .completion (stalePolicyOf (s.lane e.item.lane)) (jointCountOf s r))))))))
  ∧ (∀ (e : Evaluation) (i : EvalInputs) (ring : Ring), e.inputs = some i →
      (e.spoiled = true ∨ (∃ k, k ≤ (e.item.lastNeeded - e.item.firstNeeded).toNat
          ∧ Ring.read ring (e.item.firstNeeded + BitVec.ofNat 32 k) = .notHeld) →
        evaluationOutcome e ring = { jointId := i.joint.jointId, outcome := .dataLost, measures := .absent })
      ∧ (e.spoiled = false → (∀ k, k ≤ (e.item.lastNeeded - e.item.firstNeeded).toNat →
          Ring.read ring (e.item.firstNeeded + BitVec.ofNat 32 k) ≠ .notHeld) →
        evaluationOutcome e ring = measureJoint i ring))
  ∧ ∀ (s : State) (l : Lane) (h : HeadId) (trigger position line : Word),
      let spoils (x : Word) (e : Evaluation) : Bool :=
        decide ((x - e.item.firstNeeded).toNat ≤ (e.item.lastNeeded - e.item.firstNeeded).toNat)
      takeTriggerAt l trigger position .scheduler s
          = (s.updLane l fun x => { x with triggerSeen := trigger }).mapUnits (fun e =>
              if e.item.lane = l ∧ spoils (trigger - 1024) e = true then { e with spoiled := true } else e)
        ∧ schedulerEviction h line s
            = s.mapUnits fun e => if e.item.head = h ∧ spoils line e = true then { e with spoiled := true } else e

/-- The examination of a lane and the arbiter (R104 to R107, R109 to R111, R120): an examination appends, record by
record and in table order, the joints its cursors pass, and changes nothing else; each cursor then stands at the joint
count, at a joint that is not ready, or before a full queue. The arbiter takes the oldest item of the pointer's lane,
or of the other where that holds none, for the lowest-numbered IDLE unit; an evicted item is DATA_LOST at once; and
when it has granted, no unit is IDLE or no queue holds an item. What a joint's work item holds, when it is ready, which
head a lane order names, and what a unit reads at the grant, field by field. -/
def Obligations.ArbiterGrantsWhileItCan : Prop :=
  (∀ (s : State) (l : Lane),
    let passed (r r' : BoardRecord) : List WorkItem :=
      (List.range (r'.work.cursor - r.work.cursor)).filterMap fun k => workItem? s l r (r.work.cursor + k)
    ∃ after : List BoardRecord,
      examine l s =
        s.updLane l (fun x =>
          { x with transit := after, ready := x.ready ++ ((x.transit.zip after).map fun p => passed p.1 p.2).flatten })
      ∧ List.Forall₂
          (fun r r' : BoardRecord =>
            r' = { r with
              work := { r.work with cursor := r'.work.cursor, queued := r.work.queued + (passed r r').length } }
            ∧ r.work.cursor ≤ r'.work.cursor
            ∧ (passed r r').length = r'.work.cursor - r.work.cursor
            ∧ (∀ i ∈ passed r r', itemReady s i = true)
            ∧ (r.binding = none ∨ (r.state ≠ .scanning ∧ r.state ≠ .draining) → r' = r)
            ∧ (r.binding ≠ none → r.state = .scanning ∨ r.state = .draining →
                jointCountOf s r ≤ r'.work.cursor
                  ∨ (∀ i, workItem? s l r r'.work.cursor = some i → itemReady s i = false)
                  ∨ 256 ≤ ((examine l s).lane l).ready.length))
          (s.lane l).transit after)
  ∧ (∀ (s : State) (u : UnitId) (l : Lane) (i : WorkItem) (rest : List WorkItem), (s.lane l).ready = i :: rest →
      i.lane = l →
        let taken : State :=
          { s.updLane l fun x =>
              { x with
                ready := rest
                transit := x.transit.map fun r =>
                  if r.ident = i.record then { r with work := { r.work with queued := r.work.queued - 1 } } else r } with
            pointer := l.other }
        (1024 ≤ ((s.lane l).triggerSeen - i.firstNeeded).toNat →
          grantItem u l i rest s = examine l
            (takeOutcome l i.record { jointId := jointIdOf taken i, outcome := .dataLost, measures := .absent } taken))
        ∧ (((s.lane l).triggerSeen - i.firstNeeded).toNat < 1024 →
            grantItem u l i rest s = examine l
              ((taken.setUnit u (some
                  { item := i, spoiled := false, discard := false, inputs := readInputs taken i })).updLane l fun x =>
                { x with
                  transit := x.transit.map fun r =>
                    if r.ident = i.record then { r with work := { r.work with inFlight := r.work.inFlight + 1 } }
                    else r })))
  ∧ (∀ s : State,
      (idleUnit s = none ↔ ∀ u, s.unitOf u ≠ none)
      ∧ (∀ u, idleUnit s = some u → s.unitOf u = none ∧ ∀ v, v.toNat < u.toNat → s.unitOf v ≠ none)
      ∧ ((s.lane s.pointer).ready ≠ [] → grantLane s = some s.pointer)
      ∧ ((s.lane s.pointer).ready = [] → (s.lane s.pointer.other).ready ≠ [] → grantLane s = some s.pointer.other)
      ∧ (grantLane s = none ↔ ∀ l, (s.lane l).ready = [])
      ∧ (idleUnit s = none ∨ grantLane s = none → grants s = s)
      ∧ (idleUnit (grants s) = none ∨ grantLane (grants s) = none)
      ∧ ∀ u l i rest, idleUnit s = some u → grantLane s = some l → (s.lane l).ready = i :: rest →
          grants s = grants (grantItem u l i rest s))
  ∧ (∀ (s : State) (l : Lane) (r : BoardRecord) (k : Nat) (i : WorkItem),
      workItem? s l r k = some i ↔
        ∃ b f j rows h, r.binding = some b ∧ r.firstLine = some f ∧ (s.slot b.slot).joints[k]? = some j
          ∧ (s.slot b.slot).needed[k]? = some rows ∧ headAt s l j.head = some h
          ∧ i =
              { lane := l, record := r.ident, joint := k, head := h, firstNeeded := f + BitVec.ofNat 32 rows.first,
                lastNeeded := f + BitVec.ofNat 32 rows.last })
  ∧ (∀ (s : State) (l : Lane) (order : Nat) (h : HeadId), HeadLanesSound s →
      (headAt s l order = some h ↔
        ∃ st, (s.head h).settings = some st ∧ st.lane = some l ∧ st.laneOrder = order))
  ∧ (∀ (s : State) (i : WorkItem),
      itemReady s i = true ↔
        ∃ front, (front - i.lastNeeded).toNat < 2147483648
          ∧ some front =
              match (s.head i.head).outstanding with
              | e :: _ => some (e.index - 1)
              | [] => (s.head i.head).lastTrigger)
  ∧ ∀ (s : State) (i : WorkItem) (before after : List BoardRecord) (r : BoardRecord) (b : Binding) (j : Joint),
      (s.lane i.lane).transit = before ++ r :: after → i.record = r.ident → (s.lane i.lane).ReleaseSound →
        r.binding = some b → (s.slot b.slot).joints[i.joint]? = some j →
          jointIdOf s i = j.jointId
          ∧ ∀ f snap st classes c e, r.firstLine = some f → r.snapshot = some snap →
              (s.head i.head).settings = some st → (s.slot b.slot).classes = some classes →
              classes[j.cls]? = some c → snap[j.head]? = some e →
                readInputs s i =
                  some { joint := j, cls := c, zero := e.zero, gain := e.gain, samples := st.samples, firstLine := f }

/-- Cells, samples and heights (R121, R123, R125): which cells the pad, the reference ring and the gap window hold,
each once, how many there are, and that those of a joint that the close checks pass lie within its needed rows and the
columns 0..1023; which sample of a cell is valid; the height of a valid sample, its range, the extremes and examples of
the chapter, and that height 0 is the zero surface. -/
def Obligations.CellsSamplesAndHeights : Prop :=
  (∀ (j : Joint) (c : Cell), j.margin ≤ j.row0 → j.margin ≤ j.col0 →
    let inPad : Prop := (j.row0 ≤ c.row ∧ c.row < j.row0 + j.nrows) ∧ (j.col0 ≤ c.col ∧ c.col < j.col0 + j.ncols)
    (c ∈ j.padCells ↔ inPad)
    ∧ (c ∈ j.ringCells ↔
        ((j.row0 ≤ c.row + j.margin ∧ c.row < j.row0 + j.nrows + j.margin)
          ∧ (j.col0 ≤ c.col + j.margin ∧ c.col < j.col0 + j.ncols + j.margin))
          ∧ ¬inPad)
    ∧ (c ∈ j.gapCells ↔ ∃ g, j.gap = some g
        ∧ (g.grow0 ≤ c.row ∧ c.row < g.grow0 + g.gnrows) ∧ (g.gcol0 ≤ c.col ∧ c.col < g.gcol0 + g.gncols))
    ∧ j.padCells.Nodup ∧ j.ringCells.Nodup ∧ j.gapCells.Nodup
    ∧ j.padCells.length = j.ncols * j.nrows
    ∧ j.ringCells.length = (j.ncols + 2 * j.margin) * (j.nrows + 2 * j.margin) - j.ncols * j.nrows
    ∧ ∀ g, j.gap = some g → j.gapCells.length = g.gncols * g.gnrows)
  ∧ (∀ (j : Joint) (boardLines : Nat), j.inRanges = true → j.fitsBoard boardLines = true →
      (1 ≤ j.padCells.length ∧ j.padCells.length ≤ 4096) ∧ (8 ≤ j.ringCells.length ∧ j.ringCells.length ≤ 2304)
      ∧ (j.gap.isSome = true → 1 ≤ j.gapCells.length ∧ j.gapCells.length ≤ 4096)
      ∧ ∀ c, c ∈ j.padCells ∨ c ∈ j.ringCells ∨ c ∈ j.gapCells →
          j.firstRow ≤ (c.row : Int) ∧ (c.row : Int) ≤ j.lastRow ∧ c.col ≤ 1023)
  ∧ (∀ (i : EvalInputs) (ring : Ring) (c : Cell) (r : Nat),
      validSample i ring c = some r ↔
        ∃ samples, Ring.read ring (i.firstLine + BitVec.ofNat 32 c.row) = .good samples ∧ c.col < i.samples
          ∧ samples[c.col]? = some r ∧ r ≠ 4095)
  ∧ (∀ (i : EvalInputs) (ring : Ring) (cells : List Cell),
      validHeights i ring cells = cells.filterMap fun c => (validSample i ring c).map (heightOf i.zero i.gain))
  ∧ (∀ level gain r : Nat,
      256 * heightOf level gain r ≤ ((r : Int) - level) * gain + 128
        ∧ ((r : Int) - level) * gain + 128 < 256 * (heightOf level gain r + 1)
        ∧ heightOf level gain level = 0
        ∧ (level ≤ 4094 → gain ≤ 1023 → r ≤ 4094 →
            (-4094 ≤ (r : Int) - level ∧ (r : Int) - level ≤ 4094)
            ∧ (-4188162 ≤ ((r : Int) - level) * gain ∧ ((r : Int) - level) * gain ≤ 4188162)
            ∧ -16360 ≤ heightOf level gain r ∧ heightOf level gain r ≤ 16360))
  ∧ heightOf 0 1023 4094 = 16360 ∧ heightOf 4094 1023 0 = -16360
  ∧ heightOf 1000 640 990 = -25 ∧ heightOf 1000 640 1010 = 25

/-- The outcome of an evaluation (R124, R127 to R137): the first condition that holds of the table of R136, with the
measures of R129 to R134 and the fields of R137. -/
def Obligations.OutcomesFollowTheTable : Prop :=
  ∀ (i : EvalInputs) (ring : Ring),
    let j := i.joint
    let c := i.cls
    let pad := validHeights i ring j.padCells
    let refs := validHeights i ring j.ringCells
    let cells := j.ncols * j.nrows
    let valid := pad.length
    let zRef : Int := (refs.sum + (refs.length : Int) / 2) / (refs.length : Int)
    let heights : List Nat := pad.map fun z => (min (c.hclamp : Int) (max 0 (z - zRef))).toNat
    let volume := (heights.sum * cells + valid / 2) / valid
    let coverage := 1000 * heights.countP (fun h => decide (c.wetHeight ≤ h)) / valid
    let missed : Prop :=
      ∃ k < j.nrows, Ring.read ring (i.firstLine + BitVec.ofNat 32 (j.row0 + k)) = .missed
    let occluded : Prop := valid = 0 ∨ 1000 * valid / cells < c.validMin
    let bridged : Prop :=
      ∃ g, j.gap = some g ∧ g.bridgeCount
        ≤ (validHeights i ring j.gapCells).countP fun z => decide ((g.bridgeHeight : Int) ≤ z - zRef)
    let outcome (o : JointOutcome) (m : Measures) : Prop :=
      measureJoint i ring = { jointId := j.jointId, outcome := o, measures := m }
    (missed → outcome .dataLost .absent)
    ∧ (¬missed → occluded → outcome .occluded (.validOnly valid))
    ∧ (¬missed → ¬occluded → refs.length < 8 → outcome .noRef (.validOnly valid))
    ∧ (¬missed → ¬occluded → 8 ≤ refs.length →
        ∃ peak, (∀ h ∈ heights, h ≤ peak) ∧ peak ∈ heights
          ∧ (let graded (o : JointOutcome) : Prop := outcome o (.full volume peak coverage zRef valid)
            (bridged → graded .bridged)
            ∧ (¬bridged → c.pmax < peak → graded .lifted)
            ∧ (¬bridged → peak ≤ c.pmax → volume < c.vmin → graded .insufficient)
            ∧ (¬bridged → peak ≤ c.pmax → c.vmin ≤ volume → c.vmax < volume → graded .excess)
            ∧ (¬bridged → peak ≤ c.pmax → c.vmin ≤ volume → volume ≤ c.vmax → coverage < c.cmin → graded .nonWet)
            ∧ (¬bridged → peak ≤ c.pmax → c.vmin ≤ volume → volume ≤ c.vmax → c.cmin ≤ coverage → graded .good)))

/-! ### Verdicts and calibration -/

/-- The decision of a board record (R35, R113, R114, R118, R142, R147 to R150): a DECIDED record stays; else the flag
and the count of its cause, the verdict by the first row of R148 that holds, and the divert decision of R149. A cause
other than completion leaves every joint counted once. -/
def Obligations.DecisionsFollowTheTables : Prop :=
  ∀ (cause : Cause) (policy : StalePolicy) (joints : Nat) (r : BoardRecord),
    (r.state = .decided → r.decideBy cause policy joints = r)
    ∧ (r.state ≠ .decided →
        let left := (joints - r.work.cursor) + r.work.queued + r.work.inFlight
        let counts := r.verdictPart.counts
        let flags := r.verdictPart.flags
        let part : VerdictFields :=
          match cause with
          | .completion => r.verdictPart
          | .deadline =>
            { r.verdictPart with
              counts := { counts with late := counts.late + left }
              flags := { flags with lengthMismatch := flags.lengthMismatch || decide (r.pTrail = none) } }
          | .withdraw => { r.verdictPart with counts := { counts with skipped := counts.skipped + left } }
          | .abandon =>
            { r.verdictPart with
              counts := { counts with skipped := counts.skipped + left }, flags := { flags with abandoned := true } }
        let work : WorkFields := if cause = .completion then r.work else { cursor := joints, queued := 0, inFlight := 0 }
        let unjudged : Prop := part.flags.noRecipe = true ∨ part.flags.abandoned = true
        let failing : Prop :=
          0 < part.counts.insufficient ∨ 0 < part.counts.excess ∨ 0 < part.counts.nonWet ∨ 0 < part.counts.lifted
            ∨ 0 < part.counts.bridged
        let doubtful : Prop :=
          0 < part.counts.dataLost ∨ 0 < part.counts.occluded ∨ 0 < part.counts.noRef ∨ 0 < part.counts.late
            ∨ part.flags.lengthMismatch = true ∨ (part.flags.calStale = true ∧ policy = .demote)
        let decided (v : Verdict) (divert : Bool) : Prop :=
          r.decideBy cause policy joints =
            { r with
              state := .decided, divertDecision := some divert, work := work,
              verdictPart := { part with verdict := some v } }
        (cause = .withdraw → decided .withdrawn true)
        ∧ (cause ≠ .withdraw → unjudged → decided .unjudged true)
        ∧ (cause ≠ .withdraw → ¬unjudged → failing → decided .fail true)
        ∧ (cause ≠ .withdraw → ¬unjudged → ¬failing → doubtful → decided .review true)
        ∧ (cause ≠ .withdraw → ¬unjudged → ¬failing → ¬doubtful → decided .pass false)
        ∧ (cause ≠ .completion → left + counts.sum = joints → part.counts.sum = joints))

/-- Release in lane order (R151, R152, R154, R157): an offer releases, oldest first, every unreleased record up to the
first that is not DECIDED; each goes out, as it stands, to the oldest parked COLLECT or to the verdict queue. -/
def Obligations.VerdictsReleaseInLaneOrder : Prop :=
  (∀ (s : State) (l : Lane), (s.lane l).ReleaseSound →
    let ready := (s.lane l).transit.takeWhile fun r => decide (r.state = .decided)
    let held := (s.lane l).transit.dropWhile fun r => decide (r.state = .decided)
    offerRelease l s =
      (ready.filter fun r => !r.verdictPart.released).foldl (fun u r => emitVerdict (verdictRecordOf l r) u)
        (s.updLane l fun x =>
          { x with
            transit :=
              (ready.map fun r => { r with verdictPart := { r.verdictPart with released := true } }) ++ held }))
  ∧ ∀ (l : Lane) (r : BoardRecord) (v : Verdict) (divert : Bool), r.verdictPart.verdict = some v →
      r.divertDecision = some divert →
        verdictRecordOf l r =
          { tag := r.binding.map fun b => b.tag, lane := l, slot := r.binding.map fun b => b.slot, pLead := r.pLead,
            measuredLength := r.pTrail.map fun p => p - r.pLead, verdict := v, divert := divert,
            flags := r.verdictPart.flags, counts := r.verdictPart.counts, defects := r.verdictPart.defects,
            overflow := r.verdictPart.overflow, droppedBefore := 0 }

/-- Calibration attempts (R34, R73 to R80): when it starts and what the idle run becomes; each line up to the front is
collected once, in order, valid samples only; with 16 lines it completes, accepted with the new zero and gain where all
five checks of R78 hold, and a fault otherwise. What the Calibration Unit takes of a trigger of LANE_TRIGGER
(`LaneTriggerReachesItsReceivers`): each head of the lane is tested with the gap lines that the spans of the lane's
records leave (R34, R73), a first line not yet given being that of the first grid position that reaches the scan start.
-/
def Obligations.CalibrationAttemptsRunToCompletion : Prop :=
  (∀ (idleCalGap : Nat) (ahead16 gap : Bool) (t : Word) (c : CalRecord),
    let starts : Prop :=
      ahead16 = true ∧ c.attempt = none
        ∧ (0 < c.balance ∨ c.requested = true ∨ (-8 < c.balance ∧ idleCalGap ≤ c.idleRun))
    (starts → CalRecord.trigger idleCalGap ahead16 gap t c =
      { c with
        attempt := some { start := t, collected := 0, zeroSum := 0, zeroCount := 0, stepSum := 0, stepCount := 0 }
        idleRun := 0 })
    ∧ (¬starts → CalRecord.trigger idleCalGap ahead16 gap t c =
        { c with idleRun := if gap = true then min 4096 (c.idleRun + 1) else 0 }))
  ∧ (∀ (st : HeadSettings) (ring : Ring) (front : Word) (n : Nat) (c : CalRecord) (a : Attempt), c.attempt = some a →
      let line := a.start + BitVec.ofNat 32 a.collected
      let valid (col : Nat) (samples : List Nat) : List Nat :=
        ((samples.drop col).take 16).filter fun v => decide (v ≠ 4095)
      let read : List Nat := match Ring.read ring line with | .good samples => samples | _ => []
      let a' : Attempt :=
        { start := a.start
          collected := a.collected + 1
          zeroSum := a.zeroSum + (valid st.zeroCol read).sum
          zeroCount := a.zeroCount + (valid st.zeroCol read).length
          stepSum := a.stepSum + (valid st.stepCol read).sum
          stepCount := a.stepCount + (valid st.stepCol read).length }
      (reached front line = false → CalRecord.collect st ring front (n + 1) c = c)
      ∧ (reached front line = true → a.collected + 1 < 16 →
          CalRecord.collect st ring front (n + 1) c = CalRecord.collect st ring front n { c with attempt := some a' })
      ∧ (reached front line = true → 16 ≤ a.collected + 1 →
          CalRecord.collect st ring front (n + 1) c = CalRecord.complete st a' c))
  ∧ (∀ (st : HeadSettings) (a : Attempt) (c : CalRecord),
      let level := (a.zeroSum + a.zeroCount / 2) / a.zeroCount
      let step := (a.stepSum + a.stepCount / 2) / a.stepCount
      let gain := (st.stepHeight * 256 + (step - level) / 2) / (step - level)
      let accepted : Prop :=
        192 ≤ a.zeroCount ∧ 192 ≤ a.stepCount ∧ level < step ∧ (1 ≤ gain ∧ gain ≤ 1023)
          ∧ (st.nominalGain * 3 / 4 ≤ gain ∧ gain ≤ st.nominalGain * 5 / 4)
      (accepted → CalRecord.complete st a c =
        { c with
          zero := some level, gain := some gain, balance := if -8 < c.balance then c.balance - 1 else c.balance,
          overdue := false, calFaulted := false, requested := false, faultCount := 0, attempt := none })
      ∧ (¬accepted → CalRecord.complete st a c =
          { c with
            faultCount := min 3 (c.faultCount + 1), calFaulted := c.calFaulted || decide (2 ≤ c.faultCount),
            attempt := none }))
  ∧ (∀ (index next p : Word) (step : Nat) (k : Int), 1 ≤ step → (k - 1) * step < (p - next).toInt →
      (p - next).toInt ≤ k * step → indexReaching index next step p = index + 1 + BitVec.ofInt 32 k)
  ∧ ∀ (s : State) (l : Lane) (trigger position next : Word) (st : LaneSettings), (s.lane l).settings = some st →
      (s.lane l).nextTrigger = some next →
        let lineAt (p : Word) : Word := indexReaching (s.lane l).triggerIndex next st.lineStep p
        let first (r : BoardRecord) : Word :=
          match r.firstLine with
          | some f => f
          | none => lineAt (r.pLead + BitVec.ofNat 32 st.dScan)
        let covers (a b x : Word) : Prop := (x - a).toNat ≤ (b - a).toNat
        let occupies (r : BoardRecord) (x : Word) : Prop :=
          match r.binding, r.pTrail with
          | some b, _ => covers (first r) (first r + BitVec.ofNat 32 (b.boardLines - 1)) x
          | none, some p => covers (first r) (lineAt (p + BitVec.ofNat 32 st.dScan)) x
          | none, none => (x - first r).toNat < 2147483648
        let isGap (x : Word) : Prop := ∀ r ∈ (s.lane l).transit, ¬occupies r x
        ∃ ahead16 gap : Bool, (ahead16 = true ↔ ∀ k < 16, isGap (trigger + BitVec.ofNat 32 k))
          ∧ (gap = true ↔ isGap trigger)
          ∧ (let u : State := takeTriggerAt l trigger position .calibration s
            u = { s with cal := u.cal }
              ∧ ∀ h, u.calOf h =
                  if h ∈ laneHeads s l then CalRecord.trigger st.idleCalGap ahead16 gap trigger (s.calOf h)
                  else s.calOf h)
end
end

