-- ==== Sys2Proof/Laws/State.lean ====
section
/-!
SUPPORT. One lemma for each field of State under each update of one block: the field the update writes, and the fields it
leaves. No proof need unfold a record update.
-/

namespace Sys2Proof.Machine.State

variable (s : State)

/-! ### updLane -/

@[simp] theorem updLane_lanes (l : Lane) (f : LaneState → LaneState) : (s.updLane l f).lanes = s.lanes.set l (f (s.lane l)) := rfl
@[simp] theorem updLane_heads (l : Lane) (f : LaneState → LaneState) : (s.updLane l f).heads = s.heads := rfl
@[simp] theorem updLane_due (l : Lane) (f : LaneState → LaneState) : (s.updLane l f).due = s.due := rfl
@[simp] theorem updLane_cal (l : Lane) (f : LaneState → LaneState) : (s.updLane l f).cal = s.cal := rfl
@[simp] theorem updLane_slots (l : Lane) (f : LaneState → LaneState) : (s.updLane l f).slots = s.slots := rfl
@[simp] theorem updLane_pointer (l : Lane) (f : LaneState → LaneState) : (s.updLane l f).pointer = s.pointer := rfl
@[simp] theorem updLane_units (l : Lane) (f : LaneState → LaneState) : (s.updLane l f).units = s.units := rfl
@[simp] theorem updLane_verdicts (l : Lane) (f : LaneState → LaneState) : (s.updLane l f).verdicts = s.verdicts := rfl
@[simp] theorem updLane_link (l : Lane) (f : LaneState → LaneState) : (s.updLane l f).link = s.link := rfl
@[simp] theorem updLane_resetAsserted (l : Lane) (f : LaneState → LaneState) : (s.updLane l f).resetAsserted = s.resetAsserted := rfl
@[simp] theorem updLane_now (l : Lane) (f : LaneState → LaneState) : (s.updLane l f).now = s.now := rfl
@[simp] theorem updLane_freeCount (l : Lane) (f : LaneState → LaneState) : (s.updLane l f).freeCount = s.freeCount := rfl
@[simp] theorem updLane_pending (l : Lane) (f : LaneState → LaneState) : (s.updLane l f).pending = s.pending := rfl
@[simp] theorem updLane_head (l : Lane) (f : LaneState → LaneState) (m : HeadId) : (s.updLane l f).head m = s.head m := rfl
@[simp] theorem updLane_calOf (l : Lane) (f : LaneState → LaneState) (m : HeadId) : (s.updLane l f).calOf m = s.calOf m := rfl
@[simp] theorem updLane_slot (l : Lane) (f : LaneState → LaneState) (m : SlotId) : (s.updLane l f).slot m = s.slot m := rfl
@[simp] theorem updLane_unitOf (l : Lane) (f : LaneState → LaneState) (m : UnitId) : (s.updLane l f).unitOf m = s.unitOf m := rfl
@[simp] theorem updLane_dueOf (l : Lane) (f : LaneState → LaneState) (m : HeadId) : (s.updLane l f).dueOf m = s.dueOf m := rfl

/-! ### updHead -/

@[simp] theorem updHead_lanes (h : HeadId) (f : HeadPort → HeadPort) : (s.updHead h f).lanes = s.lanes := rfl
@[simp] theorem updHead_heads (h : HeadId) (f : HeadPort → HeadPort) : (s.updHead h f).heads = s.heads.set h (f (s.head h)) := rfl
@[simp] theorem updHead_due (h : HeadId) (f : HeadPort → HeadPort) : (s.updHead h f).due = s.due := rfl
@[simp] theorem updHead_cal (h : HeadId) (f : HeadPort → HeadPort) : (s.updHead h f).cal = s.cal := rfl
@[simp] theorem updHead_slots (h : HeadId) (f : HeadPort → HeadPort) : (s.updHead h f).slots = s.slots := rfl
@[simp] theorem updHead_pointer (h : HeadId) (f : HeadPort → HeadPort) : (s.updHead h f).pointer = s.pointer := rfl
@[simp] theorem updHead_units (h : HeadId) (f : HeadPort → HeadPort) : (s.updHead h f).units = s.units := rfl
@[simp] theorem updHead_verdicts (h : HeadId) (f : HeadPort → HeadPort) : (s.updHead h f).verdicts = s.verdicts := rfl
@[simp] theorem updHead_link (h : HeadId) (f : HeadPort → HeadPort) : (s.updHead h f).link = s.link := rfl
@[simp] theorem updHead_resetAsserted (h : HeadId) (f : HeadPort → HeadPort) : (s.updHead h f).resetAsserted = s.resetAsserted := rfl
@[simp] theorem updHead_now (h : HeadId) (f : HeadPort → HeadPort) : (s.updHead h f).now = s.now := rfl
@[simp] theorem updHead_freeCount (h : HeadId) (f : HeadPort → HeadPort) : (s.updHead h f).freeCount = s.freeCount := rfl
@[simp] theorem updHead_pending (h : HeadId) (f : HeadPort → HeadPort) : (s.updHead h f).pending = s.pending := rfl
@[simp] theorem updHead_lane (h : HeadId) (f : HeadPort → HeadPort) (m : Lane) : (s.updHead h f).lane m = s.lane m := rfl
@[simp] theorem updHead_calOf (h : HeadId) (f : HeadPort → HeadPort) (m : HeadId) : (s.updHead h f).calOf m = s.calOf m := rfl
@[simp] theorem updHead_slot (h : HeadId) (f : HeadPort → HeadPort) (m : SlotId) : (s.updHead h f).slot m = s.slot m := rfl
@[simp] theorem updHead_unitOf (h : HeadId) (f : HeadPort → HeadPort) (m : UnitId) : (s.updHead h f).unitOf m = s.unitOf m := rfl
@[simp] theorem updHead_dueOf (h : HeadId) (f : HeadPort → HeadPort) (m : HeadId) : (s.updHead h f).dueOf m = s.dueOf m := rfl

/-! ### updCal -/

@[simp] theorem updCal_lanes (h : HeadId) (f : CalRecord → CalRecord) : (s.updCal h f).lanes = s.lanes := rfl
@[simp] theorem updCal_heads (h : HeadId) (f : CalRecord → CalRecord) : (s.updCal h f).heads = s.heads := rfl
@[simp] theorem updCal_due (h : HeadId) (f : CalRecord → CalRecord) : (s.updCal h f).due = s.due := rfl
@[simp] theorem updCal_cal (h : HeadId) (f : CalRecord → CalRecord) : (s.updCal h f).cal = s.cal.set h (f (s.calOf h)) := rfl
@[simp] theorem updCal_slots (h : HeadId) (f : CalRecord → CalRecord) : (s.updCal h f).slots = s.slots := rfl
@[simp] theorem updCal_pointer (h : HeadId) (f : CalRecord → CalRecord) : (s.updCal h f).pointer = s.pointer := rfl
@[simp] theorem updCal_units (h : HeadId) (f : CalRecord → CalRecord) : (s.updCal h f).units = s.units := rfl
@[simp] theorem updCal_verdicts (h : HeadId) (f : CalRecord → CalRecord) : (s.updCal h f).verdicts = s.verdicts := rfl
@[simp] theorem updCal_link (h : HeadId) (f : CalRecord → CalRecord) : (s.updCal h f).link = s.link := rfl
@[simp] theorem updCal_resetAsserted (h : HeadId) (f : CalRecord → CalRecord) : (s.updCal h f).resetAsserted = s.resetAsserted := rfl
@[simp] theorem updCal_now (h : HeadId) (f : CalRecord → CalRecord) : (s.updCal h f).now = s.now := rfl
@[simp] theorem updCal_freeCount (h : HeadId) (f : CalRecord → CalRecord) : (s.updCal h f).freeCount = s.freeCount := rfl
@[simp] theorem updCal_pending (h : HeadId) (f : CalRecord → CalRecord) : (s.updCal h f).pending = s.pending := rfl
@[simp] theorem updCal_lane (h : HeadId) (f : CalRecord → CalRecord) (m : Lane) : (s.updCal h f).lane m = s.lane m := rfl
@[simp] theorem updCal_head (h : HeadId) (f : CalRecord → CalRecord) (m : HeadId) : (s.updCal h f).head m = s.head m := rfl
@[simp] theorem updCal_slot (h : HeadId) (f : CalRecord → CalRecord) (m : SlotId) : (s.updCal h f).slot m = s.slot m := rfl
@[simp] theorem updCal_unitOf (h : HeadId) (f : CalRecord → CalRecord) (m : UnitId) : (s.updCal h f).unitOf m = s.unitOf m := rfl
@[simp] theorem updCal_dueOf (h : HeadId) (f : CalRecord → CalRecord) (m : HeadId) : (s.updCal h f).dueOf m = s.dueOf m := rfl

/-! ### updSlot -/

@[simp] theorem updSlot_lanes (n : SlotId) (f : RecipeSlot → RecipeSlot) : (s.updSlot n f).lanes = s.lanes := rfl
@[simp] theorem updSlot_heads (n : SlotId) (f : RecipeSlot → RecipeSlot) : (s.updSlot n f).heads = s.heads := rfl
@[simp] theorem updSlot_due (n : SlotId) (f : RecipeSlot → RecipeSlot) : (s.updSlot n f).due = s.due := rfl
@[simp] theorem updSlot_cal (n : SlotId) (f : RecipeSlot → RecipeSlot) : (s.updSlot n f).cal = s.cal := rfl
@[simp] theorem updSlot_slots (n : SlotId) (f : RecipeSlot → RecipeSlot) : (s.updSlot n f).slots = s.slots.set n (f (s.slot n)) := rfl
@[simp] theorem updSlot_pointer (n : SlotId) (f : RecipeSlot → RecipeSlot) : (s.updSlot n f).pointer = s.pointer := rfl
@[simp] theorem updSlot_units (n : SlotId) (f : RecipeSlot → RecipeSlot) : (s.updSlot n f).units = s.units := rfl
@[simp] theorem updSlot_verdicts (n : SlotId) (f : RecipeSlot → RecipeSlot) : (s.updSlot n f).verdicts = s.verdicts := rfl
@[simp] theorem updSlot_link (n : SlotId) (f : RecipeSlot → RecipeSlot) : (s.updSlot n f).link = s.link := rfl
@[simp] theorem updSlot_resetAsserted (n : SlotId) (f : RecipeSlot → RecipeSlot) : (s.updSlot n f).resetAsserted = s.resetAsserted := rfl
@[simp] theorem updSlot_now (n : SlotId) (f : RecipeSlot → RecipeSlot) : (s.updSlot n f).now = s.now := rfl
@[simp] theorem updSlot_freeCount (n : SlotId) (f : RecipeSlot → RecipeSlot) : (s.updSlot n f).freeCount = s.freeCount := rfl
@[simp] theorem updSlot_pending (n : SlotId) (f : RecipeSlot → RecipeSlot) : (s.updSlot n f).pending = s.pending := rfl
@[simp] theorem updSlot_lane (n : SlotId) (f : RecipeSlot → RecipeSlot) (m : Lane) : (s.updSlot n f).lane m = s.lane m := rfl
@[simp] theorem updSlot_head (n : SlotId) (f : RecipeSlot → RecipeSlot) (m : HeadId) : (s.updSlot n f).head m = s.head m := rfl
@[simp] theorem updSlot_calOf (n : SlotId) (f : RecipeSlot → RecipeSlot) (m : HeadId) : (s.updSlot n f).calOf m = s.calOf m := rfl
@[simp] theorem updSlot_unitOf (n : SlotId) (f : RecipeSlot → RecipeSlot) (m : UnitId) : (s.updSlot n f).unitOf m = s.unitOf m := rfl
@[simp] theorem updSlot_dueOf (n : SlotId) (f : RecipeSlot → RecipeSlot) (m : HeadId) : (s.updSlot n f).dueOf m = s.dueOf m := rfl

/-! ### setDue -/

@[simp] theorem setDue_lanes (h : HeadId) (k : Nat) : (s.setDue h k).lanes = s.lanes := rfl
@[simp] theorem setDue_heads (h : HeadId) (k : Nat) : (s.setDue h k).heads = s.heads := rfl
@[simp] theorem setDue_due (h : HeadId) (k : Nat) : (s.setDue h k).due = s.due.set h k := rfl
@[simp] theorem setDue_cal (h : HeadId) (k : Nat) : (s.setDue h k).cal = s.cal := rfl
@[simp] theorem setDue_slots (h : HeadId) (k : Nat) : (s.setDue h k).slots = s.slots := rfl
@[simp] theorem setDue_pointer (h : HeadId) (k : Nat) : (s.setDue h k).pointer = s.pointer := rfl
@[simp] theorem setDue_units (h : HeadId) (k : Nat) : (s.setDue h k).units = s.units := rfl
@[simp] theorem setDue_verdicts (h : HeadId) (k : Nat) : (s.setDue h k).verdicts = s.verdicts := rfl
@[simp] theorem setDue_link (h : HeadId) (k : Nat) : (s.setDue h k).link = s.link := rfl
@[simp] theorem setDue_resetAsserted (h : HeadId) (k : Nat) : (s.setDue h k).resetAsserted = s.resetAsserted := rfl
@[simp] theorem setDue_now (h : HeadId) (k : Nat) : (s.setDue h k).now = s.now := rfl
@[simp] theorem setDue_freeCount (h : HeadId) (k : Nat) : (s.setDue h k).freeCount = s.freeCount := rfl
@[simp] theorem setDue_pending (h : HeadId) (k : Nat) : (s.setDue h k).pending = s.pending := rfl
@[simp] theorem setDue_lane (h : HeadId) (k : Nat) (m : Lane) : (s.setDue h k).lane m = s.lane m := rfl
@[simp] theorem setDue_head (h : HeadId) (k : Nat) (m : HeadId) : (s.setDue h k).head m = s.head m := rfl
@[simp] theorem setDue_calOf (h : HeadId) (k : Nat) (m : HeadId) : (s.setDue h k).calOf m = s.calOf m := rfl
@[simp] theorem setDue_slot (h : HeadId) (k : Nat) (m : SlotId) : (s.setDue h k).slot m = s.slot m := rfl
@[simp] theorem setDue_unitOf (h : HeadId) (k : Nat) (m : UnitId) : (s.setDue h k).unitOf m = s.unitOf m := rfl

/-! ### setUnit -/

@[simp] theorem setUnit_lanes (u : UnitId) (e : Option Evaluation) : (s.setUnit u e).lanes = s.lanes := rfl
@[simp] theorem setUnit_heads (u : UnitId) (e : Option Evaluation) : (s.setUnit u e).heads = s.heads := rfl
@[simp] theorem setUnit_due (u : UnitId) (e : Option Evaluation) : (s.setUnit u e).due = s.due := rfl
@[simp] theorem setUnit_cal (u : UnitId) (e : Option Evaluation) : (s.setUnit u e).cal = s.cal := rfl
@[simp] theorem setUnit_slots (u : UnitId) (e : Option Evaluation) : (s.setUnit u e).slots = s.slots := rfl
@[simp] theorem setUnit_pointer (u : UnitId) (e : Option Evaluation) : (s.setUnit u e).pointer = s.pointer := rfl
@[simp] theorem setUnit_units (u : UnitId) (e : Option Evaluation) : (s.setUnit u e).units = s.units.set u e := rfl
@[simp] theorem setUnit_verdicts (u : UnitId) (e : Option Evaluation) : (s.setUnit u e).verdicts = s.verdicts := rfl
@[simp] theorem setUnit_link (u : UnitId) (e : Option Evaluation) : (s.setUnit u e).link = s.link := rfl
@[simp] theorem setUnit_resetAsserted (u : UnitId) (e : Option Evaluation) : (s.setUnit u e).resetAsserted = s.resetAsserted := rfl
@[simp] theorem setUnit_now (u : UnitId) (e : Option Evaluation) : (s.setUnit u e).now = s.now := rfl
@[simp] theorem setUnit_freeCount (u : UnitId) (e : Option Evaluation) : (s.setUnit u e).freeCount = s.freeCount := rfl
@[simp] theorem setUnit_pending (u : UnitId) (e : Option Evaluation) : (s.setUnit u e).pending = s.pending := rfl
@[simp] theorem setUnit_lane (u : UnitId) (e : Option Evaluation) (m : Lane) : (s.setUnit u e).lane m = s.lane m := rfl
@[simp] theorem setUnit_head (u : UnitId) (e : Option Evaluation) (m : HeadId) : (s.setUnit u e).head m = s.head m := rfl
@[simp] theorem setUnit_calOf (u : UnitId) (e : Option Evaluation) (m : HeadId) : (s.setUnit u e).calOf m = s.calOf m := rfl
@[simp] theorem setUnit_slot (u : UnitId) (e : Option Evaluation) (m : SlotId) : (s.setUnit u e).slot m = s.slot m := rfl
@[simp] theorem setUnit_dueOf (u : UnitId) (e : Option Evaluation) (m : HeadId) : (s.setUnit u e).dueOf m = s.dueOf m := rfl

/-! ### mapUnits -/

@[simp] theorem mapUnits_lanes (f : Evaluation → Evaluation) : (s.mapUnits f).lanes = s.lanes := rfl
@[simp] theorem mapUnits_heads (f : Evaluation → Evaluation) : (s.mapUnits f).heads = s.heads := rfl
@[simp] theorem mapUnits_due (f : Evaluation → Evaluation) : (s.mapUnits f).due = s.due := rfl
@[simp] theorem mapUnits_cal (f : Evaluation → Evaluation) : (s.mapUnits f).cal = s.cal := rfl
@[simp] theorem mapUnits_slots (f : Evaluation → Evaluation) : (s.mapUnits f).slots = s.slots := rfl
@[simp] theorem mapUnits_pointer (f : Evaluation → Evaluation) : (s.mapUnits f).pointer = s.pointer := rfl
@[simp] theorem mapUnits_units (f : Evaluation → Evaluation) : (s.mapUnits f).units = s.units.map (Option.map f) := rfl
@[simp] theorem mapUnits_verdicts (f : Evaluation → Evaluation) : (s.mapUnits f).verdicts = s.verdicts := rfl
@[simp] theorem mapUnits_link (f : Evaluation → Evaluation) : (s.mapUnits f).link = s.link := rfl
@[simp] theorem mapUnits_resetAsserted (f : Evaluation → Evaluation) : (s.mapUnits f).resetAsserted = s.resetAsserted := rfl
@[simp] theorem mapUnits_now (f : Evaluation → Evaluation) : (s.mapUnits f).now = s.now := rfl
@[simp] theorem mapUnits_freeCount (f : Evaluation → Evaluation) : (s.mapUnits f).freeCount = s.freeCount := rfl
@[simp] theorem mapUnits_pending (f : Evaluation → Evaluation) : (s.mapUnits f).pending = s.pending := rfl
@[simp] theorem mapUnits_lane (f : Evaluation → Evaluation) (m : Lane) : (s.mapUnits f).lane m = s.lane m := rfl
@[simp] theorem mapUnits_head (f : Evaluation → Evaluation) (m : HeadId) : (s.mapUnits f).head m = s.head m := rfl
@[simp] theorem mapUnits_calOf (f : Evaluation → Evaluation) (m : HeadId) : (s.mapUnits f).calOf m = s.calOf m := rfl
@[simp] theorem mapUnits_slot (f : Evaluation → Evaluation) (m : SlotId) : (s.mapUnits f).slot m = s.slot m := rfl
@[simp] theorem mapUnits_dueOf (f : Evaluation → Evaluation) (m : HeadId) : (s.mapUnits f).dueOf m = s.dueOf m := rfl

/-! ### updLink -/

@[simp] theorem updLink_lanes (f : LinkPort → LinkPort) : (s.updLink f).lanes = s.lanes := rfl
@[simp] theorem updLink_heads (f : LinkPort → LinkPort) : (s.updLink f).heads = s.heads := rfl
@[simp] theorem updLink_due (f : LinkPort → LinkPort) : (s.updLink f).due = s.due := rfl
@[simp] theorem updLink_cal (f : LinkPort → LinkPort) : (s.updLink f).cal = s.cal := rfl
@[simp] theorem updLink_slots (f : LinkPort → LinkPort) : (s.updLink f).slots = s.slots := rfl
@[simp] theorem updLink_pointer (f : LinkPort → LinkPort) : (s.updLink f).pointer = s.pointer := rfl
@[simp] theorem updLink_units (f : LinkPort → LinkPort) : (s.updLink f).units = s.units := rfl
@[simp] theorem updLink_verdicts (f : LinkPort → LinkPort) : (s.updLink f).verdicts = s.verdicts := rfl
@[simp] theorem updLink_link (f : LinkPort → LinkPort) : (s.updLink f).link = f s.link := rfl
@[simp] theorem updLink_resetAsserted (f : LinkPort → LinkPort) : (s.updLink f).resetAsserted = s.resetAsserted := rfl
@[simp] theorem updLink_now (f : LinkPort → LinkPort) : (s.updLink f).now = s.now := rfl
@[simp] theorem updLink_freeCount (f : LinkPort → LinkPort) : (s.updLink f).freeCount = s.freeCount := rfl
@[simp] theorem updLink_pending (f : LinkPort → LinkPort) : (s.updLink f).pending = s.pending := rfl
@[simp] theorem updLink_lane (f : LinkPort → LinkPort) (m : Lane) : (s.updLink f).lane m = s.lane m := rfl
@[simp] theorem updLink_head (f : LinkPort → LinkPort) (m : HeadId) : (s.updLink f).head m = s.head m := rfl
@[simp] theorem updLink_calOf (f : LinkPort → LinkPort) (m : HeadId) : (s.updLink f).calOf m = s.calOf m := rfl
@[simp] theorem updLink_slot (f : LinkPort → LinkPort) (m : SlotId) : (s.updLink f).slot m = s.slot m := rfl
@[simp] theorem updLink_unitOf (f : LinkPort → LinkPort) (m : UnitId) : (s.updLink f).unitOf m = s.unitOf m := rfl
@[simp] theorem updLink_dueOf (f : LinkPort → LinkPort) (m : HeadId) : (s.updLink f).dueOf m = s.dueOf m := rfl

/-! ### setVerdicts -/

@[simp] theorem setVerdicts_lanes (v : VerdictUnit) : (s.setVerdicts v).lanes = s.lanes := rfl
@[simp] theorem setVerdicts_heads (v : VerdictUnit) : (s.setVerdicts v).heads = s.heads := rfl
@[simp] theorem setVerdicts_due (v : VerdictUnit) : (s.setVerdicts v).due = s.due := rfl
@[simp] theorem setVerdicts_cal (v : VerdictUnit) : (s.setVerdicts v).cal = s.cal := rfl
@[simp] theorem setVerdicts_slots (v : VerdictUnit) : (s.setVerdicts v).slots = s.slots := rfl
@[simp] theorem setVerdicts_pointer (v : VerdictUnit) : (s.setVerdicts v).pointer = s.pointer := rfl
@[simp] theorem setVerdicts_units (v : VerdictUnit) : (s.setVerdicts v).units = s.units := rfl
@[simp] theorem setVerdicts_verdicts (v : VerdictUnit) : (s.setVerdicts v).verdicts = v := rfl
@[simp] theorem setVerdicts_link (v : VerdictUnit) : (s.setVerdicts v).link = s.link := rfl
@[simp] theorem setVerdicts_resetAsserted (v : VerdictUnit) : (s.setVerdicts v).resetAsserted = s.resetAsserted := rfl
@[simp] theorem setVerdicts_now (v : VerdictUnit) : (s.setVerdicts v).now = s.now := rfl
@[simp] theorem setVerdicts_freeCount (v : VerdictUnit) : (s.setVerdicts v).freeCount = s.freeCount := rfl
@[simp] theorem setVerdicts_pending (v : VerdictUnit) : (s.setVerdicts v).pending = s.pending := rfl
@[simp] theorem setVerdicts_lane (v : VerdictUnit) (m : Lane) : (s.setVerdicts v).lane m = s.lane m := rfl
@[simp] theorem setVerdicts_head (v : VerdictUnit) (m : HeadId) : (s.setVerdicts v).head m = s.head m := rfl
@[simp] theorem setVerdicts_calOf (v : VerdictUnit) (m : HeadId) : (s.setVerdicts v).calOf m = s.calOf m := rfl
@[simp] theorem setVerdicts_slot (v : VerdictUnit) (m : SlotId) : (s.setVerdicts v).slot m = s.slot m := rfl
@[simp] theorem setVerdicts_unitOf (v : VerdictUnit) (m : UnitId) : (s.setVerdicts v).unitOf m = s.unitOf m := rfl
@[simp] theorem setVerdicts_dueOf (v : VerdictUnit) (m : HeadId) : (s.setVerdicts v).dueOf m = s.dueOf m := rfl

/-! ### setPointer -/

@[simp] theorem setPointer_lanes (l : Lane) : (s.setPointer l).lanes = s.lanes := rfl
@[simp] theorem setPointer_heads (l : Lane) : (s.setPointer l).heads = s.heads := rfl
@[simp] theorem setPointer_due (l : Lane) : (s.setPointer l).due = s.due := rfl
@[simp] theorem setPointer_cal (l : Lane) : (s.setPointer l).cal = s.cal := rfl
@[simp] theorem setPointer_slots (l : Lane) : (s.setPointer l).slots = s.slots := rfl
@[simp] theorem setPointer_pointer (l : Lane) : (s.setPointer l).pointer = l := rfl
@[simp] theorem setPointer_units (l : Lane) : (s.setPointer l).units = s.units := rfl
@[simp] theorem setPointer_verdicts (l : Lane) : (s.setPointer l).verdicts = s.verdicts := rfl
@[simp] theorem setPointer_link (l : Lane) : (s.setPointer l).link = s.link := rfl
@[simp] theorem setPointer_resetAsserted (l : Lane) : (s.setPointer l).resetAsserted = s.resetAsserted := rfl
@[simp] theorem setPointer_now (l : Lane) : (s.setPointer l).now = s.now := rfl
@[simp] theorem setPointer_freeCount (l : Lane) : (s.setPointer l).freeCount = s.freeCount := rfl
@[simp] theorem setPointer_pending (l : Lane) : (s.setPointer l).pending = s.pending := rfl
@[simp] theorem setPointer_lane (l : Lane) (m : Lane) : (s.setPointer l).lane m = s.lane m := rfl
@[simp] theorem setPointer_head (l : Lane) (m : HeadId) : (s.setPointer l).head m = s.head m := rfl
@[simp] theorem setPointer_calOf (l : Lane) (m : HeadId) : (s.setPointer l).calOf m = s.calOf m := rfl
@[simp] theorem setPointer_slot (l : Lane) (m : SlotId) : (s.setPointer l).slot m = s.slot m := rfl
@[simp] theorem setPointer_unitOf (l : Lane) (m : UnitId) : (s.setPointer l).unitOf m = s.unitOf m := rfl
@[simp] theorem setPointer_dueOf (l : Lane) (m : HeadId) : (s.setPointer l).dueOf m = s.dueOf m := rfl

/-! ### atLeast -/

@[simp] theorem atLeast_lanes (t : Nat) : (s.atLeast t).lanes = s.lanes := rfl
@[simp] theorem atLeast_heads (t : Nat) : (s.atLeast t).heads = s.heads := rfl
@[simp] theorem atLeast_due (t : Nat) : (s.atLeast t).due = s.due := rfl
@[simp] theorem atLeast_cal (t : Nat) : (s.atLeast t).cal = s.cal := rfl
@[simp] theorem atLeast_slots (t : Nat) : (s.atLeast t).slots = s.slots := rfl
@[simp] theorem atLeast_pointer (t : Nat) : (s.atLeast t).pointer = s.pointer := rfl
@[simp] theorem atLeast_units (t : Nat) : (s.atLeast t).units = s.units := rfl
@[simp] theorem atLeast_verdicts (t : Nat) : (s.atLeast t).verdicts = s.verdicts := rfl
@[simp] theorem atLeast_link (t : Nat) : (s.atLeast t).link = s.link := rfl
@[simp] theorem atLeast_resetAsserted (t : Nat) : (s.atLeast t).resetAsserted = s.resetAsserted := rfl
@[simp] theorem atLeast_now (t : Nat) : (s.atLeast t).now = max s.now t := rfl
@[simp] theorem atLeast_freeCount (t : Nat) : (s.atLeast t).freeCount = s.freeCount := rfl
@[simp] theorem atLeast_pending (t : Nat) : (s.atLeast t).pending = s.pending := rfl
@[simp] theorem atLeast_lane (t : Nat) (m : Lane) : (s.atLeast t).lane m = s.lane m := rfl
@[simp] theorem atLeast_head (t : Nat) (m : HeadId) : (s.atLeast t).head m = s.head m := rfl
@[simp] theorem atLeast_calOf (t : Nat) (m : HeadId) : (s.atLeast t).calOf m = s.calOf m := rfl
@[simp] theorem atLeast_slot (t : Nat) (m : SlotId) : (s.atLeast t).slot m = s.slot m := rfl
@[simp] theorem atLeast_unitOf (t : Nat) (m : UnitId) : (s.atLeast t).unitOf m = s.unitOf m := rfl
@[simp] theorem atLeast_dueOf (t : Nat) (m : HeadId) : (s.atLeast t).dueOf m = s.dueOf m := rfl

/-! ### Reads of the block an update writes -/

@[simp] theorem lane_updLane (l : Lane) (f : LaneState → LaneState) : (s.updLane l f).lane l = f (s.lane l) :=
  Pair.get_set s.lanes l (f (s.lane l))

theorem lane_updLane_ne {l m : Lane} (f : LaneState → LaneState) (h : m ≠ l) : (s.updLane l f).lane m = s.lane m :=
  Pair.get_set_ne s.lanes (f (s.lane l)) h

theorem lane_updLane_eq (l m : Lane) (f : LaneState → LaneState) :
    (s.updLane l f).lane m = if m = l then f (s.lane l) else s.lane m :=
  Pair.get_set_eq s.lanes l m (f (s.lane l))

@[simp] theorem head_updHead (h : HeadId) (f : HeadPort → HeadPort) : (s.updHead h f).head h = f (s.head h) :=
  Quad.get_set s.heads h (f (s.head h))

theorem head_updHead_ne {h g : HeadId} (f : HeadPort → HeadPort) (n : g ≠ h) : (s.updHead h f).head g = s.head g :=
  Quad.get_set_ne s.heads (f (s.head h)) n

theorem head_updHead_eq (h g : HeadId) (f : HeadPort → HeadPort) :
    (s.updHead h f).head g = if g = h then f (s.head h) else s.head g :=
  Quad.get_set_eq s.heads h g (f (s.head h))

@[simp] theorem calOf_updCal (h : HeadId) (f : CalRecord → CalRecord) : (s.updCal h f).calOf h = f (s.calOf h) :=
  Quad.get_set s.cal h (f (s.calOf h))

theorem calOf_updCal_eq (h g : HeadId) (f : CalRecord → CalRecord) :
    (s.updCal h f).calOf g = if g = h then f (s.calOf h) else s.calOf g :=
  Quad.get_set_eq s.cal h g (f (s.calOf h))

@[simp] theorem slot_updSlot (n : SlotId) (f : RecipeSlot → RecipeSlot) : (s.updSlot n f).slot n = f (s.slot n) :=
  Quad.get_set s.slots n (f (s.slot n))

theorem slot_updSlot_eq (n m : SlotId) (f : RecipeSlot → RecipeSlot) :
    (s.updSlot n f).slot m = if m = n then f (s.slot n) else s.slot m :=
  Quad.get_set_eq s.slots n m (f (s.slot n))

@[simp] theorem dueOf_setDue (h : HeadId) (k : Nat) : (s.setDue h k).dueOf h = k :=
  Quad.get_set s.due h k

theorem dueOf_setDue_eq (h g : HeadId) (k : Nat) : (s.setDue h k).dueOf g = if g = h then k else s.dueOf g :=
  Quad.get_set_eq s.due h g k

@[simp] theorem unitOf_setUnit (u : UnitId) (e : Option Evaluation) : (s.setUnit u e).unitOf u = e :=
  Quad.get_set s.units u e

theorem unitOf_setUnit_eq (u v : UnitId) (e : Option Evaluation) :
    (s.setUnit u e).unitOf v = if v = u then e else s.unitOf v :=
  Quad.get_set_eq s.units u v e

@[simp] theorem unitOf_mapUnits (f : Evaluation → Evaluation) (u : UnitId) :
    (s.mapUnits f).unitOf u = (s.unitOf u).map f :=
  Quad.get_map (Option.map f) s.units u

end Sys2Proof.Machine.State
end

