-- ==== Sys2Proof/Laws/Edits.lean ====
section
/-!
SUPPORT. What a command can do, said once: but for the changes of RESET_N, every command is a run of the edits listed
here (Laws/ExecEdits.lean proves it), so a property that each edit keeps is kept by every command. The number carried along is the count of places
reserved for a request that is being taken and not yet answered (R175, R176): 0 between commands.
-/

namespace Sys2Proof.Machine

/-- The changes of a Head Port that a lane trigger, a timeout, a lane stop, a frame, a sweep that goes on, and a STATUS
clear set make. -/
inductive HeadEdit : HeadPort → HeadPort → Prop
  | trigger (h t now) : HeadEdit h (h.takeTrigger t now).1
  | timeOut (h t) : HeadEdit h (h.timeOut t).1
  | stop (h) : HeadEdit h h.stopLane.1
  | frame (h active words) : HeadEdit h (h.receiveProfile active words).1
  | sweep (h sw sw') (aligning : h.mode = .aligning sw) (map : sw'.passMap.length = sw.passMap.length)
      (tap : sw.tap < 32 → sw'.tap < 32) (frames : sw'.frames < 8) : HeadEdit h { h with mode := .aligning sw' }
  | clear (h flags) : HeadEdit h (h.clearFlags flags)

/-- The changes of a calibration record, but for that of HEAD_SETUP. -/
inductive CalEdit : (CalRecord → CalRecord) → Prop
  | due : CalEdit CalRecord.due
  | start : CalEdit CalRecord.startLane
  | request : CalEdit CalRecord.request
  | void : CalEdit CalRecord.void
  | trigger (idle a g t) : CalEdit (CalRecord.trigger idle a g t)
  | collect (st ring front n) : CalEdit (CalRecord.collect st ring front n)

/-- The changes of a slot that loading and retiring make. -/
inductive SlotEdit : RecipeSlot → RecipeSlot → Prop
  | opened (x h) (empty : x.state = .empty) : SlotEdit x (openedSlot h)
  | classes (x cs) (loading : x.state = .loading) : SlotEdit x { x with classes := some cs }
  | joints (x js) (loading : x.state = .loading) : SlotEdit x { x with joints := js }
  | emptied (x) (was : x.state = .loading ∨ (x.state = .ready ∧ x.refs = 0)) : SlotEdit x RecipeSlot.empty
  | retiring (x) (ready : x.state = .ready) (named : x.refs ≠ 0) : SlotEdit x { x with state := .retiring }

/-- The changes of the Link Port that touch neither the inbox, nor the outbox, nor HOLD_OUT. -/
def LinkEdit (k k' : LinkPort) : Prop := k'.inbox = k.inbox ∧ k'.outbox = k.outbox ∧ k'.holdOut = k.holdOut

/-- A record whose outcomes are all in (R36, R144). -/
def BoardRecord.Complete (s : State) (r : BoardRecord) : Prop :=
  r.jointsComplete = true ∨ r.verdictPart.counts.sum = jointCountOf s r

/-- The newest record of a lane, bound as `b`, whose trailing edge at this position shows it a glitch (R29). -/
def BoardRecord.IsGlitch (st : LaneSettings) (position : Word) (b : Binding) (r : BoardRecord) : Prop :=
  r.binding = some b ∧ r.pTrail = none ∧ r.state = .entering ∧ liesBelow position (glitchLimit st r) = true

/-- The item of an evaluation that ends leaves its record's in_flight (R116). -/
def landItem (i : WorkItem) (s : State) : State :=
  updWork i.lane i.record (fun w => { w with inFlight := w.inFlight - 1 }) s

/-- One edit of the state. -/
inductive Edit : Nat → State → Nat → State → Prop
  -- the model's own counts
  | free (d s k) : Edit d s d { s with freeCount := k }
  | time (d s t) : Edit d s d (s.atLeast t)
  -- lanes
  | eye (d s l b) (idle : b = false → (s.lane l).mode = .disabled ∨ (s.lane l).settings = none) :
      Edit d s d (setEye l b s)
  | countTrigger (d s l p k) (runs : (s.lane l).mode ≠ .disabled) : Edit d s d (s.updLane l (LaneState.countTrigger p k))
  | settings (d s l st) (idle : (s.lane l).mode = .disabled) (ranges : st.inRanges = true) :
      Edit d s d (s.updLane l fun x => { x with settings := some st })
  | start (d s l st) (idle : (s.lane l).mode = .disabled) (set : (s.lane l).settings = some st)
      (ready : headsReady s l = true) : Edit d s d (s.updLane l (LaneState.start st))
  | drain (d s l) (runs : (s.lane l).mode = .running) : Edit d s d (s.updLane l fun x => { x with mode := .stopping })
  | disable (d s l) (empty : (s.lane l).transit = []) : Edit d s d ((flushExpect l s).updLane l LaneState.disable)
  | laneFlags (d s l flags) : Edit d s d (s.updLane l (LaneState.clearFlags flags))
  -- expect and transit queues
  | addExpect (d s l e st) (runs : (s.lane l).mode = .running) (ready : (s.slot e.slot).state = .ready)
      (set : (s.lane l).settings = some st) (room : expectFull st (s.lane l) = false) : Edit d s d (addExpect l e s)
  | withdrawEntry (d s l e) (found : ((s.lane l).expect.find? fun f => decide (f.tag = e.tag)) = some e) :
      Edit d s d (withdrawEntry l e s)
  | addBound (d s l e rest) (runs : (s.lane l).mode ≠ .disabled) (clear : (s.lane l).eyeBlocked = false)
      (room : (s.lane l).transit.length < 8) (front : (s.lane l).expect = e :: rest) :
      Edit d s d (addBound l e rest (setEye l true s))
  | addUnbound (d s l) (runs : (s.lane l).mode ≠ .disabled) (clear : (s.lane l).eyeBlocked = false)
      (room : (s.lane l).transit.length < 8) (none : (s.lane l).expect = []) :
      Edit d s d (addUnbound l (setEye l true s))
  | untracked (d s l) (runs : (s.lane l).mode ≠ .disabled) : Edit d s d (untrackedBoard l s)
  | strayTrail (d s l st) (closed : ∀ r, (s.lane l).transit.getLast? = some r → r.pTrail.isSome = true) :
      Edit d s d ((setEye l false s).updLane l (establishFloodEnd st))
  | trail (d s l st r) (newest : (s.lane l).transit.getLast? = some r) :
      Edit d s d (closeTrail l st r.ident ((setEye l false s).updLane l (establishFloodEnd st)))
  | glitch (d s l st r b) (runs : (s.lane l).mode ≠ .disabled) (set : (s.lane l).settings = some st)
      (newest : (s.lane l).transit.getLast? = some r) (found : r.IsGlitch st (s.lane l).enc.position b) :
      Edit d s d (reevaluate l
        (((setEye l false s).updLane l (establishFloodEnd st)).updLane l (LaneState.returnEntry b)))
  | endFlood (d s l) : Edit d s d (endFlood l s)
  | floodPassed (d s l) : Edit d s d (s.updLane l fun x => { x with floodEnd := .passed })
  | dropFront (d s l r rest) (front : (s.lane l).transit = r :: rest) (decided : r.state = .decided) :
      Edit d s d (dropFront l r rest s)
  | removeAll (d s l)
      (decided : ∀ r ∈ (s.lane l).transit, ∃ q ∈ (s.lane l).transit, q.ident = r.ident ∧ q.state = .decided) :
      Edit d s d (removeAll l s)
  | window (d s l i) : Edit d s d (enterWindow l i s)
  | scan (d s l st t q) : Edit d s d (scanRecords l st t q s)
  -- decisions, outcomes and releases
  | decide (d s cause l r) (found : (s.lane l).record? r.ident = some r) (undecided : r.state ≠ .decided)
      (complete : cause = .completion → ∃ q ∈ (s.lane l).transit, q.ident = r.ident ∧ q.Complete s) :
      Edit d s d (cutItems cause l r.ident (fixRecord cause l r.ident s))
  | remember (d s l i) (complete : ∃ q ∈ (s.lane l).transit, q.ident = i ∧ q.Complete s) :
      Edit d s d (rememberComplete l i s)
  | release (d s l r) (oldest : (s.lane l).oldestUnreleased = some r) (decided : r.state = .decided) :
      Edit d s d (releaseRecord l r s)
  | missed (d s l h x) : Edit d s d (missedReport l h x s)
  -- Window Scheduler and evaluation units
  | scheduler (d s l t) : Edit d s d (schedulerTrigger l t s)
  | spoil (d s h x) : Edit d s d (schedulerEviction h x s)
  | examine (d s l) : Edit d s d (examine l s)
  | granted (d s u l i rest) (idle : s.unitOf u = none) (front : (s.lane l).ready = i :: rest) :
      Edit d s d (startEvaluation u i (takeItem l i rest s))
  | evicted (d s l i rest o r) (front : (s.lane l).ready = i :: rest)
      (found : ((takeItem l i rest s).lane i.lane).record? i.record = some r) (undecided : r.state ≠ .decided) :
      Edit d s d (countOutcome i.lane i.record o (takeItem l i rest s))
  | lostItem (d s l i rest) (front : (s.lane l).ready = i :: rest)
      (lost : ∀ r, ((takeItem l i rest s).lane i.lane).record? i.record = some r → r.state = .decided) :
      Edit d s d (takeItem l i rest s)
  | evaluated (d s u e o r) (busy : s.unitOf u = some e) (kept : e.discard = false)
      (found : ((landItem e.item (freeUnit u s)).lane e.item.lane).record? e.item.record = some r)
      (undecided : r.state ≠ .decided) :
      Edit d s d (countOutcome e.item.lane e.item.record o (landItem e.item (freeUnit u s)))
  | lostResult (d s u e) (busy : s.unitOf u = some e) (kept : e.discard = false)
      (lost : ∀ r, ((landItem e.item (freeUnit u s)).lane e.item.lane).record? e.item.record = some r →
        r.state = .decided) :
      Edit d s d (landItem e.item (freeUnit u s))
  | dropped (d s u e) (busy : s.unitOf u = some e) (discard : e.discard = true) : Edit d s d (freeUnit u s)
  -- heads and calibration
  | head (d s h x) (by' : HeadEdit (s.head h) x) : Edit d s d (s.updHead h fun _ => x)
  | setup (d s h st) (still : (s.head h).sweeping = false) (idle : headActive s h = false)
      (target : laneActive s st.lane = false) (ranges : st.inRanges = true) (order : orderTaken s h st = false) :
      Edit d s d (storeHead h st s)
  | due (d s h k) : Edit d s d (s.setDue h k)
  | cal (d s h f) (by' : CalEdit f) : Edit d s d (s.updCal h f)
  | startSweep (d s tag h) (still : (s.head h).sweeping = false) (idle : headActive s h = false) :
      Edit (d + 1) s d (s.updHead h (HeadPort.startSweep tag s.now))
  | endSweep (d s h sw m) (aligning : (s.head h).mode = .aligning sw) (map : m.length = sw.passMap.length) :
      Edit d s d (replyDone kindHeadAlign sw.requestTag ((s.head h).endSweep m).2
        (s.updHead h fun _ => ((s.head h).endSweep m).1))
  -- recipe slots
  | slot (d s n x) (by' : SlotEdit (s.slot n) x) : Edit d s d (s.updSlot n fun _ => x)
  | startClose (d s n tag) (loading : (s.slot n).state = .loading) :
      Edit (d + 1) s d (s.updSlot n fun x => { x with state := .closing, closeTag := some tag })
  | endClose (d s n) : Edit d s d (endClose n s)
  -- requests and replies
  | take (s r rest) (front : s.link.inbox = r :: rest) (free : 0 < freePlaces s) :
      Edit 0 s 1 (s.updLink fun k => k.withInbox rest)
  | reply (d s r) : Edit (d + 1) s d (placeReply r s)
  | reject (s kind tag code) : Edit 0 s 0 (offerReject kind tag code s)
  | enterInbox (d s r) (room : s.link.inbox.length < 8) : Edit d s d (enterInbox r s)
  | link (d s f) (by' : LinkEdit s.link (f s.link)) : Edit d s d (s.updLink f)
  | sent (d s) : Edit d s d (finishTransmit s)
  | collect (d s tag v rest) (front : s.verdicts.queue = v :: rest) :
      Edit (d + 1) s d (deliver tag v (s.setVerdicts { s.verdicts with queue := rest }))
  | park (d s tag) (empty : s.verdicts.queue = []) (room : s.verdicts.parked.length < 4) :
      Edit (d + 1) s d (s.setVerdicts { s.verdicts with parked := s.verdicts.parked ++ [tag] })
  -- RESTART
  | restart (d s tag) (a : (s.lane .a).mode = .disabled) (b : (s.lane .b).mode = .disabled) :
      Edit (d + 1) s d (restartBlocks (replyDone kindRestart tag [] (endCloses (endSweeps (endCollects s)))))

/-- A run of edits. -/
inductive Edits : Nat → State → Nat → State → Prop
  | nil (d s) : Edits d s d s
  | cons {d s e t f u} (first : Edit d s e t) (rest : Edits e t f u) : Edits d s f u

namespace Edits

theorem one {d e : Nat} {s t : State} (h : Edit d s e t) : Edits d s e t := .cons h (.nil _ _)

theorem trans {d e f : Nat} {s t u : State} (h : Edits d s e t) (g : Edits e t f u) : Edits d s f u := by
  induction h with
  | nil => exact g
  | cons first _ ih => exact .cons first (ih g)

/-- One more edit at the end. -/
theorem snoc {d e f : Nat} {s t u : State} (h : Edits d s e t) (g : Edit e t f u) : Edits d s f u := h.trans (one g)

/-- What each edit keeps, a run of edits keeps. -/
theorem keep {I : Nat → State → Prop} (edit : ∀ {d s e t}, Edit d s e t → I d s → I e t) {d e : Nat} {s t : State}
    (h : Edits d s e t) (hs : I d s) : I e t := by
  induction h with
  | nil => exact hs
  | cons first _ ih => exact ih (edit first hs)

/-- Takings in a free order: where each taking is a run of edits, so are all of them. -/
theorem takeInAnyOrder {α : Type} {d : Nat} {f : α → State → State} (h : ∀ a s, Edits d s d (f a s)) (n : Nat)
    (ws : List α) (s : State) : Edits d s d (Machine.takeInAnyOrder f n ws s) := by
  induction n generalizing ws s with
  | zero => exact .nil _ _
  | succ n ih =>
    match ws with
    | [] => exact .nil _ _
    | [a] => exact h a s
    | a :: b :: rest =>
      simp only [Machine.takeInAnyOrder]
      refine .cons (.free _ _ (s.freeCount + 1)) ?_
      split
      · exact .nil _ _
      · exact (h _ _).trans (ih _ _)

theorem takeAll {α : Type} {d : Nat} {f : α → State → State} (h : ∀ a s, Edits d s d (f a s)) (ws : List α)
    (s : State) : Edits d s d (Machine.takeAll f ws s) :=
  takeInAnyOrder h ws.length ws s

/-- A fold of runs of edits is one. -/
theorem foldl {α : Type} {d : Nat} {f : State → α → State} (h : ∀ s a, Edits d s d (f s a)) (ws : List α) (s : State) :
    Edits d s d (ws.foldl f s) := by
  induction ws generalizing s with
  | nil => exact .nil _ _
  | cons a ws ih => exact (h s a).trans (ih _)

end Edits

/-- What a command can do: the two changes of RESET_N (its assertion after the events already reached have been taken), a
change of HOLD_IN, nothing while RESET_N is asserted; while it is deasserted a run of edits, or a new encoder state after
the events already reached. -/
inductive Effect (s : State) : State → Prop
  | powerOn (pins) : Effect s (powerOn pins s)
  | assertReset (run : Edits 0 s 0 (takeReached s)) : Effect s (assertReset (takeReached s))
  | holdIn (a : Bool) : Effect s (s.updLink fun k => { k with holdIn := a })
  | unserved (reset : s.resetAsserted = true) : Effect s s
  | served (t) (service : s.resetAsserted = false) (run : Edits 0 s 0 t) : Effect s t
  | encoder (l p q) (service : s.resetAsserted = false) (run : Edits 0 s 0 (takeReached s)) :
      Effect s (observeEncoder l p q (takeReached s))

end Sys2Proof.Machine
end

