-- ==== Sys2Proof/Laws/Shapes.lean ====
section
/-!
SUPPORT. Which blocks the composite operations touch: each lemma gives the result as the old state with those blocks
changed, so that every other field is the old one by definition.
-/

namespace Sys2Proof.Machine

theorem Pair.set_get {α : Type} (p : Pair α) (l : Lane) : p.set l (p.get l) = p := by
  cases l <;> rfl

/-- The slots after some releases of references (R87). -/
def releasedSlots (ns : List SlotId) (q : Quad RecipeSlot) : Quad RecipeSlot :=
  ns.foldl (fun q n => q.set n (q.get n).release) q

/-- Each slot is released as often as it is named. -/
theorem releasedSlots_get (ns : List SlotId) (q : Quad RecipeSlot) (n : SlotId) :
    (releasedSlots ns q).get n = RecipeSlot.release^[ns.count n] (q.get n) := by
  unfold releasedSlots
  induction ns generalizing q with
  | nil => rfl
  | cons m ns ih =>
    rw [List.foldl_cons, ih, Quad.get_set_eq, List.count_cons]
    by_cases h : n = m
    · subst h; simp
    · have : ¬ m = n := fun e => h e.symm
      simp [h, this]

/-- Releases of references change the slots alone (R87). -/
theorem releaseSlots_shape (ns : List SlotId) (s : State) :
    releaseSlots ns s = { s with slots := releasedSlots ns s.slots } := by
  unfold releaseSlots releasedSlots
  induction ns generalizing s with
  | nil => rfl
  | cons n ns ih => rw [List.foldl_cons, ih]; rfl

/-- The release of a record's reference is that of its slot, if it names one. -/
theorem releaseBinding_eq (b : Option Binding) (s : State) :
    releaseBinding b s = releaseSlots (b.map (·.slot)).toList s := by
  cases b <;> rfl

/-- The discard of the front entry (R26): the queue's tail stays, and the front entry's reference is released. -/
theorem discardEntry_eq (l : Lane) (s : State) :
    discardEntry l s = releaseSlots ((s.lane l).expect.head?.map (·.slot)).toList
      (s.updLane l fun x => { x with expect := x.expect.tail }) := by
  unfold discardEntry
  split
  · next h =>
    have : { s.lane l with expect := (s.lane l).expect.tail } = s.lane l := by
      have : (s.lane l).expect.tail = (s.lane l).expect := by simp [h]
      rw [this]
    simp only [h, State.updLane, releaseSlots]
    rw [show ({ s.lane l with expect := List.tail [] } : LaneState) = s.lane l by simpa [h] using this]
    simp [State.lane, Pair.set_get]
  · next e rest h =>
    simp only [h, releaseSlots, State.updLane]
    rfl

/-- Two changes of one lane are one. -/
theorem updLane_updLane (l : Lane) (f g : LaneState → LaneState) (s : State) :
    (s.updLane l f).updLane l g = s.updLane l fun x => g (f x) := by
  cases l <;> rfl

/-- The lane that enters DISABLED: its expect queue is flushed, then its own change (R11, R22). -/
theorem disable_shape (l : Lane) (s : State) :
    (flushExpect l s).updLane l LaneState.disable
      = { s.updLane l (fun x => LaneState.disable { x with expect := [] }) with
          slots := releasedSlots ((s.lane l).expect.map (·.slot)) s.slots } := by
  rw [flushExpect, releaseSlots_shape]
  cases l <;> rfl

theorem untrackedBoard_shape (l : Lane) (s : State) :
    untrackedBoard l s
      = { s.updLane l (fun x => ({ x with expect := x.expect.tail } : LaneState).countUntracked.reevaluate) with
          slots := releasedSlots ((s.lane l).expect.head?.map (·.slot)).toList s.slots } := by
  rw [untrackedBoard, discardEntry_eq, releaseSlots_shape]
  cases l <;> rfl

theorem dropFront_shape (l : Lane) (r : BoardRecord) (rest : List BoardRecord) (s : State) :
    dropFront l r rest s
      = { s.updLane l (fun x => LaneState.reevaluate { x with transit := rest }) with
          slots := releasedSlots (r.binding.map (·.slot)).toList s.slots } := by
  rw [dropFront, releaseBinding_eq, releaseSlots_shape]
  cases l <;> rfl

theorem removeAll_shape (l : Lane) (s : State) :
    removeAll l s
      = { s.updLane l (fun x => LaneState.reevaluate { x with transit := [] }) with
          slots := releasedSlots (boundSlots (s.lane l).transit) s.slots } := by
  rw [removeAll, releaseSlots_shape]
  cases l <;> rfl

/-- A withdrawn entry's slot is released once (R38). -/
theorem withdrawEntry_shape (l : Lane) (e : ExpectEntry) (s : State) :
    withdrawEntry l e s
      = { s.updLane l (fun x => { x with expect := x.expect.eraseP fun f => decide (f.tag = e.tag) }) with
          slots := releasedSlots [e.slot] s.slots } := rfl

/-- What a record decided other than by completion leaves: items dropped and discarded; nothing at completion. -/
theorem cutItems_cases (cause : Cause) (l : Lane) (i : Nat) (s : State) :
    cutItems cause l i s = s ∨ cutItems cause l i s = discardItems l i (s.updLane l (LaneState.dropItems i)) := by
  unfold cutItems
  split
  · exact .inl rfl
  · exact .inr rfl

/-- A released verdict record changes the Verdict Unit and the outbox alone. -/
theorem emitVerdict_shape (v : VerdictRecord) (s : State) :
    ∃ u o, emitVerdict v s = { s with verdicts := u, link := { s.link with outbox := o } } := by
  unfold emitVerdict
  split
  · exact ⟨_, _, rfl⟩
  · exact ⟨_, s.link.outbox, rfl⟩

/-- A release marks the record, and the verdict record goes to the Verdict Unit or the outbox (R152, R154, R157). -/
theorem releaseRecord_shape (l : Lane) (r : BoardRecord) (s : State) :
    ∃ u o, releaseRecord l r s
      = { s.updLane l (LaneState.mapRecord r.ident fun q =>
            { q with verdictPart := { q.verdictPart with released := true } }) with
          verdicts := u, link := { s.link with outbox := o } } := by
  obtain ⟨u, o, h⟩ := emitVerdict_shape (verdictRecordOf l r)
    (s.updLane l fun x =>
      x.mapRecord r.ident fun q => { q with verdictPart := { q.verdictPart with released := true } })
  exact ⟨u, o, h⟩

/-- A MISSED report at the Verdict Unit changes the lane's records alone, or nothing. -/
theorem missedReport_cases (l : Lane) (h : HeadId) (x : Word) (s : State) :
    missedReport l h x s = s
      ∨ ∃ order, missedReport l h x s
          = s.updLane l fun y => { y with transit := y.transit.map (linesLost s order x) } := by
  unfold missedReport
  split
  · exact .inl rfl
  · next st _ => exact .inr ⟨st.laneOrder, rfl⟩

/-- The end of a close changes its slot and places at most its reply. -/
theorem endClose_shape (n : SlotId) (s : State) :
    ∃ x o, endClose n s = { s.updSlot n (fun _ => x) with link := { s.link with outbox := o } } := by
  have ha : ∀ (m : SlotId) (t : Option Byte) (f : Option CloseFailure) (k : Nat) (s : State),
      ∃ o, answerClose m t f k s = { s with link := { s.link with outbox := o } } := by
    intro m t f k s
    unfold answerClose
    split
    · exact ⟨s.link.outbox, rfl⟩
    · split <;> exact ⟨_, rfl⟩
  unfold endClose
  dsimp only
  split
  · split
    · obtain ⟨o, ho⟩ := ha n (s.slot n).closeTag none (s.slot n).joints.length (s.updSlot n RecipeSlot.passClose)
      exact ⟨(s.slot n).passClose, o, ho⟩
    · next f _ =>
      obtain ⟨o, ho⟩ := ha n (s.slot n).closeTag (some f) (s.slot n).joints.length
        (s.updSlot n (RecipeSlot.failClose f))
      exact ⟨(s.slot n).failClose f, o, ho⟩
  · refine ⟨s.slot n, s.link.outbox, ?_⟩
    have : s.slots.set n (s.slot n) = s.slots := by cases n <;> rfl
    simp only [State.updSlot, this]

/-- A REJECT offered changes the outbox or REJECTS_DROPPED alone (R173). -/
theorem offerReject_shape (k t : Byte) (c : RejectCode) (s : State) :
    ∃ o b, offerReject k t c s = { s with link := { s.link with outbox := o, rejectsDropped := b } } := by
  unfold offerReject
  split
  · exact ⟨_, s.link.rejectsDropped, rfl⟩
  · exact ⟨s.link.outbox, true, rfl⟩

/-- The end of a transmission changes the transmitter, the outbox and the record of frames sent alone (R166). -/
theorem finishTransmit_shape (s : State) :
    ∃ tr o f, finishTransmit s = { s with link := { s.link with transmitter := tr, outbox := o, sent := f } } := by
  unfold finishTransmit
  split
  · exact ⟨_, _, _, rfl⟩
  · exact ⟨_, _, _, rfl⟩

/-- The replies with which RESTART ends lasting work are added to the outbox; nothing else changes before its own reply
(R184). -/
theorem restartReplies_shape (s : State) :
    ∃ rs, endCloses (endSweeps (endCollects s)) = { s with link := { s.link with outbox := s.link.outbox ++ rs } }
      ∧ rs.length = s.verdicts.parked.length + (Four.all.filter fun h => (s.head h).sweeping).length
          + (Four.all.filter fun n => (s.slot n).closeTag.isSome).length := by
  have h1 : ∀ (ts : List Byte) (s : State), ∃ rs : List Reply,
      ts.foldl (fun s tag => replyRefused kindCollect tag .restarted [] s) s
        = { s with link := { s.link with outbox := s.link.outbox ++ rs } } ∧ rs.length = ts.length := by
    intro ts
    induction ts with
    | nil => intro s; exact ⟨[], by simp, rfl⟩
    | cons t ts ih =>
      intro s
      obtain ⟨rs, hr, hl⟩ := ih (replyRefused kindCollect t .restarted [] s)
      refine ⟨refusedReply kindCollect t .restarted [] :: rs, ?_, by simp [hl]⟩
      rw [List.foldl_cons, hr]
      simp [replyRefused, placeReply, State.updLink]
  have h2 : ∀ (hs : List HeadId) (s : State), ∃ rs : List Reply,
      hs.foldl (fun s h =>
        match (s.head h).mode with
        | .aligning sw => replyRefused kindHeadAlign sw.requestTag .restarted [] s
        | .unaligned => s
        | .aligned => s) s
        = { s with link := { s.link with outbox := s.link.outbox ++ rs } }
        ∧ rs.length = (hs.filter fun h => (s.head h).sweeping).length := by
    intro hs
    induction hs with
    | nil => intro s; exact ⟨[], by simp, rfl⟩
    | cons h hs ih =>
      intro s
      rw [List.foldl_cons]
      cases hm : (s.head h).mode with
      | aligning sw =>
        obtain ⟨rs, hr, hl⟩ := ih (replyRefused kindHeadAlign sw.requestTag .restarted [] s)
        refine ⟨refusedReply kindHeadAlign sw.requestTag .restarted [] :: rs, ?_, ?_⟩
        · dsimp only
          rw [hr]
          simp [replyRefused, placeReply, State.updLink]
        · have : (s.head h).sweeping = true := by simp [HeadPort.sweeping, hm]
          simp only [List.filter_cons, this, if_true, List.length_cons, hl]
          rfl
      | unaligned =>
        obtain ⟨rs, hr, hl⟩ := ih s
        refine ⟨rs, hr, ?_⟩
        have : (s.head h).sweeping = false := by simp [HeadPort.sweeping, hm]
        simp [this, hl]
      | aligned =>
        obtain ⟨rs, hr, hl⟩ := ih s
        refine ⟨rs, hr, ?_⟩
        have : (s.head h).sweeping = false := by simp [HeadPort.sweeping, hm]
        simp [this, hl]
  have h3 : ∀ (ns : List SlotId) (s : State), ∃ rs : List Reply,
      ns.foldl (fun s n =>
        match (s.slot n).closeTag with
        | some tag => replyRefused kindRecipeClose tag .restarted [] s
        | none => s) s
        = { s with link := { s.link with outbox := s.link.outbox ++ rs } }
        ∧ rs.length = (ns.filter fun n => (s.slot n).closeTag.isSome).length := by
    intro ns
    induction ns with
    | nil => intro s; exact ⟨[], by simp, rfl⟩
    | cons n ns ih =>
      intro s
      rw [List.foldl_cons]
      cases hm : (s.slot n).closeTag with
      | some tag =>
        obtain ⟨rs, hr, hl⟩ := ih (replyRefused kindRecipeClose tag .restarted [] s)
        refine ⟨refusedReply kindRecipeClose tag .restarted [] :: rs, ?_, ?_⟩
        · dsimp only
          rw [hr]
          simp [replyRefused, placeReply, State.updLink]
        · simp only [List.filter_cons, hm, Option.isSome_some, if_true, List.length_cons, hl]
          rfl
      | none =>
        obtain ⟨rs, hr, hl⟩ := ih s
        refine ⟨rs, hr, ?_⟩
        simp [hm, hl]
  obtain ⟨r1, e1, l1⟩ := h1 s.verdicts.parked s
  obtain ⟨r2, e2, l2⟩ := h2 Four.all (endCollects s)
  obtain ⟨r3, e3, l3⟩ := h3 Four.all (endSweeps (endCollects s))
  have c1 : endCollects s = { s with link := { s.link with outbox := s.link.outbox ++ r1 } } := e1
  have e2' : endSweeps (endCollects s)
      = { endCollects s with link := { (endCollects s).link with outbox := (endCollects s).link.outbox ++ r2 } } := e2
  have e3' : endCloses (endSweeps (endCollects s))
      = { endSweeps (endCollects s) with
          link := { (endSweeps (endCollects s)).link with
            outbox := (endSweeps (endCollects s)).link.outbox ++ r3 } } := e3
  have c2 : endSweeps (endCollects s)
      = { s with link := { s.link with outbox := s.link.outbox ++ r1 ++ r2 } } := by
    rw [e2', c1]
  refine ⟨r1 ++ r2 ++ r3, ?_, ?_⟩
  · rw [e3', c2]
    simp [List.append_assoc]
  · rw [List.length_append, List.length_append, l1, l2, l3, c2, c1]
    rfl

end Sys2Proof.Machine
end

