-- ==== Sys2Proof/Laws/LaneEdits.lean ====
section
/-!
SUPPORT. What an edit can do to one lane, said once: `Edit.lane` gives it as a run of the changes listed in LaneEdit,
each with what the operation that makes it has already checked.
-/

namespace Sys2Proof.Machine

/-- A record keeps what names it, its leading edge, and whether it is released; once closed by its trailing edge, past
ENTERING or DECIDED it stays so. -/
structure BoardRecord.Kept (r r' : BoardRecord) : Prop where
  ident : r'.ident = r.ident
  binding : r'.binding = r.binding
  lead : r'.pLead = r.pLead
  released : r'.verdictPart.released = r.verdictPart.released
  closed : r.pTrail.isSome = true → r'.pTrail.isSome = true
  entering : r'.state = .entering → r.state = .entering
  decided : r.state = .decided → r'.state = .decided

/-- A record also keeps all that the divert output depends on (R160). -/
structure BoardRecord.Shown (r r' : BoardRecord) : Prop extends BoardRecord.Kept r r' where
  window : r'.inWindow = r.inWindow
  divert : r'.divertDecision = r.divertDecision

/-- One change of a lane. -/
inductive LaneEdit : LaneState → LaneState → Prop
  | eye (x b)
      (closed : b = false →
        x.mode = .disabled ∨ x.settings = none ∨ ∀ r, x.transit.getLast? = some r → r.pTrail.isSome = true) :
      LaneEdit x { x with eyeBlocked := b }
  | countTrigger (x p k) (runs : x.mode ≠ .disabled) : LaneEdit x (x.countTrigger p k)
  | settings (x st) (idle : x.mode = .disabled) (ranges : st.inRanges = true) : LaneEdit x { x with settings := some st }
  | start (x st) (idle : x.mode = .disabled) (set : x.settings = some st) : LaneEdit x (x.start st)
  | drain (x) (runs : x.mode = .running) : LaneEdit x { x with mode := .stopping }
  | disable (x) (empty : x.transit = []) : LaneEdit x (LaneState.disable { x with expect := [] })
  | flags (x clear) : LaneEdit x (x.clearFlags clear)
  | expect (x es) (within : x.mode = .disabled → ∀ e ∈ es, e ∈ x.expect)
      (room : es.length ≤ x.expect.length
        ∨ es.length ≤ x.expect.length + 1 ∧ ∃ st, x.settings = some st ∧ expectFull st x = false) :
      LaneEdit x { x with expect := es }
  | newRecord (x r es) (runs : x.mode ≠ .disabled) (clear : x.eyeBlocked = false) (room : x.transit.length < 8)
      (ident : r.ident = x.nextRecord) (lead : r.pLead = x.enc.position) (outside : r.inWindow = false)
      (held : r.verdictPart.released = false) (fewer : es.length ≤ x.expect.length - 1) :
      LaneEdit x { x.addRecord r with expect := es, eyeBlocked := true }
  | untracked (x) (runs : x.mode ≠ .disabled) :
      LaneEdit x ({ x with expect := x.expect.tail } : LaneState).countUntracked.reevaluate
  | floodEnd (x f) : LaneEdit x { x with floodEnd := f }
  | endFlood (x) : LaneEdit x x.clearFlood.reevaluate
  | records (x rs) (same : List.Forall₂ BoardRecord.Shown x.transit rs) : LaneEdit x { x with transit := rs }
  | shownRecords (x rs) (same : List.Forall₂ BoardRecord.Kept x.transit rs) :
      LaneEdit x (LaneState.reevaluate { x with transit := rs })
  | release (x r) (oldest : x.oldestUnreleased = some r) (decided : r.state = .decided) :
      LaneEdit x (x.mapRecord r.ident fun q => { q with verdictPart := { q.verdictPart with released := true } })
  | glitch (x st r b) (runs : x.mode ≠ .disabled) (set : x.settings = some st) (newest : x.transit.getLast? = some r)
      (found : r.IsGlitch st x.enc.position b) :
      LaneEdit x { (x.returnEntry b).reevaluate with eyeBlocked := false }
  | dropFront (x r rest) (front : x.transit = r :: rest) : LaneEdit x (LaneState.reevaluate { x with transit := rest })
  | removeAll (x) : LaneEdit x (LaneState.reevaluate { x with transit := [] })
  | ready (x q) (room : q.length ≤ max 256 x.ready.length) : LaneEdit x { x with ready := q }
  | seen (x t) : LaneEdit x { x with triggerSeen := t }
  | restart (x) (idle : x.mode = .disabled) : LaneEdit x x.restart

/-- A run of changes of a lane. -/
abbrev LaneEdits : LaneState → LaneState → Prop := Relation.ReflTransGen LaneEdit

theorem BoardRecord.Shown.refl (r : BoardRecord) : r.Shown r := ⟨⟨rfl, rfl, rfl, rfl, id, id, id⟩, rfl, rfl⟩

theorem BoardRecord.Kept.refl (r : BoardRecord) : r.Kept r := ⟨rfl, rfl, rfl, rfl, id, id, id⟩

theorem BoardRecord.Kept.trans {a b c : BoardRecord} (h : a.Kept b) (g : b.Kept c) : a.Kept c :=
  ⟨g.ident.trans h.ident, g.binding.trans h.binding, g.lead.trans h.lead, g.released.trans h.released,
    fun c => g.closed (h.closed c), fun e => h.entering (g.entering e), fun d => g.decided (h.decided d)⟩

theorem BoardRecord.Shown.trans {a b c : BoardRecord} (h : a.Shown b) (g : b.Shown c) : a.Shown c :=
  ⟨h.toKept.trans g.toKept, g.window.trans h.window, g.divert.trans h.divert⟩

theorem forall₂_map {R : BoardRecord → BoardRecord → Prop} (f : BoardRecord → BoardRecord) (h : ∀ r, R r (f r))
    (rs : List BoardRecord) : List.Forall₂ R rs (rs.map f) := by
  induction rs with
  | nil => exact .nil
  | cons r rs ih => exact .cons (h r) ih

/-- Records that each keep what is shown. -/
theorem LaneEdit.mapAll (x : LaneState) (f : BoardRecord → BoardRecord) (h : ∀ r : BoardRecord, r.Shown (f r)) :
    LaneEdit x { x with transit := x.transit.map f } := .records x _ (forall₂_map f h _)

/-- One record changes, and keeps what is shown. -/
theorem LaneEdit.mapOne (x : LaneState) (i : Nat) (f : BoardRecord → BoardRecord)
    (h : ∀ r : BoardRecord, r.Shown (f r)) : LaneEdit x (x.mapRecord i f) :=
  .mapAll x _ fun r => by
    split
    · exact h r
    · exact .refl r

/-- One record changes in what is shown, and the output is re-evaluated. -/
theorem LaneEdit.mapShown (x : LaneState) (i : Nat) (f : BoardRecord → BoardRecord)
    (h : ∀ r : BoardRecord, r.Kept (f r)) : LaneEdit x (x.mapRecord i f).reevaluate :=
  .shownRecords x _ <| forall₂_map _ (fun r => by
    split
    · exact h r
    · exact .refl r) _

/-- A change of one lane, seen at any lane. -/
theorem laneEdits_set {s t : State} {l : Lane} {x : LaneState} (ht : t.lanes = s.lanes.set l x)
    (h : LaneEdits (s.lane l) x) (m : Lane) : LaneEdits (s.lane m) (t.lane m) := by
  unfold State.lane
  rw [ht, Pair.get_set_eq]
  split
  · next e => subst e; exact h
  · exact .refl

theorem decideBy_kept (c : Cause) (p : StalePolicy) (n : Nat) (r : BoardRecord) : r.Kept (r.decideBy c p n) := by
  have before : r.Kept (r.flagBefore c) := by
    unfold BoardRecord.flagBefore; split <;> exact ⟨rfl, rfl, rfl, rfl, id, id, id⟩
  have cut : ∀ r : BoardRecord, r.Kept (r.cut c n) := by
    intro r; unfold BoardRecord.cut; split <;> exact ⟨rfl, rfl, rfl, rfl, id, id, id⟩
  have flag : ∀ r : BoardRecord, r.Kept (r.flagAbandon c) := by
    intro r; unfold BoardRecord.flagAbandon; split <;> exact ⟨rfl, rfl, rfl, rfl, id, id, id⟩
  unfold BoardRecord.decideBy
  split
  · exact .refl r
  · exact ((before.trans (cut _)).trans (flag _)).trans ⟨rfl, rfl, rfl, rfl, id, nofun, fun _ => rfl⟩

theorem scanStartAt_shown (s : State) (l : Lane) (st : LaneSettings) (t q : Word) (r : BoardRecord) :
    r.Shown (scanStartAt s l st t q r) := by
  unfold scanStartAt
  split
  · dsimp only
    split
    · next h => exact ⟨⟨rfl, rfl, rfl, rfl, id, nofun, fun hd => by rw [h] at hd; cases hd⟩, rfl, rfl⟩
    · exact ⟨⟨rfl, rfl, rfl, rfl, id, id, id⟩, rfl, rfl⟩
  · exact .refl r

theorem scanEndAt_shown (t : Word) (r : BoardRecord) : r.Shown (scanEndAt t r) := by
  unfold scanEndAt
  split
  · split
    · next h => exact ⟨⟨rfl, rfl, rfl, rfl, id, nofun, fun hd => by rw [h.1] at hd; cases hd⟩, rfl, rfl⟩
    · exact .refl r
  · exact .refl r

theorem takeTrail_shown (s : State) (st : LaneSettings) (p : Word) (r : BoardRecord) : r.Shown (takeTrail s st p r) :=
    by
  unfold takeTrail
  dsimp only
  split <;> exact ⟨⟨rfl, rfl, rfl, rfl, fun _ => rfl, id, id⟩, rfl, rfl⟩

theorem linesLost_shown (s : State) (o : Nat) (x : Word) (r : BoardRecord) : r.Shown (linesLost s o x r) := by
  unfold linesLost
  split
  · split
    · exact ⟨⟨rfl, rfl, rfl, rfl, id, id, id⟩, rfl, rfl⟩
    · exact .refl r
  · exact .refl r

theorem takeOutcome_released (o : OutcomeRecord) (v : VerdictFields) : (v.takeOutcome o).released = v.released := by
  unfold VerdictFields.takeOutcome VerdictFields.addDefect
  dsimp only
  split
  · split <;> rfl
  · rfl

theorem takeOutcome_shown (o : OutcomeRecord) (r : BoardRecord) : r.Shown (r.takeOutcome o) := by
  unfold BoardRecord.takeOutcome
  split
  · exact .refl r
  · exact ⟨⟨rfl, rfl, rfl, takeOutcome_released o _, id, id, id⟩, rfl, rfl⟩

/-- The cursors of an examination fill the ready queue to 256 at most (R106, R108). -/
theorem advanceCursor_room (s : State) (l : Lane) (r : BoardRecord) (n : Nat) (w : WorkFields) (q : List WorkItem) :
    (advanceCursor s l r n w q).2.length ≤ max 256 q.length := by
  induction n generalizing w q with
  | zero => exact Nat.le_max_right _ _
  | succ n ih =>
    unfold advanceCursor
    split
    · exact Nat.le_max_right _ _
    · next i _ =>
      split
      · next h =>
        refine (ih _ _).trans ?_
        have : q.length < 256 := of_decide_eq_true (Bool.and_eq_true_iff.mp h).2
        simp only [List.length_append, List.length_singleton]
        omega
      · exact Nat.le_max_right _ _

/-- An examination changes only the records' cursors and the ready queue (R106). -/
theorem examineRecords_shown (s : State) (l : Lane) (rs : List BoardRecord) (q : List WorkItem) :
    List.Forall₂ BoardRecord.Shown rs (examineRecords s l rs q).1
      ∧ (examineRecords s l rs q).2.length ≤ max 256 q.length := by
  induction rs generalizing q with
  | nil => exact ⟨.nil, Nat.le_max_right _ _⟩
  | cons r rs ih =>
    unfold examineRecords
    dsimp only
    refine ⟨.cons ⟨⟨rfl, rfl, rfl, rfl, id, id, id⟩, rfl, rfl⟩ (ih _).1, ((ih _).2).trans ?_⟩
    split
    · have := advanceCursor_room s l r (jointCountOf s r - r.work.cursor) r.work q
      omega
    · exact le_rfl

/-- A run of changes of one lane, seen at any lane. -/
theorem laneEdits_updLane (s : State) (l : Lane) {f : LaneState → LaneState} (h : LaneEdits (s.lane l) (f (s.lane l)))
    (m : Lane) : LaneEdits (s.lane m) ((s.updLane l f).lane m) := laneEdits_set rfl h m

/-- A trailing edge establishes the flood end or leaves it (R27). -/
theorem establishFloodEnd_shape (st : LaneSettings) (x : LaneState) :
    ∃ f, establishFloodEnd st x = { x with floodEnd := f } := by
  unfold establishFloodEnd
  split
  · exact ⟨_, rfl⟩
  all_goals exact ⟨x.floodEnd, rfl⟩

/-- A trailing edge without effect on a record: the eye is clear, and the flood end may be established. -/
theorem strayTrail_shape (l : Lane) (st : LaneSettings) (s : State) :
    ∃ f, (setEye l false s).updLane l (establishFloodEnd st)
      = s.updLane l fun x => { x with eyeBlocked := false, floodEnd := f } := by
  obtain ⟨f, h⟩ := establishFloodEnd_shape st { s.lane l with eyeBlocked := false }
  refine ⟨f, ?_⟩
  rw [setEye, updLane_updLane]
  exact congrArg (fun x => { s with lanes := s.lanes.set l x }) h

theorem updWork_laneEdits (l : Lane) (i : Nat) (f : WorkFields → WorkFields) (s : State) (m : Lane) :
    LaneEdits (s.lane m) ((updWork l i f s).lane m) :=
  laneEdits_updLane s l (.single (.mapOne _ i (fun r => { r with work := f r.work }) fun _ =>
    ⟨⟨rfl, rfl, rfl, rfl, id, id, id⟩, rfl, rfl⟩)) m

theorem countOutcome_laneEdits (l : Lane) (i : Nat) (o : OutcomeRecord) (s : State) (m : Lane) :
    LaneEdits (s.lane m) ((countOutcome l i o s).lane m) :=
  laneEdits_updLane s l (.single (.mapOne _ _ _ (takeOutcome_shown o))) m

theorem takeItem_laneEdits {l : Lane} {i : WorkItem} {rest : List WorkItem} {s : State}
    (front : (s.lane l).ready = i :: rest) (m : Lane) : LaneEdits (s.lane m) ((takeItem l i rest s).lane m) :=
  (laneEdits_updLane s l (f := fun x => { x with ready := rest }) (.single (.ready _ rest (by rw [front]; simp))) m).trans
    (updWork_laneEdits l i.record (fun w => { w with queued := w.queued - 1 }) _ m)

/-- Every edit changes a lane by a run of the changes listed. -/
theorem Edit.lane {d e : Nat} {s t : State} (h : Edit d s e t) (m : Lane) : LaneEdits (s.lane m) (t.lane m) := by
  have one : ∀ (l : Lane) {x : LaneState}, t.lanes = s.lanes.set l x → LaneEdit (s.lane l) x →
      LaneEdits (s.lane m) (t.lane m) := fun l x ht hx => laneEdits_set ht (.single hx) m
  cases h
  case disable l a => exact one l (congrArg State.lanes (disable_shape l s)) (.disable _ a)
  case untracked l a =>
    exact one l (congrArg State.lanes (untrackedBoard_shape l s)) (.untracked _ a)
  case dropFront l r rest a f =>
    exact one l (congrArg State.lanes (dropFront_shape l r rest s)) (.dropFront _ r _ f)
  case removeAll l a => exact one l (congrArg State.lanes (removeAll_shape l s)) (.removeAll _)
  case decide c l r a b g =>
    have fixed : LaneEdits (s.lane m) ((fixRecord c l r.ident s).lane m) := by
      rw [fixRecord, reevaluate, updLane_updLane]
      exact laneEdits_updLane s l (.single (.mapShown _ _ _ fun r => decideBy_kept _ _ _ r)) m
    rcases cutItems_cases c l r.ident (fixRecord c l r.ident s) with h | h <;> rw [h]
    · exact fixed
    · exact fixed.trans (laneEdits_updLane _ l
        (.single (.ready _ _ ((List.length_filter_le _ _).trans (Nat.le_max_right _ _)))) m)
  case release l r b a =>
    obtain ⟨u, o, h⟩ := releaseRecord_shape l r s
    exact one l (congrArg State.lanes h) (.release _ r a b)
  case missed l h x =>
    rcases missedReport_cases l h x s with h | ⟨o, h⟩ <;> rw [h] at one ⊢
    exact one l rfl (.mapAll _ _ (linesLost_shown s o x))
  case endClose n => obtain ⟨u, o, h⟩ := endClose_shape n s; rw [h]; exact .refl
  case reject k t c => obtain ⟨u, o, h⟩ := offerReject_shape k t c s; rw [h]; exact .refl
  case sent => obtain ⟨u, o, f, h⟩ := finishTransmit_shape s; rw [h]; exact .refl
  case restart t a b =>
    obtain ⟨rs, h, _⟩ := restartReplies_shape s; rw [h]
    cases m
    · exact .single (.restart _ a)
    · exact .single (.restart _ b)
  case eye l b a => exact one l rfl (.eye _ b fun h => (a h).imp_right .inl)
  case countTrigger l p k r => exact one l rfl (.countTrigger _ p k r)
  case settings l st a r => exact one l rfl (.settings _ st r a)
  case start l st a b c => exact one l rfl (.start _ st a b)
  case drain l r => exact one l rfl (.drain _ r)
  case laneFlags l f => exact one l rfl (.flags _ f)
  case addExpect l e st a b c f =>
    exact one l rfl (.expect _ _ (fun h => by rw [a] at h; cases h) (.inr ⟨by simp, st, c, f⟩))
  case withdrawEntry l e a =>
    exact one l rfl (.expect _ _ (fun _ f hf => List.mem_of_mem_eraseP hf)
      (.inl (List.Sublist.length_le List.eraseP_sublist)))
  case addBound l e rest a b c f =>
    rw [Machine.addBound, setEye, updLane_updLane] at one ⊢
    exact one l rfl (.newRecord _ _ _ a b c rfl rfl rfl rfl (by rw [f]; simp))
  case addUnbound l a b c f =>
    rw [Machine.addUnbound, setEye, updLane_updLane] at one ⊢
    exact one l rfl (.newRecord _ (newUnbound (s.lane l).nextRecord (s.lane l).enc.position) (s.lane l).expect a b c rfl
      rfl rfl rfl (by rw [f]; simp))
  case strayTrail l st a =>
    obtain ⟨f, h⟩ := strayTrail_shape l st s
    rw [h]
    exact laneEdits_updLane s l (.tail (.single (.eye _ false fun _ => .inr (.inr a))) (.floodEnd _ f)) m
  case trail l st r a =>
    obtain ⟨f, h⟩ := strayTrail_shape l st s
    rw [h]
    refine laneEdits_set (x := { (s.lane l).mapRecord r.ident (takeTrail s st (s.lane l).enc.position) with
      floodEnd := f, eyeBlocked := false }) ?_ (.tail (.tail (.single (.mapOne _ _ _ (takeTrail_shown s st _)))
        (.floodEnd _ f)) (.eye _ false fun _ => .inr (.inr ?_))) m
    · rw [closeTrail, updLane_updLane]
      rfl
    · intro q hq
      simp only [LaneState.mapRecord, List.getLast?_map, a, Option.map_some, Option.some.injEq] at hq
      subst hq
      rw [if_pos trivial]
      unfold takeTrail
      dsimp only
      split <;> rfl
  case glitch l st r b x y z w =>
    obtain ⟨f, h⟩ := strayTrail_shape l st s
    rw [h, reevaluate, updLane_updLane, updLane_updLane]
    exact laneEdits_updLane s l
      (.tail (.single (.glitch _ st r b x y z w)) (.floodEnd _ f)) m
  case endFlood l => rw [Machine.endFlood, reevaluate, updLane_updLane] at one ⊢; exact one l rfl (.endFlood _)
  case floodPassed l => exact one l rfl (.floodEnd _ _)
  case window l i =>
    rw [enterWindow, reevaluate, updLane_updLane] at one ⊢
    exact one l rfl (.mapShown _ _ _ fun r => ⟨rfl, rfl, rfl, rfl, id, id, id⟩)
  case scan l st t q =>
    refine one l rfl ?_
    dsimp only
    rw [List.map_map]
    refine .mapAll _ _ fun r => ?_
    exact (scanStartAt_shown s l st t q r).trans (scanEndAt_shown t _)
  case remember l i a => exact one l rfl (.mapOne _ _ _ fun r => ⟨⟨rfl, rfl, rfl, rfl, id, id, id⟩, rfl, rfl⟩)
  case scheduler l t => exact one l rfl (.seen _ t)
  case examine l =>
    have h := examineRecords_shown s l (s.lane l).transit (s.lane l).ready
    unfold Machine.examine
    dsimp only
    exact laneEdits_set rfl (.tail (.single (.records _ _ h.1)) (.ready { s.lane l with transit := _ } _ h.2)) m
  case granted u l i rest a f => 
    exact (takeItem_laneEdits f m).trans
      (updWork_laneEdits i.lane i.record (fun w => { w with inFlight := w.inFlight + 1 })
        ((takeItem l i rest s).setUnit u _) m)
  case evicted l i rest o r a f b => exact (takeItem_laneEdits f m).trans (countOutcome_laneEdits _ _ _ _ m)
  case lostItem l i rest f a => exact takeItem_laneEdits f m
  case evaluated u e o r a b c f =>
    exact (updWork_laneEdits _ _ _ (freeUnit u s) m).trans (countOutcome_laneEdits _ _ _ _ m)
  case lostResult u e a b c => exact updWork_laneEdits _ _ _ (freeUnit u s) m
  all_goals exact .refl

end Sys2Proof.Machine
end

