-- ==== Sys2Proof/Laws/Quiet.lean ====
section
/-!
SUPPORT. What the operations inside a taking leave unchanged, said once: outcomes, decisions, releases, examinations,
grants and notices touch no slot, no head, no request, and of a lane only its records, its ready queue and its divert
output (`Quiet`); the takings of a lane trigger touch besides only the heads, the due counts and the trigger seen (`Near`).
-/

namespace Sys2Proof.Machine

/-- What no operation inside a taking changes of a record: its number, its binding, its positions and its window. A
DECIDED record stays DECIDED with its counts, flags, verdict and divert decision (R148), a released one released. -/
structure BoardRecord.Steady (r r' : BoardRecord) : Prop where
  same : r' = { r with
    firstLine := r'.firstLine, state := r'.state, jointsComplete := r'.jointsComplete, snapshot := r'.snapshot,
    divertDecision := r'.divertDecision, work := r'.work, verdictPart := r'.verdictPart }
  decided : r.state = .decided → r'.state = .decided ∧ r'.divertDecision = r.divertDecision
    ∧ r'.verdictPart = { r.verdictPart with released := r'.verdictPart.released }
  released : r.verdictPart.released = true → r'.verdictPart.released = true

/-- A lane but for its records, its ready queue and its divert output; a DISABLED lane's output stays asserted. -/
structure LaneState.Quiet (x y : LaneState) : Prop where
  same : y = { x with transit := y.transit, ready := y.ready, divert := y.divert }
  records : List.Forall₂ BoardRecord.Steady x.transit y.transit
  divert : x.mode = .disabled → x.divert = true → y.divert = true

/-- The state but for the records of the lanes, the units and verdicts, and the replies placed. -/
structure Quiet (s t : State) : Prop where
  same : t = { s with
    lanes := t.lanes, pointer := t.pointer, units := t.units, verdicts := t.verdicts, freeCount := t.freeCount,
    link := { s.link with outbox := t.link.outbox } }
  lanes : ∀ m, (s.lane m).Quiet (t.lane m)

/-! ### Records and lanes -/

theorem BoardRecord.Steady.refl (r : BoardRecord) : r.Steady r := ⟨rfl, fun d => ⟨d, rfl, rfl⟩, id⟩

theorem BoardRecord.Steady.trans {a b c : BoardRecord} (h : a.Steady b) (g : b.Steady c) : a.Steady c := by
  refine ⟨by rw [g.same, h.same], fun d => ?_, fun d => g.released (h.released d)⟩
  obtain ⟨h1, h2, h3⟩ := h.decided d
  obtain ⟨g1, g2, g3⟩ := g.decided h1
  exact ⟨g1, g2.trans h2, by rw [g3, h3]⟩

/-- A record that keeps its decision is steady. -/
theorem BoardRecord.steady_of {r r' : BoardRecord} (same : r' = { r with
      firstLine := r'.firstLine, state := r'.state, jointsComplete := r'.jointsComplete, snapshot := r'.snapshot,
      divertDecision := r'.divertDecision, work := r'.work, verdictPart := r'.verdictPart })
    (state : r'.state = r.state) (divert : r'.divertDecision = r.divertDecision)
    (verdict : r'.verdictPart = r.verdictPart) : r.Steady r' :=
  ⟨same, fun d => ⟨state.trans d, divert, by rw [verdict]⟩, fun d => by rw [verdict]; exact d⟩

/-- A record that is not DECIDED may take any decision. -/
theorem BoardRecord.steady_open {r r' : BoardRecord} (same : r' = { r with
      firstLine := r'.firstLine, state := r'.state, jointsComplete := r'.jointsComplete, snapshot := r'.snapshot,
      divertDecision := r'.divertDecision, work := r'.work, verdictPart := r'.verdictPart })
    (undecided : r.state ≠ .decided) (released : r'.verdictPart.released = r.verdictPart.released) : r.Steady r' :=
  ⟨same, fun d => absurd d undecided, fun d => released.trans d⟩

theorem steady_refl (rs : List BoardRecord) : List.Forall₂ BoardRecord.Steady rs rs := by
  induction rs with
  | nil => exact .nil
  | cons r rs ih => exact .cons (.refl r) ih

theorem steady_trans {a b c : List BoardRecord} (h : List.Forall₂ BoardRecord.Steady a b)
    (g : List.Forall₂ BoardRecord.Steady b c) : List.Forall₂ BoardRecord.Steady a c := by
  induction h generalizing c with
  | nil => cases g; exact .nil
  | cons h _ ih =>
    cases g with
    | cons g gs => exact .cons (h.trans g) (ih gs)

theorem steady_map (f : BoardRecord → BoardRecord) (h : ∀ r : BoardRecord, r.Steady (f r)) (rs : List BoardRecord) :
    List.Forall₂ BoardRecord.Steady rs (rs.map f) := by
  induction rs with
  | nil => exact .nil
  | cons r rs ih => exact .cons (h r) ih

namespace LaneState

theorem Quiet.refl (x : LaneState) : x.Quiet x := ⟨rfl, steady_refl _, fun _ h => h⟩

theorem Quiet.mode {x y : LaneState} (h : x.Quiet y) : y.mode = x.mode := by rw [h.same]

theorem Quiet.trans {x y z : LaneState} (h : x.Quiet y) (g : y.Quiet z) : x.Quiet z :=
  ⟨by rw [g.same, h.same], steady_trans h.records g.records, fun m d => g.divert (h.mode.trans m) (h.divert m d)⟩

theorem quiet_records (x : LaneState) {rs : List BoardRecord} (h : List.Forall₂ BoardRecord.Steady x.transit rs) :
    x.Quiet { x with transit := rs } := ⟨rfl, h, fun _ d => d⟩

theorem quiet_mapRecord (x : LaneState) (i : Nat) (f : BoardRecord → BoardRecord)
    (h : ∀ r : BoardRecord, r.Steady (f r)) : x.Quiet (x.mapRecord i f) :=
  quiet_records x (steady_map _ (fun r => by split; exact h r; exact .refl r) _)

theorem quiet_ready (x : LaneState) (q : List WorkItem) : x.Quiet { x with ready := q } :=
  ⟨rfl, steady_refl _, fun _ d => d⟩

theorem quiet_reevaluate (x : LaneState) : x.Quiet x.reevaluate :=
  ⟨rfl, steady_refl _, fun m _ => by simp [LaneState.reevaluate, divertLevel, m]⟩

end LaneState

/-! ### States -/

namespace Quiet

theorem refl (s : State) : Quiet s s := ⟨rfl, fun _ => .refl _⟩

theorem trans {s t u : State} (h : Quiet s t) (g : Quiet t u) : Quiet s u :=
  ⟨by rw [g.same, h.same], fun m => (h.lanes m).trans (g.lanes m)⟩

theorem lane (s : State) (l : Lane) (f : LaneState → LaneState) (h : (s.lane l).Quiet (f (s.lane l))) :
    Quiet s (s.updLane l f) :=
  ⟨rfl, fun m => by
    unfold State.lane at *
    rw [State.updLane_lanes, Pair.get_set_eq]
    split
    · next e => subst e; exact h
    · exact .refl _⟩

theorem outside (s : State) (p : Lane) (u : Quad (Option Evaluation)) (v : VerdictUnit) (k : Nat) (o : List Reply) :
    Quiet s { s with
      pointer := p, units := u, verdicts := v, freeCount := k, link := { s.link with outbox := o } } :=
  ⟨rfl, fun _ => .refl _⟩

theorem heads {s t : State} (h : Quiet s t) : t.heads = s.heads := by rw [h.same]

theorem head {s t : State} (h : Quiet s t) (g : HeadId) : t.head g = s.head g := by
  unfold State.head
  rw [h.heads]

theorem slots {s t : State} (h : Quiet s t) : t.slots = s.slots := by rw [h.same]

theorem due {s t : State} (h : Quiet s t) : t.due = s.due := by rw [h.same]

/-- What a quiet operation leaves, as the statements speak of it. -/
theorem onlyRecords {s t : State} (h : Quiet s t) : OnlyRecordsChange s t := ⟨h.same, fun m => (h.lanes m).same⟩

end Quiet

/-- Takings in a free order stand in a relation where each does. -/
theorem takeInAnyOrder_rel {α : Type} {f : α → State → State} {R : State → State → Prop} (refl : ∀ s, R s s)
    (trans : ∀ {s t u}, R s t → R t u → R s u) (free : ∀ s k, R s { s with freeCount := k })
    (each : ∀ a s, R s (f a s)) (n : Nat) (ws : List α) (s : State) : R s (takeInAnyOrder f n ws s) := by
  induction n generalizing ws s with
  | zero => exact refl s
  | succ n ih =>
    match ws with
    | [] => exact refl s
    | [a] => exact each a s
    | a :: b :: rest =>
      simp only [takeInAnyOrder]
      refine trans (free s (s.freeCount + 1)) ?_
      split
      · exact refl _
      · exact trans (each _ _) (ih _ _)

theorem takeAll_rel {α : Type} {f : α → State → State} {R : State → State → Prop} (refl : ∀ s, R s s)
    (trans : ∀ {s t u}, R s t → R t u → R s u) (free : ∀ s k, R s { s with freeCount := k })
    (each : ∀ a s, R s (f a s)) (ws : List α) (s : State) : R s (takeAll f ws s) :=
  takeInAnyOrder_rel refl trans free each ws.length ws s

/-! ### Decisions, releases and outcomes -/

theorem emitVerdict_quiet (v : VerdictRecord) (s : State) : Quiet s (emitVerdict v s) := by
  obtain ⟨u, o, h⟩ := emitVerdict_shape v s
  rw [h]
  exact Quiet.outside s s.pointer s.units u s.freeCount o

theorem releaseRecord_quiet (l : Lane) (r : BoardRecord) (s : State) : Quiet s (releaseRecord l r s) := by
  have marked : Quiet s (s.updLane l fun x =>
      x.mapRecord r.ident fun q => { q with verdictPart := { q.verdictPart with released := true } }) :=
    Quiet.lane s l _ (LaneState.quiet_mapRecord (s.lane l) r.ident _ fun _ =>
      ⟨rfl, fun d => ⟨d, rfl, rfl⟩, fun _ => rfl⟩)
  unfold releaseRecord
  exact marked.trans (emitVerdict_quiet _ _)

theorem releaseChain_quiet (n : Nat) (l : Lane) (s : State) : Quiet s (releaseChain n l s) := by
  induction n generalizing s with
  | zero => exact .refl s
  | succ n ih =>
    unfold releaseChain
    split
    · exact .refl s
    · split
      · exact (releaseRecord_quiet l _ s).trans (ih _)
      · exact .refl s

theorem offerRelease_quiet (l : Lane) (s : State) : Quiet s (offerRelease l s) := releaseChain_quiet _ _ _

theorem decideBy_steady (c : Cause) (p : StalePolicy) (n : Nat) (r : BoardRecord) : r.Steady (r.decideBy c p n) := by
  unfold BoardRecord.decideBy
  split
  · exact .refl r
  · next open' =>
    refine BoardRecord.steady_open ?_ open' ?_
    all_goals
      by_cases late : r.pTrail = none <;> cases c <;>
        simp [BoardRecord.fix, BoardRecord.flagAbandon, BoardRecord.cut, BoardRecord.flagBefore, Cause.cutOutcome, late]

theorem fixRecord_quiet (c : Cause) (l : Lane) (i : Nat) (s : State) : Quiet s (fixRecord c l i s) :=
  (Quiet.lane s l _ (LaneState.quiet_mapRecord _ _ _ fun r => decideBy_steady _ _ _ r)).trans
    (Quiet.lane _ l _ (LaneState.quiet_reevaluate _))

theorem cutItems_quiet (c : Cause) (l : Lane) (i : Nat) (s : State) : Quiet s (cutItems c l i s) := by
  rcases cutItems_cases c l i s with h | h <;> rw [h]
  · exact .refl s
  · exact (Quiet.lane s l _ (LaneState.quiet_ready _ _)).trans ⟨rfl, fun _ => .refl _⟩

theorem decideRecord_quiet (c : Cause) (l : Lane) (i : Nat) (s : State) : Quiet s (decideRecord c l i s) := by
  unfold decideRecord
  split
  · exact .refl s
  · split
    · exact .refl s
    · exact ((fixRecord_quiet c l i s).trans (cutItems_quiet c l i _)).trans (offerRelease_quiet l _)

theorem countOutcome_quiet (l : Lane) (i : Nat) (o : OutcomeRecord) (s : State) : Quiet s (countOutcome l i o s) :=
  Quiet.lane s l _ (LaneState.quiet_mapRecord _ _ _ fun r => by
    unfold BoardRecord.takeOutcome
    split
    · exact .refl r
    · next open' => exact BoardRecord.steady_open rfl open' (takeOutcome_released o _))

theorem takeOutcome_quiet (l : Lane) (i : Nat) (o : OutcomeRecord) (s : State) : Quiet s (takeOutcome l i o s) := by
  have counted : Quiet s (countOutcome l i o s) := countOutcome_quiet l i o s
  have report : ∀ s : State, Quiet s (jointsCompleteReport l i s) := by
    intro s
    unfold jointsCompleteReport
    split
    · exact .refl s
    · split
      · exact .refl s
      · split
        · exact decideRecord_quiet _ _ _ _
        · exact Quiet.lane s l _ (LaneState.quiet_mapRecord _ _ _ fun _ => BoardRecord.steady_of rfl rfl rfl rfl)
  unfold takeOutcome
  split
  · exact .refl s
  · split
    · exact .refl s
    · dsimp only
      split
      · exact counted.trans (report _)
      · exact counted

/-! ### Window Scheduler -/

theorem updWork_quiet (l : Lane) (i : Nat) (f : WorkFields → WorkFields) (s : State) : Quiet s (updWork l i f s) :=
  Quiet.lane s l _ (LaneState.quiet_mapRecord _ _ _ fun _ => BoardRecord.steady_of rfl rfl rfl rfl)

theorem examine_quiet (l : Lane) (s : State) : Quiet s (examine l s) := by
  have records : ∀ (rs : List BoardRecord) (q : List WorkItem),
      List.Forall₂ BoardRecord.Steady rs (examineRecords s l rs q).1 := by
    intro rs
    induction rs with
    | nil => intro q; exact .nil
    | cons r rs ih =>
      intro q
      unfold examineRecords
      dsimp only
      exact .cons (BoardRecord.steady_of rfl rfl rfl rfl) (ih _)
  unfold examine
  dsimp only
  exact Quiet.lane s l _ ((LaneState.quiet_records _ (records _ _)).trans (LaneState.quiet_ready _ _))

theorem takeItem_quiet (l : Lane) (i : WorkItem) (rest : List WorkItem) (s : State) : Quiet s (takeItem l i rest s) :=
  ((Quiet.lane s l _ (LaneState.quiet_ready _ rest)).trans (updWork_quiet l i.record _ _)).trans ⟨rfl, fun _ => .refl _⟩

theorem startEvaluation_quiet (u : UnitId) (i : WorkItem) (s : State) : Quiet s (startEvaluation u i s) :=
  Quiet.trans (t := s.setUnit u _) ⟨rfl, fun _ => .refl _⟩ (updWork_quiet _ _ _ _)

theorem grantItem_quiet (u : UnitId) (l : Lane) (i : WorkItem) (rest : List WorkItem) (s : State) :
    Quiet s (grantItem u l i rest s) := by
  have taken : Quiet s (takeItem l i rest s) := takeItem_quiet l i rest s
  have placed : ∀ s : State, Quiet s (placeItem u i s) := by
    intro s
    unfold placeItem
    split
    · exact takeOutcome_quiet _ _ _ _
    · exact startEvaluation_quiet _ _ _
  exact (taken.trans (placed _)).trans (examine_quiet l _)

theorem grantLoop_quiet (n : Nat) (s : State) : Quiet s (grantLoop n s) := by
  induction n generalizing s with
  | zero => exact .refl s
  | succ n ih =>
    unfold grantLoop
    split
    · split
      · exact .refl s
      · exact (grantItem_quiet _ _ _ _ s).trans (ih _)
    · exact .refl s

theorem grants_quiet (s : State) : Quiet s (grants s) := grantLoop_quiet _ s

theorem examineAndGrant_quiet (l : Lane) (s : State) : Quiet s (examineAndGrant l s) :=
  (examine_quiet l s).trans (grants_quiet _)

theorem abandonRecords_quiet (l : Lane) (is : List Nat) (s : State) : Quiet s (abandonRecords l is s) := by
  unfold abandonRecords
  induction is generalizing s with
  | nil => exact .refl s
  | cons i is ih => exact (decideRecord_quiet .abandon l i s).trans (ih _)

theorem decideAndExamine_quiet (c : Cause) (l : Lane) (i : Nat) (s : State) : Quiet s (decideAndExamine c l i s) := by
  unfold decideAndExamine
  dsimp only
  split
  · exact (decideRecord_quiet c l i s).trans (examineAndGrant_quiet l _)
  · exact decideRecord_quiet c l i s

/-! ### Notices of a head and of a lane trigger -/

theorem linesLost_steady (s : State) (o : Nat) (x : Word) (r : BoardRecord) : r.Steady (linesLost s o x r) := by
  unfold linesLost
  split
  · split
    · next h => exact BoardRecord.steady_open rfl h.1 rfl
    · exact .refl r
  · exact .refl r

/-- Quiet but for the calibration record of one head. -/
structure HeadQuiet (h : HeadId) (s t : State) : Prop where
  same : t = { s with
    lanes := t.lanes, cal := s.cal.set h (t.calOf h), pointer := t.pointer, units := t.units, verdicts := t.verdicts,
    freeCount := t.freeCount, link := { s.link with outbox := t.link.outbox } }
  lanes : ∀ m, (s.lane m).Quiet (t.lane m)

namespace HeadQuiet

variable {h : HeadId}

theorem ofQuiet {s t : State} (q : Quiet s t) : HeadQuiet h s t := by
  refine ⟨?_, q.lanes⟩
  have e : s.cal.set h (t.calOf h) = s.cal := by
    have : t.cal = s.cal := by rw [q.same]
    unfold State.calOf
    rw [this]
    cases h <;> rfl
  rw [e]
  exact q.same

theorem refl (s : State) : HeadQuiet h s s := ofQuiet (.refl s)

theorem trans {s t u : State} (a : HeadQuiet h s t) (b : HeadQuiet h t u) : HeadQuiet h s u := by
  refine ⟨?_, fun m => (a.lanes m).trans (b.lanes m)⟩
  have e : t.cal.set h (u.calOf h) = s.cal.set h (u.calOf h) := by
    rw [a.same]
    cases h <;> rfl
  refine b.same.trans ?_
  rw [e, a.same]

theorem updCal (s : State) (f : CalRecord → CalRecord) : HeadQuiet h s (s.updCal h f) :=
  ⟨by cases h <;> rfl, fun _ => .refl _⟩

theorem head {s t : State} (a : HeadQuiet h s t) (g : HeadId) : t.head g = s.head g := by rw [a.same]; rfl

theorem calOf_ne {s t : State} (a : HeadQuiet h s t) {g : HeadId} (n : g ≠ h) : t.calOf g = s.calOf g := by
  have := congrArg (fun v => State.calOf v g) a.same
  rw [this]
  exact Quad.get_set_ne _ _ n

end HeadQuiet

theorem calCollect_quiet (h : HeadId) (f : Word) (s : State) : HeadQuiet h s (calCollect h f s) := by
  unfold calCollect
  split
  · exact .refl s
  · exact .updCal s _

theorem deliverNotice_quiet (h : HeadId) (n : HeadNotice) (s : State) : HeadQuiet h s (deliverNotice h n s) := by
  unfold deliverNotice
  split
  · exact .refl s
  · next l _ =>
    split
    · unfold missedReport
      split
      · exact .refl s
      · exact .ofQuiet (Quiet.lane s l _ (LaneState.quiet_records _ (steady_map _ (linesLost_steady s _ _) _)))
    · exact .ofQuiet ⟨rfl, fun _ => .refl _⟩
    · exact HeadQuiet.trans (.ofQuiet (examineAndGrant_quiet l s)) (calCollect_quiet _ _ _)

/-- A change of a Head Port, and then quiet takings. -/
theorem headEvent_quiet (h : HeadId) (f : HeadPort → HeadPort × List HeadNotice) (s : State) :
    HeadQuiet h (s.updHead h fun _ => (f (s.head h)).1) (headEvent h f s) :=
  takeAll_rel .refl .trans (fun _ _ => .ofQuiet ⟨rfl, fun _ => .refl _⟩) (deliverNotice_quiet h) _ _

theorem scanStartAt_steady (s : State) (l : Lane) (st : LaneSettings) (t q : Word) (r : BoardRecord) :
    r.Steady (scanStartAt s l st t q r) := by
  unfold scanStartAt
  split
  · dsimp only
    split
    · next h => exact BoardRecord.steady_open rfl (by rw [h]; nofun) rfl
    · exact BoardRecord.steady_of rfl rfl rfl rfl
  · exact .refl r

theorem scanEndAt_steady (t : Word) (r : BoardRecord) : r.Steady (scanEndAt t r) := by
  unfold scanEndAt
  split
  · split
    · next h => exact BoardRecord.steady_open rfl (by rw [h.1]; nofun) rfl
    · exact .refl r
  · exact .refl r

theorem boardTrigger_quiet (l : Lane) (t q : Word) (s : State) : Quiet s (boardTrigger l t q s) := by
  have scanned : ∀ st, Quiet s (scanRecords l st t q s) := fun st =>
    Quiet.lane s l _ (LaneState.quiet_records _ (steady_trans (steady_map _ (scanStartAt_steady s l st t q) _)
      (steady_map _ (scanEndAt_steady t) _)))
  unfold boardTrigger
  split
  · exact .refl s
  · split
    · exact (scanned _).trans (examineAndGrant_quiet l _)
    · exact scanned _

/-! ### Takings of a lane trigger -/

/-- The state but for what the takings of a lane trigger change. -/
structure Near (s t : State) : Prop where
  same : t = { s with
    lanes := t.lanes, heads := t.heads, due := t.due, cal := t.cal, pointer := t.pointer, units := t.units,
    verdicts := t.verdicts, freeCount := t.freeCount, link := { s.link with outbox := t.link.outbox } }
  lanes : ∀ m, ({ s.lane m with triggerSeen := (t.lane m).triggerSeen } : LaneState).Quiet (t.lane m)

namespace Near

theorem refl (s : State) : Near s s := ⟨rfl, fun _ => .refl _⟩

theorem trans {s t u : State} (h : Near s t) (g : Near t u) : Near s u := by
  refine ⟨by rw [g.same, h.same], fun m => ?_⟩
  have a := h.lanes m
  have b := g.lanes m
  refine ⟨?_, steady_trans a.records b.records, fun k d => b.divert ?_ (a.divert k d)⟩
  · rw [b.same, a.same]
  · rw [a.same]; exact k

theorem ofQuiet {s t : State} (h : Quiet s t) : Near s t := by
  refine ⟨by rw [h.same], fun m => ?_⟩
  have e : (t.lane m).triggerSeen = (s.lane m).triggerSeen := by rw [(h.lanes m).same]
  rw [e]
  exact h.lanes m

theorem updHead (h : HeadId) (f : HeadPort → HeadPort) (s : State) : Near s (s.updHead h f) := ⟨rfl, fun _ => .refl _⟩

theorem updCals (hs : List HeadId) (f : CalRecord → CalRecord) (s : State) : Near s (Machine.updCals hs f s) := by
  unfold Machine.updCals
  induction hs generalizing s with
  | nil => exact refl s
  | cons h hs ih => exact trans (t := s.updCal h f) ⟨rfl, fun _ => .refl _⟩ (ih _)

theorem calTrigger (l : Lane) (t : Word) (s : State) : Near s (Machine.calTrigger l t s) := by
  unfold Machine.calTrigger
  split
  · exact refl s
  · exact updCals _ _ s

theorem ofHeadQuiet {h : HeadId} {s t : State} (q : HeadQuiet h s t) : Near s t := by
  have e : t = { s with
      lanes := t.lanes, cal := t.cal, pointer := t.pointer, units := t.units, verdicts := t.verdicts,
      freeCount := t.freeCount, link := { s.link with outbox := t.link.outbox } } := by
    have := q.same
    rw [this]
  refine ⟨by rw [e], fun m => ?_⟩
  have seen : (t.lane m).triggerSeen = (s.lane m).triggerSeen := by rw [(q.lanes m).same]
  rw [seen]
  exact q.lanes m

/-- Every taking of a lane trigger is near. -/
theorem takeTriggerAt (l : Lane) (t q : Word) (r : TriggerTaker) (s : State) : Near s (takeTriggerAt l t q r s) := by
  cases r with
  | headPort h => exact (updHead h _ s).trans (ofHeadQuiet (headEvent_quiet h _ s))
  | boardSide => exact ofQuiet (boardTrigger_quiet l t q s)
  | scheduler =>
    refine ⟨rfl, fun m => ?_⟩
    have k : (Machine.takeTriggerAt l t q .scheduler s).lane m
        = if m = l then { s.lane l with triggerSeen := t } else s.lane m :=
      State.lane_updLane_eq s l m fun x => { x with triggerSeen := t }
    rw [k]
    split
    · next e => subst e; exact .refl _
    · exact .refl _
  | calibration => exact calTrigger l t s
  | dueCount h =>
    show Near s (dueTrigger h s)
    unfold dueTrigger
    split
    · exact refl s
    · split <;> exact ⟨rfl, fun _ => .refl _⟩

end Near

/-! ### Takings in a free order reach every one -/

/-- What one of some waiting takings establishes, and each of them keeps, holds when all have been taken. -/
theorem takeInAnyOrder_reaches {α : Type} {f : α → State → State} {P : State → Prop} {a : α}
    (free : ∀ s k, P s → P { s with freeCount := k }) (reach : ∀ s, P (f a s)) (keep : ∀ b s, P s → P (f b s)) (n : Nat)
    (ws : List α) (s : State) (here : a ∈ ws ∨ P s) (all : ws.length ≤ n) : P (takeInAnyOrder f n ws s) := by
  induction n generalizing ws s with
  | zero =>
    have : ws = [] := List.length_eq_zero_iff.mp (Nat.le_zero.mp all)
    subst this
    exact here.resolve_left (List.not_mem_nil)
  | succ n ih =>
    match ws with
    | [] => exact here.resolve_left (List.not_mem_nil)
    | [b] =>
      rcases here with h | h
      · rw [List.mem_singleton] at h; subst h; exact reach s
      · exact keep b s h
    | b :: c :: rest =>
      simp only [takeInAnyOrder]
      generalize hk : Config.freeOrder s.freeCount % (b :: c :: rest).length = k
      have lt : k < (b :: c :: rest).length := hk ▸ Nat.mod_lt _ (by simp)
      rw [List.getElem?_eq_getElem lt]
      refine ih _ _ ?_ (by rw [List.length_eraseIdx_of_lt lt]; omega)
      rcases here with h | h
      · by_cases e : (b :: c :: rest)[k] = a
        · rw [e]; exact .inr (reach _)
        · refine .inl ?_
          rw [List.mem_eraseIdx_iff_getElem]
          obtain ⟨j, hj, e'⟩ := List.getElem_of_mem h
          exact ⟨j, hj, fun q => e (by subst q; exact e'), e'⟩
      · exact .inr (keep _ _ (free _ _ h))

theorem takeAll_reaches {α : Type} {f : α → State → State} {P : State → Prop} {a : α}
    (free : ∀ s k, P s → P { s with freeCount := k }) (reach : ∀ s, P (f a s)) (keep : ∀ b s, P s → P (f b s))
    (ws : List α) (s : State) (here : a ∈ ws) : P (takeAll f ws s) :=
  takeInAnyOrder_reaches free reach keep ws.length ws s (.inl here) le_rfl

/-- What holds before one of some waiting takings, is turned by it into another, and both are kept by the rest: the
other holds when all have been taken. -/
theorem takeInAnyOrder_once {α : Type} {f : α → State → State} {B A : State → Prop} {a : α}
    (freeB : ∀ s k, B s → B { s with freeCount := k }) (freeA : ∀ s k, A s → A { s with freeCount := k })
    (before : ∀ b s, b ≠ a → B s → B (f b s)) (take : ∀ s, B s → A (f a s))
    (after : ∀ b s, b ≠ a → A s → A (f b s)) (n : Nat) (ws : List α) (s : State) (once : ws.Nodup) (all : ws.length ≤ n)
    (here : (a ∈ ws ∧ B s) ∨ (a ∉ ws ∧ A s)) : A (takeInAnyOrder f n ws s) := by
  induction n generalizing ws s with
  | zero =>
    have : ws = [] := List.length_eq_zero_iff.mp (Nat.le_zero.mp all)
    subst this
    rcases here with ⟨h, _⟩ | ⟨_, h⟩
    · cases h
    · exact h
  | succ n ih =>
    match ws with
    | [] =>
      rcases here with ⟨h, _⟩ | ⟨_, h⟩
      · cases h
      · exact h
    | [b] =>
      rcases here with ⟨h, hB⟩ | ⟨h, hA⟩
      · rw [List.mem_singleton] at h; subst h; exact take s hB
      · exact after b s (fun e => h (by rw [e]; exact List.mem_singleton.2 rfl)) hA
    | b :: c :: rest =>
      simp only [takeInAnyOrder]
      generalize hk : Config.freeOrder s.freeCount % (b :: c :: rest).length = k
      have lt : k < (b :: c :: rest).length := hk ▸ Nat.mod_lt _ (by simp)
      rw [List.getElem?_eq_getElem lt]
      refine ih _ _ (once.sublist (List.eraseIdx_sublist ..)) (by rw [List.length_eraseIdx_of_lt lt]; omega) ?_
      have others : ∀ x, x ≠ (b :: c :: rest)[k] → (x ∈ (b :: c :: rest).eraseIdx k ↔ x ∈ b :: c :: rest) := by
        intro x hx
        refine ⟨fun m => (List.eraseIdx_sublist ..).mem m, fun m => ?_⟩
        rw [List.mem_eraseIdx_iff_getElem]
        obtain ⟨j, hj, e⟩ := List.getElem_of_mem m
        exact ⟨j, hj, fun q => hx (by subst q; exact e.symm), e⟩
      have gone : (b :: c :: rest)[k] ∉ (b :: c :: rest).eraseIdx k := by
        rw [List.mem_eraseIdx_iff_getElem]
        rintro ⟨j, hj, ne, e⟩
        exact ne ((List.Nodup.getElem_inj_iff once).1 e)
      by_cases e : (b :: c :: rest)[k] = a
      · rcases here with ⟨_, hB⟩ | ⟨h, _⟩
        · rw [e] at gone
          rw [e]
          exact .inr ⟨gone, take _ (freeB _ _ hB)⟩
        · exact absurd (by rw [← e]; exact List.getElem_mem lt) h
      · have m := others a fun q => e q.symm
        rcases here with ⟨h, hB⟩ | ⟨h, hA⟩
        · exact .inl ⟨m.2 h, before _ _ e (freeB _ _ hB)⟩
        · exact .inr ⟨fun q => h (m.1 q), after _ _ e (freeA _ _ hA)⟩

theorem takeAll_once {α : Type} {f : α → State → State} {B A : State → Prop} {a : α}
    (freeB : ∀ s k, B s → B { s with freeCount := k }) (freeA : ∀ s k, A s → A { s with freeCount := k })
    (before : ∀ b s, b ≠ a → B s → B (f b s)) (take : ∀ s, B s → A (f a s))
    (after : ∀ b s, b ≠ a → A s → A (f b s)) (ws : List α) (s : State) (once : ws.Nodup) (here : a ∈ ws) (hs : B s) :
    A (takeAll f ws s) :=
  takeInAnyOrder_once freeB freeA before take after ws.length ws s once le_rfl (.inl ⟨here, hs⟩)

/-- What every waiting taking keeps, all of them keep. -/
theorem takeInAnyOrder_keep {α : Type} {f : α → State → State} {P : State → Prop}
    (free : ∀ s k, P s → P { s with freeCount := k }) (n : Nat) (ws : List α) (keep : ∀ a ∈ ws, ∀ s, P s → P (f a s))
    (s : State) (hs : P s) : P (takeInAnyOrder f n ws s) := by
  induction n generalizing ws s with
  | zero => exact hs
  | succ n ih =>
    match ws with
    | [] => exact hs
    | [a] => exact keep a (List.mem_singleton.2 rfl) s hs
    | a :: b :: rest =>
      simp only [takeInAnyOrder]
      split
      · exact free _ _ hs
      · next x hx =>
        exact ih _ (fun y hy => keep y ((List.eraseIdx_sublist ..).mem hy)) _
          (keep x (List.mem_of_getElem? hx) _ (free _ _ hs))

theorem takeAll_keep {α : Type} {f : α → State → State} {P : State → Prop}
    (free : ∀ s k, P s → P { s with freeCount := k }) (ws : List α) (keep : ∀ a ∈ ws, ∀ s, P s → P (f a s))
    (s : State) (hs : P s) : P (takeAll f ws s) :=
  takeInAnyOrder_keep free ws.length ws keep s hs

end Sys2Proof.Machine
end

