-- ==== Sys2Proof/Laws/ExecEdits.lean ====
section
/-!
SUPPORT. Every shared operation, and with them every command, is a run of the edits of Laws/Edits.lean.
-/

namespace Sys2Proof.Machine

variable {d : Nat} {s : State}

/-! ### Release, decision, outcomes -/

theorem releaseChain_edits (n : Nat) (l : Lane) (s : State) : Edits d s d (releaseChain n l s) := by
  induction n generalizing s with
  | zero => exact .nil _ _
  | succ n ih =>
    unfold releaseChain
    split
    · exact .nil _ _
    · next r hr =>
      split
      · next hd => exact .cons (.release _ _ _ r hr hd) (ih _)
      · exact .nil _ _

theorem offerRelease_edits (l : Lane) (s : State) : Edits d s d (offerRelease l s) := releaseChain_edits _ _ _

theorem record?_ident {x : LaneState} {i : Nat} {r : BoardRecord} (h : x.record? i = some r) : r.ident = i := by
  simpa using List.find?_some h

/-- The decision of a record; by completion, of one whose outcomes are all in. -/
theorem decideRecord_edits (cause : Cause) (l : Lane) (i : Nat) (s : State)
    (complete : cause = .completion → ∃ q ∈ (s.lane l).transit, q.ident = i ∧ q.Complete s) :
    Edits d s d (decideRecord cause l i s) := by
  unfold decideRecord
  split
  · exact .nil _ _
  · next r found =>
    have e := record?_ident found
    subst e
    split
    · exact .nil _ _
    · next undecided => exact .cons (.decide _ _ cause l r found undecided complete) (offerRelease_edits _ _)

theorem jointsCompleteReport_edits (l : Lane) (i : Nat) (s : State)
    (complete : ∃ q ∈ (s.lane l).transit, q.ident = i ∧ q.Complete s) : Edits d s d (jointsCompleteReport l i s) := by
  unfold jointsCompleteReport
  split
  · exact .nil _ _
  · split
    · exact .nil _ _
    · split
      · exact decideRecord_edits _ _ _ _ fun _ => complete
      · exact .one (.remember _ _ l i complete)

/-- An outcome that is taken: it is counted, and joints complete is reported where the counts reach the joint count. -/
theorem takeOutcome_edits {e : Nat} {s0 : State} {l : Lane} {i : Nat} {o : OutcomeRecord} {s : State}
    (counted : ∀ r, (s.lane l).record? i = some r → r.state ≠ .decided → Edit d s0 e (countOutcome l i o s))
    (lost : (∀ r, (s.lane l).record? i = some r → r.state = .decided) → Edit d s0 e s) :
    Edits d s0 e (takeOutcome l i o s) := by
  unfold takeOutcome
  split
  · next none => exact .one (lost fun r h => by rw [none] at h; cases h)
  · next r found =>
    split
    · next decided => exact .one (lost fun q h => by rw [found] at h; injection h with h; exact h ▸ decided)
    · next undecided =>
      dsimp only
      split
      · next all =>
        refine .cons (counted r found undecided) (jointsCompleteReport_edits _ _ _ ?_)
        refine ⟨r.takeOutcome o, ?_, ?_, .inr ?_⟩
        · rw [countOutcome, State.lane_updLane]
          refine List.mem_map.2 ⟨r, List.mem_of_find?_eq_some found, ?_⟩
          rw [if_pos (record?_ident found)]
        · rw [BoardRecord.takeOutcome, if_neg undecided]
          exact (record?_ident found :)
        · rw [BoardRecord.takeOutcome, if_neg undecided]
          exact all
      · exact .one (counted r found undecided)

/-! ### The Window Scheduler -/

theorem placeItem_edits {u : UnitId} {l : Lane} {i : WorkItem} {rest : List WorkItem} {s : State}
    (idle : s.unitOf u = none) (front : (s.lane l).ready = i :: rest) :
    Edits d s d (placeItem u i (takeItem l i rest s)) := by
  unfold placeItem
  split
  · exact takeOutcome_edits (fun r found open' => .evicted _ _ l i rest _ r front found open')
      fun gone => .lostItem _ _ l i rest front gone
  · exact .one (.granted _ _ u l i rest idle front)

theorem idleUnit_none {s : State} {u : UnitId} (h : idleUnit s = some u) : s.unitOf u = none := by
  simpa using List.find?_some h

theorem grantLoop_edits (n : Nat) (s : State) : Edits d s d (grantLoop n s) := by
  induction n generalizing s with
  | zero => exact .nil _ _
  | succ n ih =>
    unfold grantLoop
    split
    · next u l hu _ =>
      split
      · exact .nil _ _
      · next i rest hr => exact (placeItem_edits (idleUnit_none hu) hr).trans (.cons (.examine _ _ l) (ih _))
    · exact .nil _ _

theorem grants_edits (s : State) : Edits d s d (grants s) := grantLoop_edits _ _

theorem examineAndGrant_edits (l : Lane) (s : State) : Edits d s d (examineAndGrant l s) :=
  .cons (.examine _ _ l) (grants_edits _)

theorem decideAndExamine_edits {cause : Cause} (cut : cause ≠ .completion) (l : Lane) (i : Nat) (s : State) :
    Edits d s d (decideAndExamine cause l i s) := by
  have decided : Edits d s d (decideRecord cause l i s) := decideRecord_edits cause l i s fun h => absurd h cut
  unfold decideAndExamine
  dsimp only
  split
  · exact decided.trans (examineAndGrant_edits _ _)
  · exact decided

/-! ### Heads and calibration -/

theorem updCals_edits {f : CalRecord → CalRecord} (h : CalEdit f) (hs : List HeadId) (s : State) :
    Edits d s d (updCals hs f s) :=
  Edits.foldl (fun s a => .one (.cal _ s a f h)) hs s

theorem calCollect_edits (h : HeadId) (front : Word) (s : State) : Edits d s d (calCollect h front s) := by
  unfold calCollect
  split
  · exact .nil _ _
  · exact .one (.cal _ _ _ _ (.collect _ _ _ _))

theorem deliverNotice_edits (h : HeadId) (n : HeadNotice) (s : State) : Edits d s d (deliverNotice h n s) := by
  unfold deliverNotice
  split
  · exact .nil _ _
  · split
    · exact .one (.missed _ _ _ _ _)
    · exact .one (.spoil _ _ _ _)
    · exact (examineAndGrant_edits _ _).trans (calCollect_edits _ _ _)

/-- A change of a Head Port that is an edit for every port, and its notices. -/
theorem headEvent_edits {h : HeadId} {f : HeadPort → HeadPort × List HeadNotice}
    (hf : HeadEdit (s.head h) (f (s.head h)).1) : Edits d s d (headEvent h f s) :=
  .cons (.head _ _ h _ hf) (Edits.takeAll (deliverNotice_edits h) _ _)

theorem headTrigger_edits (h : HeadId) (t : Word) (s : State) : Edits d s d (headTrigger h t s) :=
  headEvent_edits (.trigger _ _ _)

theorem headStop_edits (h : HeadId) (s : State) : Edits d s d (headStop h s) := headEvent_edits (.stop _)

theorem calTrigger_edits (l : Lane) (t : Word) (s : State) : Edits d s d (calTrigger l t s) := by
  unfold calTrigger
  split
  · exact .nil _ _
  · exact updCals_edits (.trigger _ _ _ _) _ _

theorem calStop_edits (l : Lane) (s : State) : Edits d s d (calStop l s) := updCals_edits .void _ _

/-- A sweep that goes on or ends (R48, R49), with the reply owed at the end. -/
theorem endTap_edits {h : HeadId} {sw sw' : Sweep} {pass : Bool} {now : Nat}
    (hm : (s.head h).mode = .aligning sw) (hp : sw'.passMap = sw.passMap) :
    Edits d s d (answerSweep sw.requestTag ((s.head h).endTap sw' pass now).2
      (s.updHead h fun _ => ((s.head h).endTap sw' pass now).1)) := by
  by_cases hlt : sw'.tap + 1 < Config.taps
  · simp only [HeadPort.endTap, hlt, if_true, answerSweep]
    refine .one (.head _ _ h _ (.sweep _ sw _ hm ?_ ?_ ?_))
    · simp [hp]
    · intro _; exact hlt
    · exact Nat.zero_lt_of_lt (by decide : 0 < 8)
  · simp only [HeadPort.endTap, hlt, if_false, answerSweep]
    exact .one (.endSweep _ _ h sw _ hm (by simp [hp]))

theorem receiveFrame_edits (h : HeadId) (words : List Half) (s : State) : Edits d s d (receiveFrame h words s) := by
  unfold receiveFrame
  split
  · exact .nil _ _
  · next sw hm =>
    unfold HeadPort.sweepFrame
    dsimp only
    split
    · next hf =>
      refine .one (.head _ _ h _ (.sweep _ sw _ hm rfl id hf))
    · exact endTap_edits hm rfl
  · exact headEvent_edits (.frame _ _ _)

theorem failTap_edits (h : HeadId) (s : State) : Edits d s d (failTap h s) := by
  unfold failTap
  split
  · exact .nil _ _
  · next sw hm =>
    refine .cons (.time _ _ (sw.tapSetAt + Config.tapTimeout)) ?_
    exact endTap_edits (s := s.atLeast _) hm rfl
  · exact .nil _ _

theorem timeOutTrigger_edits (h : HeadId) (t : Word) (s : State) : Edits d s d (timeOutTrigger h t s) := by
  unfold timeOutTrigger
  split
  · exact .nil _ _
  · exact .cons (.time _ _ _) (headEvent_edits (.timeOut _ _))

/-! ### Lanes -/

theorem dueTrigger_edits (h : HeadId) (s : State) : Edits d s d (dueTrigger h s) := by
  unfold dueTrigger
  split
  · exact .nil _ _
  · split
    · exact .cons (.due _ _ h 0) (.one (.cal _ _ h _ .due))
    · exact .one (.due _ _ h _)

theorem boardTrigger_edits (l : Lane) (t q : Word) (s : State) : Edits d s d (boardTrigger l t q s) := by
  unfold boardTrigger
  split
  · exact .nil _ _
  · split
    · exact .cons (.scan _ _ l _ t q) (examineAndGrant_edits _ _)
    · exact .one (.scan _ _ l _ t q)

theorem takeTriggerAt_edits (l : Lane) (t q : Word) (r : TriggerTaker) (s : State) :
    Edits d s d (takeTriggerAt l t q r s) := by
  cases r with
  | headPort h => exact headTrigger_edits _ _ _
  | boardSide => exact boardTrigger_edits _ _ _ _
  | scheduler => exact .one (.scheduler _ _ l t)
  | calibration => exact calTrigger_edits _ _ _
  | dueCount h => exact dueTrigger_edits _ _

theorem triggerDue_runs {x : LaneState} (h : triggerDue x = true) : x.mode ≠ .disabled := by
  simp only [triggerDue, Bool.and_eq_true, decide_eq_true_eq] at h
  exact h.1

theorem issueTrigger_edits (l : Lane) (s : State) : Edits d s d (issueTrigger l s) := by
  unfold issueTrigger
  split
  · split
    · next p st _ _ hd =>
      exact .cons (.countTrigger _ _ l p st.lineStep (triggerDue_runs hd))
        (Edits.takeAll (takeTriggerAt_edits _ _ _) _ _)
    · exact .nil _ _
  · exact .nil _ _

theorem takeStopNotice_edits (l : Lane) (n : StopNotice) (s : State) : Edits d s d (takeStopNotice l n s) := by
  cases n with
  | head h => exact headStop_edits _ _
  | calibration => exact calStop_edits _ _

theorem enterDisabled_edits (l : Lane) (s : State) (h : (s.lane l).transit = []) : Edits d s d (enterDisabled l s) :=
  .cons (.disable _ _ l h) (Edits.takeAll (takeStopNotice_edits l) _ _)

theorem stopIfEmpty_edits (l : Lane) (s : State) : Edits d s d (stopIfEmpty l s) := by
  unfold stopIfEmpty
  split
  · next h => exact enterDisabled_edits _ _ h.1
  · exact .nil _ _

theorem afterRemoval_edits (l : Lane) (s : State) : Edits d s d (afterRemoval l s) := by
  unfold afterRemoval
  split
  · exact .cons (.endFlood _ _ l) (stopIfEmpty_edits _ _)
  · exact stopIfEmpty_edits _ _

theorem removeFront_edits (l : Lane) (s : State) : Edits d s d (removeFront l s) := by
  unfold removeFront
  split
  · next r rest st hr _ =>
    split
    · exact .nil _ _
    · split
      · next h => exact .cons (.dropFront _ _ l r rest hr h.2) (afterRemoval_edits _ _)
      · exact .nil _ _
  · exact .nil _ _

theorem removePassed_edits (n : Nat) (l : Lane) (s : State) : Edits d s d (removePassed n l s) := by
  induction n generalizing s with
  | zero => exact .nil _ _
  | succ n ih =>
    unfold removePassed
    dsimp only
    split
    · exact (removeFront_edits l s).trans (ih _)
    · exact removeFront_edits l s

theorem leadingEdge_edits (l : Lane) (s : State) (h : (s.lane l).mode ≠ .disabled)
    (clear : (s.lane l).eyeBlocked = false) : Edits d s d (leadingEdge l (setEye l true s)) := by
  have lane : (setEye l true s).lane l = { s.lane l with eyeBlocked := true } := State.lane_updLane ..
  unfold leadingEdge
  rw [lane]
  split
  · exact .cons (.eye _ _ l true nofun) (.one (.untracked _ _ l (by rw [lane]; exact h)))
  · next hlen =>
    have hroom : (s.lane l).transit.length < 8 := Nat.lt_of_not_le hlen
    split
    · next e rest he => exact .one (.addBound _ _ l e rest h clear hroom he)
    · next he => exact .cons (.addUnbound _ _ l h clear hroom he) (offerRelease_edits _ _)

/-- The trailing edge of the newest record (R28). -/
theorem closeRecord_edits (l : Lane) (st : LaneSettings) (r : BoardRecord) (s : State)
    (newest : (s.lane l).transit.getLast? = some r) :
    Edits d s d (closeRecord l st r ((setEye l false s).updLane l (establishFloodEnd st))) := by
  generalize hb : (setEye l false s).updLane l (establishFloodEnd st) = base
  have records : (base.lane l).transit = (s.lane l).transit := by
    obtain ⟨f, e⟩ := strayTrail_shape l st s
    rw [← hb, e, State.lane_updLane]
  have h1 : Edits d s d (closeTrail l st r.ident base) := hb ▸ .one (.trail _ _ l st r newest)
  have h2 : r.jointsComplete = true → Edits d s d (decideRecord .completion l r.ident (closeTrail l st r.ident base)) :=
    fun complete => h1.trans (decideRecord_edits _ _ _ _ fun _ => by
      refine ⟨takeTrail base st (base.lane l).enc.position r, ?_, ?_, .inl ?_⟩
      · rw [closeTrail, State.lane_updLane]
        refine List.mem_map.2 ⟨r, ?_, if_pos rfl⟩
        rw [records]
        exact List.mem_of_getLast? newest
      · exact (takeTrail_shown base st _ r).ident
      · unfold takeTrail
        dsimp only
        split <;> exact complete)
  unfold closeRecord
  dsimp only
  split
  · next c =>
    split
    · exact (h2 c.2).trans (removePassed_edits _ _ _)
    · exact h2 c.2
  · split
    · exact h1.trans (removePassed_edits _ _ _)
    · exact h1

theorem trailingEdge_edits (l : Lane) (s : State) (h : (s.lane l).mode ≠ .disabled) :
    Edits d s d (trailingEdge l (setEye l false s)) := by
  have lane : (setEye l false s).lane l = { s.lane l with eyeBlocked := false } := State.lane_updLane ..
  unfold trailingEdge
  rw [lane]
  dsimp only
  split
  · next none => exact .one (.eye _ _ l false fun _ => .inr none)
  · next st set =>
    split
    · next empty => exact .one (.strayTrail _ _ l st fun r hr => by rw [empty] at hr; cases hr)
    · next r newest =>
      split
      · next closed =>
        exact .one (.strayTrail _ _ l st fun q hq => by rw [newest] at hq; injection hq with hq; exact hq ▸ closed)
      · next open' =>
        have o : r.pTrail = none := by simpa using open'
        split
        · next b bound =>
          split
          · next g => exact .cons (.glitch _ _ l st r b h set newest ⟨bound, o, g⟩) (afterRemoval_edits _ _)
          · exact closeRecord_edits _ _ _ _ newest
        · exact closeRecord_edits _ _ _ _ newest

theorem takeLeadingEdge_edits (l : Lane) (s : State) : Edits d s d (takeLeadingEdge l s) := by
  unfold takeLeadingEdge
  split
  · exact .nil _ _
  · next clear =>
    split
    · exact .one (.eye _ _ l true nofun)
    · next h => exact leadingEdge_edits _ _ h (by simpa using clear)

theorem takeTrailingEdge_edits (l : Lane) (s : State) : Edits d s d (takeTrailingEdge l s) := by
  unfold takeTrailingEdge
  split
  · split
    · next h => exact .one (.eye _ _ l false fun _ => .inl h)
    · next h => exact trailingEdge_edits _ _ h
  · exact .nil _ _

theorem takeDeadline_edits (l : Lane) (s : State) : Edits d s d (takeDeadline l s) := by
  unfold takeDeadline
  split
  · exact .nil _ _
  · exact decideAndExamine_edits (by decide) _ _ _

theorem takeGateStart_edits (l : Lane) (s : State) : Edits d s d (takeGateStart l s) := by
  unfold takeGateStart
  split
  · exact .nil _ _
  · exact .one (.window _ _ l _)

theorem takeFloodEnd_edits (l : Lane) (s : State) : Edits d s d (takeFloodEnd l s) := by
  unfold takeFloodEnd
  split
  · exact .nil _ _
  · exact .nil _ _
  · exact .nil _ _
  · split
    · split
      · exact .one (.endFlood _ _ l)
      · exact .one (.floodPassed _ _ l)
    · exact .nil _ _

theorem takeWatched_edits (l : Lane) (w : Watched) (s : State) : Edits d s d (takeWatched l w s) := by
  cases w with
  | trigger => exact issueTrigger_edits _ _
  | deadline => exact takeDeadline_edits _ _
  | gateStart => exact takeGateStart_edits _ _
  | gateEnd => exact removeFront_edits _ _
  | floodEnd => exact takeFloodEnd_edits _ _

/-- The events already reached are taken. -/
theorem takeReached_edits (s : State) : Edits d s d (takeReached s) := by
  unfold takeReached
  split
  · exact .nil _ _
  · exact Edits.takeAll (f := fun e : Lane × Watched => takeWatched e.1 e.2) (fun e => takeWatched_edits e.1 e.2) _ _

theorem completeEvaluation_edits (u : UnitId) (s : State) : Edits d s d (completeEvaluation u s) := by
  unfold completeEvaluation
  split
  · exact .nil _ _
  · next e busy =>
    split
    · next discard => exact .cons (.dropped _ _ u e busy discard) (grants_edits _)
    · next kept =>
      have kept : e.discard = false := by simpa using kept
      refine Edits.trans ?_ (grants_edits _)
      exact takeOutcome_edits (s := landItem e.item (freeUnit u s))
        (fun r found open' => .evaluated _ _ u e _ r busy kept found open') fun gone => .lostResult _ _ u e busy kept gone

theorem abandonRecords_edits (l : Lane) (is : List Nat) (s : State) : Edits d s d (abandonRecords l is s) :=
  Edits.foldl (fun s i => decideRecord_edits .abandon l i s nofun) is s

theorem lane_releaseSlots (ns : List SlotId) (s : State) (m : Lane) : (releaseSlots ns s).lane m = s.lane m := by
  unfold releaseSlots
  induction ns generalizing s with
  | nil => rfl
  | cons n ns ih => rw [List.foldl_cons, ih]; rfl

/-- If a record of this number stands in the lane, one does that is DECIDED. -/
def LaneState.DecidedAt (i : Nat) (x : LaneState) : Prop :=
  (∃ r ∈ x.transit, r.ident = i) → ∃ q ∈ x.transit, q.ident = i ∧ q.state = .decided

theorem Quiet.decidedAt {s t : State} (h : Quiet s t) {l : Lane} {i : Nat} (k : (s.lane l).DecidedAt i) :
    (t.lane l).DecidedAt i := by
  have back : ∀ {a b : List BoardRecord}, List.Forall₂ BoardRecord.Steady a b → ∀ r' ∈ b, ∃ r ∈ a, r.Steady r' := by
    intro a b h
    induction h with
    | nil => exact fun _ m => nomatch m
    | cons k _ ih =>
      intro r' m
      rcases List.mem_cons.1 m with rfl | m
      · exact ⟨_, List.mem_cons_self, k⟩
      · obtain ⟨r, hr, k⟩ := ih r' m
        exact ⟨r, List.mem_cons_of_mem _ hr, k⟩
  have forth : ∀ {a b : List BoardRecord}, List.Forall₂ BoardRecord.Steady a b → ∀ r ∈ a, ∃ r' ∈ b, r.Steady r' := by
    intro a b h
    induction h with
    | nil => exact fun _ m => nomatch m
    | cons k _ ih =>
      intro r m
      rcases List.mem_cons.1 m with rfl | m
      · exact ⟨_, List.mem_cons_self, k⟩
      · obtain ⟨r', hr, k⟩ := ih r m
        exact ⟨r', List.mem_cons_of_mem _ hr, k⟩
  rintro ⟨r', m, e⟩
  obtain ⟨r, hr, kr⟩ := back (h.lanes l).records r' m
  obtain ⟨q, hq, eq, dq⟩ := k ⟨r, hr, by rw [← e, kr.same]⟩
  obtain ⟨q', hq', kq⟩ := forth (h.lanes l).records q hq
  exact ⟨q', hq', by rw [← eq, kq.same], (kq.decided dq).1⟩

theorem decideRecord_decidedAt (c : Cause) (l : Lane) (i : Nat) (s : State) :
    ((decideRecord c l i s).lane l).DecidedAt i := by
  unfold decideRecord
  split
  · next none =>
    rintro ⟨r, m, e⟩
    exact absurd e (by simpa using List.find?_eq_none.1 none r m)
  · next r found =>
    have m := List.mem_of_find?_eq_some found
    have e := record?_ident found
    split
    · next d => exact fun _ => ⟨r, m, e, d⟩
    · next open' =>
      refine Quiet.decidedAt ((cutItems_quiet _ _ _ _).trans (offerRelease_quiet _ _)) fun _ => ?_
      rw [fixRecord, reevaluate, updLane_updLane, State.lane_updLane]
      refine ⟨_, List.mem_map.2 ⟨r, m, if_pos e⟩, ?_, ?_⟩
      · exact (decideBy_kept _ _ _ r).ident.trans e
      · show (r.decideBy c _ _).state = .decided
        unfold BoardRecord.decideBy
        rw [if_neg open']
        rfl

/-- ABANDON decides every record (R41). -/
theorem abandonRecords_decidedAt (l : Lane) (is : List Nat) (s : State) (i : Nat)
    (h : i ∈ is ∨ (s.lane l).DecidedAt i) : ((abandonRecords l is s).lane l).DecidedAt i := by
  unfold abandonRecords
  induction is generalizing s with
  | nil => exact h.resolve_left (List.not_mem_nil)
  | cons j is ih =>
    rw [List.foldl_cons]
    refine ih _ ?_
    rcases h with h | h
    · rcases List.mem_cons.1 h with rfl | h
      · exact .inr (decideRecord_decidedAt _ _ _ _)
      · exact .inl h
    · exact .inr ((decideRecord_quiet _ _ _ _).decidedAt h)

theorem abandonLane_edits (l : Lane) (s : State) : Edits d s d (abandonLane l s) := by
  refine (abandonRecords_edits l _ s).trans (.cons (.removeAll _ _ l fun r hr => ?_) (enterDisabled_edits _ _ ?_))
  · refine abandonRecords_decidedAt l _ s r.ident (.inl ?_) ⟨r, hr, rfl⟩
    have same := (abandonRecords_quiet l ((s.lane l).transit.map (·.ident)) s).lanes l
    have idents : ∀ {a b : List BoardRecord}, List.Forall₂ BoardRecord.Steady a b →
        b.map (·.ident) = a.map (·.ident) := by
      intro a b h
      induction h with
      | nil => rfl
      | cons k _ ih => rw [List.map_cons, List.map_cons, ih, k.same]
    rw [← idents same.records]
    exact List.mem_map_of_mem hr
  simp [removeAll, reevaluate, LaneState.reevaluate, lane_releaseSlots]

/-! ### The serial line -/

theorem linkEdit_of {k k' : LinkPort} (h : k'.inbox = k.inbox) (g : k'.outbox = k.outbox)
    (f : k'.holdOut = k.holdOut) : LinkEdit k k' := ⟨h, g, f⟩

theorem toHunt_edits (s : State) : Edits d s d (toHunt s) := .one (.link _ _ _ ⟨rfl, rfl, rfl⟩)

theorem collectInto_edits (r : Receiver) (s : State) : Edits d s d (collectInto r s) :=
  .one (.link _ _ _ ⟨rfl, rfl, rfl⟩)

theorem rejectFrame_edits (k t : Byte) (c : RejectCode) (s : State) : Edits 0 s 0 (rejectFrame k t c s) :=
  ((takeReached_edits s).trans (toHunt_edits _)).snoc (.reject _ _ _ _)

theorem completeHeader_edits (a b k t : Byte) (s : State) : Edits 0 s 0 (completeHeader a b k t s) := by
  unfold completeHeader
  split
  · exact rejectFrame_edits _ _ _ _
  · exact collectInto_edits _ _

theorem completeFrame_edits (a b k t : Byte) (p : List Byte) (c : Byte) (s : State) :
    Edits 0 s 0 (completeFrame a b k t p c s) := by
  unfold completeFrame
  split
  · exact rejectFrame_edits _ _ _ _
  · split
    · exact rejectFrame_edits _ _ _ _
    · next h => exact (toHunt_edits s).snoc (.enterInbox _ _ _ (Nat.lt_of_not_le h))

theorem takeByte_edits (b : Byte) (s : State) : Edits 0 s 0 (takeByte b s) := by
  unfold takeByte
  split
  · split
    · exact collectInto_edits _ _
    · exact .nil _ _
  · exact completeHeader_edits _ _ _ _ _
  · exact collectInto_edits _ _
  · split
    · exact completeFrame_edits _ _ _ _ _ _ _
    · exact collectInto_edits _ _

theorem abandonSlowFrame_edits (s : State) : Edits d s d (abandonSlowFrame s) := by
  have h : Edits d s d (loseSlowFrame s) := .cons (.time _ _ _) (.one (.link _ _ _ ⟨rfl, rfl, rfl⟩))
  unfold abandonSlowFrame
  split
  · exact .nil _ _
  · exact h
  · exact h

theorem startTransmit_edits (s : State) : Edits d s d (startTransmit s) := by
  unfold startTransmit
  split
  · split
    · exact .nil _ _
    · exact .one (.link _ _ _ ⟨rfl, rfl, rfl⟩)
  · exact .nil _ _

/-! ### Requests -/

theorem replyDone_edits (k t : Byte) (r : List Byte) (s : State) : Edits (d + 1) s d (replyDone k t r s) :=
  .one (.reply _ _ _)

theorem replyRefused_edits (k t : Byte) (c : RefusalCode) (b : List Byte) (s : State) :
    Edits (d + 1) s d (replyRefused k t c b s) :=
  .one (.reply _ _ _)

/-- The taking of a request: where its handling fills or keeps the reserved place, the taking is a run of edits. -/
theorem takeRequest_edits {wanted : Request → Bool} {act : Request → State → State}
    (h : ∀ r s, Edits 1 s 0 (act r s)) (s : State) : Edits 0 s 0 (takeRequest wanted act s) := by
  unfold takeRequest
  split
  · exact .nil _ _
  · next r rest hi =>
    split
    · next hw =>
      simp only [Bool.and_eq_true, decide_eq_true_eq] at hw
      exact .cons (.take _ r rest hi hw.2) (h _ _)
    · exact .nil _ _

theorem checkedRequest_edits {body : Byte → List Byte → State → State} (h : ∀ t p s, Edits 1 s 0 (body t p s))
    (r : Request) (s : State) : Edits 1 s 0 (checkedRequest body r s) := by
  unfold checkedRequest
  split
  · exact h _ _ _
  · exact replyRefused_edits _ _ _ _ _

theorem takeKind_edits {k : Byte} {body : Byte → List Byte → State → State} (h : ∀ t p s, Edits 1 s 0 (body t p s))
    (s : State) : Edits 0 s 0 (takeKind k body s) :=
  takeRequest_edits (checkedRequest_edits h) s

theorem takeVariant_edits {k : Byte} {a c m : Nat} {body : Byte → List Byte → State → State}
    (h : ∀ t p s, Edits 1 s 0 (body t p s)) (s : State) : Edits 0 s 0 (takeVariant k a c m body s) :=
  takeRequest_edits (checkedRequest_edits h) s

theorem setupLane_edits (t : Byte) (p : List Byte) (l : Lane) (s : State) :
    Edits (d + 1) s d (setupLane t p l s) := by
  unfold setupLane
  split
  · exact replyRefused_edits _ _ _ _ _
  · next h =>
    split
    · exact replyRefused_edits _ _ _ _ _
    · split
      · next ranges => exact .cons (.settings _ _ l _ (not_not.mp h) ranges) (replyDone_edits _ _ _ _)
      · exact replyRefused_edits _ _ _ _ _

theorem laneSetupBody_edits (t : Byte) (p : List Byte) (s : State) : Edits 1 s 0 (laneSetupBody t p s) := by
  unfold laneSetupBody
  split
  · exact replyRefused_edits _ _ _ _ _
  · exact setupLane_edits _ _ _ _

theorem laneStartOn_edits (t : Byte) (l : Lane) (s : State) : Edits (d + 1) s d (laneStartOn t l s) := by
  unfold laneStartOn
  split
  · exact replyRefused_edits _ _ _ _ _
  · next h =>
    split
    · exact replyRefused_edits _ _ _ _ _
    · next st hst =>
      split
      · next hr =>
        exact .cons (.start _ _ l st (not_not.mp h) hst hr)
          ((updCals_edits .start _ _).trans (replyDone_edits _ _ _ _))
      · exact replyRefused_edits _ _ _ _ _

theorem laneStartBody_edits (t : Byte) (p : List Byte) (s : State) : Edits 1 s 0 (laneStartBody t p s) := by
  unfold laneStartBody
  split
  · exact replyRefused_edits _ _ _ _ _
  · exact laneStartOn_edits _ _ _

theorem drainLane_edits (t : Byte) (l : Lane) (s : State) : Edits (d + 1) s d (drainLane t l s) := by
  unfold drainLane
  split
  · exact replyRefused_edits _ _ _ _ _
  · exact replyDone_edits _ _ _ _
  · next h =>
    split
    · next he => exact (enterDisabled_edits l s he).trans (replyDone_edits _ _ _ _)
    · exact .cons (.drain _ _ l h) (replyDone_edits _ _ _ _)

theorem abandonOn_edits (t : Byte) (l : Lane) (s : State) : Edits (d + 1) s d (abandonOn t l s) := by
  unfold abandonOn
  split
  · exact replyRefused_edits _ _ _ _ _
  · exact (abandonLane_edits l s).trans (replyDone_edits _ _ _ _)

theorem laneStopBody_edits (t : Byte) (p : List Byte) (s : State) : Edits 1 s 0 (laneStopBody t p s) := by
  unfold laneStopBody
  split
  · exact replyRefused_edits _ _ _ _ _
  · split
    · exact drainLane_edits _ _ _
    · exact abandonOn_edits _ _ _
    · exact replyRefused_edits _ _ _ _ _

theorem expectOn_edits (t : Byte) (l : Lane) (g : Word) (n : SlotId) (s : State) :
    Edits (d + 1) s d (expectOn t l g n s) := by
  unfold expectOn
  split
  · exact replyRefused_edits _ _ _ _ _
  · next hm =>
    split
    · exact replyRefused_edits _ _ _ _ _
    · next hn =>
      split
      · next st h set _ =>
        split
        · exact replyRefused_edits _ _ _ _ _
        · next accepted =>
          refine .cons (.addExpect _ _ l { tag := g, slot := n } st (not_not.mp hm) (not_not.mp hn) set ?_)
            (replyDone_edits _ _ _ _)
          by_contra full
          simp only [Bool.not_eq_false] at full
          unfold expectRefusal at accepted
          rw [full] at accepted
          split at accepted
          · cases accepted
          · split at accepted <;> cases accepted
      · exact replyRefused_edits _ _ _ _ _

theorem expectBody_edits (t : Byte) (p : List Byte) (s : State) : Edits 1 s 0 (expectBody t p s) := by
  unfold expectBody
  split
  · split
    · exact replyRefused_edits _ _ _ _ _
    · exact expectOn_edits _ _ _ _ _
  · exact replyRefused_edits _ _ _ _ _

theorem withdrawOn_edits (t : Byte) (l : Lane) (g : Word) (s : State) : Edits (d + 1) s d (withdrawOn t l g s) := by
  unfold withdrawOn
  split
  · next e he =>
    have htag : e.tag = g := by simpa using List.find?_some he
    exact .cons (.withdrawEntry _ _ l e (by rw [htag]; exact he)) (replyDone_edits _ _ _ _)
  · split
    · exact replyRefused_edits _ _ _ _ _
    · split
      · exact replyRefused_edits _ _ _ _ _
      · exact (decideAndExamine_edits (by decide) _ _ _).trans (replyDone_edits _ _ _ _)

theorem withdrawBody_edits (t : Byte) (p : List Byte) (s : State) : Edits 1 s 0 (withdrawBody t p s) := by
  unfold withdrawBody
  split
  · exact replyRefused_edits _ _ _ _ _
  · split
    · exact replyRefused_edits _ _ _ _ _
    · exact withdrawOn_edits _ _ _ _

theorem statusBody_edits (t : Byte) (p : List Byte) (s : State) : Edits 1 s 0 (statusBody t p s) := by
  unfold statusBody
  split
  · unfold statusOfLink
    split
    · exact .cons (.link _ _ _ ⟨rfl, rfl, rfl⟩) (replyDone_edits _ _ _ _)
    · exact replyRefused_edits _ _ _ _ _
  · split
    · unfold statusOfLane
      split
      · exact .cons (.laneFlags _ _ _ _) (replyDone_edits _ _ _ _)
      · exact replyRefused_edits _ _ _ _ _
    · exact replyRefused_edits _ _ _ _ _
  · split
    · unfold statusOfHead
      split
      · exact .cons (.head _ _ _ _ (.clear _ _)) (replyDone_edits _ _ _ _)
      · exact replyRefused_edits _ _ _ _ _
    · exact replyRefused_edits _ _ _ _ _
  · exact replyRefused_edits _ _ _ _ _

theorem setupHead_edits (t : Byte) (h : HeadId) (st : HeadSettings) (s : State) :
    Edits (d + 1) s d (setupHead t h st s) := by
  unfold setupHead
  split
  · exact replyRefused_edits _ _ _ _ _
  · next h1 =>
    split
    · exact replyRefused_edits _ _ _ _ _
    · next h2 =>
      split
      · exact replyRefused_edits _ _ _ _ _
      · next h3 =>
        simp only [Bool.or_eq_true, Bool.not_eq_true', not_or, Bool.not_eq_true, Bool.not_eq_false] at h1 h2 h3
        exact .cons (.setup _ _ h st h1 h2.1 h2.2 h3.1.1 h3.2) (replyDone_edits _ _ _ _)

theorem headSetupBody_edits (t : Byte) (p : List Byte) (s : State) : Edits 1 s 0 (headSetupBody t p s) := by
  unfold headSetupBody
  split
  · exact setupHead_edits _ _ _ _
  · exact replyRefused_edits _ _ _ _ _

theorem headAlignBody_edits (t : Byte) (p : List Byte) (s : State) : Edits 1 s 0 (headAlignBody t p s) := by
  unfold headAlignBody
  split
  · unfold alignHead
    split
    · exact replyRefused_edits _ _ _ _ _
    · next h1 =>
      split
      · exact replyRefused_edits _ _ _ _ _
      · next h2 => exact .one (.startSweep _ _ _ _ (by simpa using h1) (by simpa using h2))
  · exact replyRefused_edits _ _ _ _ _

theorem calRequestBody_edits (t : Byte) (p : List Byte) (s : State) : Edits 1 s 0 (calRequestBody t p s) := by
  unfold calRequestBody
  split
  · unfold requestCal
    split
    · exact replyRefused_edits _ _ _ _ _
    · exact .cons (.cal _ _ _ _ .request) (replyDone_edits _ _ _ _)
  · exact replyRefused_edits _ _ _ _ _

/-- The checks of R86, for a body that answers or keeps the reserved place. -/
theorem onSlot_edits {k t : Byte} {p : List Byte} {body : SlotId → State → State}
    (h : ∀ n s, Edits 1 s 0 (body n s)) (s : State) : Edits 1 s 0 (onSlot k t p body s) := by
  unfold onSlot
  split
  · exact replyRefused_edits _ _ _ _ _
  · split
    · exact replyRefused_edits _ _ _ _ _
    · exact h _ _

theorem openSlot_edits (t : Byte) (p : List Byte) (n : SlotId) (s : State) :
    Edits (d + 1) s d (openSlot t p n s) := by
  unfold openSlot
  split
  · exact replyRefused_edits _ _ _ _ _
  · next h =>
    split
    · exact .cons (.slot _ _ n _ (.opened _ _ (not_not.mp h))) (replyDone_edits _ _ _ _)
    · exact replyRefused_edits _ _ _ _ _

/-- An update of a slot by a function is the edit to its value. -/
theorem updSlot_const (n : SlotId) (f : RecipeSlot → RecipeSlot) (s : State) :
    s.updSlot n f = s.updSlot n fun _ => f (s.slot n) := rfl

theorem loadClasses_edits (t : Byte) (p : List Byte) (n : SlotId) (s : State) :
    Edits (d + 1) s d (loadClasses t p n s) := by
  unfold loadClasses
  dsimp only
  split
  · exact replyRefused_edits _ _ _ _ _
  · next h =>
    split
    · exact replyRefused_edits _ _ _ _ _
    · split
      · exact replyRefused_edits _ _ _ _ _
      · rw [updSlot_const]
        exact .cons (.slot _ _ n _ (.classes _ _ (not_not.mp h))) (replyDone_edits _ _ _ _)

theorem appendJoints_edits (t : Byte) (ws : List WireJoint) (n : SlotId) (s : State)
    (h : (s.slot n).state = .loading) : Edits (d + 1) s d (appendJoints t ws n s) := by
  unfold appendJoints
  dsimp only
  split
  · exact replyRefused_edits _ _ _ _ _
  · split
    · exact replyRefused_edits _ _ _ _ _
    · rw [updSlot_const]
      exact .cons (.slot _ _ n _ (.joints _ _ h)) (replyDone_edits _ _ _ _)

theorem loadJoints_edits (t : Byte) (p : List Byte) (n : SlotId) (s : State) :
    Edits (d + 1) s d (loadJoints t p n s) := by
  unfold loadJoints
  split
  · exact replyRefused_edits _ _ _ _ _
  · next h =>
    split
    · exact replyRefused_edits _ _ _ _ _
    · exact appendJoints_edits _ _ _ _ (not_not.mp h)

theorem closeSlot_edits (t : Byte) (n : SlotId) (s : State) : Edits (d + 1) s d (closeSlot t n s) := by
  unfold closeSlot
  split
  · next h => exact .one (.startClose _ _ n t h)
  · exact replyRefused_edits _ _ _ _ _

theorem retireSlot_edits (t : Byte) (n : SlotId) (s : State) : Edits (d + 1) s d (retireSlot t n s) := by
  unfold retireSlot
  dsimp only
  split
  · exact replyRefused_edits _ _ _ _ _
  · exact replyRefused_edits _ _ _ _ _
  · exact replyRefused_edits _ _ _ _ _
  · next h => exact .cons (.slot _ _ n _ (.emptied _ (.inl h))) (replyDone_edits _ _ _ _)
  · next h =>
    split
    · next h0 => exact .cons (.slot _ _ n _ (.emptied _ (.inr ⟨h, h0⟩))) (replyDone_edits _ _ _ _)
    · next h0 =>
      rw [updSlot_const]
      exact .cons (.slot _ _ n _ (.retiring _ h h0)) (replyDone_edits _ _ _ _)

theorem querySlot_edits (t : Byte) (n : SlotId) (s : State) : Edits (d + 1) s d (querySlot t n s) :=
  replyDone_edits _ _ _ _

theorem collectBody_edits (t : Byte) (p : List Byte) (s : State) : Edits 1 s 0 (collectBody t p s) := by
  unfold collectBody
  split
  · next v rest h => exact .one (.collect _ _ t v rest h)
  · next h =>
    split
    · next hp => exact .one (.park _ _ t h hp)
    · exact replyRefused_edits _ _ _ _ _

theorem refuseMarked_edits (r : Request) (s : State) : Edits 1 s 0 (refuseMarked r s) := by
  unfold refuseMarked
  split
  · split <;> exact replyRefused_edits _ _ _ _ _
  · exact replyRefused_edits _ _ _ _ _

theorem restartBody_edits (t : Byte) (p : List Byte) (s : State) : Edits 1 s 0 (restartBody t p s) := by
  unfold restartBody
  split
  · next h => exact .one (.restart _ _ t h.1 h.2)
  · exact replyRefused_edits _ _ _ _ _

/-! ### Every command -/

/-- A command in service that is a run of edits. -/
theorem inService_effect {f : State → State} (h : Edits 0 s 0 (f s)) {t : State} (e : inService f s = .next t) :
    Effect s t := by
  unfold inService at e
  injection e with e
  subst e
  split
  · next hr => exact .unserved hr
  · next hr => exact .served _ (by simpa using hr) h

/-- While RESET_N is asserted no event is taken. -/
theorem takeReached_reset (h : s.resetAsserted = true) : takeReached s = s := by
  unfold takeReached
  rw [if_pos h]

/-- A command taken in turn that is a run of edits. -/
theorem inTurn_effect {f : State → State} (h : ∀ s, Edits 0 s 0 (f s)) {t : State} (e : inTurn f s = .next t) :
    Effect s t := by
  unfold inTurn inService at e
  injection e with e
  subst e
  by_cases hr : s.resetAsserted = true
  · rw [takeReached_reset hr, if_pos hr]
    exact .unserved hr
  · refine .served _ (by simpa using hr) ?_
    split
    · exact takeReached_edits s
    · exact (takeReached_edits s).trans (h _)

/-- A new encoder state, taken in turn. -/
theorem observeEncoder_effect {l : Lane} {p q : Bool} {t : State} (e : inTurn (observeEncoder l p q) s = .next t) :
    Effect s t := by
  unfold inTurn inService at e
  injection e with e
  subst e
  by_cases hr : s.resetAsserted = true
  · rw [takeReached_reset hr, if_pos hr]
    exact .unserved hr
  · split
    · exact .served _ (by simpa using hr) (takeReached_edits s)
    · exact .encoder l p q (by simpa using hr) (takeReached_edits s)

/-- A command with a next state has one of the effects of Laws/Edits.lean, with no place left reserved for a request. -/
theorem exec_effect (c : Instr) (s t : State) (h : exec c s = .next t) : Effect s t := by
  cases c with
  | powerOn pins => injection h with h; subst h; exact .powerOn _
  | resetNAsserted => injection h with h; subst h; exact .assertReset (takeReached_edits s)
  | holdInChange a => injection h with h; subst h; exact .holdIn a
  | encoderStateChange l p q => exact observeEncoder_effect h
  | laneTrigger l => exact inService_effect (issueTrigger_edits l s) h
  | leadingEdge l => exact inTurn_effect (takeLeadingEdge_edits l) h
  | trailingEdge l => exact inTurn_effect (takeTrailingEdge_edits l) h
  | deadline l => exact inService_effect (takeDeadline_edits l s) h
  | gateWindowStart l => exact inService_effect (takeGateStart_edits l s) h
  | gateWindowEnd l => exact inService_effect (removeFront_edits l s) h
  | floodEnd l => exact inService_effect (takeFloodEnd_edits l s) h
  | profileFrame g ws => exact inTurn_effect (receiveFrame_edits g ws) h
  | alignmentFrame g ws => exact inTurn_effect (receiveFrame_edits g ws) h
  | triggerTimeout g i => exact inTurn_effect (timeOutTrigger_edits g i) h
  | tapTimeout g => exact inTurn_effect (failTap_edits g) h
  | evaluationComplete u => exact inTurn_effect (completeEvaluation_edits u) h
  | closeEnd n => exact inTurn_effect (fun _ => .one (.endClose _ _ n)) h
  | frameReceived b =>
    refine inService_effect ?_ h
    split
    · exact takeByte_edits b s
    · exact .nil _ _
  | headerLengthReject b =>
    refine inService_effect ?_ h
    split
    · exact takeByte_edits b s
    · exact .nil _ _
  | goodByte b => exact inService_effect (takeByte_edits b s) h
  | interByteTimeout => exact inTurn_effect abandonSlowFrame_edits h
  | stopBitError => exact inService_effect (.one (.link _ _ _ ⟨rfl, rfl, rfl⟩)) h
  | transmitStart => exact inTurn_effect startTransmit_edits h
  | replySent => exact inService_effect (.one (.sent _ _)) h
  | unknownKind => exact inTurn_effect (takeRequest_edits (fun _ _ => replyRefused_edits _ _ _ _ _)) h
  | markedRequest => exact inTurn_effect (takeRequest_edits refuseMarked_edits) h
  | describe => exact inTurn_effect (takeKind_edits (fun _ _ _ => replyDone_edits _ _ _ _)) h
  | linkStatus => exact inTurn_effect (takeVariant_edits statusBody_edits) h
  | laneStatus => exact inTurn_effect (takeVariant_edits statusBody_edits) h
  | headStatus => exact inTurn_effect (takeVariant_edits statusBody_edits) h
  | restart => exact inTurn_effect (takeKind_edits restartBody_edits) h
  | laneSetup => exact inTurn_effect (takeKind_edits laneSetupBody_edits) h
  | laneStart => exact inTurn_effect (takeKind_edits laneStartBody_edits) h
  | laneStopDrain => exact inTurn_effect (takeVariant_edits laneStopBody_edits) h
  | laneStopAbandon => exact inTurn_effect (takeVariant_edits laneStopBody_edits) h
  | expect => exact inTurn_effect (takeKind_edits expectBody_edits) h
  | withdraw => exact inTurn_effect (takeKind_edits withdrawBody_edits) h
  | headSetup => exact inTurn_effect (takeKind_edits headSetupBody_edits) h
  | headAlign => exact inTurn_effect (takeKind_edits headAlignBody_edits) h
  | calRequest => exact inTurn_effect (takeKind_edits calRequestBody_edits) h
  | recipeOpen => exact inTurn_effect (takeKind_edits (fun t p s => onSlot_edits (openSlot_edits t p) s)) h
  | recipeClasses => exact inTurn_effect (takeKind_edits (fun t p s => onSlot_edits (loadClasses_edits t p) s)) h
  | recipeJoints => exact inTurn_effect (takeKind_edits (fun t p s => onSlot_edits (loadJoints_edits t p) s)) h
  | recipeClose => exact inTurn_effect (takeKind_edits (fun t p s => onSlot_edits (closeSlot_edits t) s)) h
  | recipeRetire => exact inTurn_effect (takeKind_edits (fun t p s => onSlot_edits (retireSlot_edits t) s)) h
  | recipeQuery => exact inTurn_effect (takeKind_edits (fun t p s => onSlot_edits (querySlot_edits t) s)) h
  | collect => exact inTurn_effect (takeKind_edits collectBody_edits) h

end Sys2Proof.Machine
end

