-- ==== Sys2Proof/Laws/LaneSound.lean ====
section
/-!
SUPPORT. The changes of a lane keep what Safety.lean says of it.
-/

namespace Sys2Proof.Machine

theorem Encoder.forwardCount_sound {e : Encoder} (h : e.Sound) : e.forwardCount.Sound := by
  obtain ⟨p, d⟩ := h
  unfold Encoder.forwardCount
  split
  · next hd => exact ⟨by simp [p, hd], d⟩
  · next hd =>
    refine ⟨?_, by dsimp only; omega⟩
    have : BitVec.ofNat 32 e.deficit = BitVec.ofNat 32 (e.deficit - 1) + 1 := by
      obtain ⟨k, hk⟩ := Nat.exists_eq_succ_of_ne_zero hd
      rw [hk]; simp [BitVec.ofNat_add]
    simp only [p, this]
    ac_rfl

theorem Encoder.reverseCount_sound {e : Encoder} (h : e.Sound) : e.reverseCount.Sound := by
  obtain ⟨p, d⟩ := h
  unfold Encoder.reverseCount
  split
  · next hd =>
    refine ⟨?_, hd⟩
    simp only [p, BitVec.ofNat_add]
    bv_omega
  · exact ⟨p, d⟩

/-- R2. -/
theorem decodeEncoder_sound {x : LaneState} (p q : Bool) (h : x.enc.Sound) : (x.decodeEncoder p q).enc.Sound := by
  unfold LaneState.decodeEncoder
  split
  · exact h
  · exact Encoder.forwardCount_sound h
  · exact Encoder.reverseCount_sound h
  · exact h

/-- Only a new encoder state changes the encoder. -/
theorem LaneEdit.encoder_sound {x y : LaneState} (e : LaneEdit x y) (h : x.enc.Sound) : y.enc.Sound := by
  cases e with
  | _ => exact h

/-- A new encoder state changes the encoder and two flags (R1 to R3). -/
theorem decodeEncoder_frame (p q) (x : LaneState) :
    ∃ e r f, x.decodeEncoder p q = { x with enc := e, reversed := r, encoderFault := f } := by
  unfold LaneState.decodeEncoder
  split <;> exact ⟨_, _, _, rfl⟩

/-- R6, R7, R8, R22, R27. -/
theorem LaneEdit.mode_sound {x y : LaneState} (e : LaneEdit x y) (h : x.ModeSound) : y.ModeSound := by
  have h' := h
  obtain ⟨d, n⟩ := h
  cases e with
  | countTrigger p k r => exact ⟨fun e => absurd e r, fun e => ⟨(n r).1, rfl⟩⟩
  | settings st i ra => exact ⟨d, fun e => absurd i e⟩
  | start st i s =>
    exact ⟨fun e => (nomatch (e : LaneMode.running = .disabled)),
      fun _ => ⟨by simp [LaneState.start, LaneState.reevaluate, s], rfl⟩⟩
  | drain r =>
    exact ⟨fun e => (nomatch (e : LaneMode.stopping = .disabled)), fun _ => n (by rw [r]; decide)⟩
  | disable e => exact ⟨fun _ => ⟨e, rfl, rfl, rfl⟩, fun e => absurd rfl e⟩
  | expect es w ro =>
    refine ⟨fun e => ⟨(d e).1, ?_, (d e).2.2⟩, n⟩
    have := w e
    rw [(d e).2.1] at this
    cases es with
    | nil => rfl
    | cons a as => exact absurd (this a (by simp)) (by simp)
  | newRecord r es ru cl ro i ld o hh fe => exact ⟨fun e => absurd e ru, n⟩
  | untracked r => exact ⟨fun e => absurd e r, n⟩
  | endFlood => exact ⟨fun e => ⟨(d e).1, (d e).2.1, (d e).2.2.1, rfl⟩, n⟩
  | records rs s =>
    exact ⟨fun e => ⟨by have := (d e).1; rw [this] at s; exact List.forall₂_nil_left_iff.mp s, (d e).2⟩, n⟩
  | shownRecords rs s =>
    exact ⟨fun e => ⟨by have := (d e).1; rw [this] at s; exact List.forall₂_nil_left_iff.mp s, (d e).2⟩, n⟩
  | release r a b => exact ⟨fun e => ⟨by simp [LaneState.mapRecord, (d e).1], (d e).2⟩, n⟩
  | glitch st r b ru se a f => exact ⟨fun e => absurd e ru, n⟩
  | dropFront r rest f => exact ⟨fun e => by have := (d e).1; rw [this] at f; exact (nomatch f), n⟩
  | removeAll => exact ⟨fun e => ⟨rfl, (d e).2⟩, n⟩
  | restart i => exact ⟨fun _ => ⟨rfl, rfl, rfl, rfl⟩, fun e => absurd rfl e⟩
  | _ => exact h'

theorem divertLevel_congr {x y : LaneState} (hm : y.mode = x.mode) (hf : y.flood = x.flood)
    (ht : List.Forall₂ (fun r r' : BoardRecord => r'.inWindow = r.inWindow ∧ r'.divertDecision = r.divertDecision)
      x.transit y.transit) : divertLevel x = divertLevel y := by
  unfold divertLevel
  rw [hm, hf]
  congr 1
  generalize x.transit = a at ht
  generalize y.transit = b at ht
  induction ht with
  | nil => rfl
  | cons h _ ih => simp only [List.any_cons, ih, h.1, h.2]

/-- The output follows R160 through every change (R161). -/
theorem LaneEdit.divert_sound {x y : LaneState} (e : LaneEdit x y) (h : x.divert = divertLevel x) :
    y.divert = divertLevel y := by
  cases e with
  | disable e => simp [LaneState.disable, divertLevel]
  | drain r =>
    refine h.trans ?_
    simp [divertLevel, r]
  | newRecord r es ru cl ro i ld o hh fe =>
    refine h.trans ?_
    simp only [divertLevel, LaneState.addRecord, List.any_append, List.any_cons, o, List.any_nil, Bool.false_and,
      Bool.or_false]
    rfl
  | records rs s =>
    exact h.trans (divertLevel_congr (x := x) (y := { x with transit := rs }) rfl rfl
      (s.imp fun _ _ k => ⟨k.window, k.divert⟩))
  | release r a b =>
    refine h.trans (divertLevel_congr (x := x) (y := x.mapRecord _ _) rfl rfl (forall₂_map _ (fun q => ?_) _))
    split <;> exact ⟨rfl, rfl⟩
  | restart i => simp [LaneState.restart, LaneState.powerOn, divertLevel]
  | _ => first | exact h | rfl


/-- Two records of a lane, the older first, as R151 releases them. -/
def InOrder (a b : BoardRecord) : Prop :=
  a.ident < b.ident ∧ (b.verdictPart.released = true → a.verdictPart.released = true)

/-- A record as its release leaves it, if it is the one released. -/
def markReleased (i : Nat) (a : BoardRecord) : BoardRecord :=
  if a.ident = i then { a with verdictPart := { a.verdictPart with released := true } } else a

theorem markReleased_inOrder {i : Nat} {a b : BoardRecord} (h : InOrder a b)
    (older : a.ident = i ∨ a.verdictPart.released = true ∨ b.ident ≠ i) :
    InOrder (markReleased i a) (markReleased i b) := by
  unfold InOrder markReleased at *
  split <;> split <;> refine ⟨h.1, ?_⟩ <;> simp_all

theorem kept_mem {R : BoardRecord → BoardRecord → Prop} {a b : List BoardRecord} (h : List.Forall₂ R a b) :
    ∀ y ∈ b, ∃ x ∈ a, R x y := by
  induction h with
  | nil => simp
  | cons h _ ih =>
    intro y hy
    rcases List.mem_cons.mp hy with e | e
    · exact ⟨_, List.mem_cons_self, e ▸ h⟩
    · obtain ⟨x, hx, r⟩ := ih y e
      exact ⟨x, List.mem_cons_of_mem _ hx, r⟩

theorem kept_pairwise {a b : List BoardRecord} (h : List.Forall₂ BoardRecord.Kept a b)
    (p : a.Pairwise InOrder) :
    b.Pairwise InOrder := by
  induction h with
  | nil => exact .nil
  | cons h t ih =>
    rw [List.pairwise_cons] at p ⊢
    refine ⟨fun y hy => ?_, ih p.2⟩
    obtain ⟨x, hx, k⟩ := kept_mem t y hy
    have := p.1 x hx
    unfold InOrder at this ⊢
    rw [h.ident, k.ident, h.released, k.released]
    exact this

theorem records_releaseSound {x : LaneState} {rs} (h : x.ReleaseSound)
    (s : List.Forall₂ BoardRecord.Kept x.transit rs) : ({ x with transit := rs } : LaneState).ReleaseSound := by
  refine ⟨kept_pairwise s h.1, fun y hy => ?_⟩
  obtain ⟨z, hz, k⟩ := kept_mem s y hy
  have := h.2 z hz
  rw [k.ident, k.released]
  exact ⟨this.1, fun r => k.decided (this.2 r)⟩

theorem sublist_releaseSound {x : LaneState} {rs} (h : x.ReleaseSound) (s : rs.Sublist x.transit) :
    ({ x with transit := rs } : LaneState).ReleaseSound :=
  ⟨h.1.sublist s, fun y hy => h.2 y (s.subset hy)⟩

/-- R151. -/
theorem LaneEdit.release_sound {x y : LaneState} (e : LaneEdit x y) (h : x.ReleaseSound) : y.ReleaseSound := by
  cases e with
  | newRecord r es ru cl ro i ld o hh fe =>
    refine ⟨?_, fun y hy => ?_⟩
    · simp only [LaneState.addRecord, List.pairwise_append]
      refine ⟨h.1, List.pairwise_singleton _ _, fun a ha b hb => ?_⟩
      rw [List.mem_singleton] at hb
      subst hb
      exact ⟨i ▸ (h.2 a ha).1, fun k => by rw [hh] at k; cases k⟩
    · rcases List.mem_append.mp hy with k | k
      · exact ⟨Nat.lt_succ_of_lt (h.2 y k).1, (h.2 y k).2⟩
      · rw [List.mem_singleton] at k
        subst k
        exact ⟨by rw [i]; exact Nat.lt_succ_self _, fun k => by rw [hh] at k; cases k⟩
  | records rs s => exact records_releaseSound h (s.imp fun _ _ k => k.toKept)
  | shownRecords rs s => exact records_releaseSound (x := x) h s
  | release r a b =>
    obtain ⟨p, q⟩ := h
    unfold LaneState.oldestUnreleased at a
    obtain ⟨hr, as, bs, e, ha⟩ := List.find?_eq_some_iff_append.mp a
    unfold LaneState.mapRecord
    refine ⟨?_, ?_⟩
    · rw [List.pairwise_map]
      rw [e] at p ⊢
      rw [List.pairwise_append, List.pairwise_cons] at p ⊢
      have rel : ∀ a ∈ as, a.verdictPart.released = true := fun a h => by simpa using ha a h
      refine ⟨?_, ⟨fun b hb => markReleased_inOrder (p.2.1.1 b hb) (.inl rfl), ?_⟩,
        fun a h b hb => markReleased_inOrder (p.2.2 a h b hb) (.inr (.inl (rel a h)))⟩
      · exact p.1.imp_of_mem fun h1 _ h3 => markReleased_inOrder h3 (.inr (.inl (rel _ h1)))
      · exact p.2.1.2.imp_of_mem fun _ h2 h3 => markReleased_inOrder h3 (.inr (.inr (Nat.ne_of_gt (p.2.1.1 _ h2).1)))
    · intro y hy
      obtain ⟨z, hz, k⟩ := List.mem_map.mp hy
      have := q z hz
      have hrm := q r (e ▸ by simp)
      split at k
      · subst k
        next hi =>
        refine ⟨this.1, fun _ => ?_⟩
        rw [e] at p hz
        rw [List.pairwise_append, List.pairwise_cons] at p
        rcases List.mem_append.mp hz with m | m
        · have := (p.2.2 z m r List.mem_cons_self).1; omega
        · rcases List.mem_cons.mp m with m | m
          · rw [m]; exact b
          · have := (p.2.1.1 z m).1; omega
      · subst k; exact this
  | glitch st r b ru se a f => exact sublist_releaseSound (x := x) h (List.dropLast_sublist _)
  | dropFront r rest f => exact sublist_releaseSound (x := x) h (f ▸ List.sublist_cons_self _ _)
  | removeAll => exact sublist_releaseSound (x := x) h (List.nil_sublist _)
  | restart i => exact ⟨.nil, by simp [LaneState.restart, LaneState.powerOn]⟩
  | _ => exact h

/-! ### A new encoder state -/

theorem decodeEncoder_modeSound {x : LaneState} (p q : Bool) (h : x.ModeSound) : (x.decodeEncoder p q).ModeSound := by
  obtain ⟨_, _, _, e⟩ := decodeEncoder_frame p q x
  rw [e]
  exact h

theorem decodeEncoder_releaseSound {x : LaneState} (p q : Bool) (h : x.ReleaseSound) :
    (x.decodeEncoder p q).ReleaseSound := by
  obtain ⟨_, _, _, e⟩ := decodeEncoder_frame p q x
  rw [e]
  exact h

theorem decodeEncoder_divert {x : LaneState} (p q : Bool) (h : x.divert = divertLevel x) :
    (x.decodeEncoder p q).divert = divertLevel (x.decodeEncoder p q) := by
  obtain ⟨_, _, _, e⟩ := decodeEncoder_frame p q x
  rw [e]
  exact h

/-! ### Runs of edits -/

/-- What each change of a lane keeps, a run of edits keeps at every lane. -/
theorem Edits.lane_keep {P : LaneState → Prop} (each : ∀ {x y}, LaneEdit x y → P x → P y) {d e : Nat}
    {s t : State} (h : Edits d s e t) (m : Lane) (hs : P (s.lane m)) : P (t.lane m) := by
  refine h.keep (I := fun _ s => P (s.lane m)) (fun {_ s _ t} hst hp => ?_) hs
  exact Relation.ReflTransGen.head_induction_on (motive := fun a _ => P a → P (t.lane m)) (hst.lane m) id
    (fun first _ ih ha => ih (each first ha)) hp

end Sys2Proof.Machine
end

