-- ==== Sys2Proof/Laws/Records.lean ====
section
/-!
SUPPORT. One record of a transit queue, named by its place in the queue: what reading and changing it by its number
comes to, and what a decision followed by an examination leaves of it.
-/

namespace Sys2Proof.Machine

/-- Two changes that agree on the lane as it stands are the same change. -/
theorem updLane_congr (l) (s : State) {f g : LaneState → LaneState} (h : f (s.lane l) = g (s.lane l)) : s.updLane l f
    = s.updLane l g := by
  unfold State.updLane; rw [h]

/-- A change that changes nothing. -/
theorem updLane_id (l : Lane) (s : State) (f) (h : f (s.lane l) = s.lane l) : s.updLane l f = s := by
  unfold State.updLane; rw [h]; 
  have : s.lanes.set l (s.lane l) = s.lanes := by cases l <;> rfl
  rw [this]

/-- The first element that satisfies a condition, from the list cut at it. -/
theorem find?_split {α} (p : α → Bool) (before : List α) (e) (after) (h : p e = true) (hb : ∀ x ∈ before, p x = false) :
    (before ++ e :: after).find? p = some e := by
  rw [List.find?_append, List.find?_eq_none.2 (fun x hx => by simp [hb x hx])]; simp [h]

/-- The record of a number, from the queue cut at it. -/
theorem record?_split {x : LaneState} {before b after} (hx : x.transit = before ++ b :: after) (hs : x.ReleaseSound) :
    x.record? b.ident = some b := by
  have pw := hs.1
  rw [hx, List.pairwise_append] at pw
  unfold LaneState.record?
  rw [hx]
  refine find?_split _ _ _ _ (by simp) fun q hq => ?_
  simpa using (pw.2.2 q hq b (List.mem_cons_self ..)).1.ne

/-- A change by number changes the record at its place only. -/
theorem mapRecord_split {x : LaneState} {before b after} (hx : x.transit = before ++ b :: after) (hs : x.ReleaseSound)
    (f) : (x.mapRecord b.ident f).transit = before ++ f b :: after := by
  have pw := hs.1
  rw [hx, List.pairwise_append] at pw
  obtain ⟨_, p2, p3⟩ := pw
  rw [List.pairwise_cons] at p2
  unfold LaneState.mapRecord
  show (x.transit.map _) = _
  rw [hx, List.map_append, List.map_cons, if_pos rfl]
  congr 1
  · refine (List.map_congr_left (g := id) fun q hq => if_neg ?_).trans (List.map_id _)
    exact (p3 q hq b (List.mem_cons_self ..)).1.ne
  · congr 1
    refine (List.map_congr_left (g := id) fun q hq => if_neg ?_).trans (List.map_id _)
    exact (p2.1 q hq).1.ne'

/-- The same, of the whole lane. -/
theorem mapRecord_eq {x : LaneState} {before b after} (hx : x.transit = before ++ b :: after) (hs : x.ReleaseSound) (f)
    : x.mapRecord b.ident f = { x with transit := before ++ f b :: after } := by
  have := mapRecord_split hx hs f
  rw [← this]; rfl

/-- What holds place by place holds at each place. -/
theorem forall₂_getElem? {R : BoardRecord → BoardRecord → Prop} {xs ys} (h : List.Forall₂ R xs ys) (n : Nat) {x}
    (hx : xs[n]? = some x) : ∃ y, ys[n]? = some y ∧ R x y := by
  induction h generalizing n with
  | nil => simp at hx
  | cons a _ ih =>
    cases n with
    | zero => simp at hx; subst hx; exact ⟨_, rfl, a⟩
    | succ n => exact ih n hx

/-- A decision by deadline or WITHDRAW is `fixRecord`, then only quiet changes. -/
theorem decideAndExamine_fixed (c) (_ : c ≠ .completion) (l i) (s : State) {r} (hr : (s.lane l).record? i = some r)
    (ho : r.state ≠ .decided) :
   Quiet (fixRecord c l i s) (decideAndExamine c l i s) := by
  have : decideRecord c l i s = offerRelease l (cutItems c l i (fixRecord c l i s)) := by
    unfold decideRecord; rw [hr]; simp only [ho, if_false]
  have q : Quiet (fixRecord c l i s) (decideRecord c l i s) := by
    rw [this]; exact (cutItems_quiet c l i _).trans (offerRelease_quiet l _)
  unfold decideAndExamine
  dsimp only
  split
  · exact q.trans (examineAndGrant_quiet l _)
  · exact q

/-- The record decided by deadline or WITHDRAW, after the decision and the examination that follows. -/
theorem decideAndExamine_decides (c) (hc : c ≠ .completion) (l) (s : State) {before b after}
    (hx : (s.lane l).transit = before ++ b :: after) (hs : (s.lane l).ReleaseSound) (ho : b.state ≠ .decided) :
   ∃ b', ((decideAndExamine c l b.ident s).lane l).transit[before.length]? = some b' ∧ b'.ident = b.ident ∧ b'.state
     = .decided
     ∧ b'.pTrail = b.pTrail ∧ b'.divertDecision
       = (b.decideBy c (stalePolicyOf (s.lane l)) (jointCountOf s b)).divertDecision
     ∧ b'.verdictPart
       = { (b.decideBy c (stalePolicyOf (s.lane l)) (jointCountOf s b)).verdictPart with released :=
         b'.verdictPart.released } := by
  have q := decideAndExamine_fixed c hc l b.ident s (record?_split hx hs) ho
  have f : ((fixRecord c l b.ident s).lane l).transit = before ++ b.decideBy c (stalePolicyOf (s.lane l))
    (jointCountOf s b) :: after := by
    unfold fixRecord reevaluate
    rw [State.lane_updLane, State.lane_updLane]
    exact mapRecord_split hx hs (fun q => q.decideBy c (stalePolicyOf (s.lane l)) (jointCountOf s q))
  obtain ⟨b', g, st⟩ := forall₂_getElem? (q.lanes l).records before.length
    (x := b.decideBy c (stalePolicyOf (s.lane l)) (jointCountOf s b)) (by rw [f]; simp)
  have d : (b.decideBy c (stalePolicyOf (s.lane l)) (jointCountOf s b)).state = .decided := by
    unfold BoardRecord.decideBy; rw [if_neg ho]; rfl
  have sb := decideBy_steady c (stalePolicyOf (s.lane l)) (jointCountOf s b) b
  obtain ⟨d1, d2, d3⟩ := st.decided d
  have i1 : b'.ident = _ := congrArg BoardRecord.ident st.same
  have i2 : (b.decideBy c (stalePolicyOf (s.lane l)) (jointCountOf s b)).ident = b.ident := by rw [sb.same]
  have t1 : b'.pTrail = _ := congrArg BoardRecord.pTrail st.same
  have t2 : (b.decideBy c (stalePolicyOf (s.lane l)) (jointCountOf s b)).pTrail = b.pTrail := by rw [sb.same]
  exact ⟨b', g, i1.trans i2, d1, t1.trans t2, d2, d3⟩

end Sys2Proof.Machine
end

