-- ==== Sys2Proof/Laws/Grants.lean ====
section
/-!
SUPPORT. Examinations and grants (R106, R107, R109): what an examination passes, and that the bound of `grants` is never
reached before the arbiter has granted all it can.
-/

namespace Sys2Proof.Machine

/-- The items of the joints that a cursor passes from place `c` on. -/
def passedItems (s : State) (l : Lane) (r : BoardRecord) (c n : Nat) : List WorkItem :=
  (List.range n).filterMap fun k => workItem? s l r (c + k)

theorem passedItems_succ (s l r c n i) (h : workItem? s l r c = some i) : passedItems s l r c (n + 1) = i ::
    passedItems s l r (c + 1) n := by
  unfold passedItems
  rw [List.range_succ_eq_map, List.filterMap_cons]
  simp only [Nat.add_zero, h, List.filterMap_map]
  congr 1
  refine congrArg (fun f => List.filterMap f (List.range n)) ?_
  funext k
  show workItem? s l r (c + (k + 1)) = _
  congr 1; omega

/-- All that the advance of one cursor does. -/
theorem advanceCursor_all (s l r) : ∀ (n : Nat) (w : WorkFields) (ready : List WorkItem),
   (advanceCursor s l r n w ready).2 = ready ++ passedItems s l r w.cursor
     ((advanceCursor s l r n w ready).1.cursor - w.cursor)
   ∧ w.cursor ≤ (advanceCursor s l r n w ready).1.cursor
   ∧ (advanceCursor s l r n w ready).1.cursor ≤ w.cursor + n
   ∧ (advanceCursor s l r n w ready).1
     = { w with cursor := (advanceCursor s l r n w ready).1.cursor, queued :=
       w.queued + (passedItems s l r w.cursor ((advanceCursor s l r n w ready).1.cursor - w.cursor)).length }
   ∧ (passedItems s l r w.cursor ((advanceCursor s l r n w ready).1.cursor - w.cursor)).length
     = (advanceCursor s l r n w ready).1.cursor - w.cursor
   ∧ (∀ i ∈ passedItems s l r w.cursor ((advanceCursor s l r n w ready).1.cursor - w.cursor), itemReady s i = true)
   ∧ (w.cursor + n ≤ (advanceCursor s l r n w ready).1.cursor ∨
     (∀ i, workItem? s l r (advanceCursor s l r n w ready).1.cursor = some i → itemReady s i = false) ∨ 256 ≤
       (advanceCursor s l r n w ready).2.length) := by
  have nil : ∀ c, passedItems s l r c 0 = [] := by intro c; simp [passedItems]
  intro n
  induction n with
  | zero => intro w ready; unfold advanceCursor; simp [nil]
  | succ n ih =>
    intro w ready
    unfold advanceCursor
    cases hw : workItem? s l r w.cursor with
    | none => simp [nil, hw]
    | some i =>
      dsimp only
      split
      · next h =>
        rw [Bool.and_eq_true, decide_eq_true_eq] at h
        obtain ⟨a1, a2, a3, a4, a5, a6, a7⟩ := ih { w with cursor := w.cursor + 1, queued := w.queued + 1 }
          (ready ++ [i])
        generalize advanceCursor s l r n { w with cursor := w.cursor + 1, queued := w.queued + 1 } (ready ++ [i])
          = q at *
        dsimp only at *
        have e : q.1.cursor - w.cursor = (q.1.cursor - (w.cursor + 1)) + 1 := by omega
        rw [e, passedItems_succ _ _ _ _ _ _ hw]
        refine ⟨by rw [a1]; simp, by omega, by omega, ?_, by simp [a5], ?_, ?_⟩
        · conv_lhs => rw [a4]
          simp; omega
        · intro j hj
          rcases List.mem_cons.1 hj with rfl | hj
          · exact h.1
          · exact a6 j hj
        · rcases a7 with a | a | a
          · left; omega
          · exact Or.inr (Or.inl a)
          · exact Or.inr (Or.inr a)
      · next h =>
        rw [Bool.and_eq_true, decide_eq_true_eq, not_and_or] at h
        dsimp only
        simp only [nil, Nat.sub_self]
        refine ⟨by simp, le_refl _, by omega, rfl, rfl, by simp, Or.inr ?_⟩
        rcases h with h | h
        · left; rintro j hj; rw [hw] at hj; cases hj; simpa using h
        · right; unfold Config.readyDepth at h; omega

theorem examineRecords_cons (s l) (r : BoardRecord) (rest ready) : examineRecords s l (r :: rest) ready =
   (({ r with work :=
     (if r.isActive then advanceCursor s l r (jointCountOf s r - r.work.cursor) r.work ready else (r.work, ready)).1 } :
       BoardRecord) ::
      (examineRecords s l rest
        (if r.isActive then advanceCursor s l r (jointCountOf s r - r.work.cursor) r.work ready
          else (r.work, ready)).2).1,
    (examineRecords s l rest
      (if r.isActive then advanceCursor s l r (jointCountOf s r - r.work.cursor) r.work ready
        else (r.work, ready)).2).2) := rfl

/-- All that the examination of the records of a lane does. -/
theorem examineRecords_all (s : State) (l : Lane) (rs : List BoardRecord) : ∀ ready : List WorkItem,
    let passed (r r' : BoardRecord) : List WorkItem := passedItems s l r r.work.cursor (r'.work.cursor - r.work.cursor)
    (examineRecords s l rs ready).2
      = ready ++ ((rs.zip (examineRecords s l rs ready).1).map fun p => passed p.1 p.2).flatten
    ∧ List.Forall₂ (fun r r' : BoardRecord =>
            r' = { r with
              work := { r.work with cursor := r'.work.cursor, queued := r.work.queued + (passed r r').length } }
            ∧ r.work.cursor ≤ r'.work.cursor
            ∧ (passed r r').length = r'.work.cursor - r.work.cursor
            ∧ (∀ i ∈ passed r r', itemReady s i = true)
            ∧ (r.isActive = false → r' = r)
            ∧ (r.isActive = true →
                jointCountOf s r ≤ r'.work.cursor
                  ∨ (∀ i, workItem? s l r r'.work.cursor = some i → itemReady s i = false)
                  ∨ 256 ≤ (examineRecords s l rs ready).2.length)
            ∧ (jointCountOf s r - r.work.cursor) = (passed r r').length + (jointCountOf s r - r'.work.cursor)) rs
              (examineRecords s l rs ready).1 := by
  have nil : ∀ r : BoardRecord, passedItems s l r r.work.cursor 0 = [] := by intro c; simp [passedItems]
  induction rs with
  | nil => intro ready; exact ⟨by simp [examineRecords], .nil⟩
  | cons r rest ih =>
    intro ready
    dsimp only
    rw [examineRecords_cons]
    dsimp only
    have st : ∃ w rd,
      (if r.isActive then advanceCursor s l r (jointCountOf s r - r.work.cursor) r.work ready else (r.work, ready))
        = (w, rd)
       ∧ rd = ready ++ passedItems s l r r.work.cursor (w.cursor - r.work.cursor)
       ∧ w =
         { r.work with cursor := w.cursor, queued :=
           r.work.queued + (passedItems s l r r.work.cursor (w.cursor - r.work.cursor)).length }
       ∧ r.work.cursor ≤ w.cursor
       ∧ (passedItems s l r r.work.cursor (w.cursor - r.work.cursor)).length = w.cursor - r.work.cursor
       ∧ (∀ i ∈ passedItems s l r r.work.cursor (w.cursor - r.work.cursor), itemReady s i = true)
       ∧ (r.isActive = false → w = r.work)
       ∧ (r.isActive = true → jointCountOf s r ≤ w.cursor ∨
         (∀ i, workItem? s l r w.cursor = some i → itemReady s i = false) ∨ 256 ≤ rd.length)
       ∧ (jointCountOf s r - r.work.cursor) = (passedItems s l r r.work.cursor (w.cursor - r.work.cursor)).length +
         (jointCountOf s r - w.cursor) := by
      cases ha : r.isActive with
      | false =>
        exact
          ⟨r.work, ready, rfl, by simp [nil], by simp [nil], le_refl _, by simp [nil], by simp [nil], fun _ => rfl,
            by simp, by simp [nil]⟩
      | true =>
        obtain ⟨a1, a2, a3, a4, a5, a6, a7⟩ := advanceCursor_all s l r (jointCountOf s r - r.work.cursor) r.work ready
        refine ⟨_, _, rfl, a1, a4, a2, a5, a6, by simp, fun _ => ?_, by rw [a5]; omega⟩
        rcases a7 with a | a | a
        · left; omega
        · exact Or.inr (Or.inl a)
        · exact Or.inr (Or.inr a)
    obtain ⟨w, rd, e, b1, b2, b3, b4, b5, b6, b7, b8⟩ := st
    rw [e]
    dsimp only
    obtain ⟨i1, i2⟩ := ih rd
    refine ⟨?_, List.Forall₂.cons ⟨?_, b3, b4, b5, fun h => by rw [b6 h], fun h => ?_, b8⟩ i2⟩
    · rw [i1, List.zip_cons_cons, List.map_cons, List.flatten_cons, ← List.append_assoc, ← b1]
    · dsimp only; conv_lhs => rw [b2]
    · rcases b7 h with a | a | a
      · exact Or.inl a
      · exact Or.inr (Or.inl a)
      · refine Or.inr (Or.inr (le_trans a ?_)); rw [i1]; simp

theorem examine_eq (l s) : examine l s = s.updLane l fun x =>
    { x with transit := (examineRecords s l (s.lane l).transit (s.lane l).ready).1, ready :=
      (examineRecords s l (s.lane l).transit (s.lane l).ready).2 } := rfl

/-! ### The joints not yet granted -/

/-- Slots, ready queues, bindings and cursors stay. -/
def WorkKept (s t : State) : Prop := t.slots = s.slots ∧ ∀ l, (t.lane l).ready = (s.lane l).ready
  ∧ (t.lane l).transit.map (fun r => (r.binding, r.work.cursor)) = (s.lane l).transit.map
    (fun r => (r.binding, r.work.cursor))

theorem WorkKept.refl (s) : WorkKept s s := ⟨rfl, fun _ => ⟨rfl, rfl⟩⟩

theorem WorkKept.trans {s t u} (a : WorkKept s t) (b : WorkKept t u) : WorkKept s u :=
    ⟨b.1.trans a.1, fun l => ⟨(b.2 l).1.trans (a.2 l).1, (b.2 l).2.trans (a.2 l).2⟩⟩

/-- Then the number of joints not yet granted stays. -/
theorem WorkKept.measure {s t} (a : WorkKept s t) (l) : ungranted t l = ungranted s l := by
  unfold ungranted
  rw [(a.2 l).1]
  have f : ∀ u : State, u.slots = s.slots → (u.lane l).transit.map (fun r => jointCountOf u r - r.work.cursor)
    = ((u.lane l).transit.map (fun r => (r.binding, r.work.cursor))).map fun p =>
      (match p.1 with | none => 0 | some b => match (s.slot b.slot).header with | none => 0 | some h => h.jointCount) -
        p.2 := by
    intro u hu
    rw [List.map_map]
    refine List.map_congr_left fun r _ => ?_
    unfold jointCountOf headerOf State.slot
    rw [hu]
    dsimp only [Function.comp]
    cases r.binding <;> rfl
  rw [f t a.1, f s rfl, (a.2 l).2]

theorem WorkKept.upd (l) (s : State) (f : LaneState → LaneState)
    (h : (f (s.lane l)).ready = (s.lane l).ready ∧ (f (s.lane l)).transit.map (fun r => (r.binding, r.work.cursor))
      = (s.lane l).transit.map (fun r => (r.binding, r.work.cursor))) : WorkKept s (s.updLane l f) := by
  refine ⟨rfl, fun m => ?_⟩
  by_cases e : m = l
  · subst e; rw [State.lane_updLane]; exact h
  · rw [State.lane_updLane_ne _ _ e]; exact ⟨rfl, rfl⟩

theorem WorkKept.mapR (l) (s : State) (i) (f : LaneState → BoardRecord → BoardRecord)
    (h : ∀ x r, (f x r).binding = r.binding ∧ (f x r).work.cursor = r.work.cursor) :
      WorkKept s (s.updLane l fun x => x.mapRecord i (f x)) := by
  refine WorkKept.upd _ _ _ ⟨rfl, ?_⟩
  show ((s.lane l).transit.map _).map _ = _
  rw [List.map_map]
  refine List.map_congr_left fun r _ => ?_
  dsimp only [Function.comp]
  split
  · rw [(h _ r).1, (h _ r).2]
  · rfl

theorem WorkKept.emit (v) (s : State) : WorkKept s (emitVerdict v s) := by
  unfold emitVerdict
  cases s.verdicts.parked <;> exact ⟨rfl, fun _ => ⟨rfl, rfl⟩⟩

theorem WorkKept.chain (l) : ∀ n (s : State), WorkKept s (releaseChain n l s) := by
  intro n
  induction n with
  | zero => intro s; exact WorkKept.refl s
  | succ n ih =>
    intro s
    unfold releaseChain
    cases (s.lane l).oldestUnreleased with
    | none => exact WorkKept.refl s
    | some r =>
      dsimp only
      split
      · refine WorkKept.trans ?_ (ih _)
        exact
          (WorkKept.mapR l s r.ident (fun _ q => { q with verdictPart := { q.verdictPart with released := true } })
            (fun _ _ => ⟨rfl, rfl⟩)).trans (WorkKept.emit _ _)
      · exact WorkKept.refl s

theorem decideBy_completion_kept (p j) (r : BoardRecord) : (r.decideBy .completion p j).binding = r.binding
    ∧ (r.decideBy .completion p j).work.cursor = r.work.cursor := by
  unfold BoardRecord.decideBy
  split <;> exact ⟨rfl, rfl⟩

theorem WorkKept.decideC (l i) (s : State) : WorkKept s (decideRecord .completion l i s) := by
  unfold decideRecord
  cases (s.lane l).record? i with
  | none => exact WorkKept.refl s
  | some r =>
    dsimp only
    split
    · exact WorkKept.refl s
    · unfold offerRelease cutItems
      rw [if_pos rfl]
      refine WorkKept.trans ?_ (WorkKept.chain l _ _)
      unfold fixRecord reevaluate
      refine
        (WorkKept.mapR l s i (fun x q => q.decideBy .completion (stalePolicyOf x) (jointCountOf s q))
          (fun x q => decideBy_completion_kept _ _ q)).trans ?_
      exact WorkKept.upd _ _ _ ⟨rfl, rfl⟩

theorem WorkKept.take (l i o) (s : State) : WorkKept s (takeOutcome l i o s) := by
  unfold takeOutcome
  cases (s.lane l).record? i with
  | none => exact WorkKept.refl s
  | some r =>
    dsimp only
    have c : WorkKept s (countOutcome l i o s) := WorkKept.mapR l s i (fun _ => BoardRecord.takeOutcome o)
      (fun _ q => by unfold BoardRecord.takeOutcome; split <;> exact ⟨rfl, rfl⟩)
    split
    · exact WorkKept.refl s
    · split
      · refine c.trans ?_
        unfold jointsCompleteReport
        cases ((countOutcome l i o s).lane l).record? i with
        | none => exact WorkKept.refl _
        | some q =>
          dsimp only
          split
          · exact WorkKept.refl _
          · split
            · exact WorkKept.decideC _ _ _
            · exact WorkKept.mapR l _ i (fun _ q => { q with jointsComplete := true }) (fun _ _ => ⟨rfl, rfl⟩)
      · exact c

theorem WorkKept.work (l i) (f : WorkFields → WorkFields) (h : ∀ w, (f w).cursor = w.cursor) (s : State) :
    WorkKept s (updWork l i f s) :=
  WorkKept.mapR l s i (fun _ r => { r with work := f r.work }) (fun _ _ => ⟨rfl, h _⟩)

theorem WorkKept.place (u i) (s : State) : WorkKept s (placeItem u i s) := by
  unfold placeItem
  split
  · exact WorkKept.take _ _ _ _
  · unfold startEvaluation
    refine WorkKept.trans (⟨rfl, fun _ => ⟨rfl, rfl⟩⟩ : WorkKept s (s.setUnit u _))
      (WorkKept.work _ _ _ (by intro w; rfl) _)

/-- An examination keeps the number of joints not yet granted. -/
theorem examine_ungranted (l m) (s : State) : ungranted (examine l s) m = ungranted s m := by
  by_cases e : m = l
  · subst e
    unfold ungranted
    rw [examine_eq, State.lane_updLane]
    obtain ⟨a, b⟩ := examineRecords_all s m (s.lane m).transit (s.lane m).ready
    dsimp only at *
    generalize (examineRecords s m (s.lane m).transit (s.lane m).ready) = q at *
    have jc : ∀ f, jointCountOf (s.updLane m f) = jointCountOf s := fun f => rfl
    rw [jc, a]
    generalize (s.lane m).transit = xs at *
    generalize hy : q.1 = ys at *
    clear a hy
    have : ∀ N : Nat, ∀ (xs ys : List BoardRecord), ∀ P : BoardRecord → BoardRecord → Prop,
      (∀ r r', P r r' → r'.binding = r.binding ∧ (jointCountOf s r - r.work.cursor)
        = (passedItems s m r r.work.cursor (r'.work.cursor - r.work.cursor)).length +
          (jointCountOf s r - r'.work.cursor)) → List.Forall₂ P xs ys →
        ((xs.zip ys).map fun p => passedItems s m p.1 p.1.work.cursor
          (p.2.work.cursor - p.1.work.cursor)).flatten.length + (ys.map fun r => jointCountOf s r - r.work.cursor).sum
            = (xs.map fun r => jointCountOf s r - r.work.cursor).sum := by
      intro _ xs ys P hP hf
      clear b
      induction hf with
      | nil => rfl
      | cons h _ ih =>
        obtain ⟨h1, h2⟩ := hP _ _ h
        simp only [List.zip_cons_cons, List.map_cons, List.flatten_cons, List.length_append, List.sum_cons]
        have : ∀ p q : BoardRecord, p.binding = q.binding → jointCountOf s p = jointCountOf s q :=
          by intro p q k; unfold jointCountOf headerOf; rw [k]
        rw [this _ _ h1]
        omega
    have := this 0 xs ys _ (fun r r' h => ⟨by rw [h.1], h.2.2.2.2.2.2⟩) b
    rw [List.length_append]
    omega
  · unfold ungranted
    rw [examine_eq, State.lane_updLane_ne _ _ e]
    rfl

theorem takeItem_ungranted (l i rest) (s : State) (h : (s.lane l).ready = i :: rest) : ungranted (takeItem l i rest s) l
    + 1 = ungranted s l ∧ ∀ m, m ≠ l → ungranted (takeItem l i rest s) m = ungranted s m := by
  unfold takeItem
  have k : WorkKept (s.updLane l fun x => { x with ready := rest })
    ((updWork l i.record (fun w => { w with queued := w.queued - 1 })
      (s.updLane l fun x => { x with ready := rest })).setPointer l.other) :=
    (WorkKept.work l i.record (fun w => { w with queued := w.queued - 1 }) (fun _ => rfl) _).trans
      ⟨rfl, fun _ => ⟨rfl, rfl⟩⟩
  refine ⟨?_, fun m hm => ?_⟩
  · rw [k.measure]
    unfold ungranted
    rw [State.lane_updLane, h]
    have jc : ∀ f, jointCountOf (s.updLane l f) = jointCountOf s := fun f => rfl
    rw [jc]
    simp; omega
  · rw [k.measure]
    unfold ungranted
    rw [State.lane_updLane_ne _ _ hm]; rfl

/-- Each grant lowers the number of joints not yet granted by one. -/
theorem grantItem_ungranted (u l i rest) (s : State) (h : (s.lane l).ready = i :: rest) :
    ungranted (grantItem u l i rest s) .a + ungranted (grantItem u l i rest s) .b + 1 = ungranted s .a + ungranted s
      .b := by
  unfold grantItem
  rw [examine_ungranted, examine_ungranted, (WorkKept.place _ _ _).measure, (WorkKept.place _ _ _).measure]
  obtain ⟨a, b⟩ := takeItem_ungranted l i rest s h
  cases l with
  | a => have := b .b (by decide); omega
  | b => have := b .a (by decide); omega

theorem grantLane_ready {s l} (h : grantLane s = some l) : (s.lane l).ready ≠ [] := by
  unfold grantLane at h
  split_ifs at h with h1 h2
  · cases h; exact h1
  · cases h; exact h2

/-- With enough turns, the grants end with no unit IDLE or no item waiting (R109). -/
theorem grantLoop_done : ∀ n (s : State), ungranted s .a + ungranted s .b ≤ n →
    (idleUnit (grantLoop n s) = none ∨ grantLane (grantLoop n s) = none) := by
  intro n
  induction n with
  | zero =>
    intro s hs
    right
    show grantLane s = none
    unfold ungranted at hs
    have : ∀ l, (s.lane l).ready = [] := by
      intro l; cases l <;> exact List.length_eq_zero_iff.1 (by omega)
    unfold grantLane; simp [this]
  | succ n ih =>
    intro s hs
    unfold grantLoop
    cases hu : idleUnit s with
    | none => exact Or.inl hu
    | some u =>
      cases hl : grantLane s with
      | none => exact Or.inr hl
      | some l =>
        dsimp only
        cases hr : (s.lane l).ready with
        | nil => exact absurd hr (grantLane_ready hl)
        | cons i rest =>
          have := grantItem_ungranted u l i rest s hr
          exact ih _ (by omega)

/-! ### Decisions by deadline and WITHDRAW, whole -/

/-- The state of a record of the lane DECIDED by deadline or WITHDRAW, in the place where it stands (R113, R114): its
items have left the queue, those on the units are discarded, and it is offered for release. -/
def decidedInPlace (c : Cause) (l : Lane) (before : List BoardRecord) (b : BoardRecord) (after : List BoardRecord)
    (s : State) : State :=
  offerRelease l
    ((s.updLane l fun x =>
      LaneState.reevaluate
        { x with
          transit := before ++ b.decideBy c (stalePolicyOf x) (jointCountOf s b) :: after
          ready := x.ready.filter fun i => !decide (i.record = b.ident) }).mapUnits fun e =>
      if e.item.lane = l ∧ e.item.record = b.ident then { e with discard := true } else e)

theorem discardItems_eq (l : Lane) (i : Nat) (s : State) : discardItems l i s = s.mapUnits fun e =>
    if e.item.lane = l ∧ e.item.record = i then { e with discard := true } else e := by
  unfold discardItems
  congr 1
  funext e
  simp [WorkItem.belongsTo]

theorem length_filter_lt {α : Type} (p : α → Bool) (xs : List α) :
    (xs.filter fun x => !p x).length < xs.length ↔ xs.any p = true := by
  induction xs with
  | nil => simp
  | cons a xs ih =>
    have := List.length_filter_le (fun x => !p x) xs
    cases h : p a
    · simp [h, ih]
    · simp [h]
      omega

/-- A decision other than by completion, whole. -/
theorem decideRecord_eq {c : Cause} (cut : c ≠ .completion) {l : Lane} {s : State} {before b after}
    (hx : (s.lane l).transit = before ++ b :: after) (hs : (s.lane l).ReleaseSound) (undecided : b.state ≠ .decided) :
    decideRecord c l b.ident s = decidedInPlace c l before b after s := by
  unfold decideRecord
  rw [record?_split hx hs]
  simp only [undecided, if_false]
  unfold decidedInPlace cutItems
  rw [if_neg cut, discardItems_eq, fixRecord, reevaluate, updLane_updLane, updLane_updLane]
  refine congrArg (offerRelease l) (congrArg _ (updLane_congr l s ?_))
  rw [mapRecord_eq hx hs]
  rfl

/-- A decision by deadline or WITHDRAW, with the examination for the places that it frees (R107). -/
theorem decideAndExamine_eq {c : Cause} (cut : c ≠ .completion) {l : Lane} {s : State} {before b after}
    (hx : (s.lane l).transit = before ++ b :: after) (hs : (s.lane l).ReleaseSound) (undecided : b.state ≠ .decided) :
    decideAndExamine c l b.ident s =
      if (s.lane l).ready.any (fun i => decide (i.record = b.ident)) = true then
        grants (examine l (decidedInPlace c l before b after s))
      else decidedInPlace c l before b after s := by
  have ready : ((decidedInPlace c l before b after s).lane l).ready
      = (s.lane l).ready.filter fun i => !decide (i.record = b.ident) := by
    unfold decidedInPlace offerRelease
    rw [((WorkKept.chain l _ _).2 l).1]
    have same : ∀ (f : Evaluation → Evaluation) (u : State), (u.mapUnits f).lane l = u.lane l := fun _ _ => rfl
    rw [same, State.lane_updLane]
    rfl
  unfold decideAndExamine
  dsimp only
  rw [decideRecord_eq cut hx hs undecided, ready]
  exact if_congr (length_filter_lt (fun i : WorkItem => decide (i.record = b.ident)) _) rfl rfl

/-! ### Examinations and grants that find nothing -/

/-- Without an idle unit, or without an item, no grant is made (R109). -/
theorem grants_none {s : State} (h : idleUnit s = none ∨ grantLane s = none) : grants s = s := by
  unfold grants
  cases ungranted s .a + ungranted s .b with
  | zero => rfl
  | succ n =>
    unfold grantLoop
    rcases h with k | k
    · rw [k]
    · rw [k]
      cases idleUnit s <;> rfl

/-- The examination of a lane without records finds nothing (R106). -/
theorem examine_empty {l : Lane} {s : State} (empty : (s.lane l).transit = []) : examine l s = s := by
  rw [examine_eq]
  refine updLane_id l s _ ?_
  rw [empty]
  show { s.lane l with transit := [], ready := (s.lane l).ready } = s.lane l
  rw [← empty]

end Sys2Proof.Machine
end

