-- ==== Sys2Proof/Laws/LaneHeads.lean ====
section
/-!
SUPPORT. The heads of a lane (R8, R43, R104): which heads `laneHeads` lists, that it lists each once, and what a change of
all their calibration records comes to.
-/

namespace Sys2Proof.Machine

variable {s : State} {l : Lane} {h : HeadId}

theorem four_mem (h : HeadId) : h ∈ Four.all := by cases h <;> decide

theorem serves_iff {o : Nat} {x : HeadPort} :
    x.serves l o = true ↔ ∃ st, x.settings = some st ∧ st.lane = some l ∧ st.laneOrder = o := by
  unfold HeadPort.serves
  cases e : x.settings <;> simp

theorem headAt_serves {o : Nat} (e : headAt s l o = some h) : (s.head h).serves l o = true :=
  List.find?_some (p := fun g => (s.head g).serves l o) e

theorem headAt_isSome {o : Nat} : (headAt s l o).isSome = true ↔ ∃ h, (s.head h).serves l o = true := by
  unfold headAt
  rw [List.find?_isSome]
  exact ⟨fun ⟨h, _, e⟩ => ⟨h, e⟩, fun ⟨h, e⟩ => ⟨h, four_mem h, e⟩⟩

theorem mem_laneHeads : h ∈ laneHeads s l ↔ headAt s l 0 = some h ∨ headAt s l 1 = some h := by
  simp [laneHeads, List.mem_filterMap]

/-- A listed head is assigned to the lane. -/
theorem laneHeads_assigned (m : h ∈ laneHeads s l) : ∃ st, (s.head h).settings = some st ∧ st.lane = some l := by
  rcases mem_laneHeads.1 m with e | e <;> obtain ⟨st, a, b, _⟩ := serves_iff.1 (headAt_serves e) <;> exact ⟨st, a, b⟩

/-- With the assignments that R43 admits, every head assigned to the lane is listed. -/
theorem laneHeads_complete (sound : HeadLanesSound s) {st : HeadSettings} (e : (s.head h).settings = some st)
    (on : st.lane = some l) : h ∈ laneHeads s l := by
  obtain ⟨low, apart, _⟩ := sound
  have here : (s.head h).serves l st.laneOrder = true := serves_iff.2 ⟨st, e, on, rfl⟩
  obtain ⟨g, hg⟩ := Option.isSome_iff_exists.1 (headAt_isSome.2 ⟨h, here⟩)
  obtain ⟨su, a, b, c⟩ := serves_iff.1 (headAt_serves hg)
  have same : g = h := by
    by_contra n
    exact apart g h su st n a e (b.trans on.symm) (by rw [b]; nofun) c
  subst same
  have := low g st e
  rw [mem_laneHeads]
  rcases Nat.le_one_iff_eq_zero_or_eq_one.1 this with z | z <;> rw [z] at hg
  · exact .inl hg
  · exact .inr hg

/-- Each head is listed once. -/
theorem laneHeads_nodup : (laneHeads s l).Nodup := by
  unfold laneHeads
  rw [List.filterMap_cons]
  cases e0 : headAt s l 0 with
  | none => cases e1 : headAt s l 1 <;> simp [e1]
  | some g =>
    cases e1 : headAt s l 1 with
    | none => simp [e1]
    | some h =>
      simp only [List.filterMap_cons, e1, List.filterMap_nil, List.nodup_cons, List.mem_singleton, List.not_mem_nil,
        not_false_eq_true, List.nodup_nil, and_true]
      intro same
      subst same
      obtain ⟨_, a, _, c⟩ := serves_iff.1 (headAt_serves e0)
      obtain ⟨_, a', _, c'⟩ := serves_iff.1 (headAt_serves e1)
      rw [a] at a'
      cases a'
      rw [c] at c'
      cases c'

/-- Which heads a lane has depends on their settings alone. -/
theorem laneHeads_congr {t : State} (e : ∀ g, (t.head g).settings = (s.head g).settings) :
    laneHeads t l = laneHeads s l := by
  unfold laneHeads headAt HeadPort.serves
  simp only [e]

/-- A change of some calibration records changes nothing else. -/
theorem updCals_frame (hs : List HeadId) (f : CalRecord → CalRecord) (s : State) :
    updCals hs f s = { s with cal := (updCals hs f s).cal } := by
  unfold updCals
  induction hs generalizing s with
  | nil => rfl
  | cons g hs ih =>
    rw [List.foldl_cons, ih (s.updCal g f)]
    rfl

/-- Each record of the list changes once, the others not. -/
theorem updCals_calOf {hs : List HeadId} (once : hs.Nodup) (f : CalRecord → CalRecord) (s : State) (g : HeadId) :
    (updCals hs f s).calOf g = if g ∈ hs then f (s.calOf g) else s.calOf g := by
  unfold updCals
  induction hs generalizing s with
  | nil => simp
  | cons h hs ih =>
    obtain ⟨fresh, once⟩ := List.nodup_cons.1 once
    rw [List.foldl_cons, ih once, State.calOf_updCal_eq]
    by_cases e : g = h
    · subst e; simp [fresh]
    · simp [e]

end Sys2Proof.Machine
end

