-- ==== Sys2Proof/Laws/LaneLeft.lean ====
section
/-!
SUPPORT. A lane that leaves RUNNING and STOPPING (R11, R22, R41, R53, R81): entering DISABLED with an empty transit queue,
and LANE_STOP ABANDON, both end with the lane left (`LaneLeft`).
-/

namespace Sys2Proof.Machine

/-! ### Telling the heads and the Calibration Unit -/

/-- What the takings of a lane stop change: heads, calibration, units, verdicts, replies, and of the lanes only what
quiet operations change. -/
structure Told (s t : State) : Prop where
  same : t = { s with
    lanes := t.lanes, heads := t.heads, cal := t.cal, pointer := t.pointer, units := t.units, verdicts := t.verdicts,
    freeCount := t.freeCount, link := { s.link with outbox := t.link.outbox } }
  lanes : ∀ m, (s.lane m).Quiet (t.lane m)

namespace Told

theorem refl (s : State) : Told s s := ⟨rfl, fun _ => .refl _⟩

theorem trans {s t u : State} (a : Told s t) (b : Told t u) : Told s u :=
  ⟨by rw [b.same, a.same], fun m => (a.lanes m).trans (b.lanes m)⟩

theorem ofHeadQuiet {h : HeadId} {s t : State} (q : HeadQuiet h s t) : Told s t := by
  have e : t = { s with
      lanes := t.lanes, cal := t.cal, pointer := t.pointer, units := t.units, verdicts := t.verdicts,
      freeCount := t.freeCount, link := { s.link with outbox := t.link.outbox } } := by
    have := q.same
    rw [this]
  exact ⟨by rw [e], q.lanes⟩

theorem headEvent (h : HeadId) (f : HeadPort → HeadPort × List HeadNotice) (s : State) :
    Told s (Machine.headEvent h f s) :=
  trans (t := s.updHead h fun _ => (f (s.head h)).1) ⟨rfl, fun _ => .refl _⟩ (ofHeadQuiet (headEvent_quiet h f s))

theorem updCals (hs : List HeadId) (f : CalRecord → CalRecord) (s : State) : Told s (Machine.updCals hs f s) := by
  rw [updCals_frame]
  exact ⟨rfl, fun _ => .refl _⟩

end Told

/-- A lane after an update of its lanes alone. -/
theorem lane_here {s t : State} {l : Lane} (f : LaneState → LaneState) (h : t.lanes = (s.updLane l f).lanes) :
    t.lane l = f (s.lane l) := by
  unfold State.lane
  rw [h]
  exact Pair.get_set ..

theorem lane_other {s t : State} {l m : Lane} (f : LaneState → LaneState) (h : t.lanes = (s.updLane l f).lanes)
    (n : m ≠ l) : t.lane m = s.lane m := by
  unfold State.lane
  rw [h]
  exact Pair.get_set_ne _ _ n

theorem takeStopNotice_told (l : Lane) (n : StopNotice) (s : State) : Told s (takeStopNotice l n s) := by
  cases n with
  | head h => exact .headEvent h _ s
  | calibration => exact .updCals _ _ s

/-- A head event leaves the head changed as its function says, and the other heads as they were. -/
theorem headEvent_head (h g : HeadId) (f : HeadPort → HeadPort × List HeadNotice) (s : State) :
    (headEvent h f s).head g = if g = h then (f (s.head h)).1 else s.head g := by
  rw [(headEvent_quiet h f s).head g]
  exact State.head_updHead_eq s h g _

theorem headEvent_calOf_ne {h g : HeadId} (f : HeadPort → HeadPort × List HeadNotice) (s : State) (n : g ≠ h) :
    (headEvent h f s).calOf g = s.calOf g := (headEvent_quiet h f s).calOf_ne n

/-- A head event starts no attempt. -/
theorem headEvent_attempt {h : HeadId} (f : HeadPort → HeadPort × List HeadNotice) {s : State} (g : HeadId)
    (none' : (s.calOf g).attempt = none) : ((headEvent h f s).calOf g).attempt = none := by
  refine takeAll_keep (P := fun u => (u.calOf g).attempt = none) (fun _ _ e => e) _ (fun n _ u e => ?_) _ none'
  have quiet : ∀ {u v : State}, Quiet u v → v.calOf g = u.calOf g := fun q => by
    have : _ = _ := congrArg State.cal q.same
    unfold State.calOf
    rw [this]
  unfold deliverNotice
  split
  · exact e
  · next l _ =>
    split
    · next x _ =>
      have : (missedReport l h x u).calOf g = u.calOf g := by unfold missedReport; split <;> rfl
      rw [this]; exact e
    · exact e
    · next front _ =>
      have e' : ((examineAndGrant l u).calOf g).attempt = none := by rw [quiet (examineAndGrant_quiet l u)]; exact e
      unfold calCollect
      split
      · exact e'
      · rw [State.calOf_updCal_eq]
        split
        · next same =>
          subst same
          have : ∀ st ring n, (CalRecord.collect st ring front n ((examineAndGrant l u).calOf g)).attempt = none := by
            intro st ring n
            cases n with
            | zero => exact e'
            | succ n => unfold CalRecord.collect; rw [e']; exact e'
          exact this _ _ _
        · exact e'

theorem stopLane_settings (x : HeadPort) : x.stopLane.1.settings = x.settings := rfl

theorem takeStopNotice_settings (l : Lane) (n : StopNotice) (s : State) (g : HeadId) :
    ((takeStopNotice l n s).head g).settings = (s.head g).settings := by
  cases n with
  | head h =>
    show ((headStop h s).head g).settings = _
    unfold headStop
    rw [headEvent_head]
    split
    · next e => subst e; rfl
    · rfl
  | calibration =>
    show ((updCals _ _ s).head g).settings = _
    rw [updCals_frame]
    rfl

/-- What the takings of a lane stop leave, where the lane holds no record and the arbiter can grant nothing. -/
structure Stood (s t : State) : Prop where
  verdicts : t.verdicts = s.verdicts
  outbox : t.link.outbox = s.link.outbox
  lanes : ∀ m, t.lane m = s.lane m
  units : t.units = s.units
  pointer : t.pointer = s.pointer
  settings : ∀ g, (t.head g).settings = (s.head g).settings

theorem Stood.refl (s : State) : Stood s s := ⟨rfl, rfl, fun _ => rfl, rfl, rfl, fun _ => rfl⟩

theorem Stood.trans {s t u : State} (a : Stood s t) (b : Stood t u) : Stood s u :=
  ⟨b.1.trans a.1, b.2.trans a.2, fun m => (b.3 m).trans (a.3 m), b.4.trans a.4, b.5.trans a.5,
    fun g => (b.6 g).trans (a.6 g)⟩

theorem Stood.idle {s t : State} (a : Stood s t) (h : idleUnit s = none ∨ grantLane s = none) :
    idleUnit t = none ∨ grantLane t = none := by
  have units : ∀ u, t.unitOf u = s.unitOf u := fun u => by
    unfold State.unitOf
    rw [a.units]
  have one : idleUnit t = idleUnit s := by
    unfold idleUnit
    simp only [units]
  have two : grantLane t = grantLane s := by
    unfold grantLane
    simp only [a.lanes, a.pointer]
  rw [one, two]
  exact h

/-- The stop of a head of the lane reports at most the settled front, which finds nothing to do. -/
theorem headStop_stood {l : Lane} {h : HeadId} {s : State} (served : headLane s h = some l)
    (empty : (s.lane l).transit = []) (idle : idleUnit s = none ∨ grantLane s = none) : Stood s (headStop h s) := by
  have start : Stood s (s.updHead h fun _ => (HeadPort.stopLane (s.head h)).1) :=
    ⟨rfl, rfl, fun _ => rfl, rfl, rfl, fun g => by
      rw [State.head_updHead_eq]
      split
      · next e => subst e; rfl
      · rfl⟩
  refine takeAll_keep (P := Stood s) (fun u k q => ⟨q.1, q.2, q.3, q.4, q.5, q.6⟩) _ (fun n hn u q => ?_) _ start
  obtain ⟨f, rfl⟩ : ∃ f, n = .frontAdvance f := by
    have : n ∈ HeadPort.frontNotice (s.head h) (HeadPort.stopLane (s.head h)).1 := hn
    unfold HeadPort.frontNotice at this
    split at this
    · cases this
    · split at this
      · exact ⟨_, List.mem_singleton.1 this⟩
      · cases this
  have lane : headLane u h = some l := by
    unfold headLane at served ⊢
    rw [q.settings]
    exact served
  unfold deliverNotice
  rw [lane]
  dsimp only
  unfold examineAndGrant
  rw [examine_empty (by rw [q.lanes]; exact empty), grants_none (q.idle idle)]
  unfold calCollect
  split
  · exact q
  · exact ⟨q.1, q.2, q.3, q.4, q.5, q.6⟩

theorem tellStop_stood {l : Lane} {s : State} (empty : (s.lane l).transit = [])
    (idle : idleUnit s = none ∨ grantLane s = none) : Stood s (tellStop l s) := by
  refine takeAll_keep (P := Stood s) (fun u k q => ⟨q.1, q.2, q.3, q.4, q.5, q.6⟩) _ (fun n hn u q => ?_) _ (.refl s)
  refine q.trans ?_
  cases n with
  | head h =>
    refine headStop_stood ?_ (by rw [q.lanes]; exact empty) (q.idle idle)
    have mem : h ∈ laneHeads s l := by
      rcases List.mem_append.1 hn with m | m
      · obtain ⟨k, hk, e⟩ := List.mem_map.1 m
        cases e
        exact hk
      · rw [List.mem_singleton] at m; cases m
    obtain ⟨st, a, b⟩ := laneHeads_assigned mem
    unfold headLane
    rw [q.settings, a]
    exact b
  | calibration =>
    show Stood u (updCals _ _ u)
    rw [updCals_frame]
    exact ⟨rfl, rfl, fun _ => rfl, rfl, rfl, fun _ => rfl⟩

/-- What the stop and the report of the front may have done to a head of the lane and to its calibration record: nothing,
the stop of the head, its report's lines collected by the attempt, the attempt voided (R53, R81). -/
def Stopping (h : HeadId) (s v : State) : Prop :=
  (∀ g, (v.head g).settings = (s.head g).settings)
    ∧ (v.head h = s.head h ∨ v.head h = (s.head h).stopLane.1)
    ∧ ∃ c, (v.calOf h = c ∨ v.calOf h = { c with attempt := none })
      ∧ (c = s.calOf h
        ∨ ∃ st front, (s.head h).settings = some st ∧ v.head h = (s.head h).stopLane.1
            ∧ (v.head h).front = some front ∧ (s.head h).front ≠ some front
            ∧ c = CalRecord.collect st (v.head h).ring front 16 (s.calOf h))

theorem stopLane_again (x : HeadPort) : x.stopLane.1.stopLane = (x.stopLane.1, []) := by
  have same : x.stopLane.1.stopLane.1 = x.stopLane.1 := rfl
  refine Prod.ext same ?_
  show HeadPort.frontNotice x.stopLane.1 x.stopLane.1.stopLane.1 = []
  rw [same]
  exact if_pos rfl

/-- The stop of a head whose front does not change changes that head alone. -/
theorem headStop_silent {h : HeadId} {s : State} (silent : (s.head h).stopLane.2 = []) :
    headStop h s = s.updHead h fun _ => (s.head h).stopLane.1 := by
  unfold headStop headEvent
  rw [silent]
  rfl

/-- The stop of a head of a lane whose front advances: the lane is examined, and the head's attempt collects. -/
theorem headStop_reports {h : HeadId} {l : Lane} {st : HeadSettings} {s : State} {front : Word}
    (set : (s.head h).settings = some st) (on : st.lane = some l)
    (reports : (s.head h).stopLane.2 = [.frontAdvance front]) :
    (headStop h s).calOf h = CalRecord.collect st (s.head h).stopLane.1.ring front 16 (s.calOf h) := by
  set u := s.updHead h fun _ => (s.head h).stopLane.1 with hu
  have here : u.head h = (s.head h).stopLane.1 := by rw [hu, State.head_updHead_eq, if_pos rfl]
  have e : headStop h s = deliverNotice h (.frontAdvance front) u := by
    unfold headStop headEvent
    rw [reports]
    rfl
  have lane : headLane u h = some l := by
    unfold headLane
    rw [here, stopLane_settings, set]
    exact on
  have q := examineAndGrant_quiet l u
  have cal : (examineAndGrant l u).calOf h = s.calOf h := by
    have : (examineAndGrant l u).cal = u.cal := by rw [q.same]
    unfold State.calOf
    rw [this]
    rfl
  rw [e]
  unfold deliverNotice
  rw [lane]
  dsimp only
  unfold calCollect
  rw [q.head, here, stopLane_settings, set]
  dsimp only
  rw [State.calOf_updCal_eq, if_pos rfl, cal]
  rfl

theorem collect_idle (st : HeadSettings) (ring : Ring) (front : Word) (n : Nat) {c : CalRecord}
    (idle : c.attempt = none) : CalRecord.collect st ring front n c = c := by
  cases n with
  | zero => rfl
  | succ n => unfold CalRecord.collect; rw [idle]

theorem frontNotice_cases (x y : HeadPort) : HeadPort.frontNotice x y = []
    ∨ ∃ f, y.front = some f ∧ x.front ≠ some f ∧ HeadPort.frontNotice x y = [.frontAdvance f] := by
  unfold HeadPort.frontNotice
  split
  · exact .inl rfl
  · next ne =>
    cases e : y.front with
    | none => exact .inl rfl
    | some f => exact .inr ⟨f, rfl, fun q => ne (by rw [e, q]), rfl⟩

/-- The stop of any head keeps the account of this one. -/
theorem headStop_stopping {l : Lane} {h : HeadId} {s v : State} (mem : h ∈ laneHeads s l) (g : HeadId)
    (p : Stopping h s v) : Stopping h s (headStop g v) := by
  obtain ⟨set, port, c, cal, from'⟩ := p
  have settings : ∀ k, ((headStop g v).head k).settings = (s.head k).settings := fun k =>
    (takeStopNotice_settings l (.head g) v k).trans (set k)
  by_cases e : g = h
  · subst e
    have after : (headStop g v).head g = (v.head g).stopLane.1 := by
      unfold headStop
      rw [headEvent_head, if_pos rfl]
    rcases port with same | stopped
    · have was : c = s.calOf g := by
        rcases from' with k | ⟨st, front, _, k1, k2, k3, _⟩
        · exact k
        · exact absurd (by rw [← same]; exact k2) k3
      subst was
      rw [same] at after
      refine ⟨settings, .inr after, ?_⟩
      rcases frontNotice_cases (s.head g) (s.head g).stopLane.1 with silent | ⟨front, now, before, reports⟩
      · refine ⟨s.calOf g, ?_, .inl rfl⟩
        rw [headStop_silent (by rw [same]; exact silent)]
        exact cal
      · obtain ⟨st, a, b⟩ := laneHeads_assigned mem
        have collected := headStop_reports (h := g) (s := v) (front := front) (by rw [same]; exact a) b
          (by rw [same]; exact reports)
        rw [same] at collected
        rcases cal with k | k
        · refine ⟨CalRecord.collect st (s.head g).stopLane.1.ring front 16 (s.calOf g), .inl ?_, .inr
            ⟨st, front, a, after, by rw [after]; exact now, before, by rw [after]⟩⟩
          rw [collected, k]
        · refine ⟨s.calOf g, .inr ?_, .inl rfl⟩
          rw [collected, k]
          exact collect_idle _ _ _ _ rfl
    · have still : (headStop g v).head g = v.head g := by rw [after, stopped, stopLane_again]
      refine ⟨settings, .inr (still.trans stopped), c, ?_, ?_⟩
      · have : headStop g v = v.updHead g fun _ => (v.head g).stopLane.1 :=
          headStop_silent (by rw [stopped, stopLane_again])
        rw [this]
        exact cal
      · rw [still]
        exact from'
  · have ne : h ≠ g := fun q => e q.symm
    have head : (headStop g v).head h = v.head h := by
      unfold headStop
      rw [headEvent_head, if_neg ne]
    have calOf : (headStop g v).calOf h = v.calOf h := headEvent_calOf_ne _ _ ne
    refine ⟨settings, by rw [head]; exact port, c, by rw [calOf]; exact cal, ?_⟩
    rw [head]
    exact from'

/-- The notices of the stop keep the account of a head of the lane. -/
theorem takeStopNotice_stopping {l : Lane} {h : HeadId} {s : State} (mem : h ∈ laneHeads s l) (n : StopNotice)
    {v : State} (p : Stopping h s v) : Stopping h s (takeStopNotice l n v) := by
  cases n with
  | head g => exact headStop_stopping mem g p
  | calibration =>
    obtain ⟨set, port, c, cal, from'⟩ := p
    have head : ∀ k, (calStop l v).head k = v.head k := fun k => by unfold calStop; rw [updCals_frame]; rfl
    have voided : (calStop l v).calOf h = { v.calOf h with attempt := none } := by
      show (updCals (laneHeads v l) CalRecord.void v).calOf h = _
      rw [updCals_calOf laneHeads_nodup, laneHeads_congr set, if_pos mem]
      rfl
    show Stopping h s (calStop l v)
    refine ⟨fun k => by rw [head, set], by rw [head]; exact port, c, .inr ?_, by rw [head]; exact from'⟩
    rw [voided]
    rcases cal with k | k <;> rw [k]

theorem tellStop_stopping {l : Lane} {h : HeadId} {s : State} (mem : h ∈ laneHeads s l) :
    Stopping h s (tellStop l s) :=
  takeAll_keep (P := Stopping h s) (fun _ _ q => q) _ (fun n _ _ q => takeStopNotice_stopping mem n q) s
    ⟨fun _ => rfl, .inl rfl, _, .inl rfl, .inl rfl⟩

theorem stopNotices_nodup (l : Lane) (s : State) :
    ((laneHeads s l).map StopNotice.head ++ [StopNotice.calibration]).Nodup := by
  rw [List.nodup_append]
  refine ⟨laneHeads_nodup.map (fun a b e => by injection e), by simp, fun a ha b hb => ?_⟩
  obtain ⟨h, _, rfl⟩ := List.mem_map.1 ha
  rw [List.mem_singleton] at hb
  subst hb
  nofun

/-- After the stop no head of the lane has an attempt (R81). -/
theorem tellStop_ended {l : Lane} {h : HeadId} {s : State} (mem : h ∈ laneHeads s l) :
    ((tellStop l s).calOf h).attempt = none := by
  refine (takeAll_once (f := takeStopNotice l) (B := fun v => ∀ g, (v.head g).settings = (s.head g).settings)
    (A := fun v => (∀ g, (v.head g).settings = (s.head g).settings) ∧ (v.calOf h).attempt = none) (a := .calibration)
    (fun _ _ e => e) (fun _ _ e => e) (fun n v _ e g => (takeStopNotice_settings l n v g).trans (e g)) (fun v e => ?_)
    (fun n v ne e => ?_) _ s (stopNotices_nodup l s) (List.mem_append_right _ (List.mem_singleton.2 rfl))
    (fun _ => rfl)).2
  · refine ⟨fun g => (takeStopNotice_settings l _ v g).trans (e g), ?_⟩
    show ((updCals (laneHeads v l) CalRecord.void v).calOf h).attempt = none
    rw [updCals_calOf laneHeads_nodup, laneHeads_congr e, if_pos mem]
    rfl
  · refine ⟨fun g => (takeStopNotice_settings l n v g).trans (e.1 g), ?_⟩
    cases n with
    | head g => exact headEvent_attempt _ h e.2
    | calibration => exact absurd rfl ne

/-- Entering DISABLED with an empty transit queue leaves the lane (R11, R22, R53, R81). -/
theorem enterDisabled_left (l : Lane) (s : State) (empty : (s.lane l).transit = []) :
    LaneLeft l s (enterDisabled l s) := by
  set u := (flushExpect l s).updLane l LaneState.disable with hu
  have shape : u = { s.updLane l (fun x => LaneState.disable { x with expect := [] }) with
      slots := releasedSlots ((s.lane l).expect.map (·.slot)) s.slots } := disable_shape l s
  have heads : ∀ g, u.head g = s.head g := fun g => by rw [shape]; rfl
  have cals : ∀ g, u.calOf g = s.calOf g := fun g => by rw [shape]; rfl
  have listed : laneHeads u l = laneHeads s l := laneHeads_congr fun g => by rw [heads]
  have here : u.lane l = LaneState.disable { s.lane l with expect := [] } :=
    lane_here (fun x => LaneState.disable { x with expect := [] }) (by rw [shape])
  have told : Told u (tellStop l u) :=
    takeAll_rel Told.refl Told.trans (fun _ _ => ⟨rfl, fun _ => .refl _⟩) (takeStopNotice_told l) _ _
  have once := stopNotices_nodup l u
  have quiet := told.lanes l
  rw [here] at quiet
  have noRecords : ((tellStop l u).lane l).transit = [] := by
    have := quiet.records
    rw [show (LaneState.disable { s.lane l with expect := [] }).transit = [] from empty] at this
    cases h : ((tellStop l u).lane l).transit with
    | nil => rfl
    | cons a as => rw [h] at this; cases this
  have asserted : ((tellStop l u).lane l).divert = true := quiet.divert rfl rfl
  show LaneLeft l s (tellStop l u)
  refine ⟨?_, fun m hm => ?_, fun n => ?_, fun h hh => ⟨?_, ?_⟩, fun h hh => ?_, fun _ idle => ?_, ?_⟩
  · have := quiet.same
    rw [noRecords, asserted] at this
    exact this
  · have := (told.lanes m).same
    have other : u.lane m = s.lane m :=
      lane_other (fun x => LaneState.disable { x with expect := [] }) (by rw [shape]) hm
    rw [other] at this
    exact this
  · have : (tellStop l u).slots = u.slots := by rw [told.same]
    unfold State.slot
    rw [this, shape]
    show (releasedSlots _ s.slots).get n = _
    rw [releasedSlots_get]
    have counts : List.count n ((s.lane l).expect.map (·.slot))
        = (s.lane l).entriesNaming n + (s.lane l).recordsNaming n := by
      simp [LaneState.entriesNaming, LaneState.recordsNaming, empty, List.count, List.countP_map]
      rfl
    rw [counts]
  · rw [← listed] at hh
    have := takeAll_once (f := takeStopNotice l) (B := fun v => v.head h = s.head h)
      (A := fun v => v.head h = (s.head h).stopLane.1) (a := .head h) (fun _ _ e => e) (fun _ _ e => e)
      (fun n v ne e => ?_) (fun v e => ?_) (fun n v ne e => ?_) _ u once
      (List.mem_append_left _ (List.mem_map_of_mem hh)) (heads h)
    · exact this.trans rfl
    · cases n with
      | head g =>
        show (headEvent g _ v).head h = _
        rw [headEvent_head, if_neg (fun q => ne (by rw [q]))]
        exact e
      | calibration => show (updCals _ _ v).head h = _; rw [updCals_frame]; exact e
    · show (headEvent h _ v).head h = _
      rw [headEvent_head, if_pos rfl, e]
    · cases n with
      | head g =>
        show (headEvent g _ v).head h = _
        rw [headEvent_head, if_neg (fun q => ne (by rw [q]))]
        exact e
      | calibration => show (updCals _ _ v).head h = _; rw [updCals_frame]; exact e
  · have mem : h ∈ laneHeads u l := listed ▸ hh
    have ended := tellStop_ended mem
    obtain ⟨_, _, c, cal, from'⟩ := tellStop_stopping mem
    refine ⟨c, ?_, ?_⟩
    · rcases cal with k | k
      · rw [k] at ended ⊢
        rw [← ended]
      · exact k
    · rw [cals, heads] at from'
      rcases from' with k | ⟨st, front, a, _, b, d, e⟩
      · exact .inl k
      · exact .inr ⟨st, front, a, b, d, e⟩
  · refine (takeAll_keep (f := takeStopNotice l) (P := fun v => (∀ g, (v.head g).settings = (s.head g).settings)
      ∧ v.head h = s.head h ∧ v.calOf h = s.calOf h) (fun _ _ e => e) _ (fun n hn v e => ?_) u
      ⟨fun g => by rw [heads], heads h, cals h⟩).2
    refine ⟨fun g => (takeStopNotice_settings l n v g).trans (e.1 g), ?_⟩
    cases n with
    | head g =>
      have ne : h ≠ g := by
        intro q
        subst q
        rcases List.mem_append.1 hn with m | m
        · obtain ⟨k, hk, q⟩ := List.mem_map.1 m
          cases q
          exact hh (listed ▸ hk)
        · rw [List.mem_singleton] at m; cases m
      refine ⟨?_, ?_⟩
      · show (headEvent g _ v).head h = _
        rw [headEvent_head, if_neg ne]; exact e.2.1
      · show (headEvent g _ v).calOf h = _
        rw [headEvent_calOf_ne _ _ ne]; exact e.2.2
    | calibration =>
      refine ⟨?_, ?_⟩
      · show (updCals _ _ v).head h = _
        rw [updCals_frame]; exact e.2.1
      · show (updCals (laneHeads v l) _ v).calOf h = _
        rw [updCals_calOf laneHeads_nodup, laneHeads_congr e.1, if_neg hh]; exact e.2.2
  · have ready : ∀ m, (u.lane m).ready = (s.lane m).ready := fun m => by
      by_cases e : m = l
      · subst e; rw [here]; rfl
      · rw [lane_other (fun x => LaneState.disable { x with expect := [] }) (by rw [shape]) e]
    have still : idleUnit u = none ∨ grantLane u = none := by
      have one : idleUnit u = idleUnit s := by rw [shape]; rfl
      have two : grantLane u = grantLane s := by
        unfold grantLane
        simp only [ready]
        rw [shape]
        rfl
      rw [one, two]
      exact idle
    have stood := tellStop_stood (l := l) (s := u) (by rw [here]; exact empty) still
    have link : (tellStop l u).link = s.link := by
      have a := stood.outbox
      have b : u.link = s.link := by rw [shape]; rfl
      rw [told.same]
      show ({ u.link with outbox := (tellStop l u).link.outbox } : LinkPort) = s.link
      rw [a, b]
    refine ⟨by rw [stood.lanes, ready], fun m hm => ?_, ?_, ?_, ?_, link⟩
    · rw [stood.lanes, lane_other (fun x => LaneState.disable { x with expect := [] }) (by rw [shape]) hm]
    · rw [stood.pointer, shape]; rfl
    · rw [stood.units, shape]; rfl
    · rw [stood.verdicts, shape]; rfl
  · rw [told.same, shape]
    rfl

/-! ### LANE_STOP ABANDON -/

theorem boundSlots_count (rs : List BoardRecord) (n : SlotId) :
    (boundSlots rs).count n = rs.countP fun r => decide (r.binding.map (·.slot) = some n) := by
  unfold boundSlots
  induction rs with
  | nil => rfl
  | cons r rs ih =>
    cases h : r.binding with
    | none => simp [h, ih]
    | some b => simp [h, ih, List.count_cons, List.countP_cons]

theorem steady_recordsNaming {rs rs' : List BoardRecord} (h : List.Forall₂ BoardRecord.Steady rs rs') (n : SlotId) :
    (rs'.countP fun r => decide (r.binding.map (·.slot) = some n))
      = rs.countP fun r => decide (r.binding.map (·.slot) = some n) := by
  induction h with
  | nil => rfl
  | cons a _ ih =>
    have : _ = _ := congrArg BoardRecord.binding a.same
    simp only [List.countP_cons, ih, this]

/-- ABANDON leaves the lane (R12, R41). -/
theorem abandonLane_left (l : Lane) (s : State) : LaneLeft l s (abandonLane l s) := by
  unfold abandonLane
  set v := abandonRecords l ((s.lane l).transit.map (·.ident)) s with hv
  have q : Quiet s v := abandonRecords_quiet l _ s
  have shape := removeAll_shape l v
  set u := removeAll l v with hu
  have here : u.lane l = LaneState.reevaluate { v.lane l with transit := [] } :=
    lane_here (fun x => LaneState.reevaluate { x with transit := [] }) (by rw [shape])
  have heads : ∀ g, u.head g = s.head g := fun g => by
    have : u.head g = v.head g := by rw [shape]; rfl
    rw [this, q.head]
  have cals : ∀ g, u.calOf g = s.calOf g := fun g => by
    have a : u.calOf g = v.calOf g := by rw [shape]; rfl
    have b : v.cal = s.cal := by rw [q.same]
    rw [a]; unfold State.calOf; rw [b]
  have listed : laneHeads u l = laneHeads s l := laneHeads_congr fun g => by rw [heads]
  obtain ⟨a, b, c, d, e, g, f⟩ := enterDisabled_left l u (by rw [here]; rfl)
  refine ⟨?_, fun m hm => ?_, fun n => ?_, fun h hh => ?_, fun h hh => ?_, fun empty idle => ?_, ?_⟩
  · rw [here] at a
    have := (q.lanes l).same
    rw [this] at a
    exact a
  · have other : u.lane m = v.lane m :=
      lane_other (fun x => LaneState.reevaluate { x with transit := [] }) (by rw [shape]) hm
    have := b m hm
    rw [other, (q.lanes m).same] at this
    exact this
  · rw [c n]
    have noRecords : (u.lane l).recordsNaming n = 0 := by rw [here]; rfl
    have entries : (u.lane l).entriesNaming n = (s.lane l).entriesNaming n := by
      rw [here, (q.lanes l).same]; rfl
    have slot : u.slot n = RecipeSlot.release^[(s.lane l).recordsNaming n] (s.slot n) := by
      unfold State.slot
      rw [shape]
      show (releasedSlots _ v.slots).get n = _
      rw [releasedSlots_get, boundSlots_count, steady_recordsNaming (q.lanes l).records, q.slots]
      rfl
    rw [noRecords, entries, slot, Nat.add_zero, ← Function.iterate_add_apply]
  · rw [← listed] at hh
    have := d h hh
    rw [heads, cals] at this
    exact this
  · rw [← listed] at hh
    have := e h hh
    rw [heads, cals] at this
    exact this
  · have none' : v = s := by rw [hv, empty]; rfl
    have shape' := shape
    rw [none'] at shape'
    have lanes : ∀ m, (u.lane m).ready = (s.lane m).ready ∧ (m ≠ l → u.lane m = s.lane m) := fun m => by
      by_cases k : m = l
      · subst k; rw [here, none']; exact ⟨rfl, fun n => absurd rfl n⟩
      · have := lane_other (s := s) (t := u) (m := m) (fun x => LaneState.reevaluate { x with transit := [] })
          (by rw [shape']) k
        exact ⟨by rw [this], fun _ => this⟩
    have still : idleUnit u = none ∨ grantLane u = none := by
      have one : idleUnit u = idleUnit s := by rw [shape']; rfl
      have two : grantLane u = grantLane s := by
        unfold grantLane
        simp only [fun m => (lanes m).1]
        rw [shape']
        rfl
      rw [one, two]
      exact idle
    obtain ⟨g1, g2, g3, g4, g5, g6⟩ := g (by rw [here]; rfl) still
    refine ⟨by rw [g1, (lanes l).1], fun m hm => by rw [g2 m hm, (lanes m).2 hm], ?_, ?_, ?_, ?_⟩
    · rw [g3, shape']; rfl
    · rw [g4, shape']; rfl
    · rw [g5, shape']; rfl
    · rw [g6, shape']; rfl
  · rw [f, shape, q.same]
    rfl

end Sys2Proof.Machine
end

