-- ==== Sys2Proof/Laws/Release.lean ====
section
/-!
SUPPORT. The release of verdicts in lane order (R151, R152, R154, R157): which records it releases, and in which order.
-/

namespace Sys2Proof.Machine

/-- Where a verdict record goes does not touch a lane. -/
theorem emitVerdict_updLane (v) (l f) (s : State) : (emitVerdict v s).updLane l f = emitVerdict v (s.updLane l f) := by
  have : (s.updLane l f).verdicts = s.verdicts := rfl
  unfold emitVerdict
  rw [this]
  cases s.verdicts.parked <;> rfl

theorem emitVerdict_lane (v) (s : State) (l) : (emitVerdict v s).lane l = s.lane l := by
  unfold emitVerdict
  cases s.verdicts.parked <;> rfl

/-- A record after its release. -/
def BoardRecord.markReleased (r : BoardRecord) : BoardRecord :=
  { r with verdictPart := { r.verdictPart with released := true } }

/-- A released record stays. -/
theorem markReleased_released (r : BoardRecord) (h : r.verdictPart.released = true) : BoardRecord.markReleased r = r :=
    by
  unfold BoardRecord.markReleased
  cases r with | mk a b c d e f g hh i j k v => cases v; simp at h; subst h; rfl

/-- The releaseChain_releases releases the unreleased DECIDED records `B`, oldest first, and stops at the first record of `held`. -/
theorem releaseChain_releases (l : Lane) (held : List BoardRecord)
    (hh : ∀ r ∈ held.head?, r.state ≠ .decided ∧ r.verdictPart.released = false)
  (B : List BoardRecord) : ∀ (n : Nat) (A : List BoardRecord) (s : State), B.length ≤ n → (s.lane l).transit
    = A ++ B ++ held →
     (∀ r ∈ A, r.verdictPart.released = true) → (∀ r ∈ B, r.verdictPart.released = false ∧ r.state = .decided) →
     (A ++ B ++ held).Pairwise (fun a b => a.ident < b.ident) →
     releaseChain n l s = B.foldl (fun u r => emitVerdict (verdictRecordOf l r) u)
       (s.updLane l fun x => { x with transit := A ++ B.map BoardRecord.markReleased ++ held }) := by
  induction B with
  | nil =>
    intro n A s _ ht ha hb hp
    simp only [List.map_nil, List.append_nil, List.foldl_nil] at *
    rw [updLane_id l s _ (by rw [← ht])]
    cases n with
    | zero => rfl
    | succ n =>
      unfold releaseChain LaneState.oldestUnreleased
      rw [ht, List.find?_append, List.find?_eq_none.2 (by simpa using ha)]
      cases held with
      | nil => rfl
      | cons r rs =>
        obtain ⟨h1, h2⟩ := hh r (by simp)
        simp only [Option.none_or, List.find?_cons, h2, Bool.not_false]
        rw [if_neg h1]
  | cons b B ih =>
    intro n A s hn ht ha hb hp
    cases n with
    | zero => simp at hn
    | succ n =>
      obtain ⟨b1, b2⟩ := hb b (by simp)
      unfold releaseChain
      have f : (s.lane l).oldestUnreleased = some b := by
        unfold LaneState.oldestUnreleased
        rw [ht, List.append_assoc, List.find?_append, List.find?_eq_none.2 (by simpa using ha)]
        simp [b1]
      rw [f]
      dsimp only
      rw [if_pos b2]
      have m : ((s.lane l).mapRecord b.ident BoardRecord.markReleased).transit = A ++ BoardRecord.markReleased b ::
        (B ++ held) := by
        have e : A ++ b :: B ++ held = A ++ b :: (B ++ held) := by simp
        rw [e, List.pairwise_append] at hp
        obtain ⟨_, p2, p3⟩ := hp
        rw [List.pairwise_cons] at p2
        unfold LaneState.mapRecord
        show (s.lane l).transit.map _ = _
        rw [ht, e, List.map_append, List.map_cons, if_pos rfl]
        congr 1
        · refine (List.map_congr_left (g := id) fun q hq => if_neg ?_).trans (List.map_id _)
          exact (p3 q hq b (List.mem_cons_self ..)).ne
        · congr 1
          refine (List.map_congr_left (g := id) fun q hq => if_neg ?_).trans (List.map_id _)
          exact (p2.1 q hq).ne'
      have rr : releaseRecord l b s = emitVerdict (verdictRecordOf l b)
        (s.updLane l fun x => x.mapRecord b.ident BoardRecord.markReleased) := rfl
      rw [rr, ih n (A ++ [BoardRecord.markReleased b]) _ (by simpa using hn)]
      · rw [emitVerdict_updLane, updLane_updLane]
        simp only [List.foldl_cons]
        congr 2
        unfold State.updLane
        simp [LaneState.mapRecord]
      · rw [emitVerdict_lane, State.lane_updLane, m]; simp
      · intro r hr
        rcases List.mem_append.1 hr with hr | hr
        · exact ha r hr
        · rw [List.mem_singleton.1 hr]; rfl
      · intro r hr; exact hb r (by simp [hr])
      · have e : A ++ b :: B ++ held = A ++ b :: (B ++ held) := by simp
        have e' : A ++ [BoardRecord.markReleased b] ++ B ++ held = A ++ BoardRecord.markReleased b :: (B ++ held) :=
          by simp
        rw [e, List.pairwise_append, List.pairwise_cons] at hp
        rw [e', List.pairwise_append, List.pairwise_cons]
        obtain ⟨p1, p2, p3⟩ := hp
        refine ⟨p1, p2, fun a ha c hc => ?_⟩
        rcases List.mem_cons.1 hc with rfl | hc
        · exact p3 a ha b (by simp)
        · exact p3 a ha c (by simp [hc])

/-- In a queue released in order, the released records stand first. -/
theorem released_first (xs : List BoardRecord)
    (h : xs.Pairwise (fun a b => (b.verdictPart.released = true → a.verdictPart.released = true))) :
   ∃ A B, xs = A ++ B ∧ (∀ r ∈ A, r.verdictPart.released = true) ∧ (∀ r ∈ B, r.verdictPart.released = false)
     ∧ xs.filter (fun r => !r.verdictPart.released) = B := by
  induction xs with
  | nil => exact ⟨[], [], by simp⟩
  | cons x xs ih =>
    rw [List.pairwise_cons] at h
    cases hx : x.verdictPart.released with
    | true =>
      obtain ⟨A, B, e, ha, hb, hf⟩ := ih h.2
      exact ⟨x :: A, B, by rw [e]; rfl, by simpa [hx] using ha, hb, by simp [hx, hf]⟩
    | false =>
      have : ∀ r ∈ xs, r.verdictPart.released = false := by
        intro r hr
        cases hq : r.verdictPart.released with
        | false => rfl
        | true => rw [h.1 r hr hq] at hx; cases hx
      exact ⟨[], x :: xs, rfl, by simp, by simpa [hx] using this, by simpa [hx] using this⟩

end Sys2Proof.Machine
end

