-- ==== Sys2Proof/Laws/Abandon.lean ====
section
/-!
SUPPORT. LANE_STOP ABANDON (R41, R153): the decisions it makes and the verdicts it releases, oldest first, and what it
takes from the ready queue and the units.
-/

namespace Sys2Proof.Machine

/-! ### Releases depend on the Verdict Unit and the outbox alone -/

theorem emitVerdict_congr (v : VerdictRecord) {s t : State} (h : t.verdicts = s.verdicts)
    (o : t.link.outbox = s.link.outbox) : (emitVerdict v t).verdicts = (emitVerdict v s).verdicts
      ∧ (emitVerdict v t).link.outbox = (emitVerdict v s).link.outbox := by
  unfold emitVerdict
  rw [h]
  cases hp : s.verdicts.parked with
  | nil => exact ⟨rfl, o⟩
  | cons tag rest =>
    refine ⟨rfl, ?_⟩
    show t.link.outbox ++ _ = s.link.outbox ++ _
    rw [o]
    rfl

theorem emitAll_congr (l : Lane) (f : BoardRecord → BoardRecord) (rs : List BoardRecord) {s t : State}
    (h : t.verdicts = s.verdicts) (o : t.link.outbox = s.link.outbox) :
    (rs.foldl (fun u b => emitVerdict (verdictRecordOf l (f b)) u) t).verdicts
        = (rs.foldl (fun u b => emitVerdict (verdictRecordOf l (f b)) u) s).verdicts
      ∧ (rs.foldl (fun u b => emitVerdict (verdictRecordOf l (f b)) u) t).link.outbox
        = (rs.foldl (fun u b => emitVerdict (verdictRecordOf l (f b)) u) s).link.outbox := by
  induction rs generalizing s t with
  | nil => exact ⟨h, o⟩
  | cons r rs ih =>
    obtain ⟨a, b⟩ := emitVerdict_congr (verdictRecordOf l (f r)) h o
    exact ih a b

/-- Some releases change the Verdict Unit and the outbox alone. -/
theorem emitAll_shape (l : Lane) (rs : List BoardRecord) (s : State) :
    ∃ u o, rs.foldl (fun u b => emitVerdict (verdictRecordOf l b) u) s
      = { s with verdicts := u, link := { s.link with outbox := o } } := by
  induction rs generalizing s with
  | nil => exact ⟨_, _, rfl⟩
  | cons r rs ih =>
    obtain ⟨u, o, h⟩ := emitVerdict_shape (verdictRecordOf l r) s
    obtain ⟨u', o', h'⟩ := ih (emitVerdict (verdictRecordOf l r) s)
    refine ⟨u', o', ?_⟩
    rw [List.foldl_cons, h', h]

/-! ### The decisions -/

/-- A record as ABANDON leaves it. -/
def abandoned (s : State) (l : Lane) (b : BoardRecord) : BoardRecord :=
  b.decideBy .abandon (stalePolicyOf (s.lane l)) (jointCountOf s b)

/-- Whether ABANDON takes a work item from queue and units: it is one of a record that it decides. -/
def abandonsItem (held : List BoardRecord) (i : WorkItem) : Bool :=
  held.any fun b => decide (b.state ≠ .decided) && decide (i.record = b.ident)

/-- What the decisions of ABANDON leave, with `held` the records not yet released. -/
structure Abandoned (l : Lane) (held : List BoardRecord) (s v : State) : Prop where
  verdicts : v.verdicts = (held.foldl (fun u b => emitVerdict (verdictRecordOf l (abandoned s l b)) u) s).verdicts
  outbox : v.link.outbox = (held.foldl (fun u b => emitVerdict (verdictRecordOf l (abandoned s l b)) u) s).link.outbox
  ready : (v.lane l).ready = (s.lane l).ready.filter fun i => !abandonsItem held i
  units : ∀ u, v.unitOf u = (s.unitOf u).map fun e =>
    if e.item.lane = l ∧ abandonsItem held e.item = true then { e with discard := true } else e
  pointer : v.pointer = s.pointer
  other : ∀ m, m ≠ l → v.lane m = s.lane m

/-- The numbers of DECIDED records are passed over. -/
theorem abandonRecords_decided (l : Lane) (rs : List BoardRecord) (s : State)
    (h : ∀ r ∈ rs, (s.lane l).record? r.ident = some r ∧ r.state = .decided) :
    abandonRecords l (rs.map (·.ident)) s = s := by
  unfold abandonRecords
  induction rs with
  | nil => rfl
  | cons r rs ih =>
    obtain ⟨a, b⟩ := h r List.mem_cons_self
    have : decideRecord .abandon l r.ident s = s := by
      unfold decideRecord
      rw [a]
      simp [b]
    rw [List.map_cons, List.foldl_cons, this]
    exact ih fun q hq => h q (List.mem_cons_of_mem _ hq)

theorem abandonRecords_append (l : Lane) (is js : List Nat) (s : State) :
    abandonRecords l (is ++ js) s = abandonRecords l js (abandonRecords l is s) := by
  unfold abandonRecords
  rw [List.foldl_append]

theorem decideBy_decided (c : Cause) (p : StalePolicy) (n : Nat) {r : BoardRecord} (h : r.state = .decided) :
    r.decideBy c p n = r := by
  unfold BoardRecord.decideBy
  rw [if_pos h]

/-- The released prefix of a queue stands; the first record that is not DECIDED is decided, and released with the DECIDED
records that follow it. -/
theorem decidedInPlace_released {l : Lane} {out more : List BoardRecord} {r : BoardRecord} {s : State}
    (ht : (s.lane l).transit = out ++ r :: more) (hs : (s.lane l).ReleaseSound)
    (done : ∀ b ∈ out, b.state = .decided ∧ b.verdictPart.released = true) (undecided : r.state ≠ .decided) :
    let free := more.takeWhile fun b => decide (b.state = .decided)
    let held := more.dropWhile fun b => decide (b.state = .decided)
    decidedInPlace .abandon l out r more s =
      (abandoned s l r :: free).foldl (fun u b => emitVerdict (verdictRecordOf l b) u)
        ((s.updLane l fun x =>
          { LaneState.reevaluate
              { x with
                transit := out ++ abandoned s l r :: more
                ready := x.ready.filter fun i => !decide (i.record = r.ident) } with
            transit := out ++ (abandoned s l r :: free).map BoardRecord.markReleased ++ held }).mapUnits fun e =>
          if e.item.lane = l ∧ e.item.record = r.ident then { e with discard := true } else e) := by
  intro free held
  have more_eq : more = free ++ held := (List.takeWhile_append_dropWhile ..).symm
  have freed : ∀ b ∈ free, b.state = .decided := fun b hb => by simpa using List.mem_takeWhile_imp hb
  have first : ∀ b ∈ held.head?, b.state ≠ .decided := fun b hb => by
    have := List.head?_dropWhile_not (fun r : BoardRecord => decide (r.state = .decided)) more
    rw [Option.mem_def.1 hb] at this
    simpa using this
  obtain ⟨pw, ev⟩ := hs
  rw [ht] at pw ev
  have unreleased : ∀ b ∈ r :: more, b.verdictPart.released = false := fun b hb => by
    have hr : r.verdictPart.released = false := by
      by_contra k
      exact undecided ((ev r (by simp)).2 (by simpa using k))
    rcases List.mem_cons.1 hb with e | m
    · rw [e]; exact hr
    · have := (List.pairwise_cons.1 (List.pairwise_append.1 pw).2.1).1 b m
      by_contra k
      exact absurd (this.2 (by simpa using k)) (by rw [hr]; nofun)
  have ident : (abandoned s l r).ident = r.ident := by
    have := (decideBy_steady .abandon (stalePolicyOf (s.lane l)) (jointCountOf s r) r).same
    unfold abandoned
    rw [this]
  have dec : (abandoned s l r).state = .decided := by
    unfold abandoned BoardRecord.decideBy
    rw [if_neg undecided]
    rfl
  have unrel : (abandoned s l r).verdictPart.released = false := by
    have : (abandoned s l r).verdictPart.released = r.verdictPart.released := by
      unfold abandoned BoardRecord.decideBy
      rw [if_neg undecided]
      rfl
    rw [this]
    exact unreleased r List.mem_cons_self
  unfold decidedInPlace offerRelease
  set w : State := (s.updLane l fun x => LaneState.reevaluate
    { x with
      transit := out ++ r.decideBy .abandon (stalePolicyOf x) (jointCountOf s r) :: more
      ready := x.ready.filter fun i => !decide (i.record = r.ident) }).mapUnits fun e =>
      if e.item.lane = l ∧ e.item.record = r.ident then { e with discard := true } else e with hw
  have queue : (w.lane l).transit = out ++ (abandoned s l r :: free) ++ held := by
    have : w.lane l = LaneState.reevaluate
      { s.lane l with
        transit := out ++ abandoned s l r :: more
        ready := (s.lane l).ready.filter fun i => !decide (i.record = r.ident) } := by
      have same : ∀ (f : Evaluation → Evaluation) (u : State), (u.mapUnits f).lane l = u.lane l := fun _ _ => rfl
      rw [hw, same]
      exact State.lane_updLane s l _
    rw [this]
    show out ++ abandoned s l r :: more = _
    conv_lhs => rw [more_eq]
    simp
  have chain := releaseChain_releases l held (fun b hb => ⟨first b hb, unreleased b (List.mem_cons_of_mem _ (by
      rw [more_eq]; exact List.mem_append_right _ (List.mem_of_mem_head? hb)))⟩) (abandoned s l r :: free)
    (w.lane l).transit.length out w (by rw [queue]; simp; omega) queue (fun b hb => (done b hb).2) (fun b hb => ?_) ?_
  · rw [chain]
    congr 1
    rw [hw]
    have swap : ∀ (f : LaneState → LaneState) (g : Evaluation → Evaluation) (u : State),
        (u.mapUnits g).updLane l f = (u.updLane l f).mapUnits g := fun _ _ _ => rfl
    rw [swap, updLane_updLane]
    rfl
  · rcases List.mem_cons.1 hb with e | m
    · rw [e]; exact ⟨unrel, dec⟩
    · exact ⟨unreleased b (List.mem_cons_of_mem _ (by rw [more_eq]; exact List.mem_append_left _ m)), freed b m⟩
  · have p : (out ++ r :: more).Pairwise fun a b => a.ident < b.ident := pw.imp fun h => h.1
    have q : out ++ (abandoned s l r :: free) ++ held = out ++ abandoned s l r :: more := by
      conv_rhs => rw [more_eq]
      simp
    rw [q]
    rw [List.pairwise_append, List.pairwise_cons] at p ⊢
    obtain ⟨p1, ⟨p2, p3⟩, p4⟩ := p
    rw [ident]
    refine ⟨p1, ⟨p2, p3⟩, fun a ha b hb => ?_⟩
    rcases List.mem_cons.1 hb with e | m
    · rw [e, ident]; exact p4 a ha r List.mem_cons_self
    · exact p4 a ha b (List.mem_cons_of_mem _ m)

theorem emitAll_lane (l m : Lane) (rs : List BoardRecord) (s : State) :
    (rs.foldl (fun u b => emitVerdict (verdictRecordOf l b) u) s).lane m = s.lane m := by
  obtain ⟨_, _, h⟩ := emitAll_shape l rs s
  rw [h]
  rfl

/-- All that the decisions of ABANDON do on a queue whose released prefix is `out` (R41 steps 1 and 2, R114, R151). -/
theorem abandonRecords_abandoned (l : Lane) : ∀ (n : Nat) (held out : List BoardRecord) (s : State), held.length ≤ n →
    (s.lane l).transit = out ++ held → (s.lane l).ReleaseSound →
    (∀ b ∈ out, b.state = .decided ∧ b.verdictPart.released = true) →
    (∀ b more, held = b :: more → b.state ≠ .decided) →
    Abandoned l held s (abandonRecords l (held.map (·.ident)) s) := by
  intro n
  induction n with
  | zero =>
    intro held out s hn
    cases List.length_eq_zero_iff.1 (Nat.le_zero.1 hn)
    intro _ _ _ _
    refine ⟨rfl, rfl, ?_, fun u => ?_, rfl, fun _ _ => rfl⟩
    · simp [abandonsItem, abandonRecords]
    · simp [abandonsItem, abandonRecords]
  | succ n ih =>
    intro held out s hn ht hs done first
    cases held with
    | nil => exact ih [] out s (Nat.zero_le _) ht hs done first
    | cons r more =>
      have undecided := first r more rfl
      set free := more.takeWhile fun b => decide (b.state = .decided) with hfree
      set later := more.dropWhile fun b => decide (b.state = .decided) with hlater
      have more_eq : more = free ++ later := (List.takeWhile_append_dropWhile ..).symm
      have freed : ∀ b ∈ free, b.state = .decided := fun b hb => by simpa using List.mem_takeWhile_imp hb
      have one := decidedInPlace_released ht hs done undecided
      dsimp only at one
      rw [← hfree, ← hlater] at one
      set base : State := (s.updLane l fun x =>
          { LaneState.reevaluate
              { x with
                transit := out ++ abandoned s l r :: more
                ready := x.ready.filter fun i => !decide (i.record = r.ident) } with
            transit := out ++ (abandoned s l r :: free).map BoardRecord.markReleased ++ later }).mapUnits (fun e =>
          if e.item.lane = l ∧ e.item.record = r.ident then { e with discard := true } else e) with hbase
      set w := decideRecord .abandon l r.ident s with hw
      have weq : w = (abandoned s l r :: free).foldl (fun u b => emitVerdict (verdictRecordOf l b) u) base := by
        rw [hw, decideRecord_eq (c := .abandon) (by decide) ht hs undecided, one]
      have lanes : ∀ m, w.lane m = base.lane m := fun m => by rw [weq, emitAll_lane]
      have here : base.lane l = { LaneState.reevaluate
              { s.lane l with
                transit := out ++ abandoned s l r :: more
                ready := (s.lane l).ready.filter fun i => !decide (i.record = r.ident) } with
            transit := out ++ (abandoned s l r :: free).map BoardRecord.markReleased ++ later } := by
        have same : ∀ (f : Evaluation → Evaluation) (u : State), (u.mapUnits f).lane l = u.lane l := fun _ _ => rfl
        rw [hbase, same, State.lane_updLane]
      have sound : (w.lane l).ReleaseSound :=
        (decideRecord_edits (d := 0) .abandon l r.ident s nofun).lane_keep LaneEdit.release_sound l hs
      have queue : (w.lane l).transit = (out ++ (abandoned s l r :: free).map BoardRecord.markReleased) ++ later := by
        rw [lanes, here]
      have released : ∀ b ∈ out ++ (abandoned s l r :: free).map BoardRecord.markReleased,
          b.state = .decided ∧ b.verdictPart.released = true := fun b hb => by
        rcases List.mem_append.1 hb with h | h
        · exact done b h
        · obtain ⟨q, hq, rfl⟩ := List.mem_map.1 h
          refine ⟨?_, rfl⟩
          show q.state = .decided
          rcases List.mem_cons.1 hq with e | m
          · rw [e]
            unfold abandoned BoardRecord.decideBy
            rw [if_neg undecided]
            rfl
          · exact freed q m
      have pass : abandonRecords l ((r :: more).map (·.ident)) s = abandonRecords l (later.map (·.ident)) w := by
        have skip : abandonRecords l (free.map (·.ident)) w = w := by
          have := abandonRecords_decided l (free.map BoardRecord.markReleased) w fun q hq => by
            have mem : q ∈ (w.lane l).transit := by
              rw [queue]
              refine List.mem_append_left _ (List.mem_append_right _ ?_)
              rw [List.map_cons]
              exact List.mem_cons_of_mem _ hq
            obtain ⟨before, after, e⟩ := List.append_of_mem mem
            refine ⟨record?_split e sound, ?_⟩
            obtain ⟨b, hb, rfl⟩ := List.mem_map.1 hq
            exact freed b hb
          rw [List.map_map] at this
          exact this
        conv_lhs => rw [List.map_cons, more_eq, List.map_append]
        show abandonRecords l (free.map (·.ident) ++ later.map (·.ident)) w = _
        rw [abandonRecords_append, skip]
      have shorter : later.length ≤ n := by
        have := congrArg List.length more_eq
        rw [List.length_append] at this
        simp only [List.length_cons] at hn
        omega
      have rest := ih later _ w shorter queue sound released (fun b k e => by
        have := List.head?_dropWhile_not (fun r : BoardRecord => decide (r.state = .decided)) more
        rw [← hlater, e] at this
        simpa using this)
      have same : ∀ b, abandoned w l b = abandoned s l b := fun b => by
        have policy : stalePolicyOf (w.lane l) = stalePolicyOf (s.lane l) := by rw [lanes, here]; rfl
        have count : jointCountOf w b = jointCountOf s b := by
          obtain ⟨u, o, h⟩ := emitAll_shape l (abandoned s l r :: free) base
          rw [weq, h]
          rfl
        unfold abandoned
        rw [policy, count]
      have whole : ∀ t : State, ((r :: more).foldl (fun u b => emitVerdict (verdictRecordOf l (abandoned s l b)) u) t)
          = later.foldl (fun u b => emitVerdict (verdictRecordOf l (abandoned s l b)) u)
              ((abandoned s l r :: free).foldl (fun u b => emitVerdict (verdictRecordOf l b) u) t) := fun t => by
        have decided : ∀ (rs : List BoardRecord), (∀ b ∈ rs, b.state = .decided) → ∀ t : State,
            rs.foldl (fun u b => emitVerdict (verdictRecordOf l (abandoned s l b)) u) t
              = rs.foldl (fun u b => emitVerdict (verdictRecordOf l b) u) t := by
          intro rs
          induction rs with
          | nil => intro _ _; rfl
          | cons b rs ih' =>
            intro hb t
            have : abandoned s l b = b := decideBy_decided _ _ _ (hb b List.mem_cons_self)
            rw [List.foldl_cons, List.foldl_cons, this]
            exact ih' (fun q hq => hb q (List.mem_cons_of_mem _ hq)) _
        conv_lhs => rw [more_eq]
        rw [List.foldl_cons, List.foldl_append, decided free freed]
        rfl
      have start := emitAll_congr l id (abandoned s l r :: free) (s := s) (t := base) rfl rfl
      have items : ∀ i, abandonsItem (r :: more) i = (decide (i.record = r.ident) || abandonsItem later i) := fun i => by
        have none' : free.any (fun b => decide (b.state ≠ .decided) && decide (i.record = b.ident)) = false := by
          rw [List.any_eq_false]
          intro b hb
          simp [freed b hb]
        unfold abandonsItem
        conv_lhs => rw [more_eq]
        rw [List.any_cons, List.any_append, none', Bool.false_or]
        simp [undecided]
      rw [pass]
      refine ⟨?_, ?_, ?_, fun u => ?_, ?_, fun m hm => ?_⟩
      · rw [rest.verdicts, whole]
        simp only [same]
        exact (emitAll_congr l (abandoned s l) later (by rw [weq]; exact start.1) (by rw [weq]; exact start.2)).1
      · rw [rest.outbox, whole]
        simp only [same]
        exact (emitAll_congr l (abandoned s l) later (by rw [weq]; exact start.1) (by rw [weq]; exact start.2)).2
      · rw [rest.ready, lanes, here]
        show ((s.lane l).ready.filter _).filter _ = _
        rw [List.filter_filter]
        refine List.filter_congr fun i _ => ?_
        rw [items]
        cases decide (i.record = r.ident) <;> cases abandonsItem later i <;> rfl
      · have unit : w.unitOf u = (s.unitOf u).map fun e =>
            if e.item.lane = l ∧ e.item.record = r.ident then { e with discard := true } else e := by
          obtain ⟨v, o, h⟩ := emitAll_shape l (abandoned s l r :: free) base
          rw [weq, h]
          cases u <;> rfl
        rw [rest.units, unit, Option.map_map]
        congr 1
        funext e
        dsimp only [Function.comp]
        rw [items]
        by_cases a : e.item.lane = l <;> by_cases b : e.item.record = r.ident <;>
          cases k : abandonsItem later e.item <;> simp [a, b, k]
      · obtain ⟨v, o, h⟩ := emitAll_shape l (abandoned s l r :: free) base
        rw [rest.pointer, weq, h]
        rfl
      · have same : ∀ (f : Evaluation → Evaluation) (u : State), (u.mapUnits f).lane m = u.lane m := fun _ _ => rfl
        rw [rest.other m hm, lanes, hbase, same, State.lane_updLane_ne _ _ hm]

/-! ### The lane is left -/

/-- All that ABANDON decides, releases and takes from queue and units, where the arbiter has made its grants. -/
theorem abandonLane_abandoned {l : Lane} {out held : List BoardRecord} {s : State}
    (ht : (s.lane l).transit = out ++ held) (hs : (s.lane l).ReleaseSound)
    (done : ∀ b ∈ out, b.state = .decided ∧ b.verdictPart.released = true)
    (first : ∀ b more, held = b :: more → b.state ≠ .decided) (idle : idleUnit s = none ∨ grantLane s = none) :
    Abandoned l held s (abandonLane l s) := by
  have passed : abandonRecords l ((s.lane l).transit.map (·.ident)) s = abandonRecords l (held.map (·.ident)) s := by
    rw [ht, List.map_append, abandonRecords_append, abandonRecords_decided l out s]
    intro b hb
    obtain ⟨before, after, e⟩ := List.append_of_mem hb
    refine ⟨record?_split (x := s.lane l) (before := before) (after := after ++ held) ?_ hs, (done b hb).1⟩
    rw [ht, e]
    simp
  have a := abandonRecords_abandoned l held.length held out s (le_refl _) ht hs done first
  unfold abandonLane
  rw [passed]
  set v := abandonRecords l (held.map (·.ident)) s with hv
  have still : idleUnit v = none ∨ grantLane v = none := by
    rcases idle with k | k
    · left
      unfold idleUnit at k ⊢
      rw [List.find?_eq_none] at k ⊢
      intro u hu q
      refine k u hu ?_
      rw [a.units] at q
      cases hm : s.unitOf u with
      | none => rfl
      | some e => rw [hm] at q; simp at q
    · right
      have none' : ∀ m, (s.lane m).ready = [] := fun m => by
        unfold grantLane at k
        split_ifs at k with k1 k2
        cases hp : s.pointer <;> rw [hp] at k1 k2 <;> cases m <;> simp_all [Lane.other]
      have nil : ∀ m, (v.lane m).ready = [] := fun m => by
        by_cases e : m = l
        · subst e; rw [a.ready, none']; rfl
        · rw [a.other m e, none']
      unfold grantLane
      simp [nil]
  have s1 := removeAll_shape l v
  set w := removeAll l v with hw
  have w_empty : (w.lane l).transit = [] := by
    rw [lane_here (fun x => LaneState.reevaluate { x with transit := [] }) (by rw [s1])]
    rfl
  have s2 := disable_shape l w
  set x := (flushExpect l w).updLane l LaneState.disable with hx
  have x_lane : x.lane l = LaneState.disable { w.lane l with expect := [] } :=
    lane_here (fun y => LaneState.disable { y with expect := [] }) (by rw [s2])
  have w_lane : w.lane l = LaneState.reevaluate { v.lane l with transit := [] } :=
    lane_here (fun y => LaneState.reevaluate { y with transit := [] }) (by rw [s1])
  have x_other : ∀ m, m ≠ l → x.lane m = v.lane m := fun m hm => by
    rw [lane_other (fun y => LaneState.disable { y with expect := [] }) (by rw [s2]) hm,
      lane_other (fun y => LaneState.reevaluate { y with transit := [] }) (by rw [s1]) hm]
  have ready : ∀ m, (x.lane m).ready = (v.lane m).ready := fun m => by
    by_cases e : m = l
    · subst e; rw [x_lane, w_lane]; rfl
    · rw [x_other m e]
  have units : x.units = v.units := by rw [s2, s1]; rfl
  have pointer : x.pointer = v.pointer := by rw [s2, s1]; rfl
  have x_idle : idleUnit x = none ∨ grantLane x = none := by
    have one : idleUnit x = idleUnit v := by
      unfold idleUnit State.unitOf
      rw [units]
    have two : grantLane x = grantLane v := by
      unfold grantLane
      simp only [ready, pointer]
    rw [one, two]
    exact still
  have st := tellStop_stood (l := l) (s := x) (by rw [x_lane]; exact w_empty) x_idle
  show Abandoned l held s (tellStop l x)
  refine ⟨?_, ?_, ?_, fun u => ?_, ?_, fun m hm => ?_⟩
  · rw [st.verdicts, ← a.verdicts, s2, s1]; rfl
  · rw [st.outbox, ← a.outbox, s2, s1]; rfl
  · rw [st.lanes, ready, a.ready]
  · rw [← a.units]
    unfold State.unitOf
    rw [st.units, units]
  · rw [st.pointer, pointer, a.pointer]
  · rw [st.lanes, x_other m hm, a.other m hm]

end Sys2Proof.Machine
end

