-- ==== Sys2Proof/Laws/Fields.lean ====
section
/-!
SUPPORT. The fields of requests and the conditions on them, as ranges of numbers (R177, R181,
R188, R189; 03, section 3.2; 05, table Header), and the slot that a recipe request names (R86).
-/

namespace Sys2Proof.Machine

/-- A one-byte field is below 256. -/
theorem fieldAt_one (p : List Byte) (k : Nat) : fieldAt p k 1 < 256 := by
  unfold fieldAt
  cases h : p.drop k with
  | nil => simp [leNat]
  | cons b bs => simp [leNat]; omega

theorem laneOf?_none {n : Nat} (h : 2 ≤ n) : laneOf? n = none := by
  match n, h with | n + 2, _ => rfl

theorem laneOf?_some {n : Nat} {l} (h : laneOf? n = some l) : n < 2 := by
  by_contra k; rw [laneOf?_none (by omega)] at h; cases h

theorem fourOf?_none {n : Nat} (h : 4 ≤ n) : Four.ofNat? n = none := by
  match n, h with | n + 4, _ => rfl

theorem fourOf?_some {n : Nat} {l} (h : Four.ofNat? n = some l) : n < 4 := by
  by_contra k; rw [fourOf?_none (by omega)] at h; cases h

theorem headLaneOf?_none {n : Nat} (h : 3 ≤ n) : headLaneOf? n = none := by
  match n, h with | n + 3, _ => rfl

theorem knownKind_iff (k : Byte) : knownKind k = true ↔ 1 ≤ k.toNat ∧ k.toNat ≤ 18 := by simp [knownKind]

theorem namesOnly_link (c : Byte) : namesOnly c linkSticky = true ↔ c.toNat < 8 := by revert c; decide +kernel

theorem namesOnly_lane (c : Byte) : namesOnly c laneSticky = true ↔ (c.toNat % 2 = 0 ∧ c.toNat < 8) :=
    by revert c; decide +kernel

theorem namesOnly_head (c : Byte) : namesOnly c headSticky = true ↔ c.toNat < 32 := by revert c; decide +kernel

theorem headSettings_inRanges_iff (st : HeadSettings) : st.inRanges
    = true ↔ (st.laneOrder ≤ 1 ∧ (64 ≤ st.samples ∧ st.samples ≤ 1024) ∧ st.zeroCol ≤ 1008 ∧ st.stepCol ≤ 1008
            ∧ (100 ≤ st.stepHeight ∧ st.stepHeight ≤ 4000) ∧ (1 ≤ st.nominalGain ∧ st.nominalGain ≤ 1023)
            ∧ (1000 ≤ st.calInterval ∧ st.calInterval ≤ 1000000) ∧ st.initialZero ≤ 4094
            ∧ (1 ≤ st.initialGain ∧ st.initialGain ≤ 1023)) := by
  simp only [HeadSettings.inRanges, within, Bool.and_eq_true, decide_eq_true_eq]; omega

theorem headSettings_regionsFit_iff (st : HeadSettings) : st.regionsFit
    = true ↔ (st.zeroCol + 15 < st.samples ∧ st.stepCol + 15 < st.samples
            ∧ ∀ c, ¬((st.zeroCol ≤ c ∧ c ≤ st.zeroCol + 15) ∧ (st.stepCol ≤ c ∧ c ≤ st.stepCol + 15))) := by
  simp only [HeadSettings.regionsFit, Bool.and_eq_true, Bool.or_eq_true, decide_eq_true_eq]
  constructor
  · intro h; exact ⟨by omega, by omega, fun c => by omega⟩
  · rintro ⟨a, b, c⟩
    have z := c st.zeroCol
    have w := c st.stepCol
    omega

theorem header_inRanges_iff (h : Header) : h.inRanges
    = true ↔ ((1 ≤ h.jointCount ∧ h.jointCount ≤ 8192) ∧ (1 ≤ h.classCount ∧ h.classCount ≤ 16)
            ∧ (1 ≤ h.boardLines ∧ h.boardLines ≤ 65535) ∧ (1 ≤ h.lineStep ∧ h.lineStep ≤ 64) ∧ h.lengthTol ≤ 65535
            ∧ (1 ≤ h.headsUsed ∧ h.headsUsed ≤ 2)) := by
  simp only [Header.inRanges, within, Bool.and_eq_true, decide_eq_true_eq]; omega

theorem sweeping_iff (h : HeadPort) : h.sweeping = true ↔ ∃ sw, h.mode = .aligning sw := by
  unfold HeadPort.sweeping; cases h.mode <;> simp

theorem headActive_iff (s h) : headActive s h = true ↔ ∃ st l, (s.head h).settings = some st ∧ st.lane = some l
    ∧ (s.lane l).mode ≠ .disabled := by
  unfold headActive headLane
  cases (s.head h).settings with
  | none => simp
  | some st => cases hl : st.lane with
    | none => simp [hl]
    | some l => simp [hl]

theorem laneActive_iff (s l) : laneActive s l = true ↔ ∃ m, l = some m ∧ (s.lane m).mode ≠ .disabled := by
  cases l <;> simp [laneActive]

/-- A recipe request that names no slot is refused RANGE. -/
theorem onSlot_none {kind tag p body s} (h : 4 ≤ fieldAt p 0 1) : onSlot kind tag p body s = replyRefused kind tag
    .range [] s := by
  unfold onSlot; rw [fourOf?_none h]

/-- A recipe request on a CLOSING slot is refused BUSY (R86). -/
theorem onSlot_busy {kind tag p body n s} (h : Four.ofNat? (fieldAt p 0 1) = some n) (c : (s.slot n).state = .closing) :
    onSlot kind tag p body s = replyRefused kind tag .busy [] s := by
  unfold onSlot; rw [h]; dsimp only; rw [if_pos c]

/-- A recipe request on any other slot is handled by its own rules. -/
theorem onSlot_here {kind tag p body n s} (h : Four.ofNat? (fieldAt p 0 1) = some n) (c : (s.slot n).state ≠ .closing) :
    onSlot kind tag p body s = body n s := by
  unfold onSlot; rw [h]; dsimp only; rw [if_neg c]

end Sys2Proof.Machine
end

