-- ==== Sys2Proof/Laws/Reached.lean ====
section
/-!
SUPPORT. The events of the watched positions already reached (R4): what their takings leave alone (`Waned`), the order in
which they are taken, and that when all have been taken no deadline is left that is reached and not taken.
-/

namespace Sys2Proof.Machine

/-! ### Takings in a free order are takings in some order -/

/-- One place of a list, and the rest of it. -/
theorem perm_eraseIdx {α : Type} {ws : List α} {k : Nat} {a : α} (h : ws[k]? = some a) :
    (a :: ws.eraseIdx k).Perm ws := by
  induction ws generalizing k with
  | nil => cases h
  | cons w ws ih =>
    cases k with
    | zero => exact (Option.some.inj h) ▸ List.Perm.refl _
    | succ k => exact (List.Perm.swap _ _ _).trans ((ih h).cons w)

theorem takeInAnyOrder_inOrder {α : Type} (f : α → State → State) (n : Nat) (ws : List α) (s : State)
    (all : ws.length ≤ n) : ∃ order, order.Perm ws ∧ takeInAnyOrder f n ws s = takeInOrder f order s := by
  induction n generalizing ws s with
  | zero =>
    have : ws = [] := List.length_eq_zero_iff.mp (Nat.le_zero.mp all)
    subst this
    exact ⟨[], .refl _, rfl⟩
  | succ n ih =>
    match ws with
    | [] => exact ⟨[], .refl _, rfl⟩
    | [a] => exact ⟨[a], .refl _, rfl⟩
    | a :: b :: rest =>
      simp only [takeInAnyOrder]
      generalize hk : Config.freeOrder s.freeCount % (a :: b :: rest).length = k
      have lt : k < (a :: b :: rest).length := hk ▸ Nat.mod_lt _ (by simp)
      obtain ⟨x, hx⟩ : ∃ x, (a :: b :: rest)[k]? = some x := ⟨_, List.getElem?_eq_getElem lt⟩
      rw [hx]
      obtain ⟨order, perm, e⟩ := ih ((a :: b :: rest).eraseIdx k) (f x { s with freeCount := s.freeCount + 1 })
        (by rw [List.length_eraseIdx_of_lt lt]; omega)
      have len : order.length = rest.length + 1 := by
        rw [perm.length_eq, List.length_eraseIdx_of_lt lt]; simp
      obtain ⟨y, ys, rfl⟩ := List.exists_cons_of_length_eq_add_one len
      exact ⟨x :: y :: ys, (perm.cons x).trans (perm_eraseIdx hx), e⟩

/-- All of some waiting takings are taken in some order. -/
theorem takeAll_inOrder {α : Type} (f : α → State → State) (ws : List α) (s : State) :
    ∃ order, order.Perm ws ∧ takeAll f ws s = takeInOrder f order s :=
  takeInAnyOrder_inOrder f ws.length ws s le_rfl

/-! ### What the takings leave alone -/

/-- The leading edges of the records that are not DECIDED. -/
def LaneState.openLeads (x : LaneState) : List Word :=
  (x.transit.filter fun r => decide (r.state ≠ .decided)).map fun r => r.pLead

/-- The belt, the settings and the eye stay, and no record that is not DECIDED comes. -/
structure LaneState.Waned (x y : LaneState) : Prop where
  enc : y.enc = x.enc
  reversed : y.reversed = x.reversed
  fault : y.encoderFault = x.encoderFault
  settings : y.settings = x.settings
  eye : y.eyeBlocked = x.eyeBlocked
  leads : y.openLeads.Sublist x.openLeads

/-- Every lane has waned, no time has passed, and of the Link Port only replies have come. -/
structure Waned (s t : State) : Prop where
  lanes : ∀ m, (s.lane m).Waned (t.lane m)
  now : t.now = s.now
  reset : t.resetAsserted = s.resetAsserted
  link : t.link = { s.link with outbox := t.link.outbox }

theorem LaneState.Waned.refl (x : LaneState) : x.Waned x := ⟨rfl, rfl, rfl, rfl, rfl, .refl _⟩

theorem LaneState.Waned.trans {x y z : LaneState} (h : x.Waned y) (g : y.Waned z) : x.Waned z :=
  ⟨g.enc.trans h.enc, g.reversed.trans h.reversed, g.fault.trans h.fault, g.settings.trans h.settings,
    g.eye.trans h.eye, g.leads.trans h.leads⟩

namespace Waned

theorem refl (s : State) : Waned s s := ⟨fun _ => .refl _, rfl, rfl, rfl⟩

theorem trans {s t u : State} (h : Waned s t) (g : Waned t u) : Waned s u :=
  ⟨fun m => (h.lanes m).trans (g.lanes m), g.now.trans h.now, g.reset.trans h.reset, by rw [g.link, h.link]⟩

theorem lane (s : State) (l : Lane) (f : LaneState → LaneState) (h : (s.lane l).Waned (f (s.lane l))) :
    Waned s (s.updLane l f) := by
  refine ⟨fun m => ?_, rfl, rfl, rfl⟩
  unfold State.lane at *
  rw [State.updLane_lanes, Pair.get_set_eq]
  split
  · next e => subst e; exact h
  · exact .refl _

theorem outside {s t : State} (h : t.lanes = s.lanes) (now : t.now = s.now)
    (reset : t.resetAsserted = s.resetAsserted) (link : t.link = s.link) : Waned s t := by
  refine ⟨fun m => ?_, now, reset, by rw [link]⟩
  unfold State.lane
  rw [h]
  exact .refl _

end Waned

theorem steady_leads {a b : List BoardRecord} (h : List.Forall₂ BoardRecord.Steady a b) :
    ((b.filter fun r => decide (r.state ≠ .decided)).map fun r => r.pLead).Sublist
      ((a.filter fun r => decide (r.state ≠ .decided)).map fun r => r.pLead) := by
  induction h with
  | nil => exact .refl _
  | @cons r r' as bs k _ ih =>
    have lead : r'.pLead = r.pLead := by rw [k.same]
    by_cases d : r.state = .decided
    · simpa [List.filter_cons, d, (k.decided d).1] using ih
    · by_cases d' : r'.state = .decided
      · simp only [List.filter_cons, d, d', ne_eq, not_true_eq_false, not_false_eq_true, decide_true, decide_false,
          if_true, List.map_cons]
        exact .cons _ ih
      · simp only [List.filter_cons, d, d', ne_eq, not_false_eq_true, decide_true, if_true, List.map_cons, lead]
        exact .cons_cons _ ih

theorem Near.waned {s t : State} (h : Near s t) : Waned s t := by
  refine ⟨fun m => ?_, by rw [h.same], by rw [h.same], by rw [h.same]⟩
  have e := (h.lanes m).same
  exact ⟨by rw [e], by rw [e], by rw [e], by rw [e], by rw [e], steady_leads (h.lanes m).records⟩

theorem Quiet.waned {s t : State} (h : Quiet s t) : Waned s t := (Near.ofQuiet h).waned

theorem issueTrigger_waned (l : Lane) (s : State) : Waned s (issueTrigger l s) := by
  unfold issueTrigger
  split
  · split
    · exact (Waned.lane s l _ ⟨rfl, rfl, rfl, rfl, rfl, .refl _⟩).trans
        (takeAll_rel .refl .trans (fun _ _ => .ofQuiet ⟨rfl, fun _ => .refl _⟩) (Near.takeTriggerAt l _ _) _ _ :
          Near _ _).waned
    · exact .refl s
  · exact .refl s

theorem takeDeadline_waned (l : Lane) (s : State) : Waned s (takeDeadline l s) := by
  unfold takeDeadline
  split
  · exact .refl s
  · exact (decideAndExamine_quiet _ _ _ _).waned

theorem takeGateStart_waned (l : Lane) (s : State) : Waned s (takeGateStart l s) := by
  unfold takeGateStart
  split
  · exact .refl s
  · next r _ =>
    rw [enterWindow, reevaluate, updLane_updLane]
    refine Waned.lane s l _ ⟨rfl, rfl, rfl, rfl, rfl, ?_⟩
    show ((((s.lane l).transit.map fun q => if q.ident = r.ident then { q with inWindow := true } else q).filter
      fun r => decide (r.state ≠ .decided)).map fun r => r.pLead).Sublist _
    unfold LaneState.openLeads
    generalize (s.lane l).transit = rs
    induction rs with
    | nil => exact .refl _
    | cons q rs ih =>
      have h : (if q.ident = r.ident then { q with inWindow := true } else q).state = q.state := by split <;> rfl
      have g : (if q.ident = r.ident then { q with inWindow := true } else q).pLead = q.pLead := by split <;> rfl
      simp only [List.map_cons, List.filter_cons, h]
      split
      · simp only [List.map_cons, g]
        exact .cons_cons _ ih
      · exact ih

theorem endFlood_waned (l : Lane) (s : State) : Waned s (endFlood l s) := by
  rw [endFlood, reevaluate, updLane_updLane]
  exact Waned.lane s l _ ⟨rfl, rfl, rfl, rfl, rfl, .refl _⟩

theorem tellStop_near (l : Lane) (s : State) : Near s (tellStop l s) := by
  refine takeAll_rel .refl .trans (fun _ _ => .ofQuiet ⟨rfl, fun _ => .refl _⟩) (fun n s => ?_) _ _
  cases n with
  | head h => exact (Near.updHead h _ s).trans (.ofHeadQuiet (headEvent_quiet h _ s))
  | calibration => exact Near.updCals _ _ s

theorem enterDisabled_waned (l : Lane) (s : State) : Waned s (enterDisabled l s) := by
  unfold enterDisabled
  have left : Waned s ((flushExpect l s).updLane l LaneState.disable) := by
    rw [disable_shape]
    exact Waned.trans (t := s.updLane l fun x => LaneState.disable { x with expect := [] })
      (Waned.lane s l _ ⟨rfl, rfl, rfl, rfl, rfl, .refl _⟩) (.outside rfl rfl rfl rfl)
  exact left.trans (tellStop_near l _).waned

theorem removeFront_waned (l : Lane) (s : State) : Waned s (removeFront l s) := by
  unfold removeFront
  split
  · next r rest st front _ =>
    split
    · exact .refl s
    · split
      · have dropped : Waned s (dropFront l r rest s) := by
          rw [dropFront_shape]
          refine Waned.trans (t := s.updLane l fun x => LaneState.reevaluate { x with transit := rest })
            (Waned.lane s l _ ⟨rfl, rfl, rfl, rfl, rfl, ?_⟩) (.outside rfl rfl rfl rfl)
          unfold LaneState.openLeads
          rw [front]
          exact ((List.sublist_cons_self r rest).filter _).map _
        refine dropped.trans ?_
        unfold afterRemoval
        have stopped : ∀ s, Waned s (stopIfEmpty l s) := by
          intro s
          unfold stopIfEmpty
          split
          · exact enterDisabled_waned l s
          · exact .refl s
        split
        · exact (endFlood_waned l _).trans (stopped _)
        · exact stopped _
      · exact .refl s
  · exact .refl s

theorem takeFloodEnd_waned (l : Lane) (s : State) : Waned s (takeFloodEnd l s) := by
  unfold takeFloodEnd
  split
  · exact .refl s
  · exact .refl s
  · exact .refl s
  · split
    · split
      · exact endFlood_waned l s
      · exact Waned.lane s l _ ⟨rfl, rfl, rfl, rfl, rfl, .refl _⟩
    · exact .refl s

/-- No event of a watched position counts the belt, moves the eye or brings a record (R4). -/
theorem takeWatched_waned (l : Lane) (w : Watched) (s : State) : Waned s (takeWatched l w s) := by
  cases w with
  | trigger => exact issueTrigger_waned l s
  | deadline => exact takeDeadline_waned l s
  | gateStart => exact takeGateStart_waned l s
  | gateEnd => exact removeFront_waned l s
  | floodEnd => exact takeFloodEnd_waned l s

/-- The events already reached, taken: the belt, the time, RESET_N and what the receiver holds stay (R4). -/
theorem takeReached_waned (s : State) : Waned s (takeReached s) := by
  unfold takeReached
  split
  · exact .refl s
  · exact takeAll_rel (f := fun e : Lane × Watched => takeWatched e.1 e.2) .refl .trans (fun _ _ => .outside rfl rfl rfl rfl)
      (fun e s => takeWatched_waned e.1 e.2 s) _ _

/-! ### Deadlines -/

/-- A record that is not DECIDED and whose deadline is reached. -/
def deadlineDue (st : LaneSettings) (position : Word) (r : BoardRecord) : Bool :=
  decide (r.state ≠ .decided) && reached position (deadlineOf st r)

/-- The deadlines of a lane that are reached and not yet taken. -/
def LaneState.dueDeadlines (x : LaneState) : Nat :=
  match x.settings with
  | none => 0
  | some st => x.transit.countP (deadlineDue st x.enc.position)

theorem dueDeadline_none {x : LaneState} (h : x.dueDeadlines = 0) : dueDeadline x = none := by
  unfold LaneState.dueDeadlines at h
  unfold dueDeadline
  split
  · rfl
  · next st hst =>
    rw [hst] at h
    rw [List.find?_eq_none]
    exact fun r hr => List.countP_eq_zero.1 h r hr

/-- A deadline counts by its leading edge alone. -/
theorem dueDeadlines_leads (x : LaneState) : x.dueDeadlines = match x.settings with
    | none => 0
    | some st => x.openLeads.countP fun p => reached x.enc.position (ahead p (st.dGate - st.gateLead)) := by
  unfold LaneState.dueDeadlines
  split
  · rfl
  · next st _ =>
    unfold LaneState.openLeads
    generalize x.transit = rs
    induction rs with
    | nil => rfl
    | cons r rs ih =>
      rw [List.countP_cons, ih, List.filter_cons]
      by_cases d : r.state = .decided
      · simp [d, deadlineDue]
      · simp [d, deadlineDue, deadlineOf, List.countP_cons]

theorem LaneState.Waned.deadlines {x y : LaneState} (h : x.Waned y) : y.dueDeadlines ≤ x.dueDeadlines := by
  rw [dueDeadlines_leads, dueDeadlines_leads, h.settings, h.enc]
  split
  · exact le_rfl
  · exact h.leads.countP_le

/-- A change that leaves no new record due, and one fewer. -/
theorem countP_map_lt {p : BoardRecord → Bool} {g : BoardRecord → BoardRecord} {rs : List BoardRecord} {r : BoardRecord}
    (less : ∀ q, p (g q) = true → p q = true) (mem : r ∈ rs) (was : p r = true) (isnt : p (g r) = false) :
    (rs.map g).countP p < rs.countP p := by
  have le : ∀ rs : List BoardRecord, (rs.map g).countP p ≤ rs.countP p := by
    intro rs
    rw [List.countP_map]
    exact List.countP_mono_left fun q _ h => less q h
  induction rs with
  | nil => cases mem
  | cons q rs ih =>
    rw [List.map_cons, List.countP_cons, List.countP_cons]
    rcases List.mem_cons.1 mem with rfl | m
    · have := le rs
      rw [if_neg (by simp [isnt]), if_pos was]
      omega
    · have := ih m
      by_cases k : p (g q) = true
      · rw [if_pos k, if_pos (less q k)]
        omega
      · rw [if_neg k]
        omega

/-- Record numbers name one record each. -/
theorem record?_of_mem {x : LaneState} (h : x.ReleaseSound) {r : BoardRecord} (m : r ∈ x.transit) :
    x.record? r.ident = some r := by
  have one : x.transit.Pairwise fun a b => a.ident < b.ident := h.1.imp fun k => k.1
  unfold LaneState.record?
  generalize x.transit = rs at one m
  induction rs with
  | nil => cases m
  | cons q rs ih =>
    rw [List.pairwise_cons] at one
    rcases List.mem_cons.1 m with rfl | m
    · simp
    · have := one.1 r m
      rw [List.find?_cons, show decide (q.ident = r.ident) = false by simp; omega]
      exact ih one.2 m

/-- A deadline taken is one fewer (R37). -/
theorem takeDeadline_deadlines (l : Lane) (s : State) (h : (s.lane l).ReleaseSound) :
    ((takeDeadline l s).lane l).dueDeadlines ≤ (s.lane l).dueDeadlines - 1 := by
  unfold takeDeadline
  split
  · next none =>
    have : (s.lane l).dueDeadlines = 0 := by
      unfold LaneState.dueDeadlines
      split
      · rfl
      · next st hst =>
        unfold dueDeadline at none
        rw [hst] at none
        exact List.countP_eq_zero.2 fun r hr => List.find?_eq_none.1 none r hr
    omega
  · next r found =>
    unfold dueDeadline at found
    cases hst : (s.lane l).settings with
    | none => rw [hst] at found; cases found
    | some st =>
      rw [hst] at found
      have due : deadlineDue st (s.lane l).enc.position r = true := List.find?_some found
      have mem := List.mem_of_find?_eq_some found
      have undecided : r.state ≠ .decided := by
        simp only [deadlineDue, Bool.and_eq_true, decide_eq_true_eq] at due
        exact due.1
      have fixed : ((fixRecord .deadline l r.ident s).lane l).dueDeadlines < (s.lane l).dueDeadlines := by
        rw [fixRecord, reevaluate, updLane_updLane, State.lane_updLane]
        unfold LaneState.dueDeadlines LaneState.reevaluate LaneState.mapRecord
        simp only [hst]
        refine countP_map_lt (fun q k => ?_) mem due ?_
        · split at k
          · unfold BoardRecord.decideBy at k
            split at k
            · exact k
            · simp [deadlineDue, BoardRecord.fix] at k
          · exact k
        · rw [if_pos rfl]
          unfold BoardRecord.decideBy
          rw [if_neg undecided]
          simp [deadlineDue, BoardRecord.fix]
      have rest : Quiet (fixRecord .deadline l r.ident s) (decideAndExamine .deadline l r.ident s) := by
        have decided : decideRecord .deadline l r.ident s
            = offerRelease l (cutItems .deadline l r.ident (fixRecord .deadline l r.ident s)) := by
          unfold decideRecord
          rw [record?_of_mem h mem]
          exact if_neg undecided
        have q : Quiet (fixRecord .deadline l r.ident s) (decideRecord .deadline l r.ident s) := by
          rw [decided]
          exact (cutItems_quiet _ _ _ _).trans (offerRelease_quiet _ _)
        unfold decideAndExamine
        dsimp only
        split
        · exact q.trans (examineAndGrant_quiet l _)
        · exact q
      have := (rest.waned.lanes l).deadlines
      omega

theorem count_ite {c : Prop} [Decidable c] {a b : Watched} :
    (if c then [a] else []).count b = if c ∧ a = b then 1 else 0 := by
  by_cases h : c <;> by_cases e : a = b <;> simp [h, e]

theorem dueOfRecord_deadlines (st : LaneSettings) (p : Word) (r : BoardRecord) :
    (dueOfRecord st p r).count .deadline = if deadlineDue st p r then 1 else 0 := by
  unfold dueOfRecord deadlineDue
  rw [List.count_append, List.count_append, count_ite, count_ite]
  cases gateEnd? st r with
  | none => by_cases d : r.state = .decided <;> simp [d]
  | some q =>
    simp only [count_ite]
    by_cases d : r.state = .decided <;> simp [d]

/-- The events reached name each deadline that is reached and not yet taken. -/
theorem dueEvents_deadlines (x : LaneState) : (dueEvents x).count .deadline = x.dueDeadlines := by
  unfold dueEvents LaneState.dueDeadlines
  rw [List.count_append, List.count_append, count_ite]
  have flood : ∀ f : FloodEnd, (match f with
      | .position p => if reached x.enc.position p then [Watched.floodEnd] else []
      | .absent => []
      | .opened => []
      | .passed => []).count Watched.deadline = 0 := by
    intro f
    cases f <;> simp [count_ite]
  have records : ∀ (st : LaneSettings) (rs : List BoardRecord),
      (rs.flatMap (dueOfRecord st x.enc.position)).count .deadline = rs.countP (deadlineDue st x.enc.position) := by
    intro st rs
    induction rs with
    | nil => rfl
    | cons r rs ih =>
      rw [List.flatMap_cons, List.count_append, List.countP_cons, dueOfRecord_deadlines]
      omega
  have f := flood x.floodEnd
  cases hf : x.floodEnd <;> rw [hf] at f <;> cases hs : x.settings <;> simp_all [count_ite]

/-- When every event reached has been taken, no deadline is left that is reached and not taken (R4, R37). -/
theorem takeReached_settles (s : State) (service : s.resetAsserted = false) (h : ∀ m, (s.lane m).ReleaseSound)
    (l : Lane) : dueDeadline ((takeReached s).lane l) = none := by
  refine dueDeadline_none ?_
  unfold takeReached
  rw [if_neg (by simp [service])]
  obtain ⟨order, perm, e⟩ := takeAll_inOrder (fun e : Lane × Watched => takeWatched e.1 e.2) (reachedEvents s) s
  rw [e]
  have fall : ∀ (order : List (Lane × Watched)) (s : State), (∀ m, (s.lane m).ReleaseSound) →
      ((takeInOrder (fun e : Lane × Watched => takeWatched e.1 e.2) order s).lane l).dueDeadlines
        ≤ (s.lane l).dueDeadlines - order.count (l, .deadline) := by
    have each : ∀ (e : Lane × Watched) (s : State), (∀ m, (s.lane m).ReleaseSound) →
        ((takeWatched e.1 e.2 s).lane l).dueDeadlines
          ≤ (s.lane l).dueDeadlines - (if e = (l, .deadline) then 1 else 0) := by
      intro e s h
      split
      · next k => rw [k]; exact takeDeadline_deadlines l s (h l)
      · exact ((takeWatched_waned e.1 e.2 s).lanes l).deadlines
    have keeps : ∀ (e : Lane × Watched) (s : State), (∀ m, (s.lane m).ReleaseSound) →
        ∀ m, ((takeWatched e.1 e.2 s).lane m).ReleaseSound := fun e s h m =>
      (takeWatched_edits (d := 0) e.1 e.2 s).lane_keep LaneEdit.release_sound m (h m)
    intro order
    induction order with
    | nil => intro s _; exact le_rfl
    | cons a rest ih =>
      intro s h
      cases rest with
      | nil =>
        have := each a s h
        simpa [takeInOrder, List.count_cons] using this
      | cons b rest =>
        have h' : ∀ m, (({ s with freeCount := s.freeCount + 1 } : State).lane m).ReleaseSound := h
        have k : ((takeWatched a.1 a.2 { s with freeCount := s.freeCount + 1 }).lane l).dueDeadlines
            ≤ (s.lane l).dueDeadlines - (if a = (l, .deadline) then 1 else 0) := each a _ h'
        have i := ih _ (keeps a _ h')
        rw [List.count_cons]
        simp only [takeInOrder, beq_iff_eq] at i ⊢
        omega
  have k := fall order s h
  have c : order.count (l, Watched.deadline) = (s.lane l).dueDeadlines := by
    rw [perm.count_eq]
    unfold reachedEvents
    rw [List.count_append, ← dueEvents_deadlines]
    have tagged : ∀ (m : Lane) (ws : List Watched), (ws.map fun w => (m, w)).count (l, .deadline)
        = if m = l then ws.count .deadline else 0 := by
      intro m ws
      induction ws with
      | nil => split <;> rfl
      | cons w ws ih =>
        rw [List.map_cons, List.count_cons, ih, List.count_cons]
        by_cases e : m = l <;> simp [e]
    rw [tagged, tagged]
    cases l <;> simp
  omega

end Sys2Proof.Machine
end

