-- ==== Sys2Proof/Laws/Joints.lean ====
section
/-!
SUPPORT. The accounting of a record's joints (R118), lane by lane: what each kind of change of a lane keeps of it.
-/

namespace Sys2Proof.Machine

/-! ### Counts -/

theorem Counts.sum_add (o : JointOutcome) (n : Nat) (c : Counts) : (c.add o n).sum = c.sum + n := by
  cases o <;> simp only [Counts.add, Counts.sum] <;> omega

theorem VerdictFields.sum_takeOutcome (o : OutcomeRecord) (v : VerdictFields) :
    (v.takeOutcome o).counts.sum = v.counts.sum + 1 := by
  unfold VerdictFields.takeOutcome VerdictFields.addDefect
  dsimp only
  split
  · split <;> exact Counts.sum_add _ _ _
  · exact Counts.sum_add _ _ _

/-! ### Records that keep their accounting -/

/-- A record keeps what its accounting speaks of: its number, its binding, its work fields and its counts; it becomes
neither ENTERING, nor DECIDED, nor complete. -/
structure BoardRecord.Idle (r r' : BoardRecord) : Prop where
  ident : r'.ident = r.ident
  binding : r'.binding = r.binding
  work : r'.work = r.work
  counts : r'.verdictPart.counts = r.verdictPart.counts
  entering : r'.state = .entering → r.state = .entering
  decided : r'.state = .decided → r.state = .decided
  complete : r'.jointsComplete = true → r.jointsComplete = true

theorem BoardRecord.Idle.refl (r : BoardRecord) : r.Idle r := ⟨rfl, rfl, rfl, rfl, id, id, id⟩

theorem BoardRecord.Idle.trans {a b c : BoardRecord} (h : a.Idle b) (g : b.Idle c) : a.Idle c :=
  ⟨g.ident.trans h.ident, g.binding.trans h.binding, g.work.trans h.work, g.counts.trans h.counts,
    fun k => h.entering (g.entering k), fun k => h.decided (g.decided k), fun k => h.complete (g.complete k)⟩

theorem BoardRecord.Idle.accounted {r r' : BoardRecord} {n q f : Nat} (h : r.Idle r') (a : r.Accounted n q f) :
    r'.Accounted n q f := by
  obtain ⟨a1, a2, a3, a4, a5, a6⟩ := a
  unfold BoardRecord.Accounted
  rw [h.work, h.counts]
  exact ⟨a1, a2, a3, a4, fun e => a5 (h.entering e), fun d => a6 (d.imp h.decided h.complete)⟩

/-- The ready queue stays, and every record keeps its accounting. -/
structure LaneState.Still (x y : LaneState) : Prop where
  ready : y.ready = x.ready
  records : List.Forall₂ BoardRecord.Idle x.transit y.transit

theorem idle_refl (rs : List BoardRecord) : List.Forall₂ BoardRecord.Idle rs rs :=
  List.forall₂_same.2 fun r _ => .refl r

theorem LaneState.Still.refl (x : LaneState) : x.Still x := ⟨rfl, idle_refl _⟩

theorem LaneState.still_map (x : LaneState) (f : BoardRecord → BoardRecord) (h : ∀ r : BoardRecord, r.Idle (f r)) :
    x.Still { x with transit := x.transit.map f } := ⟨rfl, forall₂_map f h _⟩

theorem LaneState.still_mapRecord (x : LaneState) (i : Nat) (f : BoardRecord → BoardRecord)
    (h : ∀ r : BoardRecord, r.Idle (f r)) : x.Still (x.mapRecord i f) :=
  still_map x _ fun r => by
    split
    · exact h r
    · exact .refl r

theorem jointCountOf_binding (s : State) {r r' : BoardRecord} (h : r'.binding = r.binding) :
    jointCountOf s r' = jointCountOf s r := by
  unfold jointCountOf headerOf
  rw [h]

namespace LaneState

variable {jc : BoardRecord → Nat} {held held' : Nat → Nat} {l : Lane} {x y : LaneState}

/-- An accounting speaks of the joint counts of the lane's records, and of what is held of each record. -/
theorem JointsSound.congr {jc' : BoardRecord → Nat} (h : x.JointsSound jc held l)
    (j : ∀ r ∈ x.transit, jc' r = jc r) (hh : ∀ i, held' i = held i) : x.JointsSound jc' held' l := by
  obtain ⟨a, b, c⟩ := h
  exact ⟨fun r hr => by rw [j r hr, hh]; exact a r hr, b, fun i k => c i (by rw [← hh]; exact k)⟩

theorem JointsSound.still (h : x.JointsSound jc held l) (s : x.Still y)
    (j : ∀ r r' : BoardRecord, r'.binding = r.binding → jc r' = jc r) : y.JointsSound jc held l := by
  obtain ⟨a, b, c⟩ := h
  have forth : ∀ {as bs : List BoardRecord}, List.Forall₂ BoardRecord.Idle as bs → ∀ r ∈ as,
      ∃ r' ∈ bs, r'.ident = r.ident := by
    intro as bs h
    induction h with
    | nil => exact fun _ m => nomatch m
    | cons k _ ih =>
      intro r m
      rcases List.mem_cons.1 m with rfl | m
      · exact ⟨_, List.mem_cons_self, k.ident⟩
      · obtain ⟨r', hr, k⟩ := ih r m
        exact ⟨r', List.mem_cons_of_mem _ hr, k⟩
  refine ⟨fun r' hr' => ?_, fun i hi => ?_, fun i hi => ?_⟩
  · obtain ⟨r, hr, k⟩ := kept_mem s.records r' hr'
    rw [j r r' k.binding, queuedOf, s.ready, k.ident]
    exact k.accounted (a r hr)
  · obtain ⟨e, r, hr, k⟩ := b i (s.ready ▸ hi)
    obtain ⟨r', hr', k'⟩ := forth s.records r hr
    exact ⟨e, r', hr', k'.trans k⟩
  · obtain ⟨r, hr, k⟩ := c i hi
    obtain ⟨r', hr', k'⟩ := forth s.records r hr
    exact ⟨r', hr', k'.trans k⟩

/-- A record that is DECIDED or ENTERING has no item in the queue and none in a unit. -/
theorem JointsSound.finished (h : x.JointsSound jc held l) {r : BoardRecord} (hr : r ∈ x.transit)
    (f : r.state = .decided ∨ r.state = .entering) : x.queuedOf r.ident = 0 ∧ held r.ident = 0 := by
  obtain ⟨a1, a2, a3, a4, a5, a6⟩ := h.1 r hr
  rw [← a3, ← a4]
  rcases f with d | e
  · have := a6 (.inl d); omega
  · have := a5 e
    rw [this] at a2
    omega

theorem queuedOf_pos {i : WorkItem} (h : i ∈ x.ready) : x.queuedOf i.record ≠ 0 := by
  unfold queuedOf
  rw [Ne, List.countP_eq_zero]
  intro k
  exact k i h (by simp)

/-- Records leave that hold no item. -/
theorem JointsSound.removed (h : x.JointsSound jc held l) (ready : y.ready = x.ready)
    (sub : ∀ r ∈ y.transit, r ∈ x.transit)
    (gone : ∀ r ∈ x.transit, r ∉ y.transit → r.state = .decided ∨ r.state = .entering) : y.JointsSound jc held l := by
  have queued : ∀ i, y.queuedOf i = x.queuedOf i := fun i => by rw [queuedOf, queuedOf, ready]
  refine ⟨fun r hr => by rw [queued]; exact h.1 r (sub r hr), fun i hi => ?_, fun i hi => ?_⟩
  · rw [ready] at hi
    obtain ⟨e, r, hr, k⟩ := h.2.1 i hi
    refine ⟨e, r, ?_, k⟩
    by_contra n
    exact queuedOf_pos hi (k ▸ (h.finished hr (gone r hr n)).1)
  · obtain ⟨r, hr, k⟩ := h.2.2 i hi
    refine ⟨r, ?_, k⟩
    by_contra n
    exact hi (k ▸ (h.finished hr (gone r hr n)).2)

/-- A record comes whose number is new. -/
theorem JointsSound.added (h : x.JointsSound jc held l) {r : BoardRecord} (ready : y.ready = x.ready)
    (records : y.transit = x.transit ++ [r]) (fresh : ∀ q ∈ x.transit, q.ident ≠ r.ident)
    (start : r.Accounted (jc r) 0 0) : y.JointsSound jc held l := by
  have queued : ∀ i, y.queuedOf i = x.queuedOf i := fun i => by rw [queuedOf, queuedOf, ready]
  have none : x.queuedOf r.ident = 0 := by
    by_contra n
    obtain ⟨i, hi, e⟩ := List.countP_pos_iff.1 (Nat.pos_of_ne_zero n)
    obtain ⟨_, q, hq, k⟩ := h.2.1 i hi
    exact fresh q hq (k.trans (of_decide_eq_true e))
  have free : held r.ident = 0 := by
    by_contra n
    obtain ⟨q, hq, k⟩ := h.2.2 _ n
    exact fresh q hq k
  refine ⟨fun q hq => ?_, fun i hi => ?_, fun i hi => ?_⟩
  · rw [records] at hq
    rw [queued]
    rcases List.mem_append.1 hq with m | m
    · exact h.1 q m
    · rw [List.mem_singleton] at m
      subst m
      rw [none, free]
      exact start
  · rw [ready] at hi
    obtain ⟨e, q, hq, k⟩ := h.2.1 i hi
    exact ⟨e, q, records ▸ List.mem_append_left _ hq, k⟩
  · obtain ⟨q, hq, k⟩ := h.2.2 i hi
    exact ⟨q, records ▸ List.mem_append_left _ hq, k⟩

/-- The number of a record names no other. -/
theorem ReleaseSound.unique (h : x.ReleaseSound) {r q : BoardRecord} (hr : r ∈ x.transit) (hq : q ∈ x.transit)
    (e : q.ident = r.ident) : q = r := by
  have a := record?_of_mem h hr
  have b := record?_of_mem h hq
  rw [e, a] at b
  exact (Option.some.inj b).symm

/-- One record changes, with what the queue and the units hold of it. -/
theorem JointsSound.change (h : x.JointsSound jc held l) (s : x.ReleaseSound) {r : BoardRecord} (hr : r ∈ x.transit)
    (f : BoardRecord → BoardRecord) (ident : ∀ q, (f q).ident = q.ident)
    (records : y.transit = x.transit.map fun q => if q.ident = r.ident then f q else q)
    (ready : ∀ i ∈ y.ready, i ∈ x.ready) (queued : ∀ i, i ≠ r.ident → y.queuedOf i = x.queuedOf i)
    (units : ∀ i, i ≠ r.ident → held' i = held i) (jcf : jc (f r) = jc r)
    (account : (f r).Accounted (jc r) (y.queuedOf r.ident) (held' r.ident)) : y.JointsSound jc held' l := by
  have stays : ∀ q ∈ x.transit, ∃ q' ∈ y.transit, q'.ident = q.ident := by
    intro q hq
    refine ⟨if q.ident = r.ident then f q else q, records ▸ List.mem_map_of_mem hq, ?_⟩
    split
    · exact ident q
    · rfl
  refine ⟨fun q' hq' => ?_, fun i hi => ?_, fun i hi => ?_⟩
  · rw [records] at hq'
    obtain ⟨q, hq, e⟩ := List.mem_map.1 hq'
    split at e
    · next k =>
      have := s.unique hr hq k
      subst this
      subst e
      rw [jcf, ident]
      exact account
    · next k =>
      subst e
      rw [queued _ k, units _ k]
      exact h.1 q hq
  · obtain ⟨e, q, hq, k⟩ := h.2.1 i (ready i hi)
    obtain ⟨q', hq', k'⟩ := stays q hq
    exact ⟨e, q', hq', k'.trans k⟩
  · by_cases e : i = r.ident
    · obtain ⟨q', hq', k'⟩ := stays r hr
      exact ⟨q', hq', k'.trans e.symm⟩
    · obtain ⟨q, hq, k⟩ := h.2.2 i (by rw [← units i e]; exact hi)
      obtain ⟨q', hq', k'⟩ := stays q hq
      exact ⟨q', hq', k'.trans k⟩

end LaneState

end Sys2Proof.Machine
end

