-- ==== Sys2Proof/Laws/KeepsHeadLanes.lean ====
section
/-! SUPPORT. Every edit keeps the heads of a running lane ALIGNED and the lane orders apart (R43, R45). -/

namespace Sys2Proof.Machine

theorem takeTrigger_frame (t now) (h : HeadPort) : (h.takeTrigger t now).1.settings = h.settings
    ∧ (h.takeTrigger t now).1.mode = h.mode := by
  unfold HeadPort.takeTrigger HeadPort.evictFor
  dsimp only
  constructor
  · split <;> (try split) <;> (try split) <;> rfl
  · split <;> (try split) <;> (try split) <;> rfl

theorem HeadEdit.keeps {h h' : HeadPort} (e : HeadEdit h h') : h'.settings = h.settings
    ∧ (h.mode = .aligned → h'.mode = .aligned) := by
  cases e with
  | trigger t now => exact ⟨(takeTrigger_frame t now h).1, fun k => (takeTrigger_frame t now h).2.trans k⟩
  | timeOut t =>
    unfold HeadPort.timeOut
    split
    · exact ⟨rfl, fun k => k⟩
    · exact ⟨rfl, fun k => k⟩
  | stop => exact ⟨rfl, fun k => k⟩
  | frame a w =>
    unfold HeadPort.receiveProfile
    split
    all_goals exact ⟨rfl, fun k => k⟩
  | sweep sw sw' al m t f => exact ⟨rfl, fun k => by rw [al] at k; cases k⟩
  | clear f => exact ⟨rfl, fun k => k⟩

theorem modes_set {s t : State} {l : Lane} {x : LaneState} (ht : t.lanes = s.lanes.set l x)
    (h : x.mode ≠ .disabled → (s.lane l).mode ≠ .disabled) :
    ∀ m, (t.lane m).mode ≠ .disabled → (s.lane m).mode ≠ .disabled := by
  intro m
  unfold State.lane at *
  rw [ht, Pair.get_set_eq]
  split
  · next e => subst e; exact h
  · exact id

theorem headLanes_of {s t : State} (hs : HeadLanesSound s) (hset : ∀ h, (t.head h).settings = (s.head h).settings)
   (hm : ∀ h, headActive t h = true → (t.head h).mode = .aligned) : HeadLanesSound t := by
  obtain ⟨a, b, c⟩ := hs
  refine
    ⟨fun h st e => a h st (by rw [← hset]; exact e), fun g h st su n e1 e2 => b g h st su n (by rw [← hset]; exact e1)
      (by rw [← hset]; exact e2), hm⟩

theorem headLanes_frame {s t : State} (hs : HeadLanesSound s) (hh : t.heads = s.heads)
    (hm : ∀ m, (t.lane m).mode ≠ .disabled → (s.lane m).mode ≠ .disabled) : HeadLanesSound t := by
  have e : ∀ h, t.head h = s.head h := fun h => by unfold State.head; rw [hh]
  refine headLanes_of hs (fun h => by rw [e]) fun h k => ?_
  rw [e]
  refine hs.2.2 h ?_
  rw [headActive_iff] at k ⊢
  obtain ⟨st, l, h1, h2, h3⟩ := k
  exact ⟨st, l, e h ▸ h1, h2, hm l h3⟩

theorem headLanes_quiet {s t : State} (hs : HeadLanesSound s) (q : Quiet s t) : HeadLanesSound t :=
  headLanes_frame hs q.heads fun m => by rw [(q.lanes m).mode]; exact id

/-- R43, R45. -/
theorem headLanes_edit {d s e t} (h : Edit d s e t) (hs : HeadLanesSound s) : HeadLanesSound t := by
  cases h
  case disable l e => rw [disable_shape l s]; exact headLanes_frame hs rfl (modes_set rfl fun h => absurd rfl h)
  case untracked l e => rw [untrackedBoard_shape l s]; exact headLanes_frame hs rfl (modes_set rfl id)
  case dropFront l r rest a f => rw [dropFront_shape l r rest s]; exact headLanes_frame hs rfl (modes_set rfl id)
  case removeAll l a => rw [removeAll_shape l s]; exact headLanes_frame hs rfl (modes_set rfl id)
  case decide c l r a b g =>
    exact headLanes_quiet hs ((fixRecord_quiet c l r.ident s).trans (cutItems_quiet c l r.ident _))
  case release l r a b =>
    obtain ⟨u, o, h⟩ := releaseRecord_shape l r s; rw [h]; exact headLanes_frame hs rfl (modes_set rfl id)
  case missed l h x =>
    rcases missedReport_cases l h x s with h | ⟨o, h⟩ <;> rw [h]
    · exact hs
    · exact headLanes_frame hs rfl (modes_set rfl id)
  case endClose n => obtain ⟨u, o, h⟩ := endClose_shape n s; rw [h]; exact hs
  case reject k t c => obtain ⟨u, o, h⟩ := offerReject_shape k t c s; rw [h]; exact hs
  case sent => obtain ⟨u, o, f, h⟩ := finishTransmit_shape s; rw [h]; exact hs
  case restart t a b =>
    obtain ⟨rs, h, _⟩ := restartReplies_shape s; rw [h]
    refine headLanes_of hs (fun h => ?_) fun h k => ?_
    · cases h <;>
        (simp only [State.head, restartBlocks, Quad.map, Quad.get, HeadPort.restart, HeadPort.abandonSweep]; split <;>
          rfl)
    · rw [headActive_iff] at k
      obtain ⟨st, l, h1, h2, h3⟩ := k
      cases l <;> exact absurd rfl h3
  case strayTrail l st a =>
    obtain ⟨f, e⟩ := strayTrail_shape l st s
    rw [e]
    exact headLanes_frame hs rfl (modes_set rfl id)
  case trail l st r a =>
    obtain ⟨f, e⟩ := strayTrail_shape l st s
    rw [e, closeTrail, updLane_updLane]
    exact headLanes_frame hs rfl (modes_set rfl id)
  case addBound l e rest a b c f =>
    rw [Machine.addBound, setEye, updLane_updLane]
    exact headLanes_frame hs rfl (modes_set rfl id)
  case addUnbound l a b c f =>
    rw [Machine.addUnbound, setEye, updLane_updLane]
    exact headLanes_frame hs rfl (modes_set rfl id)
  case granted u l i rest a f =>
    exact headLanes_quiet hs ((takeItem_quiet l i rest s).trans (startEvaluation_quiet u i _))
  case evicted l i rest o r a f b =>
    exact headLanes_quiet hs ((takeItem_quiet l i rest s).trans (countOutcome_quiet _ _ o _))
  case evaluated u e o r a b c f =>
    exact headLanes_quiet (s := freeUnit u s) hs ((updWork_quiet _ _ _ _).trans (countOutcome_quiet _ _ o _))
  case drain l r => exact headLanes_frame hs rfl (modes_set rfl fun _ => by rw [r]; decide)
  case start l st a b c =>
    refine headLanes_of hs (fun _ => rfl) fun h k => ?_
    rw [headActive_iff] at k
    obtain ⟨su, m, h1, h2, h3⟩ := k
    by_cases hm : m = l
    · subst hm
      have ho := hs.1 h su h1
      unfold headsReady at c
      rw [Bool.and_eq_true, List.all_eq_true] at c
      have serves : (s.head h).serves m su.laneOrder = true :=
        by simp [HeadPort.serves, show (s.head h).settings = some su from h1, h2]
      have hmem : h ∈ Four.all := by cases h <;> simp [Four.all]
      have hat : headAt s m su.laneOrder = some h := by
        unfold headAt
        cases hf : Four.all.find? (fun h => (s.head h).serves m su.laneOrder) with
        | none => rw [List.find?_eq_none] at hf; exact absurd serves (hf h hmem)
        | some g =>
          have sg := List.find?_some hf
          by_contra hne
          have hne : g ≠ h := fun e => hne (by rw [e])
          unfold HeadPort.serves at sg
          cases hg : (s.head g).settings with
          | none => rw [hg] at sg; cases sg
          | some sv =>
            rw [hg] at sg
            simp at sg
            exact hs.2.1 g h sv su hne hg h1 (by rw [sg.1, h2]) (by rw [sg.1]; simp) sg.2
      have : h ∈ laneHeads s m := by
        unfold laneHeads
        rw [List.mem_filterMap]
        refine ⟨su.laneOrder, ?_, hat⟩
        have : su.laneOrder = 0 ∨ su.laneOrder = 1 := by omega
        simpa using this
      have al := c.2 h this
      show (s.head h).mode = .aligned
      unfold HeadPort.isAligned at al
      cases hmo : (s.head h).mode <;> rw [hmo] at al <;> first | rfl | cases al
    · refine hs.2.2 h ?_
      rw [headActive_iff]
      refine ⟨su, m, h1, h2, ?_⟩
      simpa [State.lane, State.updLane, hm] using h3
  case head h x b =>
    have e : ∀ g, ((s.updHead h fun _ => x).head g) = if g = h then x else s.head g := fun g =>
      by simp only [State.head, State.updHead, Quad.get_set_eq]
    have hset : ∀ g, ((s.updHead h fun _ => x).head g).settings = (s.head g).settings := fun g => by
      rw [e]; split
      · next k => subst k; exact b.keeps.1
      · rfl
    refine headLanes_of hs hset fun g k => ?_
    have ka : headActive s g = true := by
      rw [headActive_iff] at k ⊢
      rw [hset] at k
      exact k
    have := hs.2.2 g ka
    rw [e]; split
    · next k => subst k; exact b.keeps.2 this
    · exact this
  case setup h st a b c f i =>
    have e : ∀ g, ((storeHead h st s).head g) = if g = h then (s.head h).setup st else s.head g := fun g =>
      by simp only [storeHead, State.head, State.updHead, Quad.get_set_eq, State.setDue, State.updCal]
    have hst : ∀ g, ((storeHead h st s).head g).settings = if g = h then some st else (s.head g).settings := fun g => by
      rw [e]; split <;> rfl
    have idle : headActive s h = false := by assumption
    have target : laneActive s st.lane = false := by assumption
    have ranges : st.inRanges = true := by assumption
    have order : orderTaken s h st = false := by assumption
    have lo : st.laneOrder ≤ 1 := by
      unfold HeadSettings.inRanges at ranges
      simp [within] at ranges
      omega
    have free : ∀ g su, g ≠ h → (s.head g).settings = some su → su.lane = st.lane → st.lane ≠ none →
      su.laneOrder ≠ st.laneOrder := by
      intro g su hg h1 h2 h3 h4
      obtain ⟨l, hl⟩ := Option.ne_none_iff_exists'.mp h3
      unfold orderTaken at order
      rw [hl] at order
      simp only [List.any_eq_false] at order
      have hmem : g ∈ Four.all := by cases g <;> simp [Four.all]
      have := order g hmem
      simp [hg, HeadPort.serves, h1, h2, hl, h4] at this
    refine ⟨fun g su k => ?_, fun g g' su sv hne k1 k2 k3 k4 => ?_, fun g k => ?_⟩
    · rw [hst] at k
      split at k
      · injection k with k; subst k; exact lo
      · exact hs.1 g su k
    · rw [hst] at k1 k2
      split at k1
      · next e1 =>
        injection k1 with k1; subst k1
        split at k2
        · next e2 => exact absurd (e1.trans e2.symm) hne
        · next e2 => exact (free g' sv e2 k2 k3.symm k4).symm
      · next e1 =>
        split at k2
        · injection k2 with k2; subst k2; exact free g su e1 k1 k3 (k3 ▸ k4)
        · exact hs.2.1 g g' su sv hne k1 k2 k3 k4
    · rw [headActive_iff] at k
      obtain ⟨su, l, h1, h2, h3⟩ := k
      rw [hst] at h1
      split at h1
      · injection h1 with h1; subst h1
        simp only [laneActive, h2] at target
        have h3 : (s.lane l).mode ≠ .disabled := h3
        simp [h3] at target
      · next hg =>
        have := hs.2.2 g (by rw [headActive_iff]; exact ⟨su, l, h1, h2, h3⟩)
        rw [e, if_neg hg]; exact this
  case startSweep tag h a b =>
    have e : ∀ g, ((s.updHead h (HeadPort.startSweep tag s.now)).head g) = if g = h then (s.head h).startSweep tag s.now
      else s.head g := fun g => by simp only [State.head, State.updHead, Quad.get_set_eq]
    have hset : ∀ g, ((s.updHead h (HeadPort.startSweep tag s.now)).head g).settings = (s.head g).settings := fun g =>
      by
      rw [e]; split
      · next k => subst k; rfl
      · rfl
    refine headLanes_of hs hset fun g k => ?_
    have ka : headActive s g = true := by
      rw [headActive_iff] at k ⊢
      rw [hset] at k
      exact k
    have := hs.2.2 g ka
    rw [e]; split
    · next k => subst k; rw [b] at ka; cases ka
    · exact this
  case endSweep h sw mm ml al =>
    have e : ∀ g, ((s.updHead h fun _ => ((s.head h).endSweep mm).1).head g) = if g = h then ((s.head h).endSweep mm).1
      else s.head g := fun g => by simp only [State.head, State.updHead, Quad.get_set_eq]
    have hset : ∀ g, ((s.updHead h fun _ => ((s.head h).endSweep mm).1).head g).settings = (s.head g).settings :=
      fun g => by
      rw [e]; split
      · next k => subst k; unfold HeadPort.endSweep; dsimp only; split <;> rfl
      · rfl
    have : HeadLanesSound (s.updHead h fun _ => ((s.head h).endSweep mm).1) := by
      refine headLanes_of hs hset fun g k => ?_
      have ka : headActive s g = true := by
        rw [headActive_iff] at k ⊢
        rw [hset] at k
        exact k
      have := hs.2.2 g ka
      rw [e]; split
      · next k => subst k; rw [al] at this; cases this
      · exact this
    exact this
  case glitch l st r b x y z w =>
    obtain ⟨f, e⟩ := strayTrail_shape l st s
    rw [e, reevaluate, updLane_updLane, updLane_updLane]
    exact headLanes_frame hs rfl (modes_set rfl id)
  case endFlood l => rw [Machine.endFlood, reevaluate, updLane_updLane]; exact headLanes_frame hs rfl (modes_set rfl id)
  case window l i => rw [enterWindow, reevaluate, updLane_updLane]; exact headLanes_frame hs rfl (modes_set rfl id)
  case lostItem l i rest f a => exact headLanes_quiet hs (takeItem_quiet l i rest s)
  all_goals first | exact hs | exact headLanes_frame hs rfl (modes_set rfl id)

end Sys2Proof.Machine
end

