-- ==== Sys2Proof/Laws/Places.lean ====
section
/-!
SUPPORT. The counts behind R87 and R175: what releases do to a slot, and what a change of a head or of a slot does to the
places reserved in the outbox.
-/

namespace Sys2Proof.Machine

/-! ### Releases of references -/

/-- The reference count of a slot is 0 in EMPTY, LOADING and CLOSING, and above 0 in RETIRING (R87, R99). -/
def RecipeSlot.CountSound (x : RecipeSlot) : Prop :=
  (x.state = .empty ∨ x.state = .loading ∨ x.state = .closing → x.refs = 0) ∧ (x.state = .retiring → 0 < x.refs)

/-- A slot is CLOSING exactly while its RECIPE_CLOSE is owed a reply (R92). -/
def RecipeSlot.TagSound (x : RecipeSlot) : Prop := x.state = .closing ↔ x.closeTag.isSome = true

theorem release_count {x : RecipeSlot} (h : x.CountSound) : x.release.CountSound ∧ x.release.refs = x.refs - 1 := by
  obtain ⟨a, b⟩ := h
  unfold RecipeSlot.release
  split
  · next h => exact ⟨⟨fun _ => rfl, fun e => nomatch e⟩, by simp [RecipeSlot.empty]; omega⟩
  · next h =>
    refine ⟨⟨fun e => by have := a e; simp [this], fun e => ?_⟩, rfl⟩
    have := b e
    simp only [not_and, not_le] at h
    have := h e
    simp; omega

theorem release_tag {x : RecipeSlot} (h : x.TagSound) : x.release.TagSound ∧ x.release.isClosing = x.isClosing := by
  unfold RecipeSlot.release
  split
  · next e =>
    exact ⟨by simp [RecipeSlot.TagSound, RecipeSlot.empty], by simp [RecipeSlot.isClosing, RecipeSlot.empty, e.1]⟩
  · exact ⟨h, rfl⟩

/-- Some releases of a slot take as many references, and leave the count sound (R87, R99). -/
theorem release_iter_count (k : Nat) {x : RecipeSlot} (h : x.CountSound) :
    (RecipeSlot.release^[k] x).CountSound ∧ (RecipeSlot.release^[k] x).refs = x.refs - k := by
  induction k generalizing x with
  | zero => exact ⟨h, rfl⟩
  | succ k ih =>
    rw [Function.iterate_succ_apply]
    obtain ⟨a, b⟩ := release_count h
    obtain ⟨c, d⟩ := ih a
    exact ⟨c, by rw [d, b]; omega⟩

/-- Releases neither start nor end a close. -/
theorem release_iter_tag (k : Nat) {x : RecipeSlot} (h : x.TagSound) :
    (RecipeSlot.release^[k] x).TagSound ∧ (RecipeSlot.release^[k] x).isClosing = x.isClosing := by
  induction k generalizing x with
  | zero => exact ⟨h, rfl⟩
  | succ k ih =>
    rw [Function.iterate_succ_apply]
    obtain ⟨a, b⟩ := release_tag h
    obtain ⟨c, d⟩ := ih a
    exact ⟨c, d.trans b⟩

/-! ### Reserved places -/

/-- The changes of a Head Port that are neither HEAD_ALIGN nor the end of a sweep keep whether it sweeps. -/
theorem HeadEdit.sweeping {h h' : HeadPort} (e : HeadEdit h h') : h'.sweeping = h.sweeping := by
  cases e with
  | trigger t now =>
    unfold HeadPort.takeTrigger HeadPort.evictFor
    dsimp only
    split <;> (try split) <;> (try split) <;> rfl
  | timeOut t => unfold HeadPort.timeOut; split <;> rfl
  | stop => rfl
  | frame a w => unfold HeadPort.receiveProfile; split <;> rfl
  | sweep sw sw' al m t f => simp [HeadPort.sweeping, al]
  | clear f => rfl

/-- The reserved places depend on the parked COLLECTs, the sweeps and the closes alone (R175). -/
theorem reserved_congr {s t : State} (p : t.verdicts.parked.length = s.verdicts.parked.length)
    (h : ∀ g, (t.head g).sweeping = (s.head g).sweeping)
    (c : ∀ n, (t.slot n).isClosing = (s.slot n).isClosing) : reservedPlaces t = reservedPlaces s := by
  unfold reservedPlaces
  rw [p]
  simp only [h, c]

/-- One of four tests changes. -/
theorem count_set (f : Four → Bool) (n : Four) (b : Bool) :
    (Four.all.filter (fun m => if m = n then b else f m)).length + (if f n then 1 else 0)
      = (Four.all.filter f).length + (if b then 1 else 0) := by
  cases n <;> cases b <;> simp [Four.all, List.filter_cons] <;>
    (cases f .n0 <;> cases f .n1 <;> cases f .n2 <;> cases f .n3 <;> simp)

theorem reserved_updHead (s : State) (h : HeadId) (x : HeadPort) :
    reservedPlaces (s.updHead h fun _ => x) + (if (s.head h).sweeping then 1 else 0)
      = reservedPlaces s + (if x.sweeping then 1 else 0) := by
  have := count_set (fun h => (s.head h).sweeping) h x.sweeping
  have e : (fun g => ((s.updHead h fun _ => x).head g).sweeping)
      = fun m => if m = h then x.sweeping else (s.head m).sweeping := by
    funext g
    simp only [State.head, State.updHead, Quad.get_set_eq]
    split <;> rfl
  unfold reservedPlaces
  rw [e]
  have this : (Four.all.filter (fun m => if m = h then x.sweeping else (s.head m).sweeping)).length
      + (if (s.head h).sweeping then 1 else 0)
      = (Four.all.filter fun h => (s.head h).sweeping).length + (if x.sweeping then 1 else 0) := this
  simp only [State.updHead_slot, State.updHead_verdicts]
  omega

theorem reserved_updSlot (s : State) (n : SlotId) (x : RecipeSlot) :
    reservedPlaces (s.updSlot n fun _ => x) + (if (s.slot n).isClosing then 1 else 0)
      = reservedPlaces s + (if x.isClosing then 1 else 0) := by
  have := count_set (fun n => (s.slot n).isClosing) n x.isClosing
  have e : (fun g => ((s.updSlot n fun _ => x).slot g).isClosing)
      = fun m => if m = n then x.isClosing else (s.slot m).isClosing := by
    funext g
    simp only [State.slot, State.updSlot, Quad.get_set_eq]
    split <;> rfl
  unfold reservedPlaces
  rw [e]
  have this : (Four.all.filter (fun m => if m = n then x.isClosing else (s.slot m).isClosing)).length
      + (if (s.slot n).isClosing then 1 else 0)
      = (Four.all.filter fun n => (s.slot n).isClosing).length + (if x.isClosing then 1 else 0) := this
  simp only [State.updSlot_head, State.updSlot_verdicts]
  omega

theorem tag_updSlot {s : State} (h : ∀ n, (s.slot n).TagSound) (n : SlotId) {x : RecipeSlot} (hx : x.TagSound) :
    ∀ m, ((s.updSlot n fun _ => x).slot m).TagSound := by
  intro m
  simp only [State.slot, State.updSlot, Quad.get_set_eq]
  split
  · exact hx
  · exact h m

end Sys2Proof.Machine
end

