-- ==== Sys2Proof/Laws/KeepsReferences.lean ====
section
/-! SUPPORT. Every edit keeps the reference counts of the slots (R87, R99). -/

namespace Sys2Proof.Machine

/-- The entries and records of a lane that name a slot. -/
def LaneState.naming (n : SlotId) (x : LaneState) : Nat := x.entriesNaming n + x.recordsNaming n

theorem referencesTo_set {s t : State} {l : Lane} {x : LaneState} (ht : t.lanes = s.lanes.set l x) (n : SlotId) :
    referencesTo t n + (s.lane l).naming n = referencesTo s n + x.naming n := by
  unfold referencesTo State.lane
  rw [ht]
  cases l <;> simp [Pair.get, Pair.set, LaneState.naming] <;> omega

theorem recordsNaming_forall {a b : List BoardRecord}
    (h : List.Forall₂ (fun r r' : BoardRecord => r'.binding = r.binding) a b) (n : SlotId) :
    (b.countP fun r => decide (r.binding.map (·.slot) = some n)) = a.countP fun r =>
      decide (r.binding.map (·.slot) = some n) := by
  induction h with
  | nil => rfl
  | cons h _ ih => simp only [List.countP_cons, ih, h]

theorem eraseP_count {es : List ExpectEntry} {e : ExpectEntry} (f : (es.find? fun f => decide (f.tag = e.tag)) = some e)
    (n : SlotId) :
   ((es.eraseP fun f => decide (f.tag = e.tag)).countP fun e => decide (e.slot = n)) + (if e.slot = n then 1 else 0)
     = es.countP fun e => decide (e.slot = n) := by
  induction es with
  | nil => cases f
  | cons a as ih =>
    rw [List.find?_cons] at f
    split at f
    · next h =>
      injection f with f
      subst f
      simp [List.countP_cons]
    · next h =>
      have := ih f
      simp only [List.eraseP_cons, h, List.countP_cons]
      simp only [List.countP_cons, cond_false]
      omega

/-- ReferencesSound, by slot. -/
def RefSound (s : State) : Prop := ∀ n, (s.slot n).refs = referencesTo s n ∧ (s.slot n).CountSound

theorem ref_same {s t : State} (hs : RefSound s) (q : t.slots = s.slots) (h : ∀ n, referencesTo t n = referencesTo s n)
    : RefSound t := by
  intro n
  have := hs n
  rw [h n]
  unfold State.slot at *
  rw [q]; exact this

theorem ref_lane {s t : State} {l : Lane} {x : LaneState} (hs : RefSound s) (q : t.slots = s.slots)
    (ht : t.lanes = s.lanes.set l x) (h : ∀ n, x.naming n = (s.lane l).naming n) : RefSound t :=
  ref_same hs q (fun n => by have := referencesTo_set ht n; rw [h n] at this; omega)

theorem ref_release {s t : State} {l : Lane} {x : LaneState} {ns : List SlotId} (hs : RefSound s)
    (q : t.slots = releasedSlots ns s.slots) (ht : t.lanes = s.lanes.set l x)
    (h : ∀ n, x.naming n + ns.count n = (s.lane l).naming n) : RefSound t := by
  intro n
  obtain ⟨a, b⟩ := hs n
  have g : t.slot n = RecipeSlot.release^[ns.count n] (s.slot n) := by unfold State.slot; rw [q, releasedSlots_get]
  rw [g]
  obtain ⟨c, d⟩ := release_iter_count (ns.count n) b
  refine ⟨?_, c⟩
  have := referencesTo_set ht n
  have := h n
  rw [d, a]; omega

theorem ref_slot {s : State} (hs : RefSound s) (n : SlotId) {x : RecipeSlot} (r : x.refs = (s.slot n).refs)
    (c : x.CountSound) : RefSound (s.updSlot n fun _ => x) := by
  intro m
  show ((s.updSlot n fun _ => x).slot m).refs = referencesTo s m ∧ _
  simp only [State.slot, State.updSlot, Quad.get_set_eq]
  split
  · next e => subst e; exact ⟨r.trans (hs m).1, c⟩
  · exact hs m

theorem naming_map {x : LaneState} {rs} (s : List.Forall₂ BoardRecord.Kept x.transit rs) (n) :
    ({ x with transit := rs } : LaneState).naming n = x.naming n := by
  have := recordsNaming_forall (s.imp fun _ _ k => k.binding) n
  simp only [LaneState.naming, LaneState.entriesNaming, LaneState.recordsNaming, this]

theorem naming_mapOne (x : LaneState) (i : Nat) (f : BoardRecord → BoardRecord) (h : ∀ r, (f r).binding = r.binding) (n)
    : (x.mapRecord i f).naming n = x.naming n := by
  have :=
    recordsNaming_forall
      (forall₂_map (R := fun r r' => r'.binding = r.binding) (fun r => if r.ident = i then f r else r)
        (fun r => by split; exact h r; rfl) x.transit) n
  simp only [LaneState.naming, LaneState.entriesNaming, LaneState.recordsNaming]
  exact congrArg _ this

theorem kept_mapOne (x : LaneState) (i : Nat) (f : BoardRecord → BoardRecord) (h : ∀ r : BoardRecord, r.Kept (f r)) :
    List.Forall₂ BoardRecord.Kept x.transit (x.mapRecord i f).transit :=
      forall₂_map _ (fun r => by split; exact h r; exact .refl r) _

/-- What no operation inside a taking changes (Laws/Quiet.lean) names as many entries and records of each slot. -/
theorem ref_quiet {s t : State} (hs : RefSound s) (q : Quiet s t) : RefSound t := by
  refine ref_same hs q.slots fun n => ?_
  have naming : ∀ m, (t.lane m).entriesNaming n = (s.lane m).entriesNaming n
      ∧ (t.lane m).recordsNaming n = (s.lane m).recordsNaming n := fun m =>
    ⟨by unfold LaneState.entriesNaming; rw [(q.lanes m).same],
      recordsNaming_forall ((q.lanes m).records.imp fun _ _ k => by rw [k.same]) n⟩
  unfold referencesTo
  rw [(naming .a).1, (naming .a).2, (naming .b).1, (naming .b).2]

/-- R87, R99. -/
theorem ref_edit {d s e t} (h : Edit d s e t) (hs : RefSound s) : RefSound t := by
  cases h
  case disable l e =>
    refine ref_release hs (congrArg State.slots (disable_shape l s)) (congrArg State.lanes (disable_shape l s)) fun n =>
      ?_
    simp
      [LaneState.naming, LaneState.entriesNaming, LaneState.recordsNaming, LaneState.disable, e, List.count,
        List.countP_map]
    rfl
  case untracked l e =>
    refine ref_release hs (congrArg State.slots (untrackedBoard_shape l s))
      (congrArg State.lanes (untrackedBoard_shape l s)) fun n => ?_
    simp only
      [LaneState.naming, LaneState.entriesNaming, LaneState.recordsNaming, LaneState.countUntracked,
        LaneState.reevaluate]
    cases (s.lane l).expect with
    | nil => simp
    | cons a as => simp [List.countP_cons, List.count_cons]; omega
  case dropFront l r rest a f =>
    refine ref_release hs (congrArg State.slots (dropFront_shape l r rest s))
      (congrArg State.lanes (dropFront_shape l r rest s)) fun n => ?_
    simp only
      [LaneState.naming, LaneState.entriesNaming, LaneState.recordsNaming, LaneState.reevaluate, f, List.countP_cons]
    cases r.binding with
    | none => simp
    | some b => simp [List.count_cons]; omega
  case removeAll l a =>
    refine ref_release hs (congrArg State.slots (removeAll_shape l s)) (congrArg State.lanes (removeAll_shape l s))
      fun n => ?_
    simp only [LaneState.naming, LaneState.entriesNaming, LaneState.recordsNaming, LaneState.reevaluate, boundSlots]
    induction (s.lane l).transit with
    | nil => rfl
    | cons r rs ih =>
      simp only [List.filterMap_cons, List.countP_cons]
      cases r.binding with
      | none => simpa using ih
      | some b => simp [List.count_cons] at ih ⊢; omega
  case withdrawEntry l e a =>
    refine ref_release hs (congrArg State.slots (withdrawEntry_shape l e s))
      (congrArg State.lanes (withdrawEntry_shape l e s)) fun n => ?_
    have := eraseP_count a n
    simp only [LaneState.naming, LaneState.entriesNaming, LaneState.recordsNaming]
    simp [List.count_cons] at this ⊢
    omega
  case addExpect l e st a b c' f =>
    intro n
    obtain ⟨r, c⟩ := hs n
    have := referencesTo_set (s := s) (t := addExpect l e s) (l := l) rfl n
    simp only
      [LaneState.naming, LaneState.entriesNaming, LaneState.recordsNaming, List.countP_append, List.countP_singleton] at this
    have g : (addExpect l e s).slot n = if n = e.slot then (s.slot n).addReference else s.slot n := by
      simp only [addExpect, State.slot, State.updSlot, Quad.get_set_eq, State.updLane]
      split
      · next h => subst h; rfl
      · rfl
    rw [g]
    split
    · next h =>
      subst h
      simp at this
      refine ⟨?_, ?_⟩
      · simp [RecipeSlot.addReference, r]; omega
      · exact ⟨fun h => by simp [RecipeSlot.addReference, b] at h, fun h => by simp [RecipeSlot.addReference]⟩
    · next h =>
      have h' : ¬ e.slot = n := fun k => h k.symm
      simp [h'] at this
      exact ⟨by omega, c⟩
  case addBound l e r a b' b c =>
    rw [Machine.addBound, setEye, updLane_updLane]
    refine ref_lane hs rfl rfl fun n => ?_
    simp
      [LaneState.naming, LaneState.entriesNaming, LaneState.recordsNaming, LaneState.addRecord, newRecord, bindingOf, c,
        List.countP_cons]
    omega
  case addUnbound l a b' b c =>
    rw [Machine.addUnbound, setEye, updLane_updLane]
    refine ref_lane hs rfl rfl fun n => ?_
    simp
      [LaneState.naming, LaneState.entriesNaming, LaneState.recordsNaming, LaneState.addRecord, newRecord, newUnbound]
  case glitch l st r b z y' x w =>
    obtain ⟨f, e⟩ := strayTrail_shape l st s
    have y := w.1
    rw [e, reevaluate, updLane_updLane, updLane_updLane]
    refine ref_lane hs rfl rfl fun n => ?_
    simp only
      [LaneState.naming, LaneState.entriesNaming, LaneState.recordsNaming, LaneState.reevaluate, LaneState.returnEntry,
        List.countP_cons]
    have e := List.dropLast_append_getLast? r x
    conv => rhs; rw [← e]
    simp [y]
    omega
  case decide c l r a b g =>
    exact ref_quiet hs ((fixRecord_quiet c l r.ident s).trans (cutItems_quiet c l r.ident _))
  case release l r a b =>
    obtain ⟨u, o, h⟩ := releaseRecord_shape l r s; rw [h]
    refine ref_lane hs rfl rfl fun n => ?_
    refine congrArg₂ (· + ·) rfl (recordsNaming_forall (forall₂_map _ (fun q => ?_) _) n)
    split <;> rfl
  case missed l h x =>
    rcases missedReport_cases l h x s with h | ⟨o, h⟩ <;> rw [h]
    · exact hs
    · exact ref_lane hs rfl rfl fun n => naming_map (forall₂_map _ (fun r => (linesLost_shown s o x r).toKept) _) n
  case endClose n =>
    have key : ∀ x : RecipeSlot, (s.slot n).state = .closing → x.refs = (s.slot n).refs → x.state = .ready ∨ x.state
      = .loading → RefSound (s.updSlot n fun _ => x) := by
      intro x hc hr hx
      refine ref_slot hs n hr
        ⟨fun _ => hr.trans ((hs n).2.1 (.inr (.inr hc))), fun e => by rcases hx with k | k <;> rw [k] at e <;> cases e⟩
    unfold Machine.endClose
    dsimp only
    split
    · next hc =>
      split
      · have := key (s.slot n).passClose hc rfl (.inl rfl)
        unfold answerClose
        split <;> exact this
      · next f _ =>
        have := key ((s.slot n).failClose f) hc rfl (.inr rfl)
        unfold answerClose
        split <;> exact this
    · exact hs
  case reject k t c => obtain ⟨u, o, h⟩ := offerReject_shape k t c s; rw [h]; exact hs
  case sent => obtain ⟨u, o, f, h⟩ := finishTransmit_shape s; rw [h]; exact hs
  case restart t a b =>
    obtain ⟨rs, h, _⟩ := restartReplies_shape s; rw [h]
    intro n
    simp only [State.slot, restartBlocks, Quad.get_map]
    have e : ∀ x : RecipeSlot, x.restart.refs = 0 ∧ x.restart.CountSound := by
      intro x
      unfold RecipeSlot.restart
      split <;> simp_all [RecipeSlot.CountSound, RecipeSlot.empty]
    refine ⟨(e _).1.trans ?_, (e _).2⟩
    rfl
  case eye l b => exact ref_lane hs rfl rfl fun n => rfl
  case countTrigger l p k r => exact ref_lane hs rfl rfl fun n => rfl
  case settings l st a r => exact ref_lane hs rfl rfl fun n => rfl
  case start l st a b c => exact ref_lane hs rfl rfl fun n => rfl
  case drain l r => exact ref_lane hs rfl rfl fun n => rfl
  case laneFlags l f => exact ref_lane hs rfl rfl fun n => rfl
  case strayTrail l st a =>
    obtain ⟨f, e⟩ := strayTrail_shape l st s
    rw [e]
    exact ref_lane hs rfl rfl fun n => rfl
  case trail l st r a =>
    obtain ⟨f, e⟩ := strayTrail_shape l st s
    rw [e, closeTrail, updLane_updLane]
    exact ref_lane hs rfl rfl fun n => naming_mapOne (s.lane l) r.ident _ (fun q => (takeTrail_shown s st _ q).binding) n
  case endFlood l => rw [Machine.endFlood, reevaluate, updLane_updLane]; exact ref_lane hs rfl rfl fun n => rfl
  case floodPassed l => exact ref_lane hs rfl rfl fun n => rfl
  case window l i =>
    rw [enterWindow, reevaluate, updLane_updLane]
    exact ref_lane hs rfl rfl fun n => naming_mapOne (s.lane l) i (fun q => { q with inWindow := true }) (fun _ => rfl)
      n
  case scan l st t q =>
    refine ref_lane hs rfl rfl fun n => ?_
    dsimp only
    rw [List.map_map]
    exact naming_map (forall₂_map _ (fun r => ((scanStartAt_shown s l st t q r).trans (scanEndAt_shown t _)).toKept) _)
      n
  case granted u l i rest a f =>
    exact ref_quiet hs ((takeItem_quiet l i rest s).trans (startEvaluation_quiet u i _))
  case evicted l i rest o r a f b =>
    exact ref_quiet hs ((takeItem_quiet l i rest s).trans (countOutcome_quiet _ _ o _))
  case lostItem l i rest f a => exact ref_quiet hs (takeItem_quiet l i rest s)
  case evaluated u e o r a b c f =>
    exact ref_quiet (s := freeUnit u s) hs ((updWork_quiet _ _ _ _).trans (countOutcome_quiet _ _ o _))
  case lostResult u e a b c => exact ref_quiet (s := freeUnit u s) hs (updWork_quiet _ _ _ _)
  case remember l i a => exact ref_lane hs rfl rfl fun n => naming_mapOne _ i _ (fun _ => by exact rfl) n
  case scheduler l t => exact ref_lane hs rfl rfl fun n => rfl
  case examine l =>
    have h := examineRecords_shown s l (s.lane l).transit (s.lane l).ready
    unfold Machine.examine
    refine ref_lane hs rfl rfl fun n => ?_
    exact naming_map (h.1.imp fun _ _ k => k.toKept) n
  case slot n x b =>
    obtain ⟨r, c⟩ := hs n
    cases b with
    | opened h a => exact ref_slot hs n (c.1 (.inl a)).symm ⟨fun _ => rfl, fun e => (nomatch e)⟩
    | classes cs a => exact ref_slot hs n rfl c
    | joints cs a => exact ref_slot hs n rfl c
    | emptied a =>
      refine ref_slot hs n ?_ ⟨fun _ => rfl, fun e => (nomatch e)⟩
      rcases a with a | a
      · exact (c.1 (.inr (.inl a))).symm
      · exact a.2.symm
    | retiring a b => exact ref_slot hs n rfl ⟨fun e => by simp at e, fun _ => by simp; omega⟩
  case startClose n tag a =>
    obtain ⟨r, c⟩ := hs n
    exact ref_slot hs n (x := { s.slot n with state := .closing, closeTag := some tag }) rfl
      ⟨fun _ => c.1 (.inr (.inl a)), fun e => (nomatch e)⟩
  all_goals exact hs

end Sys2Proof.Machine
end

