-- ==== Sys2Proof/Laws/KeepsJoints.lean ====
section
/-!
SUPPORT. Every edit keeps the accounting of the joints (R118): what is added to one side of it is taken from another.
-/

namespace Sys2Proof.Machine

/-! ### What the units hold of a record -/

theorem heldOf_units {s t : State} (h : t.units = s.units) (l : Lane) (i : Nat) : heldOf t l i = heldOf s l i := by
  unfold heldOf State.unitOf
  rw [h]

theorem heldOf_setUnit (s : State) (u : UnitId) (e : Option Evaluation) (l : Lane) (i : Nat) :
    heldOf (s.setUnit u e) l i + (holdsItemOf l i (s.unitOf u)).toNat = heldOf s l i + (holdsItemOf l i e).toNat := by
  have toNat : ∀ b : Bool, (if b = true then 1 else 0) = b.toNat := by decide
  unfold heldOf
  cases u <;> simp only [Four.all, List.countP_cons, List.countP_nil, State.unitOf_setUnit_eq, toNat] <;> simp <;> omega

theorem heldOf_mapUnits (s : State) (f : Evaluation → Evaluation) (l : Lane) (i : Nat)
    (h : ∀ e : Evaluation, holdsItemOf l i (some (f e)) = holdsItemOf l i (some e)) :
    heldOf (s.mapUnits f) l i = heldOf s l i := by
  unfold heldOf
  refine List.countP_congr fun u _ => ?_
  rw [State.unitOf_mapUnits]
  cases s.unitOf u with
  | none => rfl
  | some e => rw [Option.map_some, h]

theorem heldOf_discard (s : State) (m l : Lane) (j i : Nat) :
    heldOf (discardItems m j s) l i = if l = m ∧ i = j then 0 else heldOf s l i := by
  split
  · next h =>
    unfold heldOf
    rw [List.countP_eq_zero]
    intro u _
    rw [discardItems, State.unitOf_mapUnits, h.1, h.2]
    cases s.unitOf u with
    | none => simp [holdsItemOf]
    | some e =>
      rw [Option.map_some]
      by_cases b : e.item.belongsTo m j = true
      · simp [holdsItemOf, b]
      · simp [holdsItemOf, b]
  · next h =>
    refine heldOf_mapUnits s _ l i fun e => ?_
    by_cases b : e.item.belongsTo m j = true
    · rw [if_pos b]
      unfold holdsItemOf
      have : e.item.belongsTo l i = false := by
        simp only [WorkItem.belongsTo, Bool.and_eq_true, decide_eq_true_eq] at b
        by_contra k
        simp only [WorkItem.belongsTo, Bool.not_eq_false, Bool.and_eq_true, decide_eq_true_eq] at k
        exact h ⟨k.1.symm.trans b.1, k.2.symm.trans b.2⟩
      dsimp only
      rw [this]
      simp
    · rw [if_neg b]

theorem holdsItemOf_pos {s : State} {u : UnitId} {e : Evaluation} (busy : s.unitOf u = some e)
    (kept : e.discard = false) : heldOf s e.item.lane e.item.record ≠ 0 := by
  unfold heldOf
  rw [Ne, List.countP_eq_zero]
  intro k
  refine k u (by cases u <;> simp [Four.all]) ?_
  rw [busy]
  simp [holdsItemOf, kept, WorkItem.belongsTo]

/-! ### The recipe of a record stays while the record names it -/

theorem release_header (x : RecipeSlot) (h : 0 < x.release.refs) : x.release.header = x.header ∧ 0 < x.refs := by
  unfold RecipeSlot.release at h ⊢
  split at h
  · exact absurd h (by simp [RecipeSlot.empty])
  · next n =>
    rw [if_neg n]
    exact ⟨rfl, by dsimp only at h; omega⟩

theorem release_iter_header (k : Nat) (x : RecipeSlot) (h : 0 < (RecipeSlot.release^[k] x).refs) :
    (RecipeSlot.release^[k] x).header = x.header := by
  induction k with
  | zero => rfl
  | succ k ih =>
    rw [Function.iterate_succ_apply'] at h ⊢
    obtain ⟨a, b⟩ := release_header _ h
    rw [a, ih b]

theorem header_released {s t : State} {ns : List SlotId} (h : t.slots = releasedSlots ns s.slots) (n : SlotId)
    (pos : 0 < (t.slot n).refs) : (t.slot n).header = (s.slot n).header := by
  unfold State.slot at *
  rw [h, releasedSlots_get] at pos ⊢
  exact release_iter_header _ _ pos

/-- A slot that some entry or record names keeps its header (R85, R87). -/
theorem header_edit {d e : Nat} {s t : State} (h : Edit d s e t) (n : SlotId) (pos : 0 < (t.slot n).refs) :
    (t.slot n).header = (s.slot n).header := by
  cases h
  case disable l e => exact header_released (congrArg State.slots (disable_shape l s)) n pos
  case untracked l e => exact header_released (congrArg State.slots (untrackedBoard_shape l s)) n pos
  case dropFront l r rest a f => exact header_released (congrArg State.slots (dropFront_shape l r rest s)) n pos
  case removeAll l a => exact header_released (congrArg State.slots (removeAll_shape l s)) n pos
  case withdrawEntry l e a => exact header_released (congrArg State.slots (withdrawEntry_shape l e s)) n pos
  case addExpect l e st a b c f =>
    simp only [addExpect, State.slot_updSlot_eq]
    split
    · next k => rw [k]; rfl
    · rfl
  case decide c l r a b g =>
    have q := (fixRecord_quiet c l r.ident s).trans (cutItems_quiet c l r.ident _)
    unfold State.slot
    rw [q.slots]
  case release l r a b => obtain ⟨u, o, h⟩ := releaseRecord_shape l r s; rw [h]; rfl
  case missed l h x => rcases missedReport_cases l h x s with h | ⟨o, h⟩ <;> rw [h]; rfl
  case endClose m =>
    have key : ∀ x : RecipeSlot, x.header = (s.slot m).header →
        ((s.updSlot m fun _ => x).slot n).header = (s.slot n).header := by
      intro x hx
      rw [State.slot_updSlot_eq]
      split
      · next k => rw [k]; exact hx
      · rfl
    unfold Machine.endClose
    dsimp only
    split
    · split
      · have := key (s.slot m).passClose rfl
        unfold answerClose
        split <;> exact this
      · next f _ =>
        have := key ((s.slot m).failClose f) rfl
        unfold answerClose
        split <;> exact this
    · rfl
  case reject k t c => obtain ⟨u, o, h⟩ := offerReject_shape k t c s; rw [h]; rfl
  case sent => obtain ⟨u, o, f, h⟩ := finishTransmit_shape s; rw [h]; rfl
  case restart t a b =>
    obtain ⟨rs, h, _⟩ := restartReplies_shape s
    rw [h] at pos
    have : ((restartBlocks (replyDone kindRestart t []
        { s with link := { s.link with outbox := s.link.outbox ++ rs } })).slot n).refs = 0 := by
      simp only [State.slot, restartBlocks, Quad.get_map]
      unfold RecipeSlot.restart
      split <;> rfl
    omega
  case slot m x b =>
    rw [State.slot_updSlot_eq] at pos ⊢
    split
    · next k =>
      rw [if_pos k] at pos
      subst k
      cases b with
      | opened h a => exact absurd pos (by simp [openedSlot, RecipeSlot.empty])
      | classes cs a => rfl
      | joints cs a => rfl
      | emptied a => exact absurd pos (by simp [RecipeSlot.empty])
      | retiring a b => rfl
    · rfl
  case startClose m tag a =>
    rw [State.slot_updSlot_eq]
    split
    · next k => rw [k]
    · rfl
  all_goals rfl

/-- A record's joint count stays while the record stands (R88, R118). -/
theorem jointCount_edit {d e : Nat} {s t : State} (h : Edit d s e t) (refs : RefSound t) {m : Lane} {r : BoardRecord}
    (hr : r ∈ (t.lane m).transit) : jointCountOf t r = jointCountOf s r := by
  unfold jointCountOf headerOf
  cases hb : r.binding with
  | none => rfl
  | some b =>
    have named : 0 < (t.lane m).recordsNaming b.slot := by
      unfold LaneState.recordsNaming
      rw [List.countP_pos_iff]
      exact ⟨r, hr, by simp [hb]⟩
    have total : 0 < (t.slot b.slot).refs := by
      rw [(refs b.slot).1]
      unfold referencesTo
      cases m <;> omega
    dsimp only
    rw [header_edit h b.slot total]

/-! ### Edits -/

/-- Every lane stays still, and the units hold as much of each record. -/
structure Still (s t : State) : Prop where
  lanes : ∀ m, (s.lane m).Still (t.lane m)
  held : ∀ m i, heldOf t m i = heldOf s m i

theorem Still.joints {s t : State} (h : Still s t) (hs : JointsSound s)
    (jc : ∀ m, ∀ r ∈ (t.lane m).transit, jointCountOf t r = jointCountOf s r) : JointsSound t := fun m =>
  ((hs m).still (h.lanes m) fun _ _ => jointCountOf_binding s).congr (jc m) (h.held m)

theorem still_outside {s t : State} (l : t.lanes = s.lanes) (u : t.units = s.units) : Still s t :=
  ⟨fun m => by unfold State.lane; rw [l]; exact .refl _, heldOf_units u⟩

theorem still_lane {s t : State} {l : Lane} {x : LaneState} (ht : t.lanes = s.lanes.set l x) (u : t.units = s.units)
    (h : (s.lane l).Still x) : Still s t := by
  refine ⟨fun m => ?_, heldOf_units u⟩
  unfold State.lane at *
  rw [ht, Pair.get_set_eq]
  split
  · next e => subst e; exact h
  · exact .refl _

/-- One lane changes, and no unit. -/
theorem joints_set {s t : State} {l : Lane} {x : LaneState} (ht : t.lanes = s.lanes.set l x) (u : t.units = s.units)
    (hs : JointsSound s) (jc : ∀ m, ∀ r ∈ (t.lane m).transit, jointCountOf t r = jointCountOf s r)
    (h : x.JointsSound (jointCountOf s) (heldOf s l) l) : JointsSound t := fun m => by
  have lane : t.lane m = if m = l then x else s.lane m := by
    unfold State.lane
    rw [ht, Pair.get_set_eq]
  refine LaneState.JointsSound.congr (jc' := jointCountOf t) (held' := heldOf t m) (jc := jointCountOf s)
    (held := heldOf s m) ?_ (jc m) (heldOf_units u m)
  rw [lane]
  split
  · next e => subst e; exact h
  · exact hs m

/-- One lane changes, and the units hold as much of the records of the other. -/
theorem joints_lane {s t : State} {l : Lane} (hs : JointsSound s)
    (jc : ∀ m, ∀ r ∈ (t.lane m).transit, jointCountOf t r = jointCountOf s r)
    (other : ∀ m, m ≠ l → t.lane m = s.lane m ∧ ∀ i, heldOf t m i = heldOf s m i)
    (h : (t.lane l).JointsSound (jointCountOf s) (heldOf t l) l) : JointsSound t := fun m => by
  by_cases e : m = l
  · subst e
    exact h.congr (jc m) fun _ => rfl
  · obtain ⟨a, b⟩ := other m e
    have k := hs m
    rw [← a] at k
    exact k.congr (jc m) b

theorem takeItem_transit (l : Lane) (i : WorkItem) (rest : List WorkItem) (s : State) :
    ((takeItem l i rest s).lane l).transit = (s.lane l).transit.map fun q =>
      if q.ident = i.record then { q with work := { q.work with queued := q.work.queued - 1 } } else q := by
  cases l <;> rfl

theorem takeItem_ready (l : Lane) (i : WorkItem) (rest : List WorkItem) (s : State) :
    ((takeItem l i rest s).lane l).ready = rest := by
  cases l <;> rfl

theorem scanStartAt_idle (s : State) (l : Lane) (st : LaneSettings) (t q : Word) (r : BoardRecord) :
    r.Idle (scanStartAt s l st t q r) := by
  unfold scanStartAt
  split
  · dsimp only
    split
    · exact ⟨rfl, rfl, rfl, rfl, nofun, nofun, id⟩
    · exact ⟨rfl, rfl, rfl, rfl, id, id, id⟩
  · exact .refl r

theorem scanEndAt_idle (t : Word) (r : BoardRecord) : r.Idle (scanEndAt t r) := by
  unfold scanEndAt
  split
  · split
    · exact ⟨rfl, rfl, rfl, rfl, nofun, nofun, id⟩
    · exact .refl r
  · exact .refl r

theorem takeTrail_idle (s : State) (st : LaneSettings) (p : Word) (r : BoardRecord) : r.Idle (takeTrail s st p r) := by
  unfold takeTrail
  dsimp only
  split <;> exact ⟨rfl, rfl, rfl, rfl, id, id, id⟩

/-! ### Decisions -/

/-- What a decision leaves of a record that was not DECIDED (R35, R113). -/
theorem decideBy_parts (c : Cause) (p : StalePolicy) (n : Nat) (r : BoardRecord) (h : r.state ≠ .decided) :
    (r.decideBy c p n).state = .decided
      ∧ (c = .completion → (r.decideBy c p n).work = r.work
          ∧ (r.decideBy c p n).verdictPart.counts.sum = r.verdictPart.counts.sum)
      ∧ (c ≠ .completion → (r.decideBy c p n).work = { cursor := n, queued := 0, inFlight := 0 }
          ∧ (r.decideBy c p n).verdictPart.counts.sum
              = r.verdictPart.counts.sum + outstandingJoints n r.work) := by
  unfold BoardRecord.decideBy
  rw [if_neg h]
  refine ⟨rfl, fun e => ?_, fun e => ?_⟩
  · subst e
    exact ⟨rfl, rfl⟩
  · have sums : ∀ o : JointOutcome, ((r.verdictPart.counts.add o (outstandingJoints n r.work))).sum
        = r.verdictPart.counts.sum + outstandingJoints n r.work := fun o => Counts.sum_add o _ _
    cases c with
    | completion => exact absurd rfl e
    | withdraw => exact ⟨rfl, sums .skipped⟩
    | abandon => exact ⟨rfl, sums .skipped⟩
    | deadline =>
      unfold BoardRecord.flagBefore
      split
      · exact ⟨rfl, sums .late⟩
      · exact ⟨rfl, sums .late⟩

theorem decideBy_same (c : Cause) (p : StalePolicy) (n : Nat) (r : BoardRecord) :
    (r.decideBy c p n).ident = r.ident ∧ (r.decideBy c p n).binding = r.binding := by
  unfold BoardRecord.decideBy
  split
  · exact ⟨rfl, rfl⟩
  · unfold BoardRecord.flagBefore
    split <;> cases c <;> exact ⟨rfl, rfl⟩

theorem queuedOf_dropItems (x : LaneState) (j i : Nat) :
    (x.dropItems j).queuedOf i = if i = j then 0 else x.queuedOf i := by
  unfold LaneState.dropItems LaneState.queuedOf
  rw [List.countP_filter]
  split
  · next e =>
    rw [List.countP_eq_zero]
    intro a _
    simp [e]
  · next e =>
    refine List.countP_congr fun a _ => ?_
    have : a.record = i → ¬ a.record = j := fun k m => e (k.symm.trans m)
    simp
    exact this

/-- The accounting of a record that is complete: every joint is counted (R36, R144). -/
theorem Accounted.complete {s : State} {r : BoardRecord} {q f : Nat} (a : r.Accounted (jointCountOf s r) q f)
    (c : r.Complete s) : r.verdictPart.counts.sum = jointCountOf s r := by
  rcases c with c | c
  · exact a.2.2.2.2.2 (.inr c)
  · exact c

/-- A decision keeps the accounting: what it takes from the cursor, the queue and the units it counts (R113, R114). -/
theorem joints_decide {s t : State} {c : Cause} {l : Lane} {r : BoardRecord}
    (ht : t = cutItems c l r.ident (fixRecord c l r.ident s)) (release : ReleaseOrderSound s) (hs : JointsSound s)
    (jc : ∀ m, ∀ r ∈ (t.lane m).transit, jointCountOf t r = jointCountOf s r)
    (found : (s.lane l).record? r.ident = some r) (undecided : r.state ≠ .decided)
    (complete : c = .completion → ∃ q ∈ (s.lane l).transit, q.ident = r.ident ∧ q.Complete s) : JointsSound t := by
  have hr := List.mem_of_find?_eq_some found
  have acc := (hs l).1 r hr
  obtain ⟨dec, kept, cut⟩ := decideBy_parts c (stalePolicyOf (s.lane l)) (jointCountOf s r) r undecided
  have fixed : ∀ m, (fixRecord c l r.ident s).lane m = if m = l then
      ((s.lane l).mapRecord r.ident fun q =>
        q.decideBy c (stalePolicyOf (s.lane l)) (jointCountOf s q)).reevaluate else s.lane m := fun m => by
    rw [fixRecord, reevaluate, updLane_updLane, State.lane_updLane_eq]
  by_cases e : c = .completion
  · obtain ⟨q, hq, k, comp⟩ := complete e
    have := (release l).unique hr hq k
    subst this
    have sum := Accounted.complete acc comp
    obtain ⟨w, n⟩ := kept e
    rw [cutItems, if_pos e] at ht
    have lane : t.lane l = ((s.lane l).mapRecord q.ident fun p =>
        p.decideBy c (stalePolicyOf (s.lane l)) (jointCountOf s p)).reevaluate := by rw [ht, fixed, if_pos rfl]
    refine joints_lane (l := l) hs jc (fun m hm => ⟨by rw [ht, fixed, if_neg hm], fun i => by rw [ht]; rfl⟩) ?_
    rw [lane]
    have held : heldOf t l = heldOf s l := by rw [ht]; rfl
    rw [held]
    refine (hs l).change (release l) hr (fun p => p.decideBy c (stalePolicyOf (s.lane l)) (jointCountOf s p))
      (fun p => (decideBy_same ..).1) rfl (fun i m => m) (fun i _ => rfl) (fun i _ => rfl)
      (jointCountOf_binding s (decideBy_same ..).2) ?_
    obtain ⟨a1, a2, a3, a4, a5, a6⟩ := acc
    unfold BoardRecord.Accounted
    rw [w, n, dec]
    exact ⟨a1, a2, a3, a4, nofun, fun _ => sum⟩
  · obtain ⟨w, n⟩ := cut e
    rw [cutItems, if_neg e] at ht
    have lane : ∀ m, t.lane m = if m = l then (((s.lane l).mapRecord r.ident fun q =>
        q.decideBy c (stalePolicyOf (s.lane l)) (jointCountOf s q)).reevaluate).dropItems r.ident else s.lane m :=
      fun m => by
        rw [ht]
        show ((fixRecord c l r.ident s).updLane l (LaneState.dropItems r.ident)).lane m = _
        rw [State.lane_updLane_eq, fixed, fixed, if_pos rfl]
        split <;> rfl
    have held : ∀ m i, heldOf t m i = if m = l ∧ i = r.ident then 0 else heldOf s m i := fun m i => by
      rw [ht, heldOf_discard]
      rfl
    refine joints_lane (l := l) hs jc (fun m hm => ⟨by rw [lane, if_neg hm], fun i => by
      rw [held, if_neg fun k => hm k.1]⟩) ?_
    rw [lane, if_pos rfl]
    refine (hs l).change (release l) hr (fun p => p.decideBy c (stalePolicyOf (s.lane l)) (jointCountOf s p))
      (fun p => (decideBy_same ..).1) rfl (fun i m => (List.mem_filter.1 m).1)
      (fun i ne => (queuedOf_dropItems _ _ _).trans (if_neg ne)) (fun i ne => by rw [held, if_neg fun k => ne k.2])
      (jointCountOf_binding s (decideBy_same ..).2) ?_
    obtain ⟨a1, a2, a3, a4, a5, a6⟩ := acc
    unfold BoardRecord.Accounted
    rw [w, n, dec, held, if_pos ⟨rfl, rfl⟩, queuedOf_dropItems, if_pos rfl]
    unfold outstandingJoints
    have all : r.verdictPart.counts.sum + ((jointCountOf s r - r.work.cursor) + r.work.queued + r.work.inFlight)
        = jointCountOf s r := by omega
    rw [all]
    exact ⟨le_refl _, by dsimp only; omega, rfl, rfl, nofun, fun _ => rfl⟩

/-! ### Examinations -/

theorem workItem?_names {s : State} {l : Lane} {r : BoardRecord} {j : Nat} {i : WorkItem}
    (h : workItem? s l r j = some i) : i.lane = l ∧ i.record = r.ident := by
  unfold workItem? at h
  split at h
  · split at h
    · obtain ⟨g, _, e⟩ := Option.map_eq_some_iff.1 h
      subst e
      exact ⟨rfl, rfl⟩
    · cases h
  · cases h

theorem passedItems_names {s : State} {l : Lane} {r : BoardRecord} {c n : Nat} {i : WorkItem}
    (h : i ∈ passedItems s l r c n) : i.lane = l ∧ i.record = r.ident := by
  obtain ⟨k, _, e⟩ := List.mem_filterMap.1 h
  exact workItem?_names e

/-- The items passed for the records of a lane, record by record. -/
theorem countP_passed {s : State} {l : Lane} {P : BoardRecord → BoardRecord → Prop} {rs rs' : List BoardRecord}
    (h : List.Forall₂ P rs rs') (distinct : rs.Pairwise fun a b => a.ident < b.ident) {r r' : BoardRecord}
    (m : (r, r') ∈ rs.zip rs') :
    ((rs.zip rs').map fun p => passedItems s l p.1 p.1.work.cursor
        (p.2.work.cursor - p.1.work.cursor)).flatten.countP (fun i => decide (i.record = r.ident))
      = (passedItems s l r r.work.cursor (r'.work.cursor - r.work.cursor)).length := by
  have own : ∀ (p : BoardRecord) (c n : Nat),
      (passedItems s l p c n).countP (fun i => decide (i.record = p.ident)) = (passedItems s l p c n).length := by
    intro p c n
    rw [List.countP_eq_length]
    intro i hi
    simp [(passedItems_names hi).2]
  have others : ∀ {as bs : List BoardRecord}, (∀ q ∈ as, q.ident ≠ r.ident) →
      ((as.zip bs).map fun p => passedItems s l p.1 p.1.work.cursor
        (p.2.work.cursor - p.1.work.cursor)).flatten.countP (fun i => decide (i.record = r.ident)) = 0 := by
    intro as bs k
    rw [List.countP_eq_zero]
    intro i hi e
    obtain ⟨ps, hp, hi⟩ := List.mem_flatten.1 hi
    obtain ⟨p, hz, e'⟩ := List.mem_map.1 hp
    subst e'
    exact k p.1 (List.of_mem_zip hz).1 ((passedItems_names hi).2.symm.trans (of_decide_eq_true e))
  induction h with
  | nil => simp at m
  | @cons a b as bs k _ ih =>
    rw [List.pairwise_cons] at distinct
    rw [List.zip_cons_cons] at m ⊢
    rw [List.map_cons, List.flatten_cons, List.countP_append]
    rcases List.mem_cons.1 m with e | e
    · obtain ⟨rfl, rfl⟩ := Prod.mk.inj e
      dsimp only
      rw [own, others fun q hq => (distinct.1 q hq).ne']
      rfl
    · rw [ih distinct.2 e]
      have lt := distinct.1 r (List.of_mem_zip e).1
      have none : (passedItems s l a a.work.cursor (b.work.cursor - a.work.cursor)).countP
          (fun i => decide (i.record = r.ident)) = 0 := by
        rw [List.countP_eq_zero]
        intro i hi c
        exact lt.ne ((passedItems_names hi).2.symm.trans (of_decide_eq_true c))
      dsimp only
      rw [none, Nat.zero_add]

theorem forall₂_zip {α : Type} {P : α → α → Prop} {as bs : List α} (h : List.Forall₂ P as bs) :
    (∀ b ∈ bs, ∃ a, (a, b) ∈ as.zip bs) ∧ (∀ a ∈ as, ∃ b, (a, b) ∈ as.zip bs) ∧ ∀ p ∈ as.zip bs, P p.1 p.2 := by
  induction h with
  | nil => exact ⟨(fun _ m => nomatch m), (fun _ m => nomatch m), (fun _ m => nomatch m)⟩
  | cons k _ ih =>
    obtain ⟨i1, i2, i3⟩ := ih
    refine ⟨fun b m => ?_, fun a m => ?_, fun p m => ?_⟩
    · rcases List.mem_cons.1 m with rfl | m
      · exact ⟨_, List.mem_cons_self⟩
      · obtain ⟨a, h⟩ := i1 b m
        exact ⟨a, List.mem_cons_of_mem _ h⟩
    · rcases List.mem_cons.1 m with rfl | m
      · exact ⟨_, List.mem_cons_self⟩
      · obtain ⟨b, h⟩ := i2 a m
        exact ⟨b, List.mem_cons_of_mem _ h⟩
    · rw [List.zip_cons_cons] at m
      rcases List.mem_cons.1 m with rfl | m
      · exact k
      · exact i3 p m

/-- An examination keeps the accounting: what the cursors pass joins the queue (R106, R108). -/
theorem joints_examine {s : State} {l : Lane} (release : ReleaseOrderSound s) (hs : JointsSound s) :
    JointsSound (examine l s) := by
  obtain ⟨queue, records⟩ := examineRecords_all s l (s.lane l).transit (s.lane l).ready
  obtain ⟨back, forth, pairs⟩ := forall₂_zip records
  have distinct : (s.lane l).transit.Pairwise fun a b => a.ident < b.ident := (release l).1.imp fun h => h.1
  rw [examine_eq]
  refine joints_set (l := l) rfl rfl hs (fun _ _ _ => rfl) ?_
  have count : ∀ r r', (r, r') ∈ (s.lane l).transit.zip (examineRecords s l (s.lane l).transit (s.lane l).ready).1 →
      (examineRecords s l (s.lane l).transit (s.lane l).ready).2.countP (fun i => decide (i.record = r.ident))
        = (s.lane l).queuedOf r.ident
          + (passedItems s l r r.work.cursor (r'.work.cursor - r.work.cursor)).length := fun r r' m => by
    rw [queue, List.countP_append]
    exact congrArg₂ (· + ·) rfl (countP_passed records distinct m)
  refine ⟨fun r' hr' => ?_, fun i hi => ?_, fun i hi => ?_⟩
  · obtain ⟨r, hz⟩ := back r' hr'
    have hr := (List.of_mem_zip hz).1
    obtain ⟨eq, le, len, _, idle, _, bal⟩ := pairs _ hz
    have key := count r r' hz
    obtain ⟨a1, a2, a3, a4, a5, a6⟩ := (hs l).1 r hr
    dsimp only at eq le len idle bal key
    have ident : r'.ident = r.ident := by rw [eq]
    have binding : r'.binding = r.binding := by rw [eq]
    have state : r'.state = r.state := by rw [eq]
    have done : r'.jointsComplete = r.jointsComplete := by rw [eq]
    have counts : r'.verdictPart.counts = r.verdictPart.counts := by rw [eq]
    have queued : r'.work.queued = r.work.queued
      + (passedItems s l r r.work.cursor (r'.work.cursor - r.work.cursor)).length := by rw [eq]
    have inFlight : r'.work.inFlight = r.work.inFlight := by rw [eq]
    unfold BoardRecord.Accounted
    rw [jointCountOf_binding s binding, ident, counts, queued, inFlight, state, done]
    refine ⟨by omega, by omega, ?_, a4, fun e => ?_, a6⟩
    · rw [LaneState.queuedOf, key]
      omega
    · rw [idle (by simp [BoardRecord.isActive, e])]
      exact a5 e
  · have stays : ∀ r ∈ (s.lane l).transit, r.ident = i.record →
        ∃ r' ∈ (examineRecords s l (s.lane l).transit (s.lane l).ready).1, r'.ident = i.record := fun r hr k => by
      obtain ⟨r', hz⟩ := forth r hr
      refine ⟨r', (List.of_mem_zip hz).2, ?_⟩
      have := (pairs _ hz).1
      dsimp only at this
      rw [this]
      exact k
    dsimp only at hi
    rw [queue] at hi
    rcases List.mem_append.1 hi with m | m
    · obtain ⟨e, r, hr, k⟩ := (hs l).2.1 i m
      exact ⟨e, stays r hr k⟩
    · obtain ⟨ps, hp, hi⟩ := List.mem_flatten.1 m
      obtain ⟨p, hz, e⟩ := List.mem_map.1 hp
      subst e
      obtain ⟨e, k⟩ := passedItems_names hi
      exact ⟨e, stays p.1 (List.of_mem_zip hz).1 k.symm⟩
  · obtain ⟨r, hr, k⟩ := (hs l).2.2 i hi
    obtain ⟨r', hz⟩ := forth r hr
    refine ⟨r', (List.of_mem_zip hz).2, ?_⟩
    have := (pairs _ hz).1
    dsimp only at this
    rw [this]
    exact k

/-! ### Grants and outcomes -/

theorem map_map_if (rs : List BoardRecord) (i : Nat) (f g : BoardRecord → BoardRecord) (ident : ∀ q, (f q).ident = q.ident) :
    (rs.map fun q => if q.ident = i then f q else q).map (fun q => if q.ident = i then g q else q)
      = rs.map fun q => if q.ident = i then g (f q) else q := by
  rw [List.map_map]
  refine List.map_congr_left fun q _ => ?_
  by_cases e : q.ident = i
  · simp [e, ident]
  · simp [e]

theorem takeOutcome_parts (o : OutcomeRecord) (r : BoardRecord) : (r.takeOutcome o).ident = r.ident
    ∧ (r.takeOutcome o).binding = r.binding ∧ (r.takeOutcome o).state = r.state ∧ (r.takeOutcome o).work = r.work
    ∧ (r.takeOutcome o).jointsComplete = r.jointsComplete
    ∧ (r.state ≠ .decided → (r.takeOutcome o).verdictPart.counts.sum = r.verdictPart.counts.sum + 1) := by
  unfold BoardRecord.takeOutcome
  split
  · next h => exact ⟨rfl, rfl, rfl, rfl, rfl, fun k => absurd h k⟩
  · exact ⟨rfl, rfl, rfl, rfl, rfl, fun _ => VerdictFields.sum_takeOutcome o _⟩

/-- The item at the front of a ready queue, its record, and the queue without it. -/
theorem taken_record {s : State} {l : Lane} {i : WorkItem} {rest : List WorkItem} (hs : JointsSound s)
    (front : (s.lane l).ready = i :: rest) : i.lane = l ∧ ∃ r ∈ (s.lane l).transit, r.ident = i.record
      ∧ r.Accounted (jointCountOf s r) (rest.countP (fun j => decide (j.record = r.ident)) + 1) (heldOf s l r.ident)
      ∧ ∀ j, j ≠ r.ident → (s.lane l).queuedOf j = rest.countP fun k => decide (k.record = j) := by
  obtain ⟨e, r, hr, k⟩ := (hs l).2.1 i (by rw [front]; exact List.mem_cons_self)
  refine ⟨e, r, hr, k, ?_, fun j hj => ?_⟩
  · have := (hs l).1 r hr
    rw [LaneState.queuedOf, front, List.countP_cons_of_pos (by simp [k])] at this
    exact this
  · rw [LaneState.queuedOf, front, List.countP_cons_of_neg]
    simpa [← k] using hj.symm

theorem takeItem_lane_ne {l m : Lane} (i : WorkItem) (rest : List WorkItem) (s : State) (h : m ≠ l) :
    (takeItem l i rest s).lane m = s.lane m := by
  cases l <;> cases m <;> first | rfl | exact absurd rfl h

/-- A grant that goes to a unit (R111): from queued to in flight. -/
theorem joints_granted {s : State} {u : UnitId} {l : Lane} {i : WorkItem} {rest : List WorkItem}
    (release : ReleaseOrderSound s) (hs : JointsSound s) (idle : s.unitOf u = none)
    (front : (s.lane l).ready = i :: rest) : JointsSound (startEvaluation u i (takeItem l i rest s)) := by
  obtain ⟨e, r, hr, k, acc, others⟩ := taken_record hs front
  subst e
  have held : ∀ m j, heldOf (startEvaluation u i (takeItem i.lane i rest s)) m j
      = heldOf s m j + if m = i.lane ∧ j = i.record then 1 else 0 := fun m j => by
    have := heldOf_setUnit s u (some
      { item := i, spoiled := false, discard := false, inputs := readInputs (takeItem i.lane i rest s) i }) m j
    rw [idle] at this
    simp only [holdsItemOf, WorkItem.belongsTo, Bool.toNat_false, Nat.add_zero, Bool.not_false, Bool.true_and] at this
    refine Eq.trans ?_ (this.trans (congrArg (heldOf s m j + ·) ?_))
    · rfl
    · by_cases c : m = i.lane ∧ j = i.record
      · rw [if_pos c, c.1, c.2]; simp
      · rw [if_neg c]
        have : ¬ (i.lane = m ∧ i.record = j) := fun d => c ⟨d.1.symm, d.2.symm⟩
        rw [← Bool.decide_and, decide_eq_false this]
        rfl
  have lane : ∀ m, (startEvaluation u i (takeItem i.lane i rest s)).lane m
      = if m = i.lane then ((takeItem i.lane i rest s).lane i.lane).mapRecord i.record
          (fun q => { q with work := { q.work with inFlight := q.work.inFlight + 1 } }) else s.lane m := fun m => by
    have h : (startEvaluation u i (takeItem i.lane i rest s)).lane m
      = if m = i.lane then ((takeItem i.lane i rest s).lane i.lane).mapRecord i.record
          (fun q => { q with work := { q.work with inFlight := q.work.inFlight + 1 } })
        else (takeItem i.lane i rest s).lane m :=
      State.lane_updLane_eq ((takeItem i.lane i rest s).setUnit u _) i.lane m _
    rw [h]
    split
    · rfl
    · next n => exact takeItem_lane_ne i rest s n
  refine joints_lane (l := i.lane) hs (fun _ _ _ => rfl) (fun m hm => ⟨by rw [lane, if_neg hm], fun j => by
    rw [held, if_neg fun c => hm c.1, Nat.add_zero]⟩) ?_
  rw [lane, if_pos rfl]
  refine (hs i.lane).change (release i.lane) hr (fun q => { q with work :=
    { q.work with queued := q.work.queued - 1, inFlight := q.work.inFlight + 1 } }) (fun _ => rfl) ?_ ?_ ?_ ?_ rfl ?_
  · rw [k]
    show (((takeItem i.lane i rest s).lane i.lane).transit.map _) = _
    rw [takeItem_transit]
    exact map_map_if _ i.record (fun q => { q with work := { q.work with queued := q.work.queued - 1 } })
      (fun q => { q with work := { q.work with inFlight := q.work.inFlight + 1 } }) fun _ => rfl
  · intro j hj
    have : j ∈ ((takeItem i.lane i rest s).lane i.lane).ready := hj
    rw [takeItem_ready] at this
    rw [front]
    exact List.mem_cons_of_mem _ this
  · intro j hj
    have : (((takeItem i.lane i rest s).lane i.lane).mapRecord i.record
          (fun q => { q with work := { q.work with inFlight := q.work.inFlight + 1 } })).queuedOf j
        = ((takeItem i.lane i rest s).lane i.lane).ready.countP fun k => decide (k.record = j) := rfl
    rw [this, takeItem_ready]
    exact (others j hj).symm
  · intro j hj
    rw [held, if_neg fun c => hj (c.2.trans k.symm), Nat.add_zero]
  · obtain ⟨a1, a2, a3, a4, a5, a6⟩ := acc
    have : (((takeItem i.lane i rest s).lane i.lane).mapRecord i.record
          (fun q => { q with work := { q.work with inFlight := q.work.inFlight + 1 } })).queuedOf r.ident
        = ((takeItem i.lane i rest s).lane i.lane).ready.countP fun k => decide (k.record = r.ident) := rfl
    rw [held, if_pos ⟨rfl, k⟩, this, takeItem_ready]
    exact ⟨a1, by dsimp only; omega, by dsimp only; omega, by dsimp only; omega, a5, a6⟩

/-- An item that completes at its grant (R110): from queued to counted. -/
theorem joints_evicted {s : State} {l : Lane} {i : WorkItem} {rest : List WorkItem} {o : OutcomeRecord}
    {p : BoardRecord} (release : ReleaseOrderSound s) (hs : JointsSound s)
    (front : (s.lane l).ready = i :: rest) (found : ((takeItem l i rest s).lane i.lane).record? i.record = some p)
    (undecided : p.state ≠ .decided) : JointsSound (countOutcome i.lane i.record o (takeItem l i rest s)) := by
  obtain ⟨e, r, hr, k, acc, others⟩ := taken_record hs front
  subst e
  have open' : r.state ≠ .decided := by
    have m := List.mem_of_find?_eq_some found
    have e := record?_ident found
    rw [takeItem_transit] at m
    obtain ⟨q, hq, h⟩ := List.mem_map.1 m
    split at h
    · next c =>
      have := (release i.lane).unique hr hq (c.trans k.symm)
      subst this
      subst h
      exact undecided
    · next c => exact absurd (h ▸ e) c
  have lane : ∀ m, (countOutcome i.lane i.record o (takeItem i.lane i rest s)).lane m
      = if m = i.lane then ((takeItem i.lane i rest s).lane i.lane).mapRecord i.record (BoardRecord.takeOutcome o)
        else s.lane m := fun m => by
    rw [countOutcome, State.lane_updLane_eq]
    split
    · rfl
    · next n => exact takeItem_lane_ne i rest s n
  refine joints_lane (l := i.lane) hs (fun _ _ _ => rfl) (fun m hm => ⟨by rw [lane, if_neg hm], fun j => rfl⟩) ?_
  rw [lane, if_pos rfl]
  have parts := takeOutcome_parts o { r with work := { r.work with queued := r.work.queued - 1 } }
  refine (hs i.lane).change (release i.lane) hr (fun q => BoardRecord.takeOutcome o
    { q with work := { q.work with queued := q.work.queued - 1 } }) (fun q => (takeOutcome_parts o _).1) ?_ ?_ ?_ ?_
      (jointCountOf_binding s parts.2.1) ?_
  · rw [k]
    show (((takeItem i.lane i rest s).lane i.lane).transit.map _) = _
    rw [takeItem_transit]
    exact map_map_if _ i.record (fun q => { q with work := { q.work with queued := q.work.queued - 1 } })
      (BoardRecord.takeOutcome o) fun _ => rfl
  · intro j hj
    have : j ∈ ((takeItem i.lane i rest s).lane i.lane).ready := hj
    rw [takeItem_ready] at this
    rw [front]
    exact List.mem_cons_of_mem _ this
  · intro j hj
    have : (((takeItem i.lane i rest s).lane i.lane).mapRecord i.record (BoardRecord.takeOutcome o)).queuedOf j
        = ((takeItem i.lane i rest s).lane i.lane).ready.countP fun k => decide (k.record = j) := rfl
    rw [this, takeItem_ready]
    exact (others j hj).symm
  · intro j _
    rfl
  · obtain ⟨a1, a2, a3, a4, a5, a6⟩ := acc
    obtain ⟨p1, p2, p3, p4, p5, p6⟩ := parts
    have : (((takeItem i.lane i rest s).lane i.lane).mapRecord i.record (BoardRecord.takeOutcome o)).queuedOf r.ident
        = ((takeItem i.lane i rest s).lane i.lane).ready.countP fun k => decide (k.record = r.ident) := rfl
    rw [this, takeItem_ready]
    unfold BoardRecord.Accounted
    dsimp only at p3 p4 p5 p6 ⊢
    rw [p3, p4, p5, p6 open']
    refine ⟨a1, by dsimp only; omega, by dsimp only; omega, a4, a5, fun h => ?_⟩
    have := a6 h
    omega

/-- The item at the front of a ready queue is one of a record that is not DECIDED. -/
theorem not_lostItem {s : State} {l : Lane} {i : WorkItem} {rest : List WorkItem} (release : ReleaseOrderSound s)
    (hs : JointsSound s) (front : (s.lane l).ready = i :: rest)
    (lost : ∀ r, ((takeItem l i rest s).lane i.lane).record? i.record = some r → r.state = .decided) : False := by
  obtain ⟨e, r, hr, k, acc, _⟩ := taken_record hs front
  subst e
  have there : (((takeItem i.lane i rest s).lane i.lane).record? i.record).isSome = true := by
    rw [LaneState.record?, List.find?_isSome]
    refine ⟨{ r with work := { r.work with queued := r.work.queued - 1 } }, ?_, by simp [k]⟩
    rw [takeItem_transit]
    exact List.mem_map.2 ⟨r, hr, by rw [if_pos k]⟩
  obtain ⟨p, found⟩ := Option.isSome_iff_exists.1 there
  have dec := lost p found
  have m := List.mem_of_find?_eq_some found
  have e := record?_ident found
  rw [takeItem_transit] at m
  obtain ⟨q, hq, h⟩ := List.mem_map.1 m
  split at h
  · next c =>
    have := (release i.lane).unique hr hq (c.trans k.symm)
    subst this
    subst h
    obtain ⟨a1, a2, a3, a4, a5, a6⟩ := acc
    have := a6 (.inl dec)
    omega
  · next c => exact absurd (h ▸ e) c

theorem landItem_lane (i : WorkItem) (u : UnitId) (s : State) (m : Lane) :
    (landItem i (freeUnit u s)).lane m = if m = i.lane then (s.lane i.lane).mapRecord i.record
      (fun q => { q with work := { q.work with inFlight := q.work.inFlight - 1 } }) else s.lane m :=
  State.lane_updLane_eq (freeUnit u s) i.lane m _

/-- The record of an evaluation that ends with its result kept. -/
theorem landed_record {s : State} {u : UnitId} {e : Evaluation} {p : BoardRecord}
    (hs : JointsSound s) (busy : s.unitOf u = some e) (kept : e.discard = false)
    (found : ((landItem e.item (freeUnit u s)).lane e.item.lane).record? e.item.record = some p) :
    ∃ r ∈ (s.lane e.item.lane).transit, r.ident = e.item.record ∧ p.state = r.state ∧ r.state ≠ .decided := by
  have pos := holdsItemOf_pos busy kept
  have m := List.mem_of_find?_eq_some found
  have id := record?_ident found
  rw [landItem_lane, if_pos rfl] at m
  obtain ⟨q, hq, h⟩ := List.mem_map.1 m
  split at h
  · next c =>
    subst h
    refine ⟨q, hq, c, rfl, fun d => pos ?_⟩
    rw [← c]
    exact ((hs _).finished hq (.inl d)).2
  · next c => exact absurd (h ▸ id) c

/-- An evaluation that ends (R116): from in flight to counted. -/
theorem joints_evaluated {s : State} {u : UnitId} {e : Evaluation} {o : OutcomeRecord} {p : BoardRecord}
    (release : ReleaseOrderSound s) (hs : JointsSound s) (busy : s.unitOf u = some e) (kept : e.discard = false)
    (found : ((landItem e.item (freeUnit u s)).lane e.item.lane).record? e.item.record = some p) :
    JointsSound (countOutcome e.item.lane e.item.record o (landItem e.item (freeUnit u s))) := by
  obtain ⟨r, hr, k, _, open'⟩ := landed_record hs busy kept found
  have held : ∀ m j, heldOf (countOutcome e.item.lane e.item.record o (landItem e.item (freeUnit u s))) m j
      + (if m = e.item.lane ∧ j = e.item.record then 1 else 0) = heldOf s m j := fun m j => by
    have := heldOf_setUnit s u none m j
    rw [busy] at this
    simp only [holdsItemOf, kept, WorkItem.belongsTo, Bool.toNat_false, Nat.add_zero, Bool.not_false, Bool.true_and]
      at this
    refine Eq.trans (congrArg₂ (· + ·) ?_ ?_) this
    · rfl
    · by_cases c : m = e.item.lane ∧ j = e.item.record
      · rw [if_pos c, c.1, c.2]; simp
      · rw [if_neg c]
        have : ¬ (e.item.lane = m ∧ e.item.record = j) := fun d => c ⟨d.1.symm, d.2.symm⟩
        rw [← Bool.decide_and, decide_eq_false this]
        rfl
  have lane : ∀ m, (countOutcome e.item.lane e.item.record o (landItem e.item (freeUnit u s))).lane m
      = if m = e.item.lane then ((landItem e.item (freeUnit u s)).lane e.item.lane).mapRecord e.item.record
          (BoardRecord.takeOutcome o) else s.lane m := fun m => by
    rw [countOutcome, State.lane_updLane_eq]
    split
    · rfl
    · next n => rw [landItem_lane, if_neg n]
  have queue : ((landItem e.item (freeUnit u s)).lane e.item.lane).ready = (s.lane e.item.lane).ready := by
    rw [landItem_lane, if_pos rfl]; rfl
  have mine : ∀ j, ((((landItem e.item (freeUnit u s)).lane e.item.lane).mapRecord e.item.record
        (BoardRecord.takeOutcome o))).queuedOf j = (s.lane e.item.lane).queuedOf j := fun j => by
    have : (((landItem e.item (freeUnit u s)).lane e.item.lane).mapRecord e.item.record
        (BoardRecord.takeOutcome o)).queuedOf j
      = ((landItem e.item (freeUnit u s)).lane e.item.lane).ready.countP fun k => decide (k.record = j) := rfl
    rw [this, queue]
    rfl
  refine joints_lane (l := e.item.lane) hs (fun _ _ _ => rfl) (fun m hm => ⟨by rw [lane, if_neg hm], fun j => by
    have := held m j
    rw [if_neg fun c => hm c.1] at this
    exact this⟩) ?_
  rw [lane, if_pos rfl]
  have parts := takeOutcome_parts o { r with work := { r.work with inFlight := r.work.inFlight - 1 } }
  refine (hs e.item.lane).change (release e.item.lane) hr (fun q => BoardRecord.takeOutcome o
    { q with work := { q.work with inFlight := q.work.inFlight - 1 } }) (fun q => (takeOutcome_parts o _).1) ?_ ?_
      (fun j _ => mine j) ?_ (jointCountOf_binding s parts.2.1) ?_
  · rw [k]
    show (((landItem e.item (freeUnit u s)).lane e.item.lane).transit.map _) = _
    rw [landItem_lane, if_pos rfl]
    exact map_map_if _ e.item.record (fun q => { q with work := { q.work with inFlight := q.work.inFlight - 1 } })
      (BoardRecord.takeOutcome o) fun _ => rfl
  · intro j hj
    have : j ∈ ((landItem e.item (freeUnit u s)).lane e.item.lane).ready := hj
    rw [queue] at this
    exact this
  · intro j hj
    have := held e.item.lane j
    rw [if_neg fun c => hj (c.2.trans k.symm)] at this
    exact this
  · obtain ⟨a1, a2, a3, a4, a5, a6⟩ := (hs e.item.lane).1 r hr
    obtain ⟨p1, p2, p3, p4, p5, p6⟩ := parts
    have h := held e.item.lane r.ident
    rw [if_pos ⟨rfl, k⟩] at h
    rw [mine]
    unfold BoardRecord.Accounted
    dsimp only at p3 p4 p5 p6 ⊢
    rw [p3, p4, p5, p6 open']
    refine ⟨a1, by dsimp only; omega, a3, by dsimp only; omega, a5, fun h => ?_⟩
    have := a6 h
    omega

/-- An evaluation whose result is kept is one of a record that is not DECIDED. -/
theorem not_lostResult {s : State} {u : UnitId} {e : Evaluation} (hs : JointsSound s) (busy : s.unitOf u = some e) (kept : e.discard = false)
    (lost : ∀ r, ((landItem e.item (freeUnit u s)).lane e.item.lane).record? e.item.record = some r →
      r.state = .decided) : False := by
  obtain ⟨r, hr, k⟩ := (hs e.item.lane).2.2 _ (holdsItemOf_pos busy kept)
  have there : (((landItem e.item (freeUnit u s)).lane e.item.lane).record? e.item.record).isSome = true := by
    rw [LaneState.record?, List.find?_isSome]
    refine ⟨{ r with work := { r.work with inFlight := r.work.inFlight - 1 } }, ?_, by simp [k]⟩
    rw [landItem_lane, if_pos rfl]
    exact List.mem_map.2 ⟨r, hr, by rw [if_pos k]⟩
  obtain ⟨p, found⟩ := Option.isSome_iff_exists.1 there
  obtain ⟨q, _, _, e1, e2⟩ := landed_record hs busy kept found
  exact e2 (e1.symm.trans (lost p found))

/-! ### Every edit -/

/-- What an edit does to the accounting. -/
theorem joints_edit {d e : Nat} {s t : State} (h : Edit d s e t) (release : ReleaseOrderSound s) (refs : RefSound t)
    (hs : JointsSound s) : JointsSound t := by
  have jc : ∀ m, ∀ r ∈ (t.lane m).transit, jointCountOf t r = jointCountOf s r := fun m r hr =>
    jointCount_edit h refs hr
  cases h
  case eye l b => exact Still.joints (still_lane rfl rfl ⟨rfl, idle_refl _⟩) hs jc
  case countTrigger l p k r => exact Still.joints (still_lane rfl rfl ⟨rfl, idle_refl _⟩) hs jc
  case settings l st a r => exact Still.joints (still_lane rfl rfl ⟨rfl, idle_refl _⟩) hs jc
  case start l st a b c => exact Still.joints (still_lane rfl rfl ⟨rfl, idle_refl _⟩) hs jc
  case drain l r => exact Still.joints (still_lane rfl rfl ⟨rfl, idle_refl _⟩) hs jc
  case laneFlags l f => exact Still.joints (still_lane rfl rfl ⟨rfl, idle_refl _⟩) hs jc
  case floodPassed l => exact Still.joints (still_lane rfl rfl ⟨rfl, idle_refl _⟩) hs jc
  case addExpect l e st a b c f => exact Still.joints (still_lane rfl rfl ⟨rfl, idle_refl _⟩) hs jc
  case withdrawEntry l e a => exact Still.joints (still_lane rfl rfl ⟨rfl, idle_refl _⟩) hs jc
  case disable l e =>
    rw [disable_shape] at jc ⊢
    exact Still.joints (still_lane rfl rfl ⟨rfl, idle_refl _⟩) hs jc
  case untracked l e =>
    rw [untrackedBoard_shape] at jc ⊢
    exact Still.joints (still_lane rfl rfl ⟨rfl, idle_refl _⟩) hs jc
  case strayTrail l st a =>
    obtain ⟨f, e⟩ := strayTrail_shape l st s
    rw [e] at jc ⊢
    exact Still.joints (still_lane rfl rfl ⟨rfl, idle_refl _⟩) hs jc
  case trail l st r a =>
    obtain ⟨f, e⟩ := strayTrail_shape l st s
    rw [e, closeTrail, updLane_updLane] at jc ⊢
    exact Still.joints (still_lane rfl rfl ⟨rfl,
      (LaneState.still_mapRecord (s.lane l) r.ident _ (takeTrail_idle s st _)).records⟩) hs jc
  case release l r a b =>
    obtain ⟨u, o, h⟩ := releaseRecord_shape l r s
    rw [h] at jc ⊢
    exact Still.joints (still_lane rfl rfl (LaneState.still_mapRecord (s.lane l) r.ident
      (fun q => { q with verdictPart := { q.verdictPart with released := true } }) fun q =>
        ⟨rfl, rfl, rfl, rfl, id, id, id⟩)) hs jc
  case missed l h x =>
    rcases missedReport_cases l h x s with k | ⟨o, k⟩
    · rw [k]; exact hs
    · rw [k] at jc ⊢
      refine Still.joints (still_lane rfl rfl (LaneState.still_map (s.lane l) (linesLost s o x) fun r => ?_)) hs jc
      unfold linesLost
      split
      · split
        · exact ⟨rfl, rfl, rfl, rfl, id, id, id⟩
        · exact .refl r
      · exact .refl r
  case scan l st t q =>
    refine Still.joints (still_lane (x := { s.lane l with transit :=
      ((s.lane l).transit.map (scanStartAt s l st t q)).map (scanEndAt t) }) rfl rfl ?_) hs jc
    rw [List.map_map]
    exact LaneState.still_map _ _ fun r => (scanStartAt_idle s l st t q r).trans (scanEndAt_idle t _)
  case window l i =>
    rw [enterWindow, reevaluate, updLane_updLane] at jc ⊢
    exact Still.joints (still_lane rfl rfl ⟨rfl, (LaneState.still_mapRecord (s.lane l) i
      (fun q => { q with inWindow := true }) fun q => ⟨rfl, rfl, rfl, rfl, id, id, id⟩).records⟩) hs jc
  case endFlood l =>
    rw [Machine.endFlood, reevaluate, updLane_updLane] at jc ⊢
    exact Still.joints (still_lane rfl rfl ⟨rfl, idle_refl _⟩) hs jc
  case scheduler l t =>
    refine Still.joints ⟨fun m => ?_, fun m i => ?_⟩ hs jc
    · have : (schedulerTrigger l t s).lane m = if m = l then { s.lane l with triggerSeen := t } else s.lane m :=
        State.lane_updLane_eq s l m fun x => { x with triggerSeen := t }
      rw [this]
      split
      · next k => subst k; exact ⟨rfl, idle_refl _⟩
      · exact .refl _
    · refine (heldOf_mapUnits _ _ m i fun e => ?_).trans (heldOf_units rfl m i)
      split <;> rfl
  case spoil h x =>
    have st : Still s (schedulerEviction h x s) := ⟨fun m => .refl _, fun m i => heldOf_mapUnits s _ m i fun e => by
      split <;> rfl⟩
    exact st.joints hs jc
  case dropped u e a b =>
    have st : Still s (freeUnit u s) := ⟨fun m => .refl _, fun m i => by
      have := heldOf_setUnit s u none m i
      rw [b] at this
      simpa [holdsItemOf, a, freeUnit] using this⟩
    exact st.joints hs jc
  case dropFront l r rest a f =>
    rw [dropFront_shape] at jc ⊢
    refine joints_set (l := l) rfl rfl hs jc ((hs l).removed rfl (fun q hq => ?_) fun q hq n => .inl ?_)
    · rw [f]
      exact List.mem_cons_of_mem _ hq
    · rw [f] at hq
      rcases List.mem_cons.1 hq with k | k
      · exact k ▸ a
      · exact absurd k n
  case removeAll l a =>
    rw [removeAll_shape] at jc ⊢
    refine joints_set (l := l) rfl rfl hs jc ((hs l).removed rfl (fun q hq => nomatch hq) fun q hq _ => .inl ?_)
    obtain ⟨p, hp, k, dp⟩ := a q hq
    rw [← (release l).unique hq hp k]
    exact dp
  case glitch l st r b x y z w =>
    obtain ⟨f, e⟩ := strayTrail_shape l st s
    rw [e, reevaluate, updLane_updLane, updLane_updLane] at jc ⊢
    refine joints_set (l := l) rfl rfl hs jc ((hs l).removed rfl (fun q hq => (List.dropLast_sublist _).mem hq)
      fun q hq n => .inr ?_)
    have split := List.dropLast_append_getLast? r z
    rw [← split] at hq
    rcases List.mem_append.1 hq with k | k
    · exact absurd k n
    · rw [List.mem_singleton] at k
      exact k ▸ w.2.2.1
  case addBound l e rest a b c f =>
    rw [Machine.addBound, setEye, updLane_updLane] at jc ⊢
    refine joints_set (l := l) rfl rfl hs jc ((hs l).added rfl rfl
      (fun q hq => Nat.ne_of_lt ((release l).2 q hq).1) ?_)
    exact ⟨Nat.zero_le _, rfl, rfl, rfl, fun _ => rfl, fun k => by rcases k with k | k <;> cases k⟩
  case addUnbound l a b c f =>
    rw [Machine.addUnbound, setEye, updLane_updLane] at jc ⊢
    refine joints_set (l := l) rfl rfl hs jc ((hs l).added rfl rfl
      (fun q hq => Nat.ne_of_lt ((release l).2 q hq).1) ?_)
    exact ⟨Nat.zero_le _, rfl, rfl, rfl, fun _ => rfl, fun _ => rfl⟩
  case decide c l r a b g => exact joints_decide rfl release hs jc b a g
  case remember l i a =>
    obtain ⟨r, hr, k, c⟩ := a
    subst k
    refine joints_set (l := l) rfl rfl hs jc ((hs l).change (release l) hr (fun q => { q with jointsComplete := true })
      (fun _ => rfl) rfl (fun i m => m) (fun _ _ => rfl) (fun _ _ => rfl) rfl ?_)
    have sum := Accounted.complete ((hs l).1 r hr) c
    obtain ⟨a1, a2, a3, a4, a5, a6⟩ := (hs l).1 r hr
    exact ⟨a1, a2, a3, a4, a5, fun _ => sum⟩
  case examine l => exact joints_examine release hs
  case granted u l i rest a f => exact joints_granted release hs a f
  case evicted l i rest o r a f b => exact joints_evicted release hs f b a
  case lostItem l i rest f a => exact (not_lostItem release hs f a).elim
  case evaluated u e o r a b c f => exact joints_evaluated release hs c a f
  case lostResult u e a b c => exact (not_lostResult hs b a c).elim
  case endClose n =>
    obtain ⟨x, o, h⟩ := endClose_shape n s
    rw [h] at jc ⊢
    exact Still.joints (still_outside (s := s) rfl rfl) hs jc
  case reject k t c =>
    obtain ⟨o, b, h⟩ := offerReject_shape k t c s
    rw [h] at jc ⊢
    exact Still.joints (still_outside (s := s) rfl rfl) hs jc
  case sent =>
    obtain ⟨u, o, f, h⟩ := finishTransmit_shape s
    rw [h] at jc ⊢
    exact Still.joints (still_outside (s := s) rfl rfl) hs jc
  case restart tag a b =>
    obtain ⟨rs, h, _⟩ := restartReplies_shape s
    rw [h]
    intro m
    have none : ∀ u i, heldOf (restartBlocks u) m i = 0 := fun u i => by
      unfold heldOf
      rw [List.countP_eq_zero]
      intro v _
      have : (restartBlocks u).unitOf v = .none := by cases v <;> rfl
      rw [this]
      simp [holdsItemOf]
    have empty : ∀ u : State, ((restartBlocks u).lane m).transit = [] ∧ ((restartBlocks u).lane m).ready = [] := fun u =>
      by cases m <;> exact ⟨rfl, rfl⟩
    refine ⟨fun r hr => ?_, fun i hi => ?_, fun i hi => absurd (none _ i) hi⟩
    · rw [(empty _).1] at hr; cases hr
    · rw [(empty _).2] at hi; cases hi
  all_goals exact Still.joints (still_outside (s := s) rfl rfl) hs jc

end Sys2Proof.Machine
end

