-- ==== Sys2Proof/Laws/KeepsPlaces.lean ====
section
/-! SUPPORT. Every edit keeps the outbox within its places (R175), counting the place of a request in course. -/

namespace Sys2Proof.Machine

/-- The outbox with `d` places reserved for a request in course (R175, R176), and the closes owed a reply (R92). -/
def Places (d : Nat) (s : State) : Prop := s.link.outbox.length + reservedPlaces s + d ≤ 16 ∧ ∀ n, (s.slot n).TagSound

theorem places_released {d} {s t : State} (ns) (hs : Places d s) (p : t.verdicts = s.verdicts) (h : t.heads = s.heads)
    (o : t.link.outbox = s.link.outbox)
    (q : t.slots = releasedSlots ns s.slots) : Places d t := by
  have g : ∀ n, t.slot n = RecipeSlot.release^[ns.count n] (s.slot n) := fun n => by
    unfold State.slot; rw [q, releasedSlots_get]
  refine ⟨?_, fun n => by rw [g]; exact (release_iter_tag _ (hs.2 n)).1⟩
  rw [o, reserved_congr (s := s) (by rw [p]) (fun g => by unfold State.head; rw [h])
    (fun n => by rw [g]; exact (release_iter_tag _ (hs.2 n)).2)]
  exact hs.1

/-- R175. -/
theorem places_edit {d s e t} (h : Edit d s e t) (hs : Places d s) : Places e t := by
  have hs0 := hs
  obtain ⟨pl, tg⟩ := hs
  cases h
  case disable l e => rw [disable_shape l s]; exact places_released _ hs0 rfl rfl rfl rfl
  case untracked l e => rw [untrackedBoard_shape l s]; exact places_released _ hs0 rfl rfl rfl rfl
  case dropFront l r rest a f => rw [dropFront_shape l r rest s]; exact places_released _ hs0 rfl rfl rfl rfl
  case removeAll l a => rw [removeAll_shape l s]; exact places_released _ hs0 rfl rfl rfl rfl
  case withdrawEntry l e a => exact places_released [e.slot] hs0 rfl rfl rfl rfl
  case addExpect l e st a b c f =>
    have t := reserved_updSlot s e.slot (s.slot e.slot).addReference
    have c : (s.slot e.slot).addReference.isClosing = (s.slot e.slot).isClosing := rfl
    rw [c] at t
    have t : reservedPlaces (s.updSlot e.slot fun _ => (s.slot e.slot).addReference) = reservedPlaces s := by omega
    refine ⟨?_, tag_updSlot tg _ (x := (s.slot e.slot).addReference) (tg e.slot)⟩
    show s.link.outbox.length + reservedPlaces (s.updSlot e.slot fun _ => (s.slot e.slot).addReference) + _ ≤ 16
    rw [t]; exact pl
  case decide c l r a b g => rcases cutItems_cases c l r.ident (fixRecord c l r.ident s) with h | h <;> rw [h]; all_goals exact hs0
  case release l r b a =>
    unfold releaseRecord emitVerdict
    split
    · next tag rest hp =>
      refine ⟨?_, tg⟩
      simp [deliver, replyDone, placeReply, reservedPlaces] at pl hp ⊢
      rw [hp] at pl
      simp at pl
      omega
    · next hp =>
      refine ⟨?_, tg⟩
      simp [reservedPlaces, VerdictUnit.enqueue] at pl hp ⊢
      split <;> simp [hp] at pl ⊢ <;> omega
  case missed l h x => rcases missedReport_cases l h x s with h | ⟨o, h⟩ <;> rw [h]; all_goals exact hs0
  case endClose n =>
    unfold Machine.endClose
    dsimp only
    split
    · next hc =>
      have ht : (s.slot n).closeTag.isSome = true := (tg n).mp hc
      obtain ⟨tag, ht⟩ := Option.isSome_iff_exists.mp ht
      have key : ∀ x : RecipeSlot, x.TagSound → x.isClosing = false → reservedPlaces (s.updSlot n fun _ => x) + 1
        = reservedPlaces s := by
        intro x _ hx
        have := reserved_updSlot s n x
        have hcl : (s.slot n).isClosing = true := by simp [RecipeSlot.isClosing, hc]
        rw [hx, hcl] at this
        simpa using this
      split
      · rw [ht]
        have k := key (s.slot n).passClose (by simp [RecipeSlot.TagSound, RecipeSlot.passClose]) rfl
        refine ⟨?_, tag_updSlot tg n (x := (s.slot n).passClose) (by simp [RecipeSlot.TagSound, RecipeSlot.passClose])⟩
        have :
          reservedPlaces (answerClose n (some tag) none (s.slot n).joints.length (s.updSlot n RecipeSlot.passClose))
            = reservedPlaces (s.updSlot n fun _ => (s.slot n).passClose) := rfl
        rw [this]
        simp [answerClose, replyDone, placeReply]
        omega
      · next f _ =>
        rw [ht]
        have k := key ((s.slot n).failClose f) (by simp [RecipeSlot.TagSound, RecipeSlot.failClose]) rfl
        refine
          ⟨?_, tag_updSlot tg n (x := (s.slot n).failClose f) (by simp [RecipeSlot.TagSound, RecipeSlot.failClose])⟩
        have :
          reservedPlaces
            (answerClose n (some tag) (some f) (s.slot n).joints.length (s.updSlot n (RecipeSlot.failClose f)))
              = reservedPlaces (s.updSlot n fun _ => (s.slot n).failClose f) := rfl
        rw [this]
        simp [answerClose, replyRefused, placeReply]
        omega
    · exact hs0
  case reject k t c =>
    unfold offerReject
    split
    · next hf =>
      refine ⟨?_, tg⟩
      have : reservedPlaces (placeReply (rejectReply k t c) s) = reservedPlaces s := rfl
      rw [this]
      simp [placeReply, freePlaces, Config.outboxDepth] at hf ⊢
      omega
    · exact hs0
  case sent =>
    unfold finishTransmit
    split
    · exact hs0
    · refine ⟨?_, tg⟩
      have : ∀ f, reservedPlaces (s.updLink f) = reservedPlaces s := fun _ => rfl
      rw [this]
      simp
      omega
  case restart t a b =>
    obtain ⟨rs, h, hl⟩ := restartReplies_shape s; rw [h]
    have hr : ∀ x : State, reservedPlaces (restartBlocks x) = 0 := by
      intro x
      have h1 : ∀ g, ((restartBlocks x).head g).sweeping = false := by
        intro g
        simp only [State.head, restartBlocks, Quad.get_map]
        simp only [HeadPort.restart, HeadPort.sweeping, HeadPort.abandonSweep]
        cases hm : (x.heads.get g).mode <;> simp [hm]
      have h2 : ∀ g, ((restartBlocks x).slot g).isClosing = false := by
        intro g
        simp only [State.slot, restartBlocks, Quad.get_map]
        unfold RecipeSlot.restart
        split <;> simp_all [RecipeSlot.isClosing, RecipeSlot.empty]
      have h3 : (restartBlocks x).verdicts.parked = [] := rfl
      unfold reservedPlaces
      simp [h1, h2, h3]
    refine ⟨?_, fun n => ?_⟩
    · rw [hr]
      have hc : ∀ n, (s.slot n).closeTag.isSome = (s.slot n).isClosing := by
        intro n
        have := tg n
        unfold RecipeSlot.TagSound at this
        unfold RecipeSlot.isClosing
        by_cases hn : (s.slot n).state = .closing
        · simp [hn, this.mp hn]
        · have : ¬ (s.slot n).closeTag.isSome = true := fun k => hn (this.mpr k)
          simp [hn, this]
      simp only [hc] at hl
      simp [restartBlocks, replyDone, placeReply, LinkPort.restart, LinkPort.withInbox]
      unfold reservedPlaces at pl
      omega
    · have := tg n
      simp only [State.slot, restartBlocks, Quad.get_map]
      have e : ({ s with link := { s.link with outbox := s.link.outbox ++ rs } } : State).slots = s.slots := rfl
      show (RecipeSlot.restart (s.slot n)).TagSound
      unfold RecipeSlot.restart
      split <;> first | (simp [RecipeSlot.TagSound, RecipeSlot.empty]; done) | skip
      next hn =>
        unfold RecipeSlot.TagSound at this ⊢
        exact this
  case take r rest f g =>
    refine ⟨?_, tg⟩
    have : ∀ f, reservedPlaces (s.updLink f) = reservedPlaces s := fun _ => rfl
    rw [this]
    simp [freePlaces, Config.outboxDepth, LinkPort.withInbox] at g ⊢
    omega
  case reply r =>
    refine ⟨?_, tg⟩
    have : reservedPlaces (placeReply r s) = reservedPlaces s := rfl
    rw [this]
    simp [placeReply]
    omega
  case link f b =>
    refine ⟨?_, tg⟩
    have : reservedPlaces (s.updLink f) = reservedPlaces s := rfl
    rw [this, State.updLink_link, b.2.1]
    exact pl
  case collect tag v rest f =>
    refine ⟨?_, tg⟩
    have : reservedPlaces (deliver tag v (s.setVerdicts { s.verdicts with queue := rest })) = reservedPlaces s := rfl
    rw [this]
    simp [deliver, replyDone, placeReply]
    omega
  case park tag a b =>
    refine ⟨?_, tg⟩
    simp [reservedPlaces] at pl ⊢
    omega
  case head h x b =>
    refine ⟨?_, tg⟩
    have := reserved_updHead s h x
    rw [b.sweeping] at this
    have : reservedPlaces (s.updHead h fun _ => x) = reservedPlaces s := by omega
    rw [this]; exact pl
  case setup h st a b c d f =>
    refine ⟨?_, tg⟩
    have := reserved_updHead s h ((s.head h).setup st)
    have e : (HeadPort.setup st (s.head h)).sweeping = (s.head h).sweeping := rfl
    rw [e] at this
    have : reservedPlaces (storeHead h st s) = reservedPlaces s := by
      show reservedPlaces (s.updHead h fun _ => (s.head h).setup st) = _
      omega
    rw [this]; exact pl
  case startSweep tag h a b =>
    refine ⟨?_, tg⟩
    have := reserved_updHead s h ((s.head h).startSweep tag s.now)
    have e : (HeadPort.startSweep tag s.now (s.head h)).sweeping = true := rfl
    rw [e, a] at this
    have e2 : reservedPlaces (s.updHead h (HeadPort.startSweep tag s.now))
      = reservedPlaces (s.updHead h fun _ => (s.head h).startSweep tag s.now) := rfl
    rw [e2]
    simp at this ⊢
    omega
  case endSweep h sw mm ml al =>
    refine ⟨?_, tg⟩
    have := reserved_updHead s h ((s.head h).endSweep mm).1
    have e : ((s.head h).endSweep mm).1.sweeping = false := by
      unfold HeadPort.endSweep; dsimp only; split <;> rfl
    have e1 : (s.head h).sweeping = true := by simp [HeadPort.sweeping, al]
    rw [e, e1] at this
    have e2 : ∀ b,
      reservedPlaces (replyDone kindHeadAlign sw.requestTag b (s.updHead h fun _ => ((s.head h).endSweep mm).1))
        = reservedPlaces (s.updHead h fun _ => ((s.head h).endSweep mm).1) := fun _ => rfl
    rw [e2]
    simp [replyDone, placeReply] at this ⊢
    omega
  case slot n x b =>
    have hx : x.isClosing = (s.slot n).isClosing ∧ x.TagSound := by
      have := tg n
      cases b with
      | opened h a =>
        exact
          ⟨by simp [RecipeSlot.isClosing, openedSlot, a], by simp [RecipeSlot.TagSound, openedSlot, RecipeSlot.empty]⟩
      | classes cs a => exact ⟨by simp [RecipeSlot.isClosing, a], this⟩
      | joints cs a => exact ⟨by simp [RecipeSlot.isClosing, a], this⟩
      | emptied a =>
        exact
          ⟨by rcases a with a | a <;> simp [RecipeSlot.isClosing, a, RecipeSlot.empty],
            by simp [RecipeSlot.TagSound, RecipeSlot.empty]⟩
      | retiring a b =>
        exact ⟨by simp [RecipeSlot.isClosing, a], by simp [RecipeSlot.TagSound, a] at this ⊢; exact this⟩
    have k := reserved_updSlot s n x
    rw [hx.1] at k
    refine ⟨?_, tag_updSlot tg n hx.2⟩
    have : reservedPlaces (s.updSlot n fun _ => x) = reservedPlaces s := by omega
    rw [this]; exact pl
  case startClose n tag a =>
    have k := reserved_updSlot s n { s.slot n with state := .closing, closeTag := some tag }
    refine
      ⟨?_, tag_updSlot tg n (x := { s.slot n with state := .closing, closeTag := some tag })
        (by simp [RecipeSlot.TagSound])⟩
    have e2 : reservedPlaces (s.updSlot n fun x => { x with state := .closing, closeTag := some tag })
      = reservedPlaces (s.updSlot n fun _ => { s.slot n with state := .closing, closeTag := some tag }) := rfl
    rw [e2]
    simp [RecipeSlot.isClosing, a] at k ⊢
    omega
  all_goals exact hs0

end Sys2Proof.Machine
end

