-- ==== Sys2Proof/Laws/Ring.lean ====
section
/-!
SUPPORT. The line ring: every operation keeps the canonical form, and what a slot reads as after a put.
-/

namespace Sys2Proof.Machine.Ring

theorem slotOf_lt (t : Word) : slotOf t < Config.ringSlots := Nat.mod_lt _ (by decide)

/-- A put keeps the canonical form, above any lower bound of the slot. -/
theorem risingFrom_put {lo : Nat} {r : Ring} {n : Nat} {x : Line} (h : risingFrom lo r = true) (hl : lo ≤ n)
    (hn : n < Config.ringSlots) : risingFrom lo (put r n x) = true := by
  induction r generalizing lo with
  | nil => simp [put, risingFrom, hl, hn]
  | cons c r ih =>
    obtain ⟨k, y⟩ := c
    simp only [risingFrom, Bool.and_eq_true, decide_eq_true_eq] at h
    obtain ⟨⟨h1, h2⟩, h3⟩ := h
    unfold put
    split
    · next hk => simp [risingFrom, hl, hn, h2, h3]; omega
    · split
      · next hk hk' => subst hk'; simp [risingFrom, hl, hn, h3]
      · next hk hk' =>
        have := ih (lo := k + 1) h3 (by omega)
        simp [risingFrom, h1, h2, this]

theorem put_wf {r : Ring} {n : Nat} {x : Line} (h : r.wf = true) (hn : n < Config.ringSlots) :
    (r.put n x).wf = true :=
  risingFrom_put h (Nat.zero_le n) hn

theorem settle_wf {r : Ring} {t : Word} {st : LineStatus} (h : r.wf = true) : (r.settle t st).wf = true := by
  unfold settle
  split
  · exact h
  · split
    · exact put_wf h (slotOf_lt t)
    · exact h

theorem wf_nil : Ring.wf [] = true := rfl

theorem get_eq_none_of_lt {lo : Nat} {r : Ring} {n : Nat} (h : risingFrom lo r = true) (hn : n < lo) :
    r.get n = none := by
  cases r with
  | nil => rfl
  | cons c r =>
    obtain ⟨k, y⟩ := c
    simp only [risingFrom, Bool.and_eq_true, decide_eq_true_eq] at h
    have h1 := h.1.1
    simp [get, show n ≠ k by omega, show n < k by omega]

theorem get_put_self (r : Ring) (n : Nat) (x : Line) : (r.put n x).get n = some x := by
  induction r with
  | nil => simp [put, get]
  | cons c r ih =>
    obtain ⟨k, y⟩ := c
    unfold put
    split
    · simp [get]
    · split
      · simp [get]
      · next h1 h2 => simp [get, h1, h2, ih]

/-- The other slots read as before. -/
theorem get_put_of_ne {lo : Nat} {r : Ring} {n m : Nat} {x : Line} (h : risingFrom lo r = true) (hne : m ≠ n) :
    (r.put n x).get m = r.get m := by
  induction r generalizing lo with
  | nil => simp [put, get, hne]
  | cons c r ih =>
    obtain ⟨k, y⟩ := c
    simp only [risingFrom, Bool.and_eq_true, decide_eq_true_eq] at h
    unfold put
    split
    · next hk =>
      by_cases hm : m < n
      · simp [get, hm, hne, show m ≠ k by omega, show m < k by omega]
      · simp [get, hm, hne]
    · split
      · next hk hk' =>
        subst hk'
        by_cases hm : m < n
        · simp [get, hm, hne]
        · simp [get, hm, hne]
      · simp only [get, ih h.2]

/-- A read of a line after its claim: the slot holds it, PENDING. -/
theorem read_put_self (r : Ring) (t : Word) (st : LineStatus) :
    (r.put (slotOf t) { index := t, status := st }).read t
      = match st with
        | .good samples => .good samples
        | .missed => .missed
        | .pending => .pending := by
  cases st <;> simp [read, get_put_self]

end Sys2Proof.Machine.Ring
end

