-- ==== Sys2Proof/Laws/UnitSound.lean ====
section
/-!
SUPPORT. The changes of a Head Port and of a calibration record keep what Safety.lean says of them.
-/

namespace Sys2Proof.Machine

/-! ### Head Ports -/

theorem better_bound {b c : HeadPort.TapRun} {n} (h1 : b.start + b.length ≤ n) (h2 : c.start + c.length ≤ n) :
    (b.better c).start + (b.better c).length ≤ n := by
  unfold HeadPort.TapRun.better; split
  · exact h2
  · exact h1

theorem longestRunFrom_bound (m : List Bool) : ∀ tap best cur,
    best.start + best.length ≤ tap → cur.start + cur.length ≤ tap →
    (HeadPort.longestRunFrom tap best cur m).start + (HeadPort.longestRunFrom tap best cur m).length
      ≤ tap + m.length := by
  induction m with
  | nil => intro tap best cur h1 h2; simpa [HeadPort.longestRunFrom] using h1
  | cons p m ih =>
    intro tap best cur h1 h2
    unfold HeadPort.longestRunFrom
    split
    · split
      · next hp hc =>
        have := ih (tap+1) (best.better ⟨tap, 1⟩) ⟨tap,1⟩
          (better_bound (by omega) (by dsimp only; omega)) (by dsimp only; omega)
        rw [List.length_cons]; try dsimp only at *
        omega
      · next hp hc =>
        have := ih (tap+1) (best.better ⟨cur.start, cur.length+1⟩) ⟨cur.start, cur.length+1⟩
          (better_bound (by omega) (by dsimp only; omega)) (by dsimp only; omega)
        rw [List.length_cons]; try dsimp only at *
        omega
    · have := ih (tap+1) best ⟨0,0⟩ (by omega) (by simp)
      rw [List.length_cons]; omega

/-- A selected tap is one of the map's 32 taps (R49). -/
theorem selectTap_lt {m : List Bool} (hm : m.length = 32) {k} (h : HeadPort.selectTap m = some k) : k < 32 := by
  unfold HeadPort.selectTap at h
  have := longestRunFrom_bound m 0 ⟨0,0⟩ ⟨0,0⟩ (by simp) (by simp)
  revert h
  dsimp only
  split
  · intro h; cases h
  · intro h; injection h with h; omega

theorem wf_settle_foldl (es : List Outstanding) (r : Ring) (h : Ring.wf r = true) :
    Ring.wf (es.foldl (fun r e => Ring.settle r e.index .missed) r) = true := by
  induction es generalizing r with
  | nil => exact h
  | cons e es ih => exact ih _ (Ring.settle_wf h)

theorem sweepSound_of {h : HeadPort} {sw} (al : h.mode = .aligning sw) (hs : h.SweepSound) :
    sw.passMap.length = 32 ∧ sw.tap < 32 ∧ sw.frames < 8 := by
  unfold HeadPort.SweepSound at hs; rw [al] at hs; exact hs

/-- R52, R58, R64. -/
theorem HeadEdit.sound {h h' : HeadPort} (e : HeadEdit h h') (hs : h.Sound) : h'.Sound := by
  obtain ⟨w, o, m, si, t, sw⟩ := hs
  have lose : ∀ (h : HeadPort) x, h.Sound → (h.loseTrigger x).Sound := by
    intro h x ⟨w, o, m, si, t, sw⟩
    refine ⟨Ring.settle_wf w, (List.length_filter_le _ _).trans o, ?_, ?_, t, sw⟩
    · simp [HeadPort.loseTrigger, HeadPort.countMissed, HeadPort.settle, HeadPort.unlist, Config.silentRun]
    · simp [HeadPort.loseTrigger, HeadPort.countMissed, HeadPort.settle, HeadPort.unlist, Config.silentRun, si]
      omega
  cases e with
  | trigger x now =>
    have h0 : ({h with lastTrigger := some x} : HeadPort).Sound := ⟨w, o, m, si, t, sw⟩
    have h1 : (({h with lastTrigger := some x} : HeadPort).evictFor x).1.Sound := by
      unfold HeadPort.evictFor
      split
      · exact h0
      · split
        · exact lose _ _ h0
        · exact h0
    revert h1
    unfold HeadPort.takeTrigger
    dsimp only
    generalize (({h with lastTrigger := some x} : HeadPort).evictFor x).1 = h1
    rintro ⟨w, o, m, si, t, sw⟩
    have w' := Ring.put_wf (x := { index := x, status := .pending }) w (Ring.slotOf_lt x)
    split
    · refine ⟨Ring.settle_wf w', o, ?_, ?_, t, sw⟩
      · simp [HeadPort.skip, HeadPort.countMissed, HeadPort.settle, HeadPort.claim, Config.silentRun]
      · simp [HeadPort.skip, HeadPort.countMissed, HeadPort.settle, HeadPort.claim, Config.silentRun, si]
        omega
    · next hl =>
      refine ⟨w', ?_, m, si, t, sw⟩
      simp [HeadPort.sendTrigger, HeadPort.claim, HeadPort.send, Config.outstandingLimit] at hl ⊢
      omega
  | timeOut x =>
    unfold HeadPort.timeOut
    split
    · exact lose _ _ ⟨w, o, m, si, t, sw⟩
    · exact ⟨w, o, m, si, t, sw⟩
  | stop => exact ⟨wf_settle_foldl _ _ w, by simp [HeadPort.stopLane], m, si, t, sw⟩
  | frame a ws =>
    unfold HeadPort.receiveProfile
    split
    iterate 4 exact ⟨w, o, m, si, t, sw⟩
    refine ⟨Ring.settle_wf w, (List.length_filter_le _ _).trans o, ?_, ?_, t, sw⟩
    · simp [HeadPort.acceptFrame, HeadPort.endMissedRun]
    · simp [HeadPort.acceptFrame, HeadPort.endMissedRun]
  | sweep sw1 sw2 al mp tp fr =>
    refine ⟨w, o, m, si, t, ?_⟩
    have sw := sweepSound_of al sw
    exact ⟨mp.trans sw.1, tp sw.2.1, fr⟩
  | clear f => exact ⟨w, o, m, si, t, sw⟩

theorem restart_head_sound {h : HeadPort} (hs : h.Sound) : h.restart.Sound := by
  obtain ⟨w, o, m, si, t, sw⟩ := hs
  refine ⟨rfl, Nat.zero_le _, Nat.zero_le _, by simp [HeadPort.restart, HeadPort.powerOn], ?_, ?_⟩
  · simp only [HeadPort.restart, HeadPort.keptTap]
    split <;> first | exact t | decide
  · simp only [HeadPort.restart, HeadPort.SweepSound, HeadPort.abandonSweep]
    cases hm : h.mode <;> simp [hm]

/-! ### Calibration records -/

theorem CalRecord.fault_sound {c : CalRecord} (h : c.Sound) : c.fault.Sound := by
  obtain ⟨a, b, o, f, cf, i⟩ := h
  refine ⟨a, b, o, by simp [CalRecord.fault], ?_, i⟩
  simp [CalRecord.fault, cf]
  omega

theorem CalRecord.accept_sound {c : CalRecord} (z g : Nat) (h : c.Sound) : (c.accept z g).Sound := by
  obtain ⟨a, b, o, f, cf, i⟩ := h
  refine ⟨?_, ?_, by simp [CalRecord.accept], by simp [CalRecord.accept], by simp [CalRecord.accept], i⟩
  · simp only [CalRecord.accept]; split <;> omega
  · simp only [CalRecord.accept]; split <;> omega

theorem CalRecord.collect_sound {c : CalRecord} (st : HeadSettings) (ring : Ring) (f : Word) (n : Nat) (h : c.Sound) :
    (c.collect st ring f n).Sound := by
  induction n generalizing c with
  | zero => exact h
  | succ n ih =>
    unfold CalRecord.collect
    split
    · exact h
    · split
      · dsimp only
        split
        · unfold CalRecord.complete
          split
          · exact accept_sound _ _ h
          · exact fault_sound h
        · exact ih h
      · exact h

/-- R68, R74, R80. -/
theorem CalEdit.sound {f : CalRecord → CalRecord} (e : CalEdit f) {c : CalRecord} (h : c.Sound) : (f c).Sound := by
  have h' := h
  obtain ⟨a, b, o, fc, cf, i⟩ := h
  cases e with
  | due =>
    unfold CalRecord.due
    split
    · next hb =>
      refine ⟨by dsimp only; omega, by dsimp only; omega, ?_, fc, cf, i⟩
      intro ho; have := o ho; omega
    · exact ⟨a, b, fun _ => by dsimp only; omega, fc, cf, i⟩
  | start =>
    refine ⟨by simp only [CalRecord.startLane]; omega, by simp only [CalRecord.startLane]; omega, ?_, fc, cf,
      by simp [CalRecord.startLane]⟩
    intro ho; have := o ho; simp only [CalRecord.startLane]; omega
  | request => exact h'
  | void => exact h'
  | trigger idle a' g t =>
    unfold CalRecord.trigger
    split
    · exact ⟨a, b, o, fc, cf, by simp [CalRecord.beginAttempt]⟩
    · split
      · exact ⟨a, b, o, fc, cf, by simp [Config.idleLimit]⟩
      · exact ⟨a, b, o, fc, cf, by simp⟩
  | collect st ring front n => exact CalRecord.collect_sound st ring front n h'

end Sys2Proof.Machine
end

