-- ==== Sys2Proof/Laws/KeepsUnits.lean ====
section
/-! SUPPORT. Every edit keeps the Head Ports, the calibration records, the Verdict Unit and the inbox sound. -/

namespace Sys2Proof.Machine

/-- No edit touches the queue of commands or RESET_N. -/
theorem outside_edit {d e : Nat} {s t : State} (h : Edit d s e t) :
    t.pending = s.pending ∧ t.resetAsserted = s.resetAsserted := by
  cases h
  case disable l e => rw [disable_shape l s]; exact ⟨rfl, rfl⟩
  case untracked l e => rw [untrackedBoard_shape l s]; exact ⟨rfl, rfl⟩
  case dropFront l r rest a f => rw [dropFront_shape l r rest s]; exact ⟨rfl, rfl⟩
  case removeAll l a => rw [removeAll_shape l s]; exact ⟨rfl, rfl⟩
  case decide c l r a b g => rcases cutItems_cases c l r.ident (fixRecord c l r.ident s) with h | h <;> rw [h] <;> exact ⟨rfl, rfl⟩
  case release l r a b => obtain ⟨u, o, h⟩ := releaseRecord_shape l r s; rw [h]; exact ⟨rfl, rfl⟩
  case missed l h x => rcases missedReport_cases l h x s with h | ⟨o, h⟩ <;> rw [h] <;> exact ⟨rfl, rfl⟩
  case endClose n => obtain ⟨u, o, h⟩ := endClose_shape n s; rw [h]; exact ⟨rfl, rfl⟩
  case reject k t c => obtain ⟨u, o, h⟩ := offerReject_shape k t c s; rw [h]; exact ⟨rfl, rfl⟩
  case sent => obtain ⟨u, o, f, h⟩ := finishTransmit_shape s; rw [h]; exact ⟨rfl, rfl⟩
  case restart t a b => obtain ⟨rs, h, _⟩ := restartReplies_shape s; rw [h]; exact ⟨rfl, rfl⟩
  all_goals exact ⟨rfl, rfl⟩

/-- R52, R58, R64. -/
theorem heads_edit {d s e t} (h : Edit d s e t) (hs : HeadsSound s) : HeadsSound t := by
  have upd : ∀ h x, x.Sound → HeadsSound (s.updHead h fun _ => x) := by
    intro h x hx g
    by_cases hg : g = h
    · subst hg; simpa using hx
    · have := hs g
      simpa [State.head, State.updHead, hg] using this
  cases h
  case disable l e => rw [disable_shape l s]; exact hs
  case untracked l e => rw [untrackedBoard_shape l s]; exact hs
  case dropFront l r rest a f => rw [dropFront_shape l r rest s]; exact hs
  case removeAll l a => rw [removeAll_shape l s]; exact hs
  case decide c l r a b g => rcases cutItems_cases c l r.ident (fixRecord c l r.ident s) with h | h <;> rw [h]; all_goals exact hs
  case release l r a b => obtain ⟨u, o, h⟩ := releaseRecord_shape l r s; rw [h]; exact hs
  case missed l h x => rcases missedReport_cases l h x s with h | ⟨o, h⟩ <;> rw [h]; all_goals exact hs
  case endClose n => obtain ⟨u, o, h⟩ := endClose_shape n s; rw [h]; exact hs
  case reject k t c => obtain ⟨u, o, h⟩ := offerReject_shape k t c s; rw [h]; exact hs
  case sent => obtain ⟨u, o, f, h⟩ := finishTransmit_shape s; rw [h]; exact hs
  case restart t a b =>
    obtain ⟨rs, h, _⟩ := restartReplies_shape s; rw [h]
    intro g
    have := restart_head_sound (hs g)
    simpa [restartBlocks, State.head, replyDone, placeReply] using this
  case head h x b => exact upd h x (b.sound (hs h))
  case setup h st a b c d e =>
    refine upd h _ ?_
    obtain ⟨w, o, m, si, t, sw⟩ := hs h
    exact ⟨rfl, Nat.zero_le _, Nat.zero_le _, by simp [HeadPort.setup], t, sw⟩
  case startSweep tag h a b =>
    refine upd h _ ?_
    obtain ⟨w, o, m, si, t, sw⟩ := hs h
    exact ⟨w, o, m, si, by simp [HeadPort.startSweep], rfl, by simp, by simp⟩
  case endSweep h sw mm ml al =>
    refine upd h _ ?_
    obtain ⟨w, o, m, si, t, sww⟩ := hs h
    have sww := sweepSound_of al sww
    unfold HeadPort.endSweep
    dsimp only
    split
    · next hk => exact ⟨w, o, m, si, selectTap_lt (ml.trans sww.1) hk, trivial⟩
    · exact ⟨w, o, m, si, by simp, trivial⟩
  all_goals exact hs

/-- R68, R74, R80. -/
theorem cal_edit {d s e t} (h : Edit d s e t) (hs : CalibrationSound s) : CalibrationSound t := by
  have upd : ∀ h f, (f (s.calOf h)).Sound → CalibrationSound (s.updCal h f) := by
    intro h f hx g
    by_cases hg : g = h
    · subst hg; simpa using hx
    · have := hs g
      simpa [State.calOf, State.updCal, hg] using this
  have p : CalRecord.powerOn.Sound := by unfold CalRecord.Sound; decide
  cases h
  case disable l e => rw [disable_shape l s]; exact hs
  case untracked l e => rw [untrackedBoard_shape l s]; exact hs
  case dropFront l r rest a f => rw [dropFront_shape l r rest s]; exact hs
  case removeAll l a => rw [removeAll_shape l s]; exact hs
  case decide c l r a b g => rcases cutItems_cases c l r.ident (fixRecord c l r.ident s) with h | h <;> rw [h]; all_goals exact hs
  case release l r a b => obtain ⟨u, o, h⟩ := releaseRecord_shape l r s; rw [h]; exact hs
  case missed l h x => rcases missedReport_cases l h x s with h | ⟨o, h⟩ <;> rw [h]; all_goals exact hs
  case endClose n => obtain ⟨u, o, h⟩ := endClose_shape n s; rw [h]; exact hs
  case reject k t c => obtain ⟨u, o, h⟩ := offerReject_shape k t c s; rw [h]; exact hs
  case sent => obtain ⟨u, o, f, h⟩ := finishTransmit_shape s; rw [h]; exact hs
  case restart t a b =>
    obtain ⟨rs, h, _⟩ := restartReplies_shape s; rw [h]
    intro g
    have := p
    cases g <;> exact this
  case cal h x b => exact upd h x (b.sound (hs h))
  case setup h st a b c d e =>
    refine upd h _ ?_
    obtain ⟨a, b, o, fc, cf, i⟩ := hs h
    exact ⟨a, b, o, by simp [CalRecord.setup], by simp [CalRecord.setup], i⟩
  all_goals exact hs

theorem emitVerdict_sound (v : VerdictRecord) {s : State} (h : VerdictUnitSound s) :
    VerdictUnitSound (emitVerdict v s) := by
  obtain ⟨q, p, e, d⟩ := h
  unfold emitVerdict
  split
  · next t rest hp =>
    rw [hp] at p e
    have hq : s.verdicts.queue = [] := by simpa using e
    refine
      ⟨by simp [deliver, replyDone, placeReply, hq], ?_, .inl (by simp [deliver, replyDone, placeReply, hq]),
        Nat.zero_le _⟩
    simp [deliver, replyDone, placeReply] at p ⊢
    omega
  · next hp =>
    unfold VerdictUnit.enqueue
    split
    · next hl =>
      refine ⟨?_, p, .inr hp, by simp [Config.counterLimit]⟩
      simp [Config.verdictDepth] at hl ⊢
      omega
    · next hl =>
      refine ⟨?_, p, .inr hp, d⟩
      simp [Config.verdictDepth] at hl ⊢
      omega

/-- R154. -/
theorem verdict_edit {d s e t} (h : Edit d s e t) (hs : VerdictUnitSound s) : VerdictUnitSound t := by
  cases h
  case disable l e => rw [disable_shape l s]; exact hs
  case untracked l e => rw [untrackedBoard_shape l s]; exact hs
  case dropFront l r rest a f => rw [dropFront_shape l r rest s]; exact hs
  case removeAll l a => rw [removeAll_shape l s]; exact hs
  case decide c l r a b g => rcases cutItems_cases c l r.ident (fixRecord c l r.ident s) with h | h <;> rw [h]; all_goals exact hs
  case release l r a b => exact emitVerdict_sound _ hs
  case missed l h x => rcases missedReport_cases l h x s with h | ⟨o, h⟩ <;> rw [h]; all_goals exact hs
  case endClose n => obtain ⟨u, o, h⟩ := endClose_shape n s; rw [h]; exact hs
  case reject k t c => obtain ⟨u, o, h⟩ := offerReject_shape k t c s; rw [h]; exact hs
  case sent => obtain ⟨u, o, f, h⟩ := finishTransmit_shape s; rw [h]; exact hs
  case restart t a b => exact ⟨Nat.zero_le _, Nat.zero_le _, .inl rfl, Nat.zero_le _⟩
  case collect tag v rest f =>
    obtain ⟨q, p, e, d⟩ := hs
    rw [f] at q e
    have hp : s.verdicts.parked = [] := by simpa using e
    refine ⟨?_, p, .inr hp, Nat.zero_le _⟩
    simp [deliver, replyDone, placeReply] at q ⊢
    omega
  case park tag e r =>
    obtain ⟨q, p, e', d⟩ := hs
    exact ⟨q, by simp; omega, .inl e, d⟩
  all_goals exact hs

/-- The inbox and HOLD_OUT while RESET_N is deasserted (R165, R174). -/
def InboxLevel (s : State) : Prop := s.link.inbox.length ≤ 8 ∧ (6 ≤ s.link.inbox.length → s.link.holdOut = true)
  ∧ (s.link.inbox.length ≤ 4 → s.link.holdOut = false)

theorem holdLevel_sound (n : Nat) (b) (h : n ≤ 8) : n ≤ 8 ∧ (6 ≤ n → holdLevel n b = true)
    ∧ (n ≤ 4 → holdLevel n b = false) := by
  unfold holdLevel
  refine ⟨h, fun h => by simp [h], fun h => ?_⟩
  rw [if_neg (by omega), if_pos h]

/-- R165, R174. -/
theorem inbox_edit {d s e t} (h : Edit d s e t) (hs : InboxLevel s) : InboxLevel t := by
  cases h
  case disable l e => rw [disable_shape l s]; exact hs
  case untracked l e => rw [untrackedBoard_shape l s]; exact hs
  case dropFront l r rest a f => rw [dropFront_shape l r rest s]; exact hs
  case removeAll l a => rw [removeAll_shape l s]; exact hs
  case decide c l r a b g => rcases cutItems_cases c l r.ident (fixRecord c l r.ident s) with h | h <;> rw [h]; all_goals exact hs
  case release l r a b => obtain ⟨u, o, h⟩ := releaseRecord_shape l r s; rw [h]; exact hs
  case missed l h x => rcases missedReport_cases l h x s with h | ⟨o, h⟩ <;> rw [h]; all_goals exact hs
  case endClose n => obtain ⟨u, o, h⟩ := endClose_shape n s; rw [h]; exact hs
  case reject k t c => obtain ⟨u, o, h⟩ := offerReject_shape k t c s; rw [h]; exact hs
  case sent => obtain ⟨u, o, f, h⟩ := finishTransmit_shape s; rw [h]; exact hs
  case restart t a b =>
    obtain ⟨rs, h, _⟩ := restartReplies_shape s; rw [h]
    have : (s.link.inbox.map fun r => { r with marked := true }).length ≤ 8 := by simpa using hs.1
    exact holdLevel_sound _ _ this
  case take r rest f g =>
    have := hs.1
    rw [f] at this
    exact holdLevel_sound rest.length _ (by simp at this; omega)
  case enterInbox r room =>
    exact holdLevel_sound (s.link.inbox ++ [r]).length _ (by simp; omega)
  case link f b =>
    obtain ⟨a, _, c⟩ := b
    unfold InboxLevel
    rw [State.updLink_link, a, c]
    exact hs
  case collect tag v rest f => exact hs
  all_goals exact hs

end Sys2Proof.Machine
end

