-- ==== Sys2Proof/Laws/QueuesSound.lean ====
section
/-!
SUPPORT. The changes of a lane keep its queues within their capacities (R20, R23, R26, R108), and a place in the expect
queue for the entry of a glitch (R21, R29).
-/

namespace Sys2Proof.Machine

/-! ### Positions behind a deadline -/

/-- Short of its deadline a record stays behind it by one more advance. -/
theorem advance_behind {p lead : Word} {d : Nat} (hd : d ≤ 16777215) (behind : (p - lead).toNat ≤ d)
    (short : reached p (ahead lead d) = false) : (p + 1 - lead).toNat ≤ d := by
  unfold reached ahead at short
  simp only [decide_eq_false_iff_not, not_lt] at short
  have e : p - (lead + BitVec.ofNat 32 d) = (p - lead) - BitVec.ofNat 32 d := by bv_omega
  have e' : p + 1 - lead = (p - lead) + 1 := by bv_omega
  rw [e] at short
  rw [e']
  generalize p - lead = a at *
  bv_omega

/-- What lies ahead after an advance lay ahead before it. -/
theorem liesBelow_advance {p lead : Word} {d m : Nat} (hd : d ≤ 16777215) (hm : m ≤ 1048575)
    (behind : (p - lead).toNat ≤ d) (below : liesBelow (p + 1) (ahead lead m) = true) :
    liesBelow p (ahead lead m) = true := by
  unfold liesBelow ahead at below ⊢
  simp only [Bool.and_eq_true, decide_eq_true_eq] at below ⊢
  have e : lead + BitVec.ofNat 32 m - p = BitVec.ofNat 32 m - (p - lead) := by bv_omega
  have e' : lead + BitVec.ofNat 32 m - (p + 1) = BitVec.ofNat 32 m - (p - lead) - 1 := by bv_omega
  rw [e'] at below
  rw [e]
  generalize p - lead = a at *
  obtain ⟨b, c⟩ := below
  constructor
  · intro h
    rw [h] at c
    exact absurd c (by decide)
  · have : BitVec.ofNat 32 m - a ≠ 0 := by
      intro h; rw [h] at c; exact absurd c (by decide)
    bv_omega

/-- What is reached does not lie ahead. -/
theorem not_liesBelow {p q : Word} (passed : reached p q = true) : liesBelow p q = false := by
  unfold reached at passed
  unfold liesBelow
  simp only [decide_eq_true_eq] at passed
  rw [Bool.and_eq_false_iff]
  by_cases h : q - p = 0
  · exact .inl (by simp [h])
  · refine .inr ?_
    simp only [decide_eq_false_iff_not, not_lt]
    bv_omega

/-! ### Room -/

/-- A record keeps its binding and its leading edge; once closed by its trailing edge, past ENTERING or DECIDED it stays
so. -/
structure BoardRecord.Trailed (r r' : BoardRecord) : Prop where
  binding : r'.binding = r.binding
  lead : r'.pLead = r.pLead
  closed : r.pTrail.isSome = true → r'.pTrail.isSome = true
  entering : r'.state = .entering → r.state = .entering
  decided : r.state = .decided → r'.state = .decided

theorem BoardRecord.Kept.trailed {r r' : BoardRecord} (k : r.Kept r') : r.Trailed r' :=
  ⟨k.binding, k.lead, k.closed, k.entering, k.decided⟩

theorem trailed_refl (rs : List BoardRecord) : List.Forall₂ BoardRecord.Trailed rs rs :=
  List.forall₂_same.2 fun r _ => (BoardRecord.Kept.refl r).trailed

/-- The newest record stands at the back of what the records became. -/
theorem trailed_last {a b : List BoardRecord} (h : List.Forall₂ BoardRecord.Trailed a b) {r' : BoardRecord}
    (last : b.getLast? = some r') : ∃ r, a.getLast? = some r ∧ r.Trailed r' := by
  induction h with
  | nil => cases last
  | @cons x y xs ys k t ih =>
    cases t with
    | nil => exact ⟨x, rfl, by simpa using (Option.some.inj last) ▸ k⟩
    | cons k' t' =>
      rw [List.getLast?_cons_cons] at last ⊢
      exact ih last

theorem trailed_dropLast {a b : List BoardRecord} (h : List.Forall₂ BoardRecord.Trailed a b) :
    List.Forall₂ BoardRecord.Trailed a.dropLast b.dropLast := by
  induction h with
  | nil => exact .nil
  | cons k t ih =>
    cases t with
    | nil => exact .nil
    | cons k' t' => exact .cons k ih

/-- Records that keep their leading edges, and stay closed and past ENTERING, keep the room. -/
theorem trailed_glitchRoom {x y : LaneState} (h : x.GlitchRoom) (settings : y.settings = x.settings) (enc : y.enc = x.enc)
    (eye : y.eyeBlocked = x.eyeBlocked) (expect : y.expect.length ≤ x.expect.length)
    (s : List.Forall₂ BoardRecord.Trailed x.transit y.transit) : y.GlitchRoom := by
  obtain ⟨ra, cl, ey, be, ro⟩ := h
  refine ⟨by rw [settings]; exact ra, fun r hr => ?_, fun r hr o => ?_, fun st hst r hr u => ?_,
    fun st hst r hr bd o en lo => ?_⟩
  · obtain ⟨q, hq, k⟩ := kept_mem (trailed_dropLast s) r hr
    exact k.closed (cl q hq)
  · obtain ⟨q, hq, k⟩ := trailed_last s hr
    rw [eye]
    refine ey q hq ?_
    by_contra c
    exact absurd (k.closed (Option.isSome_iff_ne_none.2 c)) (by simp [o])
  · obtain ⟨q, hq, k⟩ := kept_mem s r hr
    rw [k.lead, enc]
    exact be st (settings ▸ hst) q hq fun d => u (k.decided d)
  · obtain ⟨q, hq, k⟩ := trailed_last s hr
    refine expect.trans (ro st (settings ▸ hst) q hq (by rw [← k.binding]; exact bd) ?_ (k.entering en)
      (by rw [← k.lead, ← enc]; exact lo))
    by_contra c
    exact absurd (k.closed (Option.isSome_iff_ne_none.2 c)) (by simp [o])

/-- No record, no glitch. -/
theorem empty_glitchRoom {x : LaneState} (empty : x.transit = [])
    (ranges : ∀ st, x.settings = some st → st.inRanges = true) : x.GlitchRoom := by
  unfold LaneState.GlitchRoom
  rw [empty]
  exact ⟨ranges, by simp, by simp, by simp, by simp⟩

/-- Records that leave from the front keep the room. -/
theorem front_glitchRoom {x y : LaneState} {r : BoardRecord} (h : x.GlitchRoom) (settings : y.settings = x.settings)
    (enc : y.enc = x.enc) (eye : y.eyeBlocked = x.eyeBlocked) (expect : y.expect = x.expect)
    (front : x.transit = r :: y.transit) : y.GlitchRoom := by
  obtain ⟨ra, cl, ey, be, ro⟩ := h
  cases hrest : y.transit with
  | nil => exact empty_glitchRoom hrest (by rw [settings]; exact ra)
  | cons q qs =>
    rw [hrest] at front
    have last : x.transit.getLast? = y.transit.getLast? := by rw [front, hrest, List.getLast?_cons_cons]
    unfold LaneState.GlitchRoom
    rw [settings, enc, eye, expect, ← last]
    refine ⟨ra, fun p hp => cl p ?_, ey, fun st hst p hp => be st hst p ?_, ro⟩
    · rw [hrest] at hp
      rw [front]
      exact List.mem_cons_of_mem _ hp
    · rw [hrest] at hp
      rw [front]
      exact List.mem_cons_of_mem _ hp

theorem forward_position (e : Encoder) : e.forwardCount.position = e.position ∨ e.forwardCount.position = e.position + 1
    := by
  unfold Encoder.forwardCount
  split
  · exact .inr rfl
  · exact .inl rfl

/-- A newly observed encoder state is an advance by one or none. -/
theorem decodeEncoder_position (p q : Bool) (x : LaneState) : (x.decodeEncoder p q).enc.position = x.enc.position
    ∨ (x.decodeEncoder p q).enc.position = x.enc.position + 1 := by
  unfold LaneState.decodeEncoder
  split
  · exact .inl rfl
  · exact forward_position x.enc
  · refine .inl ?_
    show x.enc.reverseCount.position = _
    unfold Encoder.reverseCount
    split <;> rfl
  · exact .inl rfl

/-- An advance keeps the room, once every deadline reached has been taken (R4, R37). -/
theorem encoder_glitchRoom {x : LaneState} (p q : Bool) (h : x.GlitchRoom) (taken : dueDeadline x = none) :
    (x.decodeEncoder p q).GlitchRoom := by
  obtain ⟨e, r, f, shape⟩ := decodeEncoder_frame p q x
  have pos := decodeEncoder_position p q x
  rw [shape] at pos ⊢
  obtain ⟨ra, cl, ey, be, ro⟩ := h
  rcases pos with k | k
  · unfold LaneState.GlitchRoom
    dsimp only at k ⊢
    rw [k]
    exact ⟨ra, cl, ey, be, ro⟩
  · have bounds : ∀ st, x.settings = some st → st.dGate - st.gateLead ≤ 16777215 ∧ st.minBoard ≤ 1048575 := by
      intro st hst
      have := ra st hst
      simp only [LaneSettings.inRanges, within, Bool.and_eq_true, decide_eq_true_eq] at this
      omega
    unfold LaneState.GlitchRoom
    dsimp only at k ⊢
    rw [k]
    refine ⟨ra, cl, ey, fun st hst r hr u => ?_, fun st hst r hr bd o en lo => ?_⟩
    · refine advance_behind (bounds st hst).1 (be st hst r hr u) ?_
      unfold dueDeadline at taken
      rw [hst] at taken
      have := List.find?_eq_none.1 taken r hr
      simpa [u, deadlineOf] using this
    · have hr' := List.mem_of_getLast? hr
      exact ro st hst r hr bd o en (liesBelow_advance (bounds st hst).1 (bounds st hst).2
        (be st hst r hr' (by rw [en]; nofun)) lo)

/-- R4, R20, R21: a new encoder state keeps the queues, once every deadline reached has been taken. -/
theorem decodeEncoder_queuesSound {x : LaneState} (p q : Bool) (h : x.QueuesSound ∧ x.GlitchRoom)
    (taken : dueDeadline x = none) : (x.decodeEncoder p q).QueuesSound ∧ (x.decodeEncoder p q).GlitchRoom := by
  refine ⟨?_, encoder_glitchRoom p q h.2 taken⟩
  obtain ⟨_, _, _, e⟩ := decodeEncoder_frame p q x
  rw [e]
  exact h.1

/-- R20, R23, R26, R108, with the room of R21 and R29. -/
theorem LaneEdit.queues_sound {x y : LaneState} (e : LaneEdit x y) (m : x.ModeSound)
    (h : x.QueuesSound ∧ x.GlitchRoom) : y.QueuesSound ∧ y.GlitchRoom := by
  have same : ∀ {y : LaneState}, y.settings = x.settings → y.enc = x.enc → y.eyeBlocked = x.eyeBlocked →
      y.expect.length ≤ x.expect.length → y.transit = x.transit → y.GlitchRoom := fun a b c d f =>
    trailed_glitchRoom h.2 a b c d (f ▸ trailed_refl _)
  obtain ⟨⟨t, ex, q, u⟩, g⟩ := h
  cases e with
  | eye b c =>
    refine ⟨⟨t, ex, q, u⟩, ?_⟩
    cases b with
    | true => exact ⟨g.1, g.2.1, fun _ _ _ => rfl, g.2.2.2⟩
    | false =>
      have idle : x.mode = .disabled → ({ x with eyeBlocked := false } : LaneState).GlitchRoom := fun k =>
        empty_glitchRoom (m.1 k).1 g.1
      rcases c rfl with k | k | k
      · exact idle k
      · refine idle ?_
        by_contra n
        exact absurd (m.2 n).1 (by simp [k])
      · exact ⟨g.1, g.2.1, fun r hr o => absurd (k r hr) (by simp [o]), g.2.2.2⟩
  | settings st i r =>
    exact ⟨⟨t, ex, q, u⟩, empty_glitchRoom (m.1 i).1 fun s hs => by injection hs with hs; exact hs ▸ r⟩
  | start st i s => exact ⟨⟨t, ex, q, Nat.zero_le _⟩, same rfl rfl rfl le_rfl rfl⟩
  | disable e => exact ⟨⟨t, Nat.zero_le _, q, u⟩, same rfl rfl rfl (Nat.zero_le _) rfl⟩
  | expect es w r =>
    rcases r with r | ⟨r, st, hst, full⟩
    · exact ⟨⟨t, r.trans ex, q, u⟩, same rfl rfl rfl r rfl⟩
    · have less : x.expect.length < 4 := by
        by_contra c
        simp [expectFull, Config.expectDepth, Nat.le_of_not_lt c] at full
      have third : x.expect.length = 3 → newestProvisional st x = false := fun c => by
        simpa [expectFull, Config.expectDepth, c] using full
      refine ⟨⟨t, by dsimp only; omega, q, u⟩, g.1, g.2.1, g.2.2.1, g.2.2.2.1, fun st' hst' p hp bd o en lo => ?_⟩
      have : st' = st := Option.some.inj (hst'.symm.trans hst)
      subst this
      by_contra big
      have full := third (by dsimp only at big; omega)
      unfold newestProvisional at full
      have hp' : x.transit.getLast? = some p := hp
      rw [hp'] at full
      unfold isProvisional at full
      simp only [Option.isSome_iff_ne_none.2 bd, en, o, Option.isNone_none, decide_true, Bool.and_true, Bool.true_and,
        Bool.not_eq_false'] at full
      have ahead : liesBelow x.enc.position (glitchLimit st' p) = true := lo
      rw [not_liesBelow full] at ahead
      cases ahead
  | newRecord r es ru cl' rm i ld o hh fe =>
    refine ⟨⟨?_, ?_, q, u⟩, g.1, fun p hp => ?_, fun _ _ _ => rfl, fun st hst p hp n => ?_,
      fun st hst p hp bd tr en lo => ?_⟩
    · simp [LaneState.addRecord]; omega
    · exact (fe.trans (Nat.sub_le _ _)).trans ex
    · simp only [LaneState.addRecord, List.dropLast_concat] at hp
      by_cases last : x.transit.getLast? = some p
      · by_contra c
        have := g.2.2.1 p last (by simpa using c)
        rw [cl'] at this
        cases this
      · refine g.2.1 p ?_
        have hne : x.transit ≠ [] := List.ne_nil_of_mem hp
        rw [← List.dropLast_append_getLast hne] at hp
        rcases List.mem_append.1 hp with k | k
        · exact k
        · rw [List.mem_singleton] at k
          rw [List.getLast?_eq_some_getLast hne, ← k] at last
          exact absurd rfl last
    · simp only [LaneState.addRecord] at hp ⊢
      rcases List.mem_append.1 hp with k | k
      · exact g.2.2.2.1 st hst p k n
      · rw [List.mem_singleton] at k
        subst k
        rw [ld]
        simp
    · exact fe.trans (by omega)
  | glitch st r b ru se a f =>
    obtain ⟨bd, tr, en, lo⟩ := f
    have small := g.2.2.2.2 st se r a (by rw [bd]; nofun) tr en lo
    have sub : ∀ p ∈ x.transit.dropLast, p.pTrail.isSome = true := g.2.1
    refine ⟨⟨?_, ?_, q, u⟩, g.1, fun p hp => sub p ((List.dropLast_sublist _).mem hp), fun p hp o => ?_,
      fun st hst p hp n => g.2.2.2.1 st hst p ((List.dropLast_sublist _).mem hp) n, fun st hst p hp _ o => ?_⟩
    · simp [LaneState.reevaluate, LaneState.returnEntry]; omega
    · simp [LaneState.reevaluate, LaneState.returnEntry]; omega
    · exact absurd (sub p (List.mem_of_getLast? hp)) (by simp [o])
    · exact absurd (sub p (List.mem_of_getLast? hp)) (by simp [o])
  | untracked r =>
    have tail : x.expect.tail.length ≤ x.expect.length := by simp
    exact ⟨⟨t, tail.trans ex, q, by simp [LaneState.countUntracked, LaneState.reevaluate, Config.counterLimit]⟩,
      same rfl rfl rfl tail rfl⟩
  | records rs s =>
    exact ⟨⟨by rw [← s.length_eq]; exact t, ex, q, u⟩,
      trailed_glitchRoom g rfl rfl rfl le_rfl (s.imp fun _ _ k => k.toKept.trailed)⟩
  | shownRecords rs s =>
    exact ⟨⟨by simp only [LaneState.reevaluate]; rw [← s.length_eq]; exact t, ex, q, u⟩,
      trailed_glitchRoom g rfl rfl rfl le_rfl (s.imp fun _ _ k => k.trailed)⟩
  | release r a b =>
    refine ⟨⟨by simp [LaneState.mapRecord, t], ex, q, u⟩,
      trailed_glitchRoom g rfl rfl rfl le_rfl (forall₂_map _ (fun r => ?_) _)⟩
    split
    · exact ⟨rfl, rfl, id, id, id⟩
    · exact (BoardRecord.Kept.refl r).trailed
  | dropFront r rest f =>
    exact ⟨⟨by rw [f] at t; simp [LaneState.reevaluate] at t ⊢; omega, ex, q, u⟩, front_glitchRoom g rfl rfl rfl rfl f⟩
  | removeAll => exact ⟨⟨Nat.zero_le _, ex, q, u⟩, empty_glitchRoom rfl g.1⟩
  | ready k r => exact ⟨⟨t, ex, by dsimp only; omega, u⟩, g⟩
  | restart i =>
    exact ⟨⟨Nat.zero_le _, Nat.zero_le _, Nat.zero_le _, Nat.zero_le _⟩, empty_glitchRoom rfl nofun⟩
  | countTrigger p k r => exact ⟨⟨t, ex, q, u⟩, g⟩
  | drain r => exact ⟨⟨t, ex, q, u⟩, g⟩
  | flags c => exact ⟨⟨t, ex, q, u⟩, g⟩
  | floodEnd f => exact ⟨⟨t, ex, q, u⟩, g⟩
  | endFlood => exact ⟨⟨t, ex, q, u⟩, g⟩
  | seen t' => exact ⟨⟨t, ex, q, u⟩, g⟩

end Sys2Proof.Machine
end

