-- ==== Sys2Proof/Laws/Step.lean ====
section
/-!
SUPPORT. What a step can do, said once: it idles, or has one of the effects of Laws/Edits.lean on the state with the
queue's rest; and every command answers a next state.
-/

namespace Sys2Proof.Machine

/-- A step idles, or has an effect on the state with the queue's rest. -/
theorem step_effect {s t : State} (h : step s = .next t) : t = s ∨ ∃ rest, Effect { s with pending := rest } t := by
  unfold step at h
  split at h
  · injection h with h; exact .inl h.symm
  · next c rest _ => exact .inr ⟨rest, exec_effect c _ t h⟩

/-- A property that the queue does not bear on, and every effect keeps, is kept by every step. -/
theorem step_keeps {I : State → Prop} (queue : ∀ s rest, I s → I { s with pending := rest })
    (keep : ∀ {s t}, Effect s t → I s → I t) {s t : State} (hs : I s) (h : step s = .next t) : I t := by
  rcases step_effect h with rfl | ⟨rest, e⟩
  · exact hs
  · exact keep e (queue s rest hs)

theorem inService_answers (f : State → State) (s : State) : ∃ t, inService f s = .next t := ⟨_, rfl⟩

/-- Every command answers a next state. -/
theorem exec_answers (c : Instr) (s : State) : ∃ t, exec c s = .next t := by
  cases c <;> exact ⟨_, rfl⟩

end Sys2Proof.Machine
end

