-- ==== Sys2Proof/Laws/KeepsAll.lean ====
section
/-!
SUPPORT. From one edit to every step: a property of each lane, or of the state, that every edit and the reset commands
keep, is kept by every step.
-/

namespace Sys2Proof.Machine

theorem powerOn_lane (pins s) (l : Lane) : ∃ p q e, (powerOn pins s).lane l = LaneState.powerOn p q e :=
    by cases l <;> exact ⟨_, _, _, rfl⟩

theorem powerOn_head (pins s) (l) : (powerOn pins s).head l = HeadPort.powerOn := by cases l <;> rfl

theorem powerOn_slot (pins s) (l) : (powerOn pins s).slot l = RecipeSlot.empty := by cases l <;> rfl

theorem powerOn_calOf (pins s) (l) : (powerOn pins s).calOf l = CalRecord.powerOn := by cases l <;> rfl

theorem assertReset_lane (s) (l : Lane) : (assertReset s).lane l = { s.lane l with divert := true } :=
    by cases l <;> rfl

/-- A property of each lane. -/
theorem step_keeps_lanes {P : LaneState → Prop} (each : ∀ {x y}, LaneEdit x y → P x → P y)
    (enc : ∀ x p q, P x → P (x.decodeEncoder p q)) (po : ∀ p q e, P (LaneState.powerOn p q e))
   (ar : ∀ x, P x → P { x with divert := true }) {s t} (hs : ∀ l, P (s.lane l)) (h : step s = .next t) : ∀ l,
     P (t.lane l) := by
  refine step_keeps (I := fun s => ∀ l, P (s.lane l)) (fun s r h => h) (fun e hs l => ?_) hs h
  cases e with
  | powerOn pins => obtain ⟨p, q, e, h⟩ := powerOn_lane pins _ l; rw [h]; exact po p q e
  | assertReset r => rw [assertReset_lane]; exact ar _ (r.lane_keep each l (hs l))
  | holdIn a => exact hs l
  | unserved r => exact hs l
  | served t a r => exact r.lane_keep each l (hs l)
  | encoder m p q a r =>
    have h := r.lane_keep each l (hs l)
    rw [observeEncoder, State.lane_updLane_eq]
    split
    · next e => subst e; exact enc _ p q h
    · exact h

/-- A property of the state. -/
theorem step_keeps_state {I : State → Prop} (q : ∀ s rest, I s → I { s with pending := rest })
    (po : ∀ pins s, I (powerOn pins s)) (ar : ∀ s, I s → I (assertReset s))
    (hi : ∀ s a, I s → I (s.updLink fun k => { k with holdIn := a }))
    (enc : ∀ l p q s, I s → I (observeEncoder l p q s)) (all : ∀ {s t}, Edits 0 s 0 t → I s → I t) {s t} (hs : I s)
    (h : step s = .next t) : I t := by
  refine step_keeps q (fun e hs => ?_) hs h
  cases e with
  | powerOn pins => exact po pins _
  | assertReset r => exact ar _ (all r hs)
  | holdIn a => exact hi _ a hs
  | unserved r => exact hs
  | served t a r => exact all r hs
  | encoder m p q a r => exact enc m p q _ (all r hs)

/-- The queues of the lanes (R20, R23, R26, R108), with the room of R21 and R29. -/
theorem step_keeps_queues {s t : State} (hm : LaneModesSound s) (hr : ReleaseOrderSound s) (hq : LaneQueuesSound s)
    (h : step s = .next t) : LaneQueuesSound t := by
  have each : ∀ {x y : LaneState}, LaneEdit x y → x.ModeSound ∧ x.QueuesSound ∧ x.GlitchRoom →
      y.ModeSound ∧ y.QueuesSound ∧ y.GlitchRoom := fun e k => ⟨e.mode_sound k.1, e.queues_sound k.1 k.2⟩
  refine (step_keeps (I := fun s => LaneModesSound s ∧ ReleaseOrderSound s ∧ LaneQueuesSound s) (fun _ _ h => h)
    (fun {s t} e hs => ?_) ⟨hm, hr, hq⟩ h).2.2
  have run : ∀ {t}, Edits 0 s 0 t → LaneModesSound t ∧ ReleaseOrderSound t ∧ LaneQueuesSound t := fun r =>
    ⟨fun l => (r.lane_keep each l ⟨hs.1 l, hs.2.2 l⟩).1, fun l => r.lane_keep LaneEdit.release_sound l (hs.2.1 l),
      fun l => (r.lane_keep each l ⟨hs.1 l, hs.2.2 l⟩).2⟩
  cases e with
  | powerOn pins =>
    refine ⟨fun l => ?_, fun l => ?_, fun l => ?_⟩
    all_goals
      obtain ⟨p, q, e, h⟩ := powerOn_lane pins s l
      rw [h]
    · exact ⟨fun _ => ⟨rfl, rfl, rfl, rfl⟩, fun k => absurd rfl k⟩
    · exact ⟨.nil, by simp [LaneState.powerOn]⟩
    · exact ⟨⟨Nat.zero_le _, Nat.zero_le _, Nat.zero_le _, Nat.zero_le _⟩, empty_glitchRoom rfl nofun⟩
  | assertReset r =>
    obtain ⟨k1, k2, k3⟩ := run r
    refine ⟨fun l => ?_, fun l => ?_, fun l => ?_⟩
    all_goals rw [assertReset_lane]
    · exact k1 l
    · exact k2 l
    · exact k3 l
  | holdIn a => exact hs
  | unserved r => exact hs
  | served t a r => exact run r
  | encoder m p q a r =>
    obtain ⟨k1, k2, k3⟩ := run r
    refine ⟨fun l => ?_, fun l => ?_, fun l => ?_⟩
    all_goals
      rw [observeEncoder, State.lane_updLane_eq]
      split
    · exact decodeEncoder_modeSound p q (k1 m)
    · exact k1 l
    · exact decodeEncoder_releaseSound p q (k2 m)
    · exact k2 l
    · exact decodeEncoder_queuesSound p q (k3 m) (takeReached_settles s a hs.2.1 m)
    · exact k3 l

/-- The accounting of the joints (R118), with the order of release and the counts of references. -/
theorem step_keeps_joints {s t : State} (hr : ReleaseOrderSound s) (href : ReferencesSound s) (hj : JointsSound s)
    (h : step s = .next t) : JointsSound t := by
  let I : State → Prop := fun s => ReleaseOrderSound s ∧ RefSound s ∧ JointsSound s
  refine (step_keeps_state (I := I) (fun _ _ h => h) (fun pins s => ?_) (fun s h => ?_) (fun _ _ h => h)
    (fun l p q s h => ?_) (fun r h => ?_) (s := s) ⟨hr, fun n => href n, hj⟩ h).2.2
  · refine ⟨fun l => ?_, fun n => ?_, fun l => ?_⟩
    · obtain ⟨p, q, e, h⟩ := powerOn_lane pins s l
      rw [h]
      exact ⟨.nil, by simp [LaneState.powerOn]⟩
    · rw [powerOn_slot]
      refine ⟨?_, fun _ => rfl, nofun⟩
      obtain ⟨_, _, _, ha⟩ := powerOn_lane pins s .a
      obtain ⟨_, _, _, hb⟩ := powerOn_lane pins s .b
      unfold referencesTo
      rw [ha, hb]
      rfl
    · obtain ⟨p, q, e, h⟩ := powerOn_lane pins s l
      rw [h]
      refine ⟨(fun r hr => nomatch hr), (fun i hi => nomatch hi), fun i hi => absurd ?_ hi⟩
      unfold heldOf
      rw [List.countP_eq_zero]
      intro u _
      have : (powerOn pins s).unitOf u = none := by cases u <;> rfl
      rw [this]
      simp [holdsItemOf]
  · obtain ⟨h1, h2, h3⟩ := h
    have lane : ∀ l, (assertReset s).lane l = { s.lane l with divert := true } := assertReset_lane s
    refine ⟨fun l => by rw [lane]; exact h1 l, fun n => ?_, fun l => by rw [lane]; exact h3 l⟩
    have e : referencesTo (assertReset s) n = referencesTo s n := by
      unfold referencesTo
      rw [lane, lane]
      rfl
    rw [e]
    exact h2 n
  · obtain ⟨h1, h2, h3⟩ := h
    obtain ⟨_, _, _, f⟩ := decodeEncoder_frame p q (s.lane l)
    refine ⟨fun m => ?_, fun n => ?_, ?_⟩
    · rw [observeEncoder, State.lane_updLane_eq]
      split
      · exact decodeEncoder_releaseSound p q (h1 l)
      · exact h1 m
    · have k : RefSound (observeEncoder l p q s) := ref_lane (l := l) h2 rfl rfl fun n => by
        unfold LaneState.naming LaneState.entriesNaming LaneState.recordsNaming
        rw [f]
      exact k n
    · exact Still.joints (still_lane rfl rfl ⟨by rw [f], by rw [f]; exact idle_refl _⟩) h3 fun _ _ _ => rfl
  · exact (Edits.keep (I := fun _ => I) (fun e ⟨k1, k2, k3⟩ =>
      ⟨fun l => (Edits.one e).lane_keep LaneEdit.release_sound l (k1 l), ref_edit e k2,
        joints_edit e k1 (ref_edit e k2) k3⟩) r h)

/-- The divert outputs as one equation. -/
theorem divertSound_iff (s) : DivertSound s ↔ ∀ l, (s.lane l).divert = (s.resetAsserted || divertLevel (s.lane l)) := by
  unfold DivertSound
  refine forall_congr' fun l => ?_
  unfold divertLevel
  generalize s.lane l = x
  cases hd : x.divert <;> cases hr : s.resetAsserted <;> by_cases hm : x.mode = .disabled <;>
    cases x.flood <;> simp [hm]

end Sys2Proof.Machine
end

