-- ==== Sys2Proof/Laws/Outcomes.lean ====
section
/-!
SUPPORT. Cells, peaks, outcomes taken and verdicts (R121, R132, R141, R148), each function said once.
-/

namespace Sys2Proof.Machine

/-- The cells of a rectangle. -/
theorem mem_rectangle (r n c m : Nat) (x : Cell) : x ∈ rectangle r n c m ↔ (r ≤ x.row ∧ x.row < r + n)
    ∧ (c ≤ x.col ∧ x.col < c + m) := by
  unfold rectangle
  simp only [List.mem_flatMap, List.mem_range, List.mem_map]
  constructor
  · rintro ⟨i, hi, k, hk, rfl⟩; dsimp only; omega
  · rintro ⟨⟨a, b⟩, e, f⟩
    exact ⟨x.row - r, by omega, x.col - c, by omega, by cases x; simp at *; omega⟩

/-- Each cell once. -/
theorem nodup_rectangle (r n c m : Nat) : (rectangle r n c m).Nodup := by
  unfold rectangle
  rw [List.nodup_flatMap]
  refine ⟨fun i _ => (List.nodup_range).map fun a b h => ?_, ?_⟩
  · simp only [Cell.mk.injEq] at h; omega
  · refine (List.nodup_range (n := n)).imp_of_mem fun {a b} _ _ h => ?_
    simp only [Function.onFun]
    rw [List.disjoint_left]
    intro x hx hy
    simp only [List.mem_map] at hx hy
    obtain ⟨_, _, rfl⟩ := hx
    obtain ⟨_, _, h2⟩ := hy
    simp only [Cell.mk.injEq] at h2; omega

/-- The running maximum of a list. -/
theorem foldl_max_spec (l : List Nat) : ∀ a, (∀ h ∈ l, h ≤ l.foldl max a) ∧ a ≤ l.foldl max a
    ∧ (l.foldl max a = a ∨ l.foldl max a ∈ l) := by
  induction l with
  | nil => intro a; simp
  | cons x xs ih =>
    intro a
    obtain ⟨h1, h2, h3⟩ := ih (max a x)
    simp only [List.foldl_cons]
    refine ⟨fun h hh => ?_, by omega, ?_⟩
    · rcases List.mem_cons.1 hh with rfl | hh
      · omega
      · exact h1 h hh
    · rcases h3 with h3 | h3
      · rcases le_total a x with q | q
        · right; rw [h3, max_eq_right q]; simp
        · left; rw [h3, max_eq_left q]
      · right; simp [h3]

/-- What a record takes of an outcome (R141, R143). -/
theorem takeOutcome_eq (o : OutcomeRecord) (v : VerdictFields) : v.takeOutcome o =
   let counted : VerdictFields := { v with counts := v.counts.add o.outcome 1 }
   if o.outcome = .good ∨ o.outcome = .late ∨ o.outcome = .skipped then counted
                else if v.defects.length < 32 then { counted with defects := v.defects ++ [o] }
                else { counted with overflow := v.overflow + 1 } := by
  unfold VerdictFields.takeOutcome VerdictFields.addDefect Config.defectLimit
  cases o.outcome <;> simp [JointOutcome.isDefect]

/-- The rows of the verdict table (R148) but its first. -/
theorem verdictOf_cases (cause : Cause) (policy : StalePolicy) (v : VerdictFields) (hc : cause ≠ .withdraw) :
   let unjudged : Prop := v.flags.noRecipe = true ∨ v.flags.abandoned = true
   let failing : Prop := 0 < v.counts.insufficient ∨ 0 < v.counts.excess ∨ 0 < v.counts.nonWet ∨ 0 < v.counts.lifted ∨ 0
     < v.counts.bridged
   let doubtful : Prop := 0 < v.counts.dataLost ∨ 0 < v.counts.occluded ∨ 0 < v.counts.noRef ∨ 0 < v.counts.late
            ∨ v.flags.lengthMismatch = true ∨ (v.flags.calStale = true ∧ policy = .demote)
   (unjudged → verdictOf cause policy v = .unjudged) ∧ (¬unjudged → failing → verdictOf cause policy v = .fail)
   ∧ (¬unjudged → ¬failing → doubtful → verdictOf cause policy v = .review)
     ∧ (¬unjudged → ¬failing → ¬doubtful → verdictOf cause policy v = .pass) := by
  unfold verdictOf
  rw [if_neg hc]
  dsimp only
  refine ⟨fun h => ?_, fun hu h => ?_, fun hu h hd => ?_, fun hu h hd => ?_⟩
  · rw [if_pos (by rw [Bool.or_eq_true]; exact h)]
  all_goals rw [if_neg (by rw [Bool.or_eq_true]; exact hu)]
  · rw [if_pos (by omega)]
  all_goals rw [if_neg (by omega)]
  · rw [if_pos]
    rcases hd with h | h | h | h | h
    · exact Or.inl (by omega)
    · exact Or.inl (by omega)
    · exact Or.inl (by omega)
    · exact Or.inl (by omega)
    · exact Or.inr h
  · rw [if_neg]
    rintro (h | h)
    · omega
    · exact hd (Or.inr (Or.inr (Or.inr (Or.inr h))))

end Sys2Proof.Machine
end

