-- ==== Sys2Proof/Laws/PerInstr.lean ====
section
/-!
SUPPORT. Statements made for every command, one lemma per constructor. FrameWords: a command is well formed exactly where
every frame it carries has at least one word (R48, R54).
-/

namespace Sys2Proof.Laws

/-- A command is well formed exactly where a frame that it carries is not empty. -/
def FrameWords.Statement (i : Instr) : Prop :=
  i.wellFormed = true ↔ ∀ h words, i = .profileFrame h words ∨ i = .alignmentFrame h words → words ≠ []

/-- A well-formed command that carries no frame. -/
theorem frameWords_none {i : Instr} (ok : i.wellFormed = true) (p : ∀ h words, i ≠ .profileFrame h words)
    (a : ∀ h words, i ≠ .alignmentFrame h words) : FrameWords.Statement i :=
  ⟨fun _ h words e => (e.elim (p h words) (a h words)).elim, fun _ => ok⟩

theorem FrameWords.powerOn (pins : PowerOnPins) : FrameWords.Statement (.powerOn pins) :=
    frameWords_none rfl nofun nofun

theorem FrameWords.encoderStateChange (lane : Lane) (p q : Bool) :
    FrameWords.Statement (.encoderStateChange lane p q) := frameWords_none rfl nofun nofun

theorem FrameWords.laneTrigger (lane : Lane) : FrameWords.Statement (.laneTrigger lane) :=
    frameWords_none rfl nofun nofun

theorem FrameWords.leadingEdge (lane : Lane) : FrameWords.Statement (.leadingEdge lane) :=
    frameWords_none rfl nofun nofun

theorem FrameWords.trailingEdge (lane : Lane) : FrameWords.Statement (.trailingEdge lane) :=
    frameWords_none rfl nofun nofun

theorem FrameWords.deadline (lane : Lane) : FrameWords.Statement (.deadline lane) := frameWords_none rfl nofun nofun

theorem FrameWords.gateWindowStart (lane : Lane) : FrameWords.Statement (.gateWindowStart lane) :=
    frameWords_none rfl nofun nofun

theorem FrameWords.gateWindowEnd (lane : Lane) : FrameWords.Statement (.gateWindowEnd lane) :=
    frameWords_none rfl nofun nofun

theorem FrameWords.floodEnd (lane : Lane) : FrameWords.Statement (.floodEnd lane) := frameWords_none rfl nofun nofun

theorem FrameWords.profileFrame (head : HeadId) (words : List Half) : FrameWords.Statement (.profileFrame head words) :=
    by
  refine ⟨fun ok h w e => ?_, fun all => ?_⟩
  · rcases e with e | e <;> cases e
    rintro rfl
    exact absurd ok Bool.false_ne_true
  · cases words with
    | nil => exact absurd rfl (all head [] (Or.inl rfl))
    | cons w ws => rfl

theorem FrameWords.triggerTimeout (head : HeadId) (index : Word) : FrameWords.Statement (.triggerTimeout head index) :=
    frameWords_none rfl nofun nofun

theorem FrameWords.evaluationComplete (unit : UnitId) : FrameWords.Statement (.evaluationComplete unit) :=
    frameWords_none rfl nofun nofun

theorem FrameWords.alignmentFrame (head : HeadId) (words : List Half) :
    FrameWords.Statement (.alignmentFrame head words) := by
  refine ⟨fun ok h w e => ?_, fun all => ?_⟩
  · rcases e with e | e <;> cases e
    rintro rfl
    exact absurd ok Bool.false_ne_true
  · cases words with
    | nil => exact absurd rfl (all head [] (Or.inr rfl))
    | cons w ws => rfl

theorem FrameWords.tapTimeout (head : HeadId) : FrameWords.Statement (.tapTimeout head) :=
    frameWords_none rfl nofun nofun

theorem FrameWords.closeEnd (slot : SlotId) : FrameWords.Statement (.closeEnd slot) := frameWords_none rfl nofun nofun

theorem FrameWords.frameReceived (byte : Byte) : FrameWords.Statement (.frameReceived byte) :=
    frameWords_none rfl nofun nofun

theorem FrameWords.headerLengthReject (byte : Byte) : FrameWords.Statement (.headerLengthReject byte) :=
    frameWords_none rfl nofun nofun

theorem FrameWords.interByteTimeout : FrameWords.Statement .interByteTimeout := frameWords_none rfl nofun nofun

theorem FrameWords.stopBitError : FrameWords.Statement .stopBitError := frameWords_none rfl nofun nofun

theorem FrameWords.holdInChange (asserted : Bool) : FrameWords.Statement (.holdInChange asserted) :=
    frameWords_none rfl nofun nofun

theorem FrameWords.transmitStart : FrameWords.Statement .transmitStart := frameWords_none rfl nofun nofun

theorem FrameWords.replySent : FrameWords.Statement .replySent := frameWords_none rfl nofun nofun

theorem FrameWords.unknownKind : FrameWords.Statement .unknownKind := frameWords_none rfl nofun nofun

theorem FrameWords.markedRequest : FrameWords.Statement .markedRequest := frameWords_none rfl nofun nofun

theorem FrameWords.describe : FrameWords.Statement .describe := frameWords_none rfl nofun nofun

theorem FrameWords.linkStatus : FrameWords.Statement .linkStatus := frameWords_none rfl nofun nofun

theorem FrameWords.laneStatus : FrameWords.Statement .laneStatus := frameWords_none rfl nofun nofun

theorem FrameWords.headStatus : FrameWords.Statement .headStatus := frameWords_none rfl nofun nofun

theorem FrameWords.restart : FrameWords.Statement .restart := frameWords_none rfl nofun nofun

theorem FrameWords.laneSetup : FrameWords.Statement .laneSetup := frameWords_none rfl nofun nofun

theorem FrameWords.laneStart : FrameWords.Statement .laneStart := frameWords_none rfl nofun nofun

theorem FrameWords.laneStopDrain : FrameWords.Statement .laneStopDrain := frameWords_none rfl nofun nofun

theorem FrameWords.laneStopAbandon : FrameWords.Statement .laneStopAbandon := frameWords_none rfl nofun nofun

theorem FrameWords.expect : FrameWords.Statement .expect := frameWords_none rfl nofun nofun

theorem FrameWords.withdraw : FrameWords.Statement .withdraw := frameWords_none rfl nofun nofun

theorem FrameWords.headSetup : FrameWords.Statement .headSetup := frameWords_none rfl nofun nofun

theorem FrameWords.headAlign : FrameWords.Statement .headAlign := frameWords_none rfl nofun nofun

theorem FrameWords.calRequest : FrameWords.Statement .calRequest := frameWords_none rfl nofun nofun

theorem FrameWords.recipeOpen : FrameWords.Statement .recipeOpen := frameWords_none rfl nofun nofun

theorem FrameWords.recipeClasses : FrameWords.Statement .recipeClasses := frameWords_none rfl nofun nofun

theorem FrameWords.recipeJoints : FrameWords.Statement .recipeJoints := frameWords_none rfl nofun nofun

theorem FrameWords.recipeClose : FrameWords.Statement .recipeClose := frameWords_none rfl nofun nofun

theorem FrameWords.recipeRetire : FrameWords.Statement .recipeRetire := frameWords_none rfl nofun nofun

theorem FrameWords.recipeQuery : FrameWords.Statement .recipeQuery := frameWords_none rfl nofun nofun

theorem FrameWords.collect : FrameWords.Statement .collect := frameWords_none rfl nofun nofun

theorem FrameWords.resetNAsserted : FrameWords.Statement .resetNAsserted := frameWords_none rfl nofun nofun

theorem FrameWords.goodByte (byte : Byte) : FrameWords.Statement (.goodByte byte) := frameWords_none rfl nofun nofun

end Sys2Proof.Laws
end

