-- ==== Sys2Proof/Laws/Requests.lean ====
section
/-!
SUPPORT. What the request handler's taking comes to (R176, R177), said once: a request row whose request can be taken is
its body on the state after the taking; a reply placed is a reply added to the outbox.
-/

namespace Sys2Proof.Machine

variable {s : State} {kind : Byte} {r : Request} {rest : List Request}

/-- While RESET_N is deasserted, a command has its effect. -/
theorem inService_next {f : State → State} (h : s.resetAsserted = false) : inService f s = .next (f s) := by
  simp [inService, h]

theorem placeReply_eq (r : Reply) (s : State) : placeReply r s = withReply r s := rfl

theorem replyDone_eq (kind tag : Byte) (result : List Byte) (s : State) :
    replyDone kind tag result s = withReply (doneReply kind tag result) s := rfl

theorem replyRefused_eq (kind tag : Byte) (code : RefusalCode) (detail : List Byte) (s : State) :
    replyRefused kind tag code detail s = withReply (refusedReply kind tag code detail) s := rfl

theorem free_of_places (h : s.link.outbox.length + reservedPlaces s < 16) : 0 < freePlaces s := by
  unfold freePlaces Config.outboxDepth
  omega

/-- The oldest request is taken when it is the one wanted and a place is free (R176). -/
theorem takeRequest_next {wanted : Request → Bool} {act : Request → State → State} (front : s.link.inbox = r :: rest)
    (w : wanted r = true) (free : s.link.outbox.length + reservedPlaces s < 16) :
    takeRequest wanted act s = act r (afterTaking rest s) := by
  unfold takeRequest
  rw [front]
  simp [w, free_of_places free, afterTaking, State.updLink, LinkPort.withInbox]

/-- The taking of a request of one kind, with its length right (R177, R178). -/
theorem takeKind_next {body : Byte → List Byte → State → State} (h : CanTake kind r rest s) :
    inService (takeKind kind body) s = .next (body r.tag r.payload (afterTaking rest s)) := by
  obtain ⟨on, front, unmarked, isKind, length, free⟩ := h
  rw [inService_next on, takeKind, takeRequest_next front (by simp [unmarked, isKind]) free, checkedRequest, isKind,
    length]
  rfl

/-- The same for a row that the byte at a place of the payload names (log entry 21). -/
theorem takeVariant_next {place code limit : Nat} {body : Byte → List Byte → State → State} (h : CanTake kind r rest s)
    (row : fieldAt r.payload place 1 = code ∨ limit ≤ fieldAt r.payload place 1) :
    inService (takeVariant kind place code limit body) s = .next (body r.tag r.payload (afterTaking rest s)) := by
  obtain ⟨on, front, unmarked, isKind, length, free⟩ := h
  have w : (!r.marked && decide (r.kind = kind)
      && (!lengthOk kind r.payload || decide (fieldAt r.payload place 1 = code)
        || decide (limit ≤ fieldAt r.payload place 1))) = true := by
    rcases row with row | row <;> simp [unmarked, isKind, length, row]
  rw [inService_next on, takeVariant, takeRequest_next front w free, checkedRequest, isKind, length]
  rfl

/-! ### The taking leaves every block but the inbox and HOLD_OUT -/

@[simp] theorem afterTaking_lane (rest : List Request) (s : State) (l : Lane) : (afterTaking rest s).lane l = s.lane l := rfl

@[simp] theorem afterTaking_head (rest : List Request) (s : State) (h : HeadId) :
    (afterTaking rest s).head h = s.head h := rfl

@[simp] theorem afterTaking_calOf (rest : List Request) (s : State) (h : HeadId) :
    (afterTaking rest s).calOf h = s.calOf h := rfl

@[simp] theorem afterTaking_slot (rest : List Request) (s : State) (n : SlotId) :
    (afterTaking rest s).slot n = s.slot n := rfl

@[simp] theorem afterTaking_verdicts (rest : List Request) (s : State) : (afterTaking rest s).verdicts = s.verdicts := rfl

@[simp] theorem afterTaking_now (rest : List Request) (s : State) : (afterTaking rest s).now = s.now := rfl

@[simp] theorem afterTaking_reserved (rest : List Request) (s : State) :
    reservedPlaces (afterTaking rest s) = reservedPlaces s := rfl

@[simp] theorem afterTaking_laneHeads (rest : List Request) (s : State) (l : Lane) :
    laneHeads (afterTaking rest s) l = laneHeads s l := rfl

end Sys2Proof.Machine
end

