-- ==== Sys2Proof/Laws/Search.lean ====
section
/-!
SUPPORT. The searches of the recipe checks (R90, R91, R95): the lowest index that fails a check, the
first joint that goes backwards in the table, and the first that repeats an id.
-/

namespace Sys2Proof.Machine

theorem firstFailing_none {α} (ok : α → Bool) (k) (xs : List α) : firstFailing ok k xs = none ↔ ∀ x ∈ xs, ok x = true :=
    by
  induction xs generalizing k with
  | nil => simp [firstFailing]
  | cons x xs ih => unfold firstFailing; cases hx : ok x <;> simp [hx, ih]

theorem firstFailing_at {α} (ok : α → Bool) (k) (xs : List α) (i)
    (before : ∀ j x, j < i → xs[j]? = some x → ok x = true) (here : ∃ x, xs[i]? = some x ∧ ok x = false) :
      firstFailing ok k xs = some (k + i) := by
  induction xs generalizing k i with
  | nil => obtain ⟨x, h, _⟩ := here; simp at h
  | cons x xs ih =>
    unfold firstFailing
    cases i with
    | zero => obtain ⟨y, h, g⟩ := here; simp at h; subst h; simp [g]
    | succ i =>
      rw [if_pos (before 0 x (by omega) (by simp)),
        ih (k + 1) i (fun j y hj hy => before (j + 1) y (by omega) (by simpa using hy)) (by simpa using here)]
      congr 1; omega

/-- The lowest index with a property is the one found. -/
theorem firstFailing_lowest {α} (ok : α → Bool) (bad : Nat → Prop) (xs : List α)
    (h : ∀ k, bad k ↔ ∃ x, xs[k]? = some x ∧ ok x = false) (k) (lo : bad k ∧ ∀ i < k, ¬bad i) : firstFailing ok 0 xs
      = some k := by
  have := firstFailing_at ok 0 xs k (fun j x hj hx => by
    by_contra q; exact lo.2 j hj ((h j).2 ⟨x, hx, by simpa using q⟩)) ((h k).1 lo.1)
  simpa using this

theorem firstFailing_never {α} (ok : α → Bool) (bad : Nat → Prop) (xs : List α)
    (h : ∀ k, bad k ↔ ∃ x, xs[k]? = some x ∧ ok x = false) (no : ∀ k, ¬bad k) : firstFailing ok 0 xs = none := by
  rw [firstFailing_none]
  intro x hx
  obtain ⟨i, hi⟩ := List.getElem?_of_mem hx
  by_contra q; exact no i ((h i).2 ⟨x, hi, by simpa using q⟩)

theorem lowest_congr {P Q : Nat → Prop} (h : ∀ k, P k ↔ Q k) {k} (lo : P k ∧ ∀ i < k, ¬P i) : Q k ∧ ∀ i < k, ¬Q i :=
  ⟨(h k).1 lo.1, fun i hi q => lo.2 i hi ((h i).2 q)⟩

/-- Joint `k` goes backwards, after a joint with last row `b0`. -/
def Descends (b0 : Int) (js : List Joint) : Nat → Prop
  | 0 => ∃ a, js[0]? = some a ∧ a.lastRow < b0
  | i + 1 => ∃ a b, js[i]? = some a ∧ js[i + 1]? = some b ∧ b.lastRow < a.lastRow

theorem firstDescent_spec (b0 m) (js : List Joint) :
    (∀ k, (Descends b0 js k ∧ ∀ i < k, ¬Descends b0 js i) → firstDescent (some b0) m js = some (m + k))
      ∧ ((∀ k, ¬Descends b0 js k) → firstDescent (some b0) m js = none) := by
  induction js generalizing b0 m with
  | nil => refine ⟨fun k ⟨h, _⟩ => ?_, fun _ => rfl⟩; cases k <;> simp [Descends] at h
  | cons j js ih =>
    have sh : ∀ i, Descends b0 (j :: js) (i + 1) ↔ Descends j.lastRow js i := by
      intro i; cases i <;> simp [Descends]
    have z : Descends b0 (j :: js) 0 ↔ j.lastRow < b0 := by simp [Descends]
    unfold firstDescent
    by_cases c : j.lastRow < b0
    · rw [if_pos c]
      refine ⟨fun k ⟨_, lo⟩ => ?_, fun h => absurd (z.2 c) (h 0)⟩
      cases k with
      | zero => rfl
      | succ k => exact absurd (z.2 c) (lo 0 (by omega))
    · rw [if_neg c]
      refine ⟨fun k ⟨h, lo⟩ => ?_, fun h => (ih _ _).2 fun k q => h (k + 1) ((sh k).2 q)⟩
      cases k with
      | zero => exact absurd (z.1 h) c
      | succ k =>
        rw [(ih j.lastRow (m + 1)).1 k ⟨(sh k).1 h, fun i hi q => lo (i + 1) (by omega) ((sh i).2 q)⟩]
        congr 1; omega

/-- Joint `k` repeats an id, seen before or of an earlier joint. -/
def Repeats (seen : List Nat) (js : List Joint) (k : Nat) : Prop :=
  ∃ b, js[k]? = some b ∧ (b.jointId ∈ seen ∨ ∃ i a, i < k ∧ js[i]? = some a ∧ a.jointId = b.jointId)

theorem repeats_cons (seen) (j : Joint) (js : List Joint) (k) : Repeats seen (j :: js) (k + 1) ↔ Repeats
    (j.jointId :: seen) js k := by
  unfold Repeats
  simp only [List.getElem?_cons_succ, List.mem_cons]
  constructor
  · rintro ⟨b, hb, h | ⟨i, a, hi, ha, e⟩⟩
    · exact ⟨b, hb, .inl (.inr h)⟩
    · cases i with
      | zero => simp at ha; subst ha; exact ⟨b, hb, .inl (.inl e.symm)⟩
      | succ i => exact ⟨b, hb, .inr ⟨i, a, by omega, by simpa using ha, e⟩⟩
  · rintro ⟨b, hb, (h | h) | ⟨i, a, hi, ha, e⟩⟩
    · exact ⟨b, hb, .inr ⟨0, j, by omega, rfl, h.symm⟩⟩
    · exact ⟨b, hb, .inl h⟩
    · exact ⟨b, hb, .inr ⟨i + 1, a, by omega, by simpa using ha, e⟩⟩

theorem firstRepeat_spec (seen m) (js : List Joint) :
    (∀ k, (Repeats seen js k ∧ ∀ i < k, ¬Repeats seen js i) → firstRepeat seen m js = some (m + k))
      ∧ ((∀ k, ¬Repeats seen js k) → firstRepeat seen m js = none) := by
  induction js generalizing seen m with
  | nil => refine ⟨fun k ⟨h, _⟩ => ?_, fun _ => rfl⟩; simp [Repeats] at h
  | cons j js ih =>
    have z : Repeats seen (j :: js) 0 ↔ seen.contains j.jointId = true := by simp [Repeats]
    unfold firstRepeat
    by_cases c : seen.contains j.jointId = true
    · rw [if_pos c]
      refine ⟨fun k ⟨_, lo⟩ => ?_, fun h => absurd (z.2 c) (h 0)⟩
      cases k with
      | zero => rfl
      | succ k => exact absurd (z.2 c) (lo 0 (by omega))
    · rw [if_neg c]
      refine ⟨fun k ⟨h, lo⟩ => ?_, fun h => (ih _ _).2 fun k q => h (k + 1) ((repeats_cons _ _ _ k).2 q)⟩
      cases k with
      | zero => exact absurd (z.1 h) c
      | succ k =>
        rw [(ih (j.jointId :: seen) (m + 1)).1 k
          ⟨(repeats_cons _ _ _ k).1 h, fun i hi q => lo (i + 1) (by omega) ((repeats_cons _ _ _ i).2 q)⟩]
        congr 1; omega

end Sys2Proof.Machine
end

