-- ==== Sys2Proof/Laws/Takings.lean ====
section
/-!
SUPPORT. What the takings at a lane trigger and at a watched position leave alone: the encoder, the other heads, the due
counts; and what one head event changes.
-/

namespace Sys2Proof.Machine

/-- The conveyor side of the lane stays. -/
structure BeltKept (l : Lane) (s t : State) : Prop where
  enc : (t.lane l).enc = (s.lane l).enc
  rev : (t.lane l).reversed = (s.lane l).reversed
  flt : (t.lane l).encoderFault = (s.lane l).encoderFault

theorem BeltKept.refl (l s) : BeltKept l s s := ⟨rfl, rfl, rfl⟩

theorem BeltKept.trans {l s t u} (a : BeltKept l s t) (b : BeltKept l t u) : BeltKept l s u :=
  ⟨b.enc.trans a.enc, b.rev.trans a.rev, b.flt.trans a.flt⟩

theorem beltKept_near {l s t} (h : Near s t) : BeltKept l s t := by
  have := (h.lanes l).same
  exact ⟨by rw [this], by rw [this], by rw [this]⟩

theorem beltKept_quiet {l s t} (h : Quiet s t) : BeltKept l s t := beltKept_near (.ofQuiet h)

theorem beltKept_lane {l s t}
    (e : (t.lane l).enc = (s.lane l).enc ∧ (t.lane l).reversed = (s.lane l).reversed ∧ (t.lane l).encoderFault
      = (s.lane l).encoderFault) : BeltKept l s t := ⟨e.1, e.2.1, e.2.2⟩

theorem beltKept_updLane (l : Lane) (f : LaneState → LaneState) (s : State)
    (h : ∀ x, (f x).enc = x.enc ∧ (f x).reversed = x.reversed ∧ (f x).encoderFault = x.encoderFault) :
      BeltKept l s (s.updLane l f) := by
  refine beltKept_lane ?_
  rw [State.lane_updLane]; exact h _

/-- No event of a watched position counts the belt (R4). -/
theorem takeWatched_belt (l : Lane) (w : Watched) (s : State) : BeltKept l s (takeWatched l w s) := by
  cases w with
  | trigger =>
    show BeltKept l s (issueTrigger l s)
    unfold issueTrigger
    split
    · split
      · next p st _ _ _ =>
        exact (beltKept_updLane l (LaneState.countTrigger p st.lineStep) s fun x => ⟨rfl, rfl, rfl⟩).trans
          (beltKept_near
            (takeAll_rel .refl .trans (fun _ _ => .ofQuiet ⟨rfl, fun _ => .refl _⟩) (Near.takeTriggerAt l _ _) _ _))
      · exact .refl _ _
    · exact .refl _ _
  | deadline =>
    show BeltKept l s (takeDeadline l s)
    unfold takeDeadline
    split
    · exact .refl _ _
    · exact beltKept_quiet (decideAndExamine_quiet _ _ _ _)
  | gateStart =>
    show BeltKept l s (takeGateStart l s)
    unfold takeGateStart
    split
    · exact .refl _ _
    · unfold enterWindow reevaluate
      refine BeltKept.trans ?_ (beltKept_updLane l LaneState.reevaluate _ fun x => ⟨rfl, rfl, rfl⟩)
      exact beltKept_updLane l _ s fun x => ⟨rfl, rfl, rfl⟩
  | gateEnd =>
    show BeltKept l s (removeFront l s)
    unfold removeFront
    split
    · split
      · exact .refl _ _
      · split
        · next r rest st _ _ _ p _ _ =>
          refine BeltKept.trans (t := dropFront l r rest s) ?_ ?_
          · rw [dropFront_shape]
            exact BeltKept.trans
              (beltKept_updLane l (fun x => LaneState.reevaluate { x with transit := rest }) s fun x => ⟨rfl, rfl, rfl⟩)
                ⟨rfl, rfl, rfl⟩
          · have fl : ∀ s : State,
              BeltKept l s (if (s.lane l).transit = [] ∧ floodEndReached (s.lane l) = true then endFlood l s else s) :=
                by
              intro s
              split
              · unfold endFlood reevaluate
                refine BeltKept.trans ?_ (beltKept_updLane l LaneState.reevaluate _ fun x => ⟨rfl, rfl, rfl⟩)
                exact beltKept_updLane l _ s fun x => ⟨rfl, rfl, rfl⟩
              · exact .refl _ _
            have sl : ∀ s : State, BeltKept l s (stopIfEmpty l s) := by
              intro s
              unfold stopIfEmpty
              split
              · next h =>
                have := (enterDisabled_left l _ h.1).1
                exact beltKept_lane (by rw [this]; exact ⟨rfl, rfl, rfl⟩)
              · exact .refl _ _
            exact (fl _).trans (sl _)
        · exact .refl _ _
    · exact .refl _ _
  | floodEnd =>
    show BeltKept l s (takeFloodEnd l s)
    unfold takeFloodEnd
    split
    · exact .refl _ _
    · exact .refl _ _
    · exact .refl _ _
    · split
      · split
        · unfold endFlood reevaluate
          refine BeltKept.trans ?_ (beltKept_updLane l LaneState.reevaluate _ fun x => ⟨rfl, rfl, rfl⟩)
          exact beltKept_updLane l _ s fun x => ⟨rfl, rfl, rfl⟩
        · exact beltKept_updLane l _ s fun x => ⟨rfl, rfl, rfl⟩
      · exact .refl _ _

theorem takeTriggerAt_head {l t q} {r : TriggerTaker} (s : State) (n : ∀ h, r ≠ .headPort h) (g) :
    (takeTriggerAt l t q r s).head g = s.head g := by
  cases r with
  | headPort h => exact absurd rfl (n h)
  | boardSide => exact (boardTrigger_quiet l t q s).head g
  | scheduler => rfl
  | calibration =>
    show (calTrigger l t s).head g = _
    unfold calTrigger; split
    · rfl
    · unfold State.head; dsimp only; rw [updCals_frame]
  | dueCount h =>
    show (dueTrigger h s).head g = _
    unfold dueTrigger; split
    · rfl
    · split <;> rfl

theorem takeTriggerAt_headPort (l t q) (h g : HeadId) (s : State) : (takeTriggerAt l t q (.headPort h) s).head g = if g
    = h then (HeadPort.takeTrigger t s.now (s.head h)).1 else s.head g :=
  headEvent_head h g _ s

theorem takeTrigger_settings (t n x) : (HeadPort.takeTrigger t n x).1.settings = x.settings := by
  have ev : ((({ x with lastTrigger := some t } : HeadPort).evictFor t).1).settings = x.settings := by
    unfold HeadPort.evictFor; split
    · rfl
    · split <;> rfl
  unfold HeadPort.takeTrigger
  dsimp only
  split <;> exact ev

theorem takeTriggerAt_due (l t q) (r : TriggerTaker) (h : HeadId) (s : State) : (takeTriggerAt l t q r s).dueOf h = if r
    = .dueCount h then (dueTrigger h s).dueOf h else s.dueOf h := by
  cases r with
  | headPort g =>
    have := (headEvent_quiet g (HeadPort.takeTrigger t s.now) s).same
    show (headEvent g _ s).dueOf h = _
    unfold State.dueOf
    rw [show (headEvent g (HeadPort.takeTrigger t s.now) s).due = s.due by rw [this]; rfl]
    simp
  | boardSide => 
    show (boardTrigger l t q s).dueOf h = _
    unfold State.dueOf; rw [(boardTrigger_quiet l t q s).due]; simp
  | scheduler => simp; rfl
  | calibration =>
    show (calTrigger l t s).dueOf h = _
    unfold calTrigger; split
    · simp
    · unfold State.dueOf; dsimp only; rw [updCals_frame]; simp
  | dueCount g =>
    show (dueTrigger g s).dueOf h = _
    by_cases e : g = h
    · subst e; simp
    · rw [if_neg (by simpa using e)]
      unfold dueTrigger; split
      · rfl
      · have : ∀ k, (s.setDue g k).dueOf h = s.dueOf h := fun k => by
          show (s.due.set g k).get h = _
          exact Quad.get_set_ne _ _ (Ne.symm e)
        split
        · exact this 0
        · exact this _

theorem ringPut_put (r : Ring) (n) (x y : Line) : Ring.put (Ring.put r n x) n y = Ring.put r n y := by
  induction r with
  | nil => simp [Ring.put]
  | cons a r ih =>
    obtain ⟨k, z⟩ := a
    by_cases h1 : n < k
    · simp [Ring.put, h1]
    · by_cases h2 : n = k
      · simp [Ring.put, h2]
      · simp [Ring.put, h1, h2, ih]

/-- One head event changes its head as given, and of the others only what it reports to. -/
theorem onlyHeadChanges_of {h : HeadId} {s t u : State} (x : HeadPort) (e : u = s.updHead h fun _ => x)
    (q : HeadQuiet h u t) : t.head h = x ∧ OnlyHeadChanges h s t := by
  subst e
  have hh : t.head h = x := by rw [q.head]; exact Quad.get_set ..
  refine ⟨hh, ?_, fun m => (q.lanes m).same⟩
  refine q.same.trans ?_
  rw [hh]; rfl

end Sys2Proof.Machine
end

