-- ==== Sys2Proof/Laws/Taps.lean ====
section
/-!
SUPPORT. The selection of a tap (R49): the scan of a pass map finds its longest run, the earliest of several.
-/

namespace Sys2Proof.Machine

/-- A run of passing taps, as long as it goes. -/
def IsTapRun (m : List Bool) (start length : Nat) : Prop :=
  1 ≤ length ∧ (∀ k, start ≤ k → k < start + length → m[k]? = some true)
          ∧ (start = 0 ∨ m[start - 1]? = some false) ∧ m[start + length]? ≠ some true

/-- What the scan knows of the taps it has passed. -/
structure TapScan (pre : List Bool) (best cur : HeadPort.TapRun) : Prop where
  curZero : cur.length = 0 → ∀ i n, IsTapRun pre i n → i + n < pre.length
  curZeroLast : cur.length = 0 → pre = [] ∨ pre[pre.length - 1]? = some false
  curPos : cur.length ≠ 0 → IsTapRun pre cur.start cur.length ∧ cur.start + cur.length = pre.length
  bestZero : best.length = 0 → ∀ i n, ¬IsTapRun pre i n
  bestPos : best.length ≠ 0 → IsTapRun pre best.start best.length ∧ ∀ i n, IsTapRun pre i n → n ≤ best.length
    ∧ (n = best.length → best.start ≤ i)

theorem tapRun_end {m : List Bool} {i n} (h : IsTapRun m i n) : i + n ≤ m.length := by
  obtain ⟨h1, h2, _, _⟩ := h
  have := h2 (i + n - 1) (by omega) (by omega)
  have := (List.getElem?_eq_some_iff.1 this).1
  omega

theorem tapRun_append_false {m : List Bool} {i n} : IsTapRun (m ++ [false]) i n ↔ IsTapRun m i n := by
  have lt : ∀ k : Nat, (m ++ [false])[k]? = some true ↔ m[k]? = some true := by
    intro k
    by_cases h : k < m.length
    · rw [List.getElem?_append_left h]
    · rw [List.getElem?_append_right (by omega), List.getElem?_eq_none (show m.length ≤ k by omega)]
      rcases Nat.lt_or_ge (k - m.length) 1 with q | q
      · rw [show k - m.length = 0 by omega]; simp
      · rw [List.getElem?_eq_none (by simpa using q)]
  constructor
  · rintro ⟨a, b, c, d⟩
    have b' : ∀ k, i ≤ k → k < i + n → m[k]? = some true := fun k h1 h2 => (lt k).1 (b k h1 h2)
    refine ⟨a, b', ?_, fun k => d ((lt _).2 k)⟩
    rcases c with c | c
    · exact .inl c
    · by_cases z : i = 0
      · exact .inl z
      · have := (List.getElem?_eq_some_iff.1 (b' i (le_refl _) (by omega))).1
        rw [List.getElem?_append_left (by omega)] at c; exact .inr c
  · rintro ⟨a, b, c, d⟩
    refine ⟨a, fun k h1 h2 => (lt k).2 (b k h1 h2), ?_, fun k => d ((lt _).1 k)⟩
    rcases c with c | c
    · exact .inl c
    · have := (List.getElem?_eq_some_iff.1 c).1
      exact .inr (by rw [List.getElem?_append_left this]; exact c)

theorem tapRun_append_true {m : List Bool} {i n} (h : IsTapRun (m ++ [true]) i n) :
    (i + n = m.length + 1) ∨ (IsTapRun m i n ∧ i + n < m.length) := by
  have e := tapRun_end h
  simp at e
  by_cases q : i + n = m.length + 1
  · exact .inl q
  · obtain ⟨a, b, c, d⟩ := h
    right
    have : i + n ≠ m.length := by
      intro z; apply d; rw [z, List.getElem?_append_right (le_refl _)]; simp
    refine ⟨⟨a, fun k h1 h2 => ?_, ?_, ?_⟩, by omega⟩
    · have := b k h1 h2; rwa [List.getElem?_append_left (by omega)] at this
    · rcases c with c | c
      · exact .inl c
      · rw [List.getElem?_append_left (by omega)] at c; exact .inr c
    · rwa [List.getElem?_append_left (by omega)] at d

theorem tapRun_keep_true {m : List Bool} {i n} (h : IsTapRun m i n) (lt : i + n < m.length) :
    IsTapRun (m ++ [true]) i n := by
  obtain ⟨a, b, c, d⟩ := h
  refine ⟨a, fun k h1 h2 => ?_, ?_, ?_⟩
  · rw [List.getElem?_append_left (by omega)]; exact b k h1 h2
  · rcases c with c | c
    · exact .inl c
    · by_cases z : i = 0
      · exact .inl z
      · exact .inr (by rw [List.getElem?_append_left (by omega)]; exact c)
  · rw [List.getElem?_append_left lt]; exact d

theorem tapRun_unique_end {m : List Bool} {i n j k} (h : IsTapRun m i n) (g : IsTapRun m j k) (e : i + n = j + k) :
    i = j ∧ n = k := by
  have key : ∀ {i n j k}, IsTapRun m i n → IsTapRun m j k → i + n = j + k → ¬ i < j := by
    intro i n j k h g e lt
    rcases g.2.2.1 with c | c
    · omega
    · have := h.2.1 (j - 1) (by omega) (by have := g.1; omega)
      rw [c] at this; cases this
  have a := key h g e
  have b := key g h e.symm
  omega

theorem tapScan_step (pre : List Bool) (p : Bool) (best cur : HeadPort.TapRun) (h : TapScan pre best cur) :
    TapScan (pre ++ [p])
      (if p then best.better (if cur.length = 0 then ⟨pre.length, 1⟩ else ⟨cur.start, cur.length + 1⟩) else best)
      (if p then (if cur.length = 0 then ⟨pre.length, 1⟩ else ⟨cur.start, cur.length + 1⟩) else ⟨0, 0⟩) := by
  cases p with
  | false =>
    simp only [Bool.false_eq_true, if_false]
    refine
      ⟨fun _ i n r => ?_, fun _ => .inr (by simp), fun k => absurd rfl k, fun k i n r =>
        h.bestZero k i n (tapRun_append_false.1 r), fun k =>
          ⟨tapRun_append_false.2 (h.bestPos k).1, fun i n r => (h.bestPos k).2 i n (tapRun_append_false.1 r)⟩⟩
    have := tapRun_end (tapRun_append_false.1 r); simp; omega
  | true =>
    simp only [if_true]
    have hc : ∃ c : HeadPort.TapRun,
      (if cur.length = 0 then (⟨pre.length, 1⟩ : HeadPort.TapRun) else ⟨cur.start, cur.length + 1⟩) = c ∧ c.length
        = cur.length + 1 ∧ IsTapRun (pre ++ [true]) c.start c.length ∧ c.start + c.length = pre.length + 1 := by
      by_cases z : cur.length = 0
      · refine ⟨⟨pre.length, 1⟩, by rw [if_pos z], by simp [z], ⟨by simp, fun k h1 h2 => ?_, ?_, ?_⟩, by simp⟩
        · simp only at h1 h2; rw [show k = pre.length by omega]; simp
        · rcases h.curZeroLast z with q | q
          · exact .inl (by simp [q])
          · right
            have := (List.getElem?_eq_some_iff.1 q).1
            rw [List.getElem?_append_left this]; exact q
        · simp
      · obtain ⟨r, e⟩ := h.curPos z
        refine
          ⟨⟨cur.start, cur.length + 1⟩, by rw [if_neg z], rfl, ⟨by simp, fun k h1 h2 => ?_, ?_, ?_⟩, by simp; omega⟩
        · simp only at h1 h2
          by_cases q : k < pre.length
          · rw [List.getElem?_append_left q]; exact r.2.1 k h1 (by omega)
          · rw [show k = pre.length by omega]; simp
        · rcases r.2.2.1 with c | c
          · exact .inl c
          · have := (List.getElem?_eq_some_iff.1 c).1
            exact .inr (by rw [List.getElem?_append_left this]; exact c)
        · simp only; rw [show cur.start + (cur.length + 1) = pre.length + 1 by omega]; simp
    obtain ⟨c, e, cl, cr, ce⟩ := hc
    rw [e]
    have c1 := cr.1
    have runs : ∀ i n, IsTapRun (pre ++ [true]) i n → (i = c.start ∧ n = c.length) ∨
      (IsTapRun pre i n ∧ i + n < pre.length) := by
      intro i n r
      rcases tapRun_append_true r with q | q
      · exact .inl (tapRun_unique_end r cr (by omega))
      · exact .inr q
    unfold HeadPort.TapRun.better
    refine ⟨fun z => by omega, fun z => by omega, fun _ => ⟨cr, by simp; omega⟩, fun z => ?_, fun z => ?_⟩
    · exfalso
      split at z <;> omega
    · by_cases lt : best.length < c.length
      · simp only [lt, if_true] at z ⊢
        refine ⟨cr, fun i n r => ?_⟩
        rcases runs i n r with ⟨rfl, rfl⟩ | ⟨r', _⟩
        · exact ⟨le_refl _, fun _ => le_refl _⟩
        · by_cases bz : best.length = 0
          · exact absurd r' (h.bestZero bz i n)
          · have := ((h.bestPos bz).2 i n r').1
            exact ⟨by omega, fun q => by omega⟩
      · simp only [lt, if_false] at z ⊢
        obtain ⟨br, bm⟩ := h.bestPos z
        have be : best.start + best.length < pre.length := by
          by_cases q : best.start + best.length < pre.length
          · exact q
          · exfalso
            have e1 := tapRun_end br
            by_cases cz : cur.length = 0
            · exact q (h.curZero cz _ _ br)
            · obtain ⟨r, e2⟩ := h.curPos cz
              have := (tapRun_unique_end br r (by omega)).2
              omega
        refine ⟨tapRun_keep_true br be, fun i n r => ?_⟩
        rcases runs i n r with ⟨rfl, rfl⟩ | ⟨r', _⟩
        · exact ⟨by omega, fun q => by omega⟩
        · exact bm i n r'

theorem longestRunFrom_scan (rest pre : List Bool) (best cur) (h : TapScan pre best cur) : ∃ cur',
    TapScan (pre ++ rest) (HeadPort.longestRunFrom pre.length best cur rest) cur' := by
  induction rest generalizing pre best cur with
  | nil => exact ⟨cur, by simpa [HeadPort.longestRunFrom] using h⟩
  | cons p rest ih =>
    have := ih (pre ++ [p]) _ _ (tapScan_step pre p best cur h)
    obtain ⟨cur', k⟩ := this
    refine ⟨cur', ?_⟩
    simp only [List.append_assoc, List.singleton_append, List.length_append] at k
    simp only [List.length_cons, List.length_nil, Nat.zero_add] at k
    unfold HeadPort.longestRunFrom
    cases p with
    | true => simpa using k
    | false => simpa using k

/-- The tap that the scan selects. -/
theorem selectTap_spec (m : List Bool) : (HeadPort.selectTap m = none ↔ ∀ k : Nat, m[k]? ≠ some true)
      ∧ ∀ start length, IsTapRun m start length →
          (∀ i n, IsTapRun m i n → n ≤ length ∧ (n = length → start ≤ i)) →
            HeadPort.selectTap m = some (start + (length - 1) / 2) := by
  obtain ⟨cur, sc⟩ := longestRunFrom_scan m [] ⟨0, 0⟩ ⟨0, 0⟩
    ⟨fun _ i n r => by have := tapRun_end r; have := r.1; simp at *; omega, fun _ => .inl rfl, fun k => absurd rfl k,
      fun _ i n r => by have := tapRun_end r; have := r.1; simp at *; omega, fun k => absurd rfl k⟩
  simp only [List.nil_append, List.length_nil] at sc
  unfold HeadPort.selectTap
  generalize HeadPort.longestRunFrom 0 ⟨0, 0⟩ ⟨0, 0⟩ m = r at sc
  dsimp only
  refine ⟨⟨fun h k hk => ?_, fun h => ?_⟩, fun start length run bestOf => ?_⟩
  · by_cases z : r.length = 0
    · -- a pass exists, so a run exists
      have ex : ∃ i n, IsTapRun m i n := by
        have klt := (List.getElem?_eq_some_iff.1 hk).1
        -- start: least i such that all from i to k are true
        have st : ∃ i ≤ k, (∀ j, i ≤ j → j ≤ k → m[j]? = some true) ∧ (i = 0 ∨ m[i - 1]? = some false) := by
          clear h
          induction k with
          | zero => exact ⟨0, le_refl _, fun j h1 h2 => by rw [show j = 0 by omega]; exact hk, .inl rfl⟩
          | succ k ih =>
            cases hp : m[k]? with
            | none => rw [List.getElem?_eq_none_iff] at hp; omega
            | some b =>
              cases b with
              | false => exact ⟨k + 1, le_refl _, fun j h1 h2 => by rw [show j = k + 1 by omega]; exact hk, .inr hp⟩
              | true =>
                obtain ⟨i, h1, h2, h3⟩ := ih hp (by omega)
                refine ⟨i, by omega, fun j a b => ?_, h3⟩
                by_cases q : j = k + 1
                · rw [q]; exact hk
                · exact h2 j a (by omega)
        obtain ⟨i, i1, i2, i3⟩ := st
        have en : ∃ n, k < i + n ∧ (∀ j, i ≤ j → j < i + n → m[j]? = some true) ∧ m[i + n]? ≠ some true := by
          by_contra no
          push Not at no
          have all : ∀ d, ∀ j, i ≤ j → j < i + (k + 1 - i + d) → m[j]? = some true := by
            intro d
            induction d with
            | zero => exact fun j a b => i2 j a (by omega)
            | succ d ihd =>
              intro j a b
              by_cases q : j = i + (k + 1 - i + d)
              · rw [q]; exact no _ (by omega) ihd
              · exact ihd j a (by omega)
          have := all m.length (m.length) (by omega) (by omega)
          rw [List.getElem?_eq_none (le_refl _)] at this; cases this
        obtain ⟨n, n1, n2, n3⟩ := en
        exact ⟨i, n, by omega, n2, i3, n3⟩
      obtain ⟨i, n, q⟩ := ex
      exact sc.bestZero z i n q
    · rw [if_neg z] at h; cases h
  · by_cases z : r.length = 0
    · rw [if_pos z]
    · have := (sc.bestPos z).1.2.1 r.start (le_refl _) (by have := (sc.bestPos z).1.1; omega)
      exact absurd this (h _)
  · by_cases z : r.length = 0
    · exact absurd run (sc.bestZero z _ _)
    · obtain ⟨rr, rm⟩ := sc.bestPos z
      have a := rm _ _ run
      have b := bestOf _ _ rr
      have l : r.length = length := by omega
      have s : r.start = start := by
        have := a.2 l.symm; have := b.2 l; omega
      rw [if_neg z, l, s]

end Sys2Proof.Machine
end

