-- ==== Sys2Proof/Tests/Slice0.lean ====
section
/-!
SUPPORT. Tests: the smoke test of the well-formedness check, the worked examples of the spec on small values, and for
each statement of Certificates/ a witness, a concrete state and operands that meet its hypotheses, clause by clause at
boundary values.
-/

namespace Sys2Proof.Slice0

open Sys2Proof.Machine

set_option Elab.async false

/-! ### Well-formedness and words -/

theorem test_empty_profile_frame_refused : (Instr.profileFrame .n0 []).wellFormed = false := rfl

theorem test_empty_alignment_frame_refused : (Instr.alignmentFrame .n3 []).wellFormed = false := rfl

theorem test_one_word_frame_accepted : (Instr.profileFrame .n0 [0x7E81]).wellFormed = true := rfl

/-- The table gives no row bits, so no word is a command, and none is put in the queue. -/
theorem test_no_word_is_a_command :
    decodeTableWord 8 0 = none ∧ decodeTableWord 0 0 = none ∧ State.withFetchWord State.reset 8 1 = State.reset :=
  ⟨rfl, rfl, rfl⟩

/-! ### Worked examples of the spec -/

/-- The next state of an outcome. -/
def stateOf : Result → Option State
  | .next s => some s
  | .fault _ => none
  | .refused _ => none

/-- 09, section 9.2: the DESCRIBE frame of tag 5. -/
theorem test_describe_frame : frameOf { kind := 0x01, tag := 0x05, payload := [] } = [0xC6, 0, 0, 1, 5, 0x0E] := by
  decide +kernel

/-- The same frame, byte by byte into the inbox. -/
theorem test_describe_received :
    stateOf (runAll ([0xC6, 0, 0, 1, 5, 0x0E].map .goodByte) State.reset) =
      some { State.reset with
        link := { State.reset.link with inbox := [{ kind := 1, tag := 5, payload := [], marked := false }] } } := by
  decide +kernel

/-- 01, section 1.2: reversal and recovery. -/
theorem test_reversal_and_recovery :
    let e : Encoder := { refP := false, refQ := false, raw := 104, position := 104, deficit := 0 }
    let back := e.reverseCount.reverseCount.reverseCount
    let again := back.forwardCount.forwardCount.forwardCount
    back = { e with raw := 101, deficit := 3 } ∧ again = e
      ∧ again.forwardCount = { e with raw := 105, position := 105 } := by
  decide +kernel

/-- One forward step and one illegal transition of lane A's encoder (R1). -/
theorem test_encoder_steps :
    exec (.encoderStateChange .a true false) State.reset =
        .next (State.reset.updLane .a fun x =>
          { x with enc := { refP := true, refQ := false, raw := 1, position := 1, deficit := 0 } })
      ∧ exec (.encoderStateChange .a true true) State.reset =
          .next (State.reset.updLane .a fun x =>
            { x with enc := { x.enc with refP := true, refQ := true }, encoderFault := true }) := by
  exact ⟨rfl, rfl⟩

/-- A pass map of 32 taps from its passing taps. -/
def passing (taps : List Nat) : List Bool := (List.range 32).map taps.contains

/-- 03, section 3.4: tap selection, three cases. -/
theorem test_tap_selection :
    HeadPort.selectTap (passing [6, 7, 8, 9, 10, 11, 12, 13, 14, 15, 16, 17, 21, 22, 23, 24, 25, 26, 27, 28, 29, 30])
        = some 11
      ∧ HeadPort.selectTap (passing [2, 3, 4, 5, 20, 21, 22, 23]) = some 3
      ∧ HeadPort.selectTap (passing [0, 1, 2, 3, 28, 29, 30, 31]) = some 1 ∧ HeadPort.selectTap (passing []) = none :=
        by
  decide +kernel

/-- 03, section 3.7: out-of-order settling, from the trigger 5200 to the last frame. -/
theorem test_out_of_order_settling :
    let h0 : HeadPort := { HeadPort.powerOn with mode := .aligned, lastTrigger := some 5199 }
    let t (n : Word) (h : HeadPort) : HeadPort := (h.takeTrigger n 0).1
    let a (n : Word) (h : HeadPort) : HeadPort := (h.acceptFrame n []).1
    let h1 := t 5205 (t 5204 (t 5203 (t 5202 (a 5201 (t 5201 (t 5200 h0))))))
    let h2 := a 5200 h1
    let h3 := (h2.timeOut 5202).1
    let h4 := a 5203 (a 5204 h3)
    h1.front = some 5199 ∧ h1.missedRun = 1 ∧ h1.skipped = true ∧ h2.front = some 5201 ∧ h2.missedRun = 0
      ∧ h3.front = some 5202 ∧ h3.missed = true ∧ h4.front = some 5205 ∧ h4.outstanding = []
      ∧ ([5200, 5201, 5202, 5203, 5204, 5205] : List Word).map (Ring.read h4.ring)
          = [.good [], .good [], .missed, .good [], .good [], .missed] := by
  decide +kernel

/-- 04, section 4.6: the arithmetic of an attempt; and an attempt with too few valid samples. -/
theorem test_attempt_arithmetic :
    let st : HeadSettings :=
      { lane := some .a, laneOrder := 0, samples := 64, zeroCol := 0, stepCol := 16, stepHeight := 1000,
        nominalGain := 640, calInterval := 1000, initialZero := 1000, initialGain := 640 }
    let a : Attempt :=
      { start := 0, collected := 16, zeroSum := 222728, zeroCount := 220, stepSum := 310772, stepCount := 220 }
    CalRecord.compute st a = some (1012, 638) ∧ CalRecord.compute st { a with zeroCount := 176, stepCount := 176 }
      = none := by
  decide +kernel

/-- A ring that holds lines 0, 1, 2, … GOOD with these samples. -/
def ringOf (rows : List (List Nat)) : Ring :=
  rows.zipIdx.foldl (fun r p => Ring.put r p.2 { index := BitVec.ofNat 32 p.2, status := .good p.1 }) []

/-- 07: a good joint and a non-wetted one. -/
theorem test_good_joint :
    let j : Joint :=
      { jointId := 9, head := 0, cls := 0, margin := 1, col0 := 1, ncols := 4, row0 := 1, nrows := 2, gap := none }
    let c : ClassEntry :=
      { vmin := 1500, vmax := 3000, pmax := 600, wetHeight := 150, cmin := 800, validMin := 750, hclamp := 1000 }
    let i : EvalInputs := { joint := j, cls := c, zero := 1000, gain := 640, samples := 1024, firstLine := 0 }
    let ring := ringOf
      [[1040, 1040, 1040, 1040, 1040, 1040], [1040, 1100, 1120, 1160, 1200, 1040], [1044, 1180, 1140, 1104, 4095, 1044],
        [1044, 1044, 1044, 1044, 4095, 4095]]
    measureJoint i ring = { jointId := 9, outcome := .good, measures := .full 2037 396 857 104 7 }
      ∧ measureJoint { i with cls := { c with cmin := 900 } } ring
          = { jointId := 9, outcome := .nonWet, measures := .full 2037 396 857 104 7 } := by
  decide +kernel

/-- 07: a warped board and a bridge. -/
theorem test_bridged_joint :
    let gap : GapPart := { gcol0 := 6, gncols := 4, grow0 := 0, gnrows := 1, bridgeHeight := 320, bridgeCount := 2 }
    let j : Joint :=
      { jointId := 9, head := 0, cls := 0, margin := 2, col0 := 2, ncols := 2, row0 := 2, nrows := 2, gap := some gap }
    let c : ClassEntry :=
      { vmin := 400, vmax := 2000, pmax := 350, wetHeight := 50, cmin := 600, validMin := 750, hclamp := 300 }
    let i : EvalInputs := { joint := j, cls := c, zero := 1000, gain := 640, samples := 1024, firstLine := 0 }
    let ring := ringOf
      [[990, 990, 990, 990, 990, 990, 1150, 1120, 1040, 4095], [990, 990, 990, 990, 990, 990],
        [991, 991, 1150, 1100, 991, 991], [991, 991, 1010, 990, 991, 991], [4095, 4095, 4095, 4095, 4095, 4095],
        [4095, 4095, 4095, 4095, 4095, 4095]]
    measureJoint i ring = { jointId := 9, outcome := .bridged, measures := .full 623 300 500 (-24) 4 } := by
  decide +kernel

/-- 07: a pad at the edge of the profile. -/
theorem test_occluded_joint :
    let j : Joint :=
      { jointId := 9, head := 0, cls := 0, margin := 1, col0 := 4, ncols := 8, row0 := 1, nrows := 2, gap := none }
    let c : ClassEntry :=
      { vmin := 0, vmax := 100, pmax := 350, wetHeight := 50, cmin := 600, validMin := 750, hclamp := 300 }
    let i : EvalInputs := { joint := j, cls := c, zero := 1000, gain := 640, samples := 8, firstLine := 0 }
    let ring := ringOf (List.replicate 4 [1000, 1000, 1000, 1000, 1000, 1000, 1000, 1000])
    measureJoint i ring = { jointId := 9, outcome := .occluded, measures := .validOnly 8 } := by
  decide +kernel

/-- The recipe of 05: a header for 4 joints, and its joints as first sent. -/
def mendHeader : Header :=
  { jointCount := 4, classCount := 2, boardLines := 1500, lineStep := 4, lengthTol := 100, headsUsed := 2 }

def mendClass : ClassEntry :=
  { vmin := 1500, vmax := 3000, pmax := 600, wetHeight := 150, cmin := 800, validMin := 750, hclamp := 1000 }

def mendJoint (id head cls margin col0 ncols row0 nrows : Nat) (gap : Option GapPart) : Joint :=
  { jointId := id, head := head, cls := cls, margin := margin, col0 := col0, ncols := ncols, row0 := row0,
    nrows := nrows, gap := gap }

def mendGap : GapPart :=
  { gcol0 := 340, gncols := 10, grow0 := 18, gnrows := 40, bridgeHeight := 320, bridgeCount := 2 }

def mendSlot (js : List Joint) : RecipeSlot :=
  { RecipeSlot.empty with
    state := .closing, header := some mendHeader, classes := some [mendClass, mendClass], joints := js,
    closeTag := some 7 }

/-- 05, section 5.6: loading, failing and mending. -/
theorem test_close_checks :
    let j0 := mendJoint 101 0 0 4 100 20 10 12 none
    let j1 := mendJoint 102 1 1 8 300 32 20 16 (some mendGap)
    let j2 := mendJoint 103 0 0 2 1020 8 60 8 none
    let j3 := mendJoint 101 1 1 3 700 16 70 10 none
    let good2 := mendJoint 103 0 0 2 1010 8 60 8 none
    let good3 := mendJoint 104 1 1 3 700 16 70 10 none
    closeCheck (mendSlot [j0, j1, j2]) = some { code := .incomplete, table := .jointTable, index := 3 }
      ∧ closeCheck (mendSlot [j0, j1, j2, j3]) = some { code := .geometry, table := .jointTable, index := 2 }
      ∧ closeCheck (mendSlot [j0, j1, good2, j3]) = some { code := .duplicate, table := .jointTable, index := 3 }
      ∧ closeCheck (mendSlot [j0, j1, good2, good3]) = none
      ∧ [j0, j1, good2, good3].map Joint.neededRows = [⟨6, 25⟩, ⟨12, 57⟩, ⟨58, 69⟩, ⟨67, 82⟩] := by
  decide +kernel

/-- 06, section 6.7: a deadline cut of 17 outstanding joints. -/
theorem test_deadline_cut :
    let r : BoardRecord :=
      { ident := 0, binding := some { tag := 1, slot := .n0, boardLines := 10 }, pLead := 0, pTrail := some 40,
        firstLine := some 1, state := .scanning, jointsComplete := false, snapshot := some [], divertDecision := none,
        inWindow := false, work := { cursor := 90, queued := 5, inFlight := 2 },
        verdictPart := { VerdictFields.start with counts := { Counts.zero with good := 83 } } }
    let d := r.decideBy .deadline .report 100
    d.verdictPart.counts = { Counts.zero with good := 83, late := 17 } ∧ d.verdictPart.verdict = some .review
      ∧ d.work = { cursor := 100, queued := 0, inFlight := 0 } ∧ d.divertDecision = some true := by
  decide +kernel

/-- A verdict record that names a tag. -/
def verdictOfTag (tag : Word) : VerdictRecord :=
  { tag := some tag, lane := .b, slot := some .n0, pLead := 0, measuredLength := some 1, verdict := .pass,
    divert := false, flags := BoardFlags.clear, counts := Counts.zero, defects := [], overflow := 0, droppedBefore :=
      0 }

/-- 08, section 8.5: overflow of the verdict queue. -/
theorem test_verdict_overflow :
    let q : VerdictUnit :=
      { queue := (List.range 32).map fun k => verdictOfTag (BitVec.ofNat 32 k), parked := [], dropped := 0 }
    let q' := ((q.enqueue (verdictOfTag 101)).enqueue (verdictOfTag 102)).enqueue (verdictOfTag 103)
    q'.dropped = 3 ∧ q'.queue.length = 32 ∧ q'.queue.head? = some (verdictOfTag 3)
      ∧ q'.queue.getLast? = some (verdictOfTag 103) := by
  decide +kernel

/-! ### Small states -/

def laneSet : LaneSettings :=
  { lineStep := 4, dScan := 2000, dGate := 40000, gateLead := 2000, gateTail := 200, minBoard := 400,
    stalePolicy := .report, idleCalGap := 200 }

def headSet : HeadSettings :=
  { lane := some .a, laneOrder := 0, samples := 64, zeroCol := 0, stepCol := 16, stepHeight := 1000, nominalGain := 640,
    calInterval := 1000, initialZero := 1000, initialGain := 640 }

def oneHeader : Header :=
  { jointCount := 1, classCount := 1, boardLines := 1500, lineStep := 4, lengthTol := 100, headsUsed := 1 }

def oneJoint : Joint := mendJoint 101 0 0 4 20 20 10 12 none

/-- The recipe of slot 1: READY, one joint, named by the board and by an expect entry. -/
def readySlot : RecipeSlot :=
  { state := .ready, refs := 2, header := some oneHeader, classes := some [mendClass], joints := [oneJoint],
    needed := [⟨6, 25⟩], lastFailure := none, closeTag := none }

/-- A board just inside the lane: ENTERING, tag 77, slot 1. -/
def board : BoardRecord :=
  { ident := 0, binding := some { tag := 77, slot := .n1, boardLines := 1500 }, pLead := 99000, pTrail := none,
    firstLine := none, state := .entering, jointsComplete := false, snapshot := none, divertDecision := none,
    inWindow := false, work := { cursor := 0, queued := 0, inFlight := 0 }, verdictPart := VerdictFields.start }

/-- The head STATUS of a head without settings, and of one with a front (R65, R188). -/
theorem test_head_status_bytes :
    let c : CalRecord := { CalRecord.powerOn with zero := some 1000, gain := some 640, balance := -2, overdue := true }
    let h : HeadPort :=
      { HeadPort.powerOn with
        settings := some headSet, mode := .aligned, tap := 9, lastTrigger := some 0x01020304, check := true }
    headStatusBytes HeadPort.powerOn CalRecord.powerOn = [0, 2, 0, 0, 0, 0, 0, 0, 0, 0, 0, 0, 0xFF, 0xFF, 0xFF, 0xFF, 0]
      ∧ headStatusBytes h c = [1, 0, 0, 2, 9, 1, 4, 3, 2, 1, 0, 0x42, 0xE8, 0x03, 0x80, 0x02, 0xFE] := by
  decide +kernel

/-- A recipe slot that a close has failed, and an empty one (R101, R188). -/
theorem test_recipe_query_bytes :
    let n : RecipeSlot :=
      { RecipeSlot.empty with
        state := .loading, header := some oneHeader,
        lastFailure := some { code := .geometry, table := .jointTable, index := 258 } }
    recipeQueryBytes RecipeSlot.empty = List.replicate 20 0
      ∧ recipeQueryBytes n = [1, 0, 1, 1, 0, 1, 0xDC, 0x05, 4, 100, 0, 1, 0, 0, 0, 1, 10, 1, 2, 1] := by
  decide +kernel

/-- A verdict record with one defect (R152, R188). -/
theorem test_verdict_record_bytes :
    let d : OutcomeRecord := { jointId := 513, outcome := .lifted, measures := .full 70000 300 999 (-2) 40 }
    let v : VerdictRecord :=
      { verdictOfTag 77 with
        lane := .b, slot := some .n2, verdict := .fail, divert := true, counts := { Counts.zero with lifted := 1 }
        flags := { BoardFlags.clear with linesLost := true }, defects := [d], droppedBefore := 3 }
    (verdictBytes v).length = 60 ∧ (verdictBytes v).take 6 = [77, 0, 0, 0, 1, 2]
      ∧ ((verdictBytes v).drop 15).take 13 = [1, 1, 2, 0, 0, 0, 0, 0, 0, 0, 0, 1, 0]
      ∧ (verdictBytes v).drop 40
        = [0, 0, 3, 0, 1, 1, 2, 4, 2, 0x70, 0x11, 0x01, 0x2C, 0x01, 0xE7, 0x03, 0xFE, 0xFF, 40, 0] := by
  decide +kernel

/-- The board after a PASS. -/
def passed : BoardRecord :=
  { board with
    state := .decided, pTrail := some 99500, divertDecision := some false,
    verdictPart := { VerdictFields.start with verdict := some .pass } }

/-- The board being scanned, with one joint in flight. -/
def scanning : BoardRecord :=
  { board with
    state := .scanning, firstLine := some 100, snapshot := some [{ zero := 1000, gain := 640, stale := false }],
    work := { cursor := 1, queued := 0, inFlight := 1 } }

def anItem : WorkItem := { lane := .a, record := 0, joint := 0, head := .n0, firstNeeded := 106, lastNeeded := 125 }

def anEvaluation : Evaluation :=
  { item := anItem, spoiled := false, discard := false,
    inputs := some { joint := oneJoint, cls := mendClass, zero := 1000, gain := 640, samples := 64, firstLine := 100 } }

/-- Lane A RUNNING at position 100,000 with one board, one expect entry and head 0; lane B DISABLED. -/
def running : State :=
  { State.reset with
    lanes :=
      ⟨{ LaneState.powerOn false false false with
          enc := { refP := false, refQ := false, raw := 100000, position := 100000, deficit := 0 }
          settings := some laneSet, mode := .running, nextTrigger := some 100004, divert := false
          expect := [{ tag := 78, slot := .n1 }], transit := [board], nextRecord := 1 },
        LaneState.powerOn false false false⟩
    heads := ⟨{ HeadPort.powerOn with settings := some headSet, mode := .aligned }, HeadPort.powerOn, HeadPort.powerOn,
      HeadPort.powerOn⟩
    cal := ⟨{ CalRecord.powerOn with zero := some 1000, gain := some 640 }, CalRecord.powerOn, CalRecord.powerOn,
      CalRecord.powerOn⟩
    slots := ⟨RecipeSlot.empty, readySlot, RecipeSlot.empty, RecipeSlot.empty⟩ }

/-- The same part with lane A changed. -/
def laneA (f : LaneState → LaneState) : State := running.updLane .a f

/-- Lane A with other records in its transit queue. -/
def boards (rs : List BoardRecord) : State := laneA fun x => { x with transit := rs }

/-- The same part with lane A DISABLED. -/
def stopped : State :=
  laneA fun x => { x with mode := .disabled, nextTrigger := none, expect := [], transit := [], divert := true }

/-- The same part with head 0 changed. -/
def head0 (f : HeadPort → HeadPort) : State := running.updHead .n0 f

/-- The same part with slot 1 changed. -/
def slot1 (f : RecipeSlot → RecipeSlot) : State := running.updSlot .n1 f

/-- The same part with the Link Port changed. -/
def linked (f : LinkPort → LinkPort) : State := running.updLink f

/-- The same part with the Verdict Unit changed. -/
def judging (v : VerdictUnit) : State := running.setVerdicts v

/-- A command waits. -/
def waiting : State := { running with pending := [.holdInChange true] }

def aReply : Reply := { kind := 0x80, tag := 1, payload := [0x03] }

def asked (kind : Byte) (p : List Byte) : Request := { kind := kind, tag := 0x2A, payload := p, marked := false }

/-- A request alone in the inbox. -/
def asks (kind : Byte) (p : List Byte) (s : State) : State := s.updLink fun k => { k with inbox := [asked kind p] }

/-- Where no event of a watched position waits, a row starts from the state as it stands (R4). -/
theorem settled {s : State} (h : reachedEvents s = []) : takeReached s = s := by
  unfold takeReached
  rw [h]
  split <;> rfl

/-- A request alone in the inbox is one that its row takes, from the state as it stands. -/
def Asks (kind : Byte) (p : List Byte) (s : State) : Prop :=
  CanTake kind (asked kind p) [] (takeReached (asks kind p s)) ∧ takeReached (asks kind p s) = asks kind p s

/-- So it is where it has the right length, a place is free and no event of a watched position waits. -/
theorem asks_canTake {kind : Byte} {p : List Byte} {s : State}
    (h : s.resetAsserted = false ∧ lengthOk kind p = true ∧ s.link.outbox.length + reservedPlaces s < 16
      ∧ reachedEvents s = []) : Asks kind p s := by
  have here : takeReached (asks kind p s) = asks kind p s := settled h.2.2.2
  refine ⟨?_, here⟩
  rw [here]
  exact ⟨h.1, rfl, rfl, rfl, h.2.1, h.2.2.1⟩

/-- One record makes a queue released in order. -/
theorem one_releaseSound {x : LaneState} {r : BoardRecord} (h : x.transit = [r])
    (ok : r.ident < x.nextRecord ∧ (r.verdictPart.released = true → r.state = .decided)) : x.ReleaseSound := by
  unfold LaneState.ReleaseSound
  rw [h]
  exact ⟨List.pairwise_singleton _ _, by simpa using ok⟩

/-- Where head 0 alone has settings, at lane order 0 and ALIGNED, the heads of the lanes are sound. -/
theorem head0_sound {s : State} (h0 : (s.head .n0).settings = some headSet) (a : (s.head .n0).mode = .aligned)
    (h1 : (s.head .n1).settings = none) (h2 : (s.head .n2).settings = none) (h3 : (s.head .n3).settings = none) :
    HeadLanesSound s := by
  have no : ∀ h, h ≠ .n0 → (s.head h).settings = none := by
    intro h n
    cases h
    · exact absurd rfl n
    · exact h1
    · exact h2
    · exact h3
  have only : ∀ h st, (s.head h).settings = some st → h = .n0 := by
    intro h st e
    by_contra n
    rw [no h n] at e
    cases e
  refine ⟨fun h st e => ?_, fun g h st su n e f => ?_, fun h act => ?_⟩
  · cases only h st e
    rw [h0] at e
    cases e
    decide
  · exact absurd ((only g st e).trans (only h su f).symm) n
  · cases h
    · exact a
    all_goals
      unfold headActive headLane at act
      simp only [h1, h2, h3] at act
      cases act

/-! ### Witnesses: the part as a whole -/

theorem witness_StepTakesTheFront : waiting.pending = [.holdInChange true] ∧ running.pending = [] := ⟨rfl, rfl⟩

theorem witness_ResetLineAndHoldIn :
    ({ running with resetAsserted := true } : State).resetAsserted = true
      ∧ (∀ pins, Instr.describe ≠ .powerOn pins) ∧ Instr.describe ≠ .resetNAsserted
      ∧ ∀ asserted, Instr.describe ≠ .holdInChange asserted :=
  ⟨rfl, nofun, nofun, nofun⟩

theorem waiting_steps : step waiting = .next (linked fun k => { k with holdIn := true }) := rfl

theorem witness_StepKeepsEncoders : EncodersSound waiting := by
  intro l
  cases l <;> exact ⟨by decide +kernel, by decide +kernel⟩

theorem witness_StepKeepsLaneModes : LaneModesSound waiting := by
  intro l
  cases l
  · exact ⟨nofun, fun _ => ⟨rfl, rfl⟩⟩
  · exact ⟨fun _ => ⟨rfl, rfl, rfl, rfl⟩, fun h => absurd rfl h⟩

/-- A command waits while a board covers the eye, which may still be a glitch, and the place of its entry is kept. -/
def covered : State :=
  { (laneA fun x =>
      { x with
        eyeBlocked := true, transit := [{ board with pLead := 99601 }]
        expect := List.replicate 3 { tag := 78, slot := .n1 } }) with
    pending := [.holdInChange true] }

/-- A lane with one record, which covers the eye, and room in its expect queue keeps its places. -/
theorem one_glitchRoom {x : LaneState} {st : LaneSettings} {r : BoardRecord} (set : x.settings = some st)
    (one : x.transit = [r]) (eye : x.eyeBlocked = true) (room : x.expect.length ≤ 3)
    (ok : st.inRanges = true ∧ (x.enc.position - r.pLead).toNat ≤ st.dGate - st.gateLead) : x.GlitchRoom := by
  unfold LaneState.GlitchRoom
  rw [one, set]
  refine ⟨fun su e => ?_, fun q m => absurd m (by simp), fun _ _ _ => eye, fun su e q m _ => ?_, fun _ _ _ _ _ _ _ _ => room⟩
  · cases e
    exact ok.1
  · cases e
    rw [List.mem_singleton.1 m]
    exact ok.2

theorem witness_StepKeepsLaneQueues :
    LaneModesSound covered ∧ ReleaseOrderSound covered ∧ LaneQueuesSound covered := by
  refine ⟨fun l => ?_, fun l => ?_, fun l => ?_⟩
  all_goals cases l
  · exact ⟨nofun, fun _ => ⟨rfl, rfl⟩⟩
  · exact ⟨fun _ => ⟨rfl, rfl, rfl, rfl⟩, fun h => absurd rfl h⟩
  · exact one_releaseSound rfl (by decide +kernel)
  · change (LaneState.powerOn false false false).ReleaseSound
    exact ⟨List.Pairwise.nil, fun r h => by cases h⟩
  · exact ⟨by unfold LaneState.QueuesSound; decide +kernel,
      one_glitchRoom (st := laneSet) rfl rfl rfl (by decide +kernel) (by decide +kernel)⟩
  · exact ⟨by unfold LaneState.QueuesSound; decide +kernel, empty_glitchRoom rfl nofun⟩

theorem witness_StepKeepsDivertOutputs : DivertSound waiting := by
  intro l
  cases l <;> decide +kernel

theorem witness_StepKeepsReleaseOrder : ReleaseOrderSound waiting := by
  intro l
  cases l
  · exact one_releaseSound rfl (by decide +kernel)
  · change (LaneState.powerOn false false false).ReleaseSound
    exact ⟨List.Pairwise.nil, fun r h => by cases h⟩

theorem witness_StepKeepsReferences : ReferencesSound waiting := by
  intro n
  cases n <;> decide +kernel

/-- What a unit holds of a record, it holds as its item. -/
theorem held_names {s : State} {l : Lane} {n : Nat} (h : heldOf s l n ≠ 0) :
    ∃ u e, s.unitOf u = some e ∧ e.item.lane = l ∧ e.item.record = n := by
  by_contra none'
  refine h (List.countP_eq_zero.2 fun u _ k => none' ?_)
  unfold holdsItemOf at k
  cases e : s.unitOf u with
  | none =>
    rw [e] at k
    cases k
  | some v =>
    rw [e] at k
    simp [WorkItem.belongsTo] at k
    exact ⟨u, v, e, k.2⟩

/-- The board is scanned, its joint in flight, while a command waits. -/
def evaluating : State :=
  { (boards [scanning]).setUnit .n2 (some anEvaluation) with pending := [.holdInChange true] }

theorem evaluating_unit {u : UnitId} {e : Evaluation} (h : evaluating.unitOf u = some e) : e = anEvaluation := by
  have units : evaluating.units = ⟨none, none, some anEvaluation, none⟩ := rfl
  unfold State.unitOf at h
  rw [units] at h
  cases u <;> cases h
  rfl

theorem witness_StepKeepsLaneQueues_joints :
    ReleaseOrderSound evaluating ∧ ReferencesSound evaluating ∧ JointsSound evaluating := by
  refine ⟨fun l => ?_, fun n => by cases n <;> decide +kernel, fun l => ?_⟩
  · cases l
    · exact one_releaseSound rfl (by decide +kernel)
    · change (LaneState.powerOn false false false).ReleaseSound
      exact ⟨List.Pairwise.nil, fun r h => by cases h⟩
  · unfold LaneState.JointsSound
    cases l
    · have one : (evaluating.lane .a).transit = [scanning] ∧ (evaluating.lane .a).ready = [] := ⟨rfl, rfl⟩
      rw [one.1, one.2]
      refine ⟨fun r m => ?_, fun i m => absurd m List.not_mem_nil, fun n h => ⟨scanning, List.mem_singleton.2 rfl, ?_⟩⟩
      · rw [List.mem_singleton.1 m]
        unfold BoardRecord.Accounted
        decide +kernel
      · obtain ⟨u, e, here, _, same⟩ := held_names h
        rw [evaluating_unit here] at same
        exact same
    · have none' : (evaluating.lane .b).transit = [] ∧ (evaluating.lane .b).ready = [] := ⟨rfl, rfl⟩
      rw [none'.1, none'.2]
      refine ⟨fun r m => absurd m List.not_mem_nil, fun i m => absurd m List.not_mem_nil, fun n h => ?_⟩
      obtain ⟨u, e, here, other, _⟩ := held_names h
      rw [evaluating_unit here] at other
      cases other

theorem witness_StepKeepsHeads : HeadsSound waiting := by
  intro h
  cases h <;> exact ⟨rfl, by decide +kernel, by decide +kernel, by decide +kernel, by decide +kernel, trivial⟩

theorem witness_StepKeepsHeadLanes : HeadLanesSound waiting := head0_sound rfl rfl rfl rfl rfl

theorem witness_StepKeepsCalibration : CalibrationSound waiting := by
  intro h
  cases h <;> exact ⟨by decide +kernel, by decide +kernel, by decide +kernel, by decide +kernel, by decide +kernel,
    by decide +kernel⟩

theorem witness_StepKeepsVerdictUnit : VerdictUnitSound waiting := by
  unfold VerdictUnitSound
  decide +kernel

theorem witness_StepKeepsInbox : InboxSound waiting := by
  unfold InboxSound
  decide +kernel

theorem witness_StepKeepsPlaces : PlacesSound waiting := by
  refine ⟨by decide +kernel, fun n => ?_⟩
  cases n <;> decide +kernel

/-! ### Witnesses: encodings -/

theorem witness_LaneSettingsRoundTrip :
    let low : LaneSettings :=
      { lineStep := 1, dScan := 16, dGate := 18, gateLead := 1, gateTail := 0, minBoard := 1, stalePolicy := .report,
        idleCalGap := 64 }
    let high : LaneSettings :=
      { lineStep := 64, dScan := 1048575, dGate := 16777215, gateLead := 65535, gateTail := 4095, minBoard := 1048575,
        stalePolicy := .demote, idleCalGap := 4096 }
    low.inRanges = true ∧ high.inRanges = true ∧ high.gateTail ≤ 4095 ∧ 64 ≤ low.idleCalGap ∧ high.idleCalGap ≤ 4096 :=
      by
  decide +kernel

theorem witness_HeadSettingsRoundTrip :
    let low : HeadSettings :=
      { lane := none, laneOrder := 0, samples := 64, zeroCol := 0, stepCol := 0, stepHeight := 100, nominalGain := 1,
        calInterval := 1000, initialZero := 0, initialGain := 1 }
    let high : HeadSettings :=
      { lane := some .b, laneOrder := 1, samples := 1024, zeroCol := 1008, stepCol := 1008, stepHeight := 4000,
        nominalGain := 1023, calInterval := 1000000, initialZero := 4094, initialGain := 1023 }
    low.inRanges = true ∧ high.inRanges = true := by
  decide +kernel

theorem witness_RecipeRecordsRoundTrip :
    let header : Header :=
      { jointCount := 8192, classCount := 16, boardLines := 65535, lineStep := 64, lengthTol := 65535, headsUsed := 2 }
    let gap : GapPart :=
      { gcol0 := 1023, gncols := 64, grow0 := 65535, gnrows := 64, bridgeHeight := 4000, bridgeCount := 4096 }
    let joint : Joint := mendJoint 65535 1 15 8 1023 64 65535 64 (some gap)
    let cls : ClassEntry :=
      { vmin := 16384000, vmax := 16384000, pmax := 4000, wetHeight := 4000, cmin := 1000, validMin := 1000,
        hclamp := 4000 }
    header.inRanges = true ∧ oneHeader.inRanges = true ∧ (∀ c ∈ [cls, mendClass], c.inRanges = true)
      ∧ (∀ j ∈ [joint, oneJoint], j.inRanges = true) ∧ [joint, oneJoint].length ≤ 2 := by
  decide +kernel

theorem witness_FrameReachesTheInbox :
    let s := linked fun k => { k with inbox := List.replicate 7 (asked 0x01 []) }
    s.resetAsserted = false ∧ s.link.receiver = .hunt ∧ s.link.inbox.length < 8
      ∧ (List.replicate 1020 (0 : Byte)).length ≤ 1020 := by
  decide +kernel

/-! ### Witnesses: the Link Port and the request handler -/

theorem witness_ReceiverTakesBytes :
    let at' (r : Receiver) : State := linked fun k => { k with receiver := r }
    running.resetAsserted = false ∧ running.link.receiver = .hunt
      ∧ ((at' (.header [1, 2])).link.receiver = .header [1, 2] ∧ [(1 : Byte), 2].length < 3)
      ∧ (0xFC : Byte).toNat + 256 * (0x03 : Byte).toNat ≤ 1020 ∧ 1020 < (0xFD : Byte).toNat + 256 * (0x03 : Byte).toNat
      ∧ ([] : List Byte).length < (1 : Byte).toNat + 256 * (0 : Byte).toNat
      ∧ (1 : Byte).toNat + 256 * (0 : Byte).toNat ≤ [(9 : Byte)].length
      ∧ crc8 ([0, 0, 1, 5] ++ []) ≠ 0 ∧ crc8 ([0, 0, 1, 5] ++ []) = 0x0E
      ∧ 8 ≤ (List.replicate 8 (asked 0x01 [])).length ∧ (List.replicate 7 (asked 0x01 [])).length < 8
      ∧ (at' (.body 0 0 1 5 [])).link.receiver ≠ .hunt := by
  decide +kernel

theorem witness_StopBitErrorAbandonsTheFrame : running.resetAsserted = false := rfl

theorem witness_TransmitterSendsReplies :
    let full := linked fun k => { k with outbox := [aReply] }
    let held := linked fun k => { k with outbox := [aReply], holdIn := true }
    let busy := linked fun k => { k with outbox := [aReply], transmitter := .sending (frameOf aReply) }
    (∀ s ∈ [full, held, busy, running], reachedEvents s = [] ∧ s.resetAsserted = false)
      ∧ (full.link.transmitter = .idle ∧ full.link.outbox = [aReply] ∧ full.link.holdIn = false)
      ∧ (running.link.transmitter = .idle ∧ running.link.outbox = [])
      ∧ (held.link.transmitter = .idle ∧ held.link.holdIn = true)
      ∧ busy.link.transmitter = .sending (frameOf aReply) := by
  decide +kernel

theorem witness_HandlerRefusesBadRequests :
    let s (r : Request) : State := linked fun k => { k with inbox := [r], outbox := List.replicate 15 aReply }
    let marked (kind : Byte) (p : List Byte) : Request := { asked kind p with marked := true }
    reachedEvents (s (asked 0 [])) = [] ∧ (s (asked 0 [])).resetAsserted = false
      ∧ ((s (asked 0 [])).link.inbox = [asked 0 []] ∧ (s (asked 0 [])).link.outbox.length + reservedPlaces (s (asked 0 []))
      < 16)
      ∧ ¬(1 ≤ (0 : Byte).toNat ∧ (0 : Byte).toNat ≤ 18) ∧ ¬(1 ≤ (19 : Byte).toNat ∧ (19 : Byte).toNat ≤ 18)
      ∧ (1 ≤ (1 : Byte).toNat ∧ (18 : Byte).toNat ≤ 18) ∧ (marked 0x01 []).marked = true
      ∧ lengthOk 0x01 [0] = false ∧ lengthOk 0x01 [] = true ∧ (asked 0x12 [0]).marked = false
      ∧ requestKind .collect = some 0x12 ∧ lengthOk 0x12 [0] = false
      ∧ lengthOk 0x0D (List.replicate 17 0) = true ∧ lengthOk 0x0D (List.replicate 257 0) = true
      ∧ lengthOk 0x0D (List.replicate 273 0) = false ∧ lengthOk 0x0E [0, 0, 0] = true ∧ lengthOk 0x0E [0, 0] = false :=
        by
  decide +kernel

theorem witness_HandlerWaitsForAPlace :
    running.link.inbox = [] ∧ reachedEvents running = []
      ∧ (let s := linked fun k => { k with inbox := [asked 0x01 []], outbox := List.replicate 16 aReply }
        reachedEvents s = [] ∧ 16 ≤ s.link.outbox.length + reservedPlaces s)
      ∧ (requestKind .describe).isSome = true := by
  decide +kernel

theorem witness_DescribeAnswersTheCapabilities : Asks 0x01 [] running :=
  asks_canTake (by decide +kernel)

theorem witness_StatusAnswersThenClears :
    (∀ p ∈
      [[(0 : Byte), 0, 7], [0, 0, 8], [1, 0, 6], [1, 1, 8], [1, 1, 1], [1, 2, 0], [2, 3, 31], [2, 0, 32], [2, 4, 0],
        [3, 0, 0]], Asks 0x02 p running)
      ∧ laneOf? (fieldAt [(1 : Byte), 0, 6] 1 1) = some .a ∧ laneOf? (fieldAt [(1 : Byte), 1, 8] 1 1) = some .b
      ∧ Four.ofNat? (fieldAt [(2 : Byte), 3, 31] 1 1) = some .n3 ∧ fieldAt [(1 : Byte), 2, 0] 1 1 = 2
      ∧ fieldAt [(2 : Byte), 4, 0] 1 1 = 4 ∧ fieldAt [(3 : Byte), 0, 0] 0 1 = 3
      ∧ (byteOf (fieldAt [(0 : Byte), 0, 8] 2 1)).toNat = 8 ∧ (byteOf (fieldAt [(2 : Byte), 3, 31] 2 1)).toNat < 32 :=
        by
  refine ⟨fun p hp => asks_canTake ⟨rfl, ?_, by decide +kernel⟩, by decide +kernel⟩
  revert p
  decide +kernel

theorem witness_RestartActsOnEveryBlock :
    (Asks 0x03 [] stopped ∧ (stopped.lane .a).mode = .disabled
      ∧ (stopped.lane .b).mode = .disabled)
      ∧ Asks 0x03 [] running
      ∧ ¬((running.lane .a).mode = .disabled ∧ (running.lane .b).mode = .disabled) :=
  ⟨⟨asks_canTake (by decide +kernel), rfl, rfl⟩, asks_canTake (by decide +kernel), by decide +kernel⟩

/-! ### Witnesses: lane requests -/

theorem witness_LaneSetupChecksAndStores :
    let low := laneSettingsBytes .a
      { lineStep := 1, dScan := 16, dGate := 18, gateLead := 1, gateTail := 5000, minBoard := 16, stalePolicy :=
        .report,
        idleCalGap := 63 }
    let high := laneSettingsBytes .a
      { lineStep := 64, dScan := 1048575, dGate := 16777215, gateLead := 65535, gateTail := 4095, minBoard := 1,
        stalePolicy := .demote, idleCalGap := 4097 }
    let bad := laneSettingsBytes .a
      { lineStep := 64, dScan := 1023, dGate := 40000, gateLead := 1, gateTail := 0, minBoard := 1,
        stalePolicy := .report, idleCalGap := 64 }
    let inRange (p : List Byte) : Prop :=
      (1 ≤ fieldAt p 1 1 ∧ fieldAt p 1 1 ≤ 64) ∧ (16 * fieldAt p 1 1 ≤ fieldAt p 2 4 ∧ fieldAt p 2 4 ≤ 1048575)
        ∧ (1 ≤ fieldAt p 10 2 ∧ fieldAt p 10 2 ≤ 65535)
        ∧ (fieldAt p 6 4 ≤ 16777215 ∧ fieldAt p 2 4 + fieldAt p 10 2 < fieldAt p 6 4)
        ∧ (fieldAt p 14 4 ≠ 0 ∧ fieldAt p 14 4 ≤ fieldAt p 2 4) ∧ (fieldAt p 18 1 = 0 ∨ fieldAt p 18 1 = 1)
    (∀ p ∈ [low, high, bad], Asks 0x04 p stopped)
      ∧ Asks 0x04 low running
      ∧ (stopped.lane .a).mode = .disabled ∧ (running.lane .a).mode ≠ .disabled ∧ laneOf? (fieldAt low 0 1) = some .a
      ∧ inRange low ∧ inRange high ∧ ¬inRange bad ∧ 2 ≤ fieldAt [(2 : Byte)] 0 1 := by
  refine ⟨fun p hp => asks_canTake ⟨rfl, ?_, by decide +kernel⟩, asks_canTake (by decide +kernel), by decide +kernel⟩
  revert p
  decide +kernel

theorem witness_LaneStartRunsTheLane :
    let unready : State := (stopped.updHead .n0 fun h => { h with settings := none })
    let unset : State := stopped.updLane .a fun x => { x with settings := none }
    (∀ s ∈ [running, stopped, unset, unready], Asks 0x05 [0] s)
      ∧ HeadLanesSound (asks 0x05 [0] running) ∧ HeadLanesSound (asks 0x05 [0] stopped)
      ∧ HeadLanesSound (asks 0x05 [0] unready) ∧ laneOf? (fieldAt [(0 : Byte)] 0 1) = some .a
      ∧ (running.lane .a).mode ≠ .disabled ∧ (unset.lane .a).settings = none
      ∧ (¬∃ h st, (unready.head h).settings = some st ∧ st.lane = some .a ∧ st.laneOrder = 0)
      ∧ ((stopped.lane .a).mode = .disabled ∧ (stopped.lane .a).settings = some laneSet
        ∧ (∃ h st, (stopped.head h).settings = some st ∧ st.lane = some .a ∧ st.laneOrder = 0)
        ∧ ∀ h st, (stopped.head h).settings = some st → st.lane = some .a → (stopped.head h).mode = .aligned) := by
  refine ⟨fun s hs => asks_canTake ?_, head0_sound rfl rfl rfl rfl rfl, head0_sound rfl rfl rfl rfl rfl, ?_, rfl,
    by decide +kernel, rfl, ?_, rfl, rfl, ⟨.n0, headSet, rfl, rfl, rfl⟩, ?_⟩
  · revert s
    decide +kernel
  · refine ⟨fun h st e => ?_, fun g h st su _ e _ => ?_, fun h a => ?_⟩
    · cases h <;> cases e
    · cases g <;> cases e
    · cases h <;> cases a
  · rintro ⟨h, st, e, -⟩
    cases h <;> cases e
  · intro h st e _
    cases h
    · rfl
    all_goals cases e

theorem witness_LaneStopDrainsOrAbandons :
    let draining := laneA fun x => { x with mode := .stopping }
    let bare := boards []
    let gone : BoardRecord := { passed with verdictPart := { passed.verdictPart with released := true } }
    let scanned : BoardRecord := { scanning with ident := 1 }
    let later : BoardRecord := { passed with ident := 2 }
    let leaving := laneA fun x => { x with transit := [gone, scanned, later], nextRecord := 3 }
    let full : State :=
      { (laneA fun x => { x with ready := [anItem] }) with
        units := ⟨some anEvaluation, some anEvaluation, some anEvaluation, some anEvaluation⟩ }
    (∀ s ∈ [running, stopped, draining, bare], ∀ p ∈ [[(0 : Byte), 0], [0, 1], [0, 2], [2, 0]],
        Asks 0x06 p s)
      ∧ 2 ≤ fieldAt [(0 : Byte), 2] 1 1 ∧ 2 ≤ fieldAt [(2 : Byte), 0] 0 1 ∧ fieldAt [(0 : Byte), 0] 1 1 = 0
      ∧ fieldAt [(0 : Byte), 1] 1 1 = 1 ∧ (stopped.lane .a).mode = .disabled ∧ (draining.lane .a).mode = .stopping
      ∧ ((running.lane .a).mode = .running ∧ (running.lane .a).transit ≠ [])
      ∧ ((bare.lane .a).mode = .running ∧ (bare.lane .a).transit = [] ∧ grantLane bare = none)
      ∧ (Asks 0x06 [0, 1] leaving ∧ (leaving.lane .a).transit = [gone] ++ [scanned, later]
        ∧ (∀ b ∈ [gone], b.state = .decided ∧ b.verdictPart.released = true) ∧ scanned.state ≠ .decided
        ∧ later.state = .decided ∧ (leaving.lane .a).ReleaseSound)
      ∧ (grantLane leaving = none ∧ idleUnit full = none ∧ grantLane full = some .a) := by
  refine ⟨fun s hs p hp => asks_canTake ⟨?_, ?_, ?_⟩, by decide +kernel, by decide +kernel, rfl, rfl, rfl, rfl,
    by decide +kernel, by decide +kernel,
    ⟨asks_canTake (by decide +kernel), rfl, by decide +kernel, by decide +kernel, rfl, ?_⟩, by decide +kernel⟩
  · revert s; decide +kernel
  · revert p; decide +kernel
  · revert s; decide +kernel
  · unfold LaneState.ReleaseSound
    decide +kernel

/-- A board whose leading edge is so near that it may still be a glitch. -/
def near : BoardRecord := { board with pLead := 99601 }

theorem witness_ExpectQueuesAnEntry :
    let p := [(0 : Byte)] ++ le32 79 ++ [1]
    let entries (n : Nat) (rs : List BoardRecord) : State :=
      laneA fun x => { x with expect := List.replicate n { tag := 80, slot := .n1 }, transit := rs }
    let header (h : Header) : State := slot1 fun x => { x with header := some h }
    let long (lines : Nat) : Prop := 40000 - 2000 < 2000 + lines * 4
    (∀ s ∈ [running, stopped, entries 4 [], entries 3 [near]], Asks 0x07 p s)
      ∧ (laneOf? (fieldAt p 0 1) = some .a ∧ fieldAt p 1 4 = 79 ∧ Four.ofNat? (fieldAt p 5 1) = some .n1)
      ∧ (running.lane .a).mode = .running ∧ (running.slot .n1).state = .ready ∧ (running.slot .n0).state ≠ .ready
      ∧ (running.lane .a).settings = some laneSet ∧ (running.slot .n1).header = some oneHeader
      ∧ ({ oneHeader with lineStep := 5 } : Header).lineStep ≠ laneSet.lineStep
      ∧ (laneHeads running .a).length < ({ oneHeader with headsUsed := 2 } : Header).headsUsed
      ∧ ¬((laneHeads running .a).length < oneHeader.headsUsed) ∧ long 9001 ∧ ¬long 9000
      ∧ ((header { oneHeader with boardLines := 9001 }).slot .n1).state = .ready
      ∧ ((entries 4 []).lane .a).expect.length = 4 ∧ ((entries 3 [near]).lane .a).expect.length = 3
      ∧ (near.binding ≠ none ∧ near.state = .entering ∧ near.pTrail = none
        ∧ reached 100000 (near.pLead + BitVec.ofNat 32 400) = false)
      ∧ (∃ e ∈ (running.lane .a).expect, e.tag = 78) ∧ (∃ b ∈ (running.lane .a).transit, b.tag = some 77)
      ∧ (∀ e ∈ (running.lane .a).expect, e.tag ≠ 79) ∧ ∀ b ∈ (running.lane .a).transit, b.tag ≠ some 79 := by
  refine ⟨fun s hs => asks_canTake ?_, by decide +kernel⟩
  revert s
  decide +kernel

theorem witness_WithdrawRemovesOrDecides :
    let p (tag : Nat) : List Byte := [(0 : Byte)] ++ le32 tag
    let queued := laneA fun x => { x with ready := [anItem] }
    (∀ tag ∈ [0, 77, 78, 79], Asks 0x08 (p tag) running)
      ∧ Asks 0x08 (p 77) (boards [passed])
      ∧ (fieldAt (p 0) 1 4 = 0 ∧ fieldAt (p 77) 1 4 = 77 ∧ laneOf? (fieldAt (p 77) 0 1) = some .a)
      ∧ (running.lane .a).expect = [] ++ { tag := 78, slot := .n1 } :: []
      ∧ ((∀ e ∈ (running.lane .a).expect, e.tag ≠ 79) ∧ ∀ b ∈ (running.lane .a).transit, b.tag ≠ some 79)
      ∧ ((∀ e ∈ (running.lane .a).expect, e.tag ≠ 77) ∧ (running.lane .a).transit = [] ++ board :: []
        ∧ board.tag = some 77 ∧ board.state ≠ .decided)
      ∧ (running.lane .a).ReleaseSound ∧ passed.state = .decided
      ∧ (Asks 0x08 (p 77) queued ∧ ((queued.lane .a).ready.any fun i => decide (i.record = board.ident)) = true)
      ∧ ((running.lane .a).ready.any fun i => decide (i.record = board.ident)) = false := by
  refine
    ⟨fun tag ht => asks_canTake ⟨rfl, ?_, by decide +kernel⟩, asks_canTake (by decide +kernel), by decide +kernel, rfl,
    by decide +kernel, by decide +kernel, one_releaseSound rfl (by decide +kernel), rfl,
    ⟨asks_canTake (by decide +kernel), by decide +kernel⟩, by decide +kernel⟩
  revert tag
  decide +kernel

/-! ### Witnesses: head and recipe requests -/

def aSweep : Sweep :=
  { requestTag := 3, passMap := List.replicate 32 false, tap := 31, frames := 7, allMatch := true, tapSetAt := 0 }

theorem witness_HeadSetupChecksAndStores :
    let bytes (h : HeadId) (st : HeadSettings) : List Byte := headSettingsBytes h st
    let sweeping := stopped.updHead .n0 fun h => { h with mode := .aligning aSweep }
    let second : HeadSettings := { headSet with laneOrder := 1 }
    (∀ s ∈ [running, stopped, sweeping], ∀ p ∈ [bytes .n0 headSet, bytes .n1 second],
        Asks 0x09 p s)
      ∧ (sweeping.head .n0).mode = .aligning aSweep
      ∧ ((running.head .n0).settings = some headSet ∧ headSet.lane = some .a ∧ (running.lane .a).mode ≠ .disabled)
      ∧ (stopped.lane .a).mode = .disabled
      ∧ (64 ≤ headSet.samples ∧ ({ headSet with samples := 1024 } : HeadSettings).samples ≤ 1024 ∧ ¬64 ≤ 63)
      ∧ (headSet.zeroCol + 15 < headSet.samples ∧ 48 + 15 < headSet.samples ∧ ¬49 + 15 < headSet.samples)
      ∧ (∀ c, ¬((headSet.zeroCol ≤ c ∧ c ≤ headSet.zeroCol + 15) ∧ (headSet.stepCol ≤ c ∧ c ≤ headSet.stepCol + 15)))
      ∧ ((0 ≤ 15 ∧ 15 ≤ 0 + 15) ∧ (15 ≤ 15 ∧ 15 ≤ 15 + 15))
      ∧ (∀ g su, g ≠ .n1 → (stopped.head g).settings = some su → su.lane = second.lane →
        su.laneOrder ≠ second.laneOrder)
      ∧ ((stopped.head .n0).settings = some headSet ∧ headSet.lane = some .a ∧ headSet.laneOrder = 0) := by
  refine ⟨fun s hs p hp => asks_canTake ⟨?_, ?_, ?_⟩, rfl, by decide +kernel, rfl, by decide +kernel, by decide +kernel,
    fun c => by
      change ¬((0 ≤ c ∧ c ≤ 0 + 15) ∧ (16 ≤ c ∧ c ≤ 16 + 15))
      omega, by omega, fun g su _ e _ => ?_, rfl, rfl, rfl⟩
  · revert s; decide +kernel
  · revert p; decide +kernel
  · revert s; decide +kernel
  · cases g <;> cases e
    decide

theorem witness_HeadAlignStartsTheSweep :
    let sweeping := stopped.updHead .n0 fun h => { h with mode := .aligning aSweep }
    (∀ s ∈ [running, stopped, sweeping], ∀ p ∈ [[(4 : Byte)], [0]], Asks 0x0A p s)
      ∧ 4 ≤ fieldAt [(4 : Byte)] 0 1 ∧ Four.ofNat? (fieldAt [(0 : Byte)] 0 1) = some .n0
      ∧ (sweeping.head .n0).mode = .aligning aSweep
      ∧ ((running.head .n0).settings = some headSet ∧ headSet.lane = some .a ∧ (running.lane .a).mode ≠ .disabled)
      ∧ ((stopped.head .n0).mode = .aligned ∧ (stopped.lane .a).mode = .disabled) := by
  refine ⟨fun s hs p hp => asks_canTake ⟨?_, ?_, ?_⟩, by decide +kernel⟩
  · revert s; decide +kernel
  · revert p; decide +kernel
  · revert s; decide +kernel

theorem witness_CalRequestSetsRequested :
    let spare := head0 fun h => { h with settings := some { headSet with lane := none } }
    (∀ s ∈ [running, spare], ∀ p ∈ [[(4 : Byte)], [0], [1]], Asks 0x0B p s)
      ∧ 4 ≤ fieldAt [(4 : Byte)] 0 1 ∧ Four.ofNat? (fieldAt [(1 : Byte)] 0 1) = some .n1
      ∧ (running.head .n1).settings = none ∧ (spare.head .n0).settings = some { headSet with lane := none }
      ∧ (running.head .n0).settings = some headSet ∧ headSet.lane ≠ none := by
  refine ⟨fun s hs p hp => asks_canTake ⟨?_, ?_, ?_⟩, by decide +kernel⟩
  · revert s; decide +kernel
  · revert p; decide +kernel
  · revert s; decide +kernel

/-- A recipe being loaded into slot 1. -/
def loading (js : List Joint) : State :=
  slot1 fun _ => { RecipeSlot.empty with state := .loading, header := some mendHeader, joints := js }

/-- A recipe being checked in slot 1. -/
def closing (x : RecipeSlot) : State := slot1 fun _ => x

theorem witness_RecipeRequestsCheckTheSlot :
    let s := closing (mendSlot [])
    (∀ n ∈ [(1 : Byte), 4],
        Asks 0x0C (n :: List.replicate 9 0) s
        ∧ Asks 0x0D (n :: List.replicate 16 0) s
        ∧ Asks 0x0E [n, 0, 0] s
        ∧ Asks 0x0F [n] s ∧ Asks 0x10 [n] s
        ∧ Asks 0x11 [n] s)
      ∧ 4 ≤ fieldAt [(4 : Byte)] 0 1 ∧ Four.ofNat? (fieldAt [(1 : Byte)] 0 1) = some .n1
      ∧ (s.slot .n1).state = .closing := by
  refine ⟨fun n hn => ?_, by decide +kernel⟩
  have two : n = 1 ∨ n = 4 := by simpa using hn
  rcases two with rfl | rfl
  all_goals
    exact ⟨asks_canTake (by decide +kernel), asks_canTake (by decide +kernel), asks_canTake (by decide +kernel),
      asks_canTake (by decide +kernel), asks_canTake (by decide +kernel), asks_canTake (by decide +kernel)⟩

theorem witness_RecipeLoadsInOrder :
    let empty := slot1 fun _ => RecipeSlot.empty
    let opens := (1 : Byte) :: headerBytes mendHeader
    let opensBad := (1 : Byte) :: headerBytes { mendHeader with headsUsed := 3 }
    let two := (1 : Byte) :: [mendClass, mendClass].flatMap classBytes
    let one := (1 : Byte) :: classBytes mendClass
    let second := (1 : Byte) :: [mendClass, { mendClass with hclamp := 4001 }].flatMap classBytes
    let run (first : Nat) (js : List Joint) : List Byte := (1 : Byte) :: le16 first ++ js.flatMap jointBytes
    let bad : Joint := { oneJoint with margin := 9 }
    (∀ p ∈ [opens, opensBad], Asks 0x0C p empty)
      ∧ (∀ p ∈ [two, one, second], Asks 0x0D p (loading []))
      ∧ (∀ p ∈ [run 0 [oneJoint], run 1 [oneJoint], run 0 [], run 0 [oneJoint, bad], run 0 (List.replicate 5 oneJoint)],
          Asks 0x0E p (loading []))
      ∧ (empty.slot .n1).state = .empty ∧ ((loading []).slot .n1).state = .loading
      ∧ ((loading []).slot .n1).header = some mendHeader ∧ (running.slot .n1).state = .ready
      ∧ fieldAt opens 9 1 = 2 ∧ fieldAt opensBad 9 1 = 3
      ∧ (readClasses ((two.length - 1) / 16) (two.drop 1)).length = mendHeader.classCount
      ∧ (readClasses ((one.length - 1) / 16) (one.drop 1)).length ≠ mendHeader.classCount
      ∧ (readClasses ((second.length - 1) / 16) (second.drop 1))[1]? = some { mendClass with hclamp := 4001 }
      ∧ fieldAt (run 1 [oneJoint]) 1 2 ≠ ((loading []).slot .n1).joints.length
      ∧ payloadJoints (run 0 [oneJoint]) = some [{ presence := 0, joint := oneJoint }]
      ∧ payloadJoints (run 0 []) = some [] ∧ 4 < (List.replicate 5 oneJoint).length
      ∧ payloadJoints (run 0 [oneJoint, bad])
        = some [{ presence := 0, joint := oneJoint }, { presence := 0, joint := bad }]
      ∧ ¬bad.margin ≤ 8 := by
  refine ⟨fun p hp => asks_canTake ⟨rfl, ?_, by decide +kernel⟩, fun p hp => asks_canTake ⟨rfl, ?_, by decide +kernel⟩,
    fun p hp => asks_canTake ⟨rfl, ?_, by decide +kernel⟩, by decide +kernel⟩
  all_goals
    revert p
    decide +kernel

theorem witness_RecipeClosesRetiresAndAnswers :
    let unused := slot1 fun x => { x with refs := 0 }
    let retiring := slot1 fun x => { x with state := .retiring }
    (∀ s ∈ [running, loading [], unused, retiring],
        Asks 0x0F [1] s ∧ Asks 0x10 [1] s
        ∧ Asks 0x11 [1] s ∧ (s.slot .n1).state ≠ .closing)
      ∧ ((loading []).slot .n1).state = .loading ∧ (running.slot .n1).state ≠ .loading
      ∧ (retiring.slot .n1).state = .retiring ∧ ((unused.slot .n1).state = .ready ∧ (unused.slot .n1).refs = 0)
      ∧ ((running.slot .n1).state = .ready ∧ 0 < (running.slot .n1).refs) := by
  refine ⟨fun s hs => ?_, by decide +kernel⟩
  have some' : s = running ∨ s = loading [] ∨ s = (slot1 fun x => { x with refs := 0 })
      ∨ s = slot1 fun x => { x with state := .retiring } := by simpa using hs
  rcases some' with rfl | rfl | rfl | rfl
  all_goals
    exact ⟨asks_canTake (by decide +kernel), asks_canTake (by decide +kernel), asks_canTake (by decide +kernel),
      by decide +kernel⟩

theorem witness_CollectDeliversVerdictsInOrder :
    let parked (n : Nat) : State := judging { queue := [], parked := List.replicate n 9, dropped := 0 }
    let queued (n : Nat) : State := judging { queue := List.replicate n (verdictOfTag 5), parked := [], dropped := 2 }
    (∀ s ∈ [queued 1, parked 3, parked 4], Asks 0x12 [] s)
      ∧ (queued 1).verdicts.queue = [verdictOfTag 5]
      ∧ ((parked 3).verdicts.queue = [] ∧ (parked 3).verdicts.parked.length < 4)
      ∧ ((parked 4).verdicts.queue = [] ∧ 4 ≤ (parked 4).verdicts.parked.length)
      ∧ (parked 1).verdicts.parked = [9]
      ∧ ((queued 31).verdicts.parked = [] ∧ (queued 31).verdicts.queue.length < 32)
      ∧ 32 ≤ (queued 32).verdicts.queue.length := by
  refine ⟨fun s hs => asks_canTake ?_, by decide +kernel⟩
  revert s
  decide +kernel

/-! ### Witnesses: the end of a close -/

/-- Where no joint of a table has a fault, no index has it. -/
theorem never_of_all {P : Joint → Prop} {js : List Joint} (h : ∀ j ∈ js, ¬P j) : ∀ k : Nat, ¬∃ j, js[k]? = some j
    ∧ P j :=
  fun _ ⟨j, e, p⟩ => h j (List.mem_of_getElem? e) p

/-- A table of two joints neither descends nor repeats. -/
theorem never_of_pair {R : Joint → Joint → Prop} (a b : Joint) (h : ¬R a b) :
    ∀ k : Nat, ¬∃ i x y, i < k ∧ [a, b][i]? = some x ∧ [a, b][k]? = some y ∧ R x y := by
  rintro k ⟨i, x, y, lt, ex, ey, r⟩
  match k with
  | 0 => omega
  | 1 =>
    obtain rfl : i = 0 := by omega
    cases ex
    cases ey
    exact h r
  | k + 2 => simp at ey

theorem witness_CloseEndsByItsChecks :
    let slot (cs : Option (List ClassEntry)) (js : List Joint) : RecipeSlot :=
      { mendSlot js with classes := cs, header := some { mendHeader with jointCount := 2 } }
    let two := some [mendClass, mendClass]
    let unnamed (j : Joint) : Prop := ¬(j.cls < 2 ∧ j.head < 2)
    let outside (j : Joint) : Prop :=
      j.gap = none ∧ ((j.row0 : Int) - j.margin < 0 ∨ (1500 : Int) - 1 < (j.row0 : Int) + j.nrows - 1 + j.margin
        ∨ (j.col0 : Int) - j.margin < 0 ∨ 1023 < (j.col0 : Int) + j.ncols - 1 + j.margin)
    let span (j : Joint) : Int := j.nrows - 1 + 2 * j.margin
    let last (j : Joint) : Int := (j.row0 : Int) + j.nrows - 1 + j.margin
    let j := oneJoint
    let edge := mendJoint 102 1 1 2 960 62 1438 60 none
    let far := { edge with row0 := 1439 }
    let tall255 := { j with jointId := 102, row0 := 20, margin := 8, nrows := 240 }
    let tall256 := { tall255 with nrows := 241 }
    let back := { j with jointId := 102, row0 := 9 }
    let same := { j with row0 := 10 }
    reachedEvents (closing (slot two [])) = [] ∧ reachedEvents running = []
      ∧ ((closing (slot two [])).slot .n1).state = .closing ∧ ((closing (slot two [])).slot .n1).closeTag = some 7
      ∧ (running.slot .n1).state ≠ .closing ∧ (slot none []).classes = none
      ∧ (slot two [j]).joints.length ≠ 2 ∧ (slot two [j, back]).joints.length = 2
      ∧ ¬({ mendClass with vmin := 3001 } : ClassEntry).vmin ≤ mendClass.vmax ∧ mendClass.vmin ≤ mendClass.vmax
      ∧ mendClass.wetHeight ≤ mendClass.hclamp
      ∧ (unnamed { j with cls := 2 } ∧ ∀ k : Nat, ¬∃ x, [j, back][k]? = some x ∧ unnamed x)
      ∧ (¬outside edge ∧ outside far ∧ ∀ k : Nat, ¬∃ x, [j, back][k]? = some x ∧ outside x)
      ∧ (¬255 < span tall255 ∧ 255 < span tall256 ∧ ∀ k : Nat, ¬∃ x, [j, back][k]? = some x ∧ 255 < span x)
      ∧ (last back < last j ∧ ¬last same < last j)
      ∧ (∀ k : Nat, ¬∃ i a b, i < k ∧ [j, same][i]? = some a ∧ [j, same][k]? = some b ∧ last b < last a)
      ∧ j.jointId = same.jointId ∧ j.jointId ≠ back.jointId := by
  refine ⟨by decide +kernel, by decide +kernel, rfl, rfl, by decide +kernel, rfl, by decide +kernel, rfl,
    by decide +kernel, by decide +kernel, by decide +kernel, ⟨by decide +kernel, never_of_all (by decide +kernel)⟩,
    ⟨by decide +kernel, by decide +kernel, never_of_all (by decide +kernel)⟩,
    ⟨by decide +kernel, by decide +kernel, never_of_all (by decide +kernel)⟩, by decide +kernel,
    never_of_pair (R := fun a b => (b.row0 : Int) + b.nrows - 1 + b.margin < (a.row0 : Int) + a.nrows - 1 + a.margin) _
      _
      (by decide +kernel), rfl, by decide +kernel⟩

/-! ### Witnesses: the belt -/

theorem witness_EncoderCountsTheBelt :
    let deep (n : Nat) : State := laneA fun x => { x with enc := { x.enc with deficit := n } }
    let late : BoardRecord := { board with pLead := 62000 }
    let gone : BoardRecord := { passed with pLead := 59000, pTrail := some 59800 }
    let behind := boards [late]
    let all : LaneState :=
      { (boards [gone, late]).lane .a with nextTrigger := some 100000, flood := true, floodEnd := .position 100000 }
    running.resetAsserted = false ∧ reachedEvents running = []
      ∧ (reachedEvents behind = [(.a, .deadline)] ∧ (takeReached behind).resetAsserted = false
        ∧ ((takeReached behind).lane .a).transit.map (·.state) = [.decided]
        ∧ ((takeReached behind).lane .a).enc = (running.lane .a).enc)
      ∧ (all.settings = some laneSet ∧ dueEvents all = [.trigger, .gateStart, .gateEnd, .deadline, .floodEnd])
      ∧ ({ behind with resetAsserted := true } : State).resetAsserted = true
      ∧ ((running.lane .a).enc.refP = false ∧ (running.lane .a).enc.refQ = false)
      ∧ ((true = !false) ∧ (false = false)) ∧ (deep 1048574).resetAsserted = false
      ∧ ((deep 1048574).lane .a).enc.deficit < 1048575 ∧ ((deep 1048575).lane .a).enc.deficit = 1048575 := by
  decide +kernel

/-- Neither a reset nor a timeout cuts off a deadline already reached. -/
theorem test_reached_deadline_is_taken_first :
    let behind := boards [{ board with pLead := 62000 }]
    let slow := behind.updLink fun k => { k with receiver := .header [1] }
    let decides (r : Host.Outcome State Fault Refusal) : Bool :=
      match r with
      | .next t => decide ((t.lane .a).transit.map (·.state) = [.decided] ∧ t.link.receiver = .hunt)
      | .fault _ => false
      | .refused _ => false
    decides (exec .resetNAsserted slow) ∧ decides (exec .interByteTimeout slow) := by
  decide +kernel

theorem witness_LaneTriggerReachesItsReceivers :
    let due := laneA fun x => { x with nextTrigger := some 100000 }
    let listed (n : Nat) : HeadPort :=
      { running.head .n0 with outstanding := List.replicate n { index := 0, issued := 0 } }
    let old : Line := { index := 1025, status := .missed }
    let claimed : Line := { index := 1025, status := .pending }
    let claims (n : Nat) : HeadPort :=
      { running.head .n0 with
        outstanding := { index := 1025, issued := 9 } :: List.replicate n { index := 0, issued := 0 } }
    due.resetAsserted = false ∧ (stopped.lane .a).mode = .disabled
      ∧ ((running.lane .a).nextTrigger = some 100004 ∧ reached (running.lane .a).enc.position 100004 = false)
      ∧ ((due.lane .a).mode ≠ .disabled ∧ (due.lane .a).nextTrigger = some 100000
        ∧ reached (due.lane .a).enc.position 100000 = true ∧ (due.lane .a).settings = some laneSet)
      ∧ (.n0 ∈ laneHeads due .a ∧ .n1 ∉ laneHeads due .a ∧ (due.head .n0).settings = some headSet)
      ∧ (Ring.get (Ring.put [] (slotOf 1) old) (slotOf 1) = some old ∧ old.status ≠ .pending)
      ∧ (claimed.status = .pending ∧ (∀ e ∈ (listed 4).outstanding, e.index ≠ claimed.index)
        ∧ slotOf claimed.index = slotOf 1
        ∧ (∀ n ∈ [3, 4], ∃ before after, (claims n).outstanding = before ++ { index := 1025, issued := 9 } :: after
          ∧ (before ++ after).length = n ∧ ∀ f ∈ before ++ after, f.index ≠ claimed.index))
      ∧ (listed 3).outstanding.length < 4 ∧ 4 ≤ (listed 4).outstanding.length
      ∧ (headSet.calInterval ≤ 999 + 1 ∧ ¬headSet.calInterval ≤ 998 + 1) := by
  refine ⟨rfl, rfl, by decide +kernel, by decide +kernel, by decide +kernel, by decide +kernel,
    ⟨rfl, by decide +kernel, by decide +kernel, fun n hn => ⟨[], _, rfl, ?_, ?_⟩⟩, by decide +kernel, by decide +kernel,
    by decide +kernel⟩
  · exact List.length_replicate
  · intro f hf
    rw [List.eq_of_mem_replicate hf]
    decide

theorem witness_ScanFollowsTheTriggers :
    let starts (position : Word) : Prop :=
      ∃ r ∈ (running.lane .a).transit, r.state = .entering ∧ r.firstLine = none
        ∧ reached position (r.pLead + BitVec.ofNat 32 laneSet.dScan) = true
    (running.lane .a).settings = some laneSet ∧ starts 101000 ∧ ¬starts 100999 ∧ scanning.state = .scanning
      ∧ scanning.firstLine = some 100 ∧ (1599 : Word) = 100 + BitVec.ofNat 32 (1500 - 1) := by
  decide +kernel

theorem witness_DueEventRaisesTheBalance :
    let at' (due : Nat) (balance : Int) : State :=
      (running.setDue .n0 due).updCal .n0 fun c => { c with balance := balance }
    ((at' 998 7).head .n0).settings = some headSet ∧ (at' 998 7).dueOf .n0 + 1 < headSet.calInterval
      ∧ (at' 999 7).dueOf .n0 + 1 = headSet.calInterval ∧ ((at' 999 7).calOf .n0).balance < 8
      ∧ ((at' 999 8).calOf .n0).balance = 8 := by
  decide +kernel

/-! ### Witnesses: boards -/

theorem witness_LeadingEdgeCreatesARecord :
    let blocked := laneA fun x => { x with eyeBlocked := true }
    let full (entries : List ExpectEntry) : State :=
      laneA fun x => { x with transit := List.replicate 8 board, expect := entries }
    let roomy := boards (List.replicate 7 board)
    let surprised := laneA fun x => { x with expect := [] }
    (∀ s ∈ [running, blocked, stopped, full [], full [{ tag := 5, slot := .n1 }], roomy, surprised],
        reachedEvents s = [] ∧ s.resetAsserted = false)
      ∧ (blocked.lane .a).eyeBlocked = true
      ∧ ((stopped.lane .a).eyeBlocked = false ∧ (stopped.lane .a).mode = .disabled)
      ∧ (((full []).lane .a).eyeBlocked = false ∧ ((full []).lane .a).mode ≠ .disabled
        ∧ 8 ≤ ((full []).lane .a).transit.length ∧ ((full []).lane .a).expect = [])
      ∧ ((full [{ tag := 5, slot := .n1 }]).lane .a).expect = { tag := 5, slot := .n1 } :: []
      ∧ ((roomy.lane .a).transit.length < 8 ∧ (roomy.lane .a).expect = { tag := 78, slot := .n1 } :: []
        ∧ (roomy.slot .n1).header = some oneHeader)
      ∧ ((surprised.lane .a).transit.length < 8 ∧ (surprised.lane .a).expect = []) := by
  decide +kernel

theorem witness_TrailingEdgeClosesTheNewest :
    let under (mode : LaneMode) (rs : List BoardRecord) : State :=
      laneA fun x => { x with eyeBlocked := true, mode := mode, transit := rs }
    let complete : BoardRecord := { board with jointsComplete := true, state := .draining }
    (∀ s ∈ [running, under .disabled [], under .running [], under .running [passed], under .stopping [near],
        under .running [complete]], reachedEvents s = [] ∧ s.resetAsserted = false)
      ∧ (running.lane .a).eyeBlocked = false
      ∧ (((under .disabled []).lane .a).eyeBlocked = true ∧ ((under .disabled []).lane .a).mode = .disabled)
      ∧ ((under .running []).lane .a).settings = some laneSet
      ∧ (1 ≤ laneSet.dGate ∧ laneSet.dGate ≤ 16777215 ∧ laneSet.gateTail ≤ 4095)
      ∧ ((under .running []).lane .a).transit = []
      ∧ (((under .running [passed]).lane .a).transit.getLast? = some passed ∧ passed.pTrail = some 99500)
      ∧ (((under .stopping [near]).lane .a).transit = [] ++ [near] ∧ near.pTrail = none
        ∧ ((under .stopping [near]).lane .a).mode = .stopping)
      ∧ ((under .stopping [near]).lane .a).ReleaseSound ∧ ((under .running [complete]).lane .a).ReleaseSound
      ∧ (near.binding ≠ none ∧ near.state = .entering
        ∧ liesBelow 100000 (near.pLead + BitVec.ofNat 32 laneSet.minBoard) = true)
      ∧ ¬liesBelow 100000 ((99600 : Word) + BitVec.ofNat 32 laneSet.minBoard) = true
      ∧ (board.state ≠ .decided ∧ board.jointsComplete = false)
      ∧ (complete.state ≠ .decided ∧ complete.jointsComplete = true ∧ complete.state ≠ .entering) := by
  refine
    ⟨by decide +kernel, rfl, ⟨rfl, rfl⟩, rfl, by decide +kernel, rfl, ⟨rfl, rfl⟩, ⟨rfl, rfl, rfl⟩,
      one_releaseSound rfl (by decide +kernel),
    one_releaseSound rfl (by decide +kernel), by decide +kernel, by decide +kernel, ⟨by decide +kernel, rfl⟩,
    by decide +kernel⟩

theorem witness_DeadlineDecidesTheRecord :
    let due : BoardRecord := { board with pLead := 62000 }
    let early : BoardRecord := { board with pLead := 62001 }
    let position (r : BoardRecord) : Word := r.pLead + BitVec.ofNat 32 (laneSet.dGate - laneSet.gateLead)
    ((boards [due]).lane .a).settings = some laneSet
      ∧ ((boards [early]).lane .a).transit = [early] ∧ reached 100000 (position early) = false
      ∧ ((boards [due]).lane .a).transit = [] ++ due :: [] ∧ due.state ≠ .decided
      ∧ reached ((boards [due]).lane .a).enc.position (position due) = true
      ∧ ((boards [due]).lane .a).ReleaseSound
      ∧ (((laneA fun x => { x with transit := [due], ready := [anItem] }).lane .a).ready.any fun i =>
          decide (i.record = due.ident)) = true
      ∧ (((boards [due]).lane .a).ready.any fun i => decide (i.record = due.ident)) = false :=
  ⟨rfl, rfl, by decide +kernel, rfl, by decide +kernel, by decide +kernel, one_releaseSound rfl (by decide +kernel),
    by decide +kernel, by decide +kernel⟩

theorem witness_GateWindowAndFloodPositions :
    let at' (p : Word) : BoardRecord := { passed with pLead := p }
    let position (p : Word) : Word := (at' p).pLead + BitVec.ofNat 32 laneSet.dGate
    let flooded (p : Word) (rs : List BoardRecord) : State :=
      laneA fun x => { x with flood := true, floodEnd := .position p, transit := rs }
    ((boards [at' 60000]).lane .a).settings = some laneSet
      ∧ ((boards [at' 60001]).lane .a).transit = [at' 60001] ∧ reached 100000 (position 60001) = false
      ∧ (((boards [at' 60000]).lane .a).transit = [] ++ at' 60000 :: [] ∧ (at' 60000).inWindow = false
        ∧ reached 100000 (position 60000) = true)
      ∧ ((boards [at' 60000]).lane .a).ReleaseSound
      ∧ (((flooded 100000 []).lane .a).floodEnd = .position 100000
        ∧ reached ((flooded 100000 []).lane .a).enc.position 100000 = true
        ∧ ((flooded 100000 []).lane .a).transit = [] ∧ ((flooded 100000 [board]).lane .a).transit ≠ [])
      ∧ reached 100000 (100001 : Word) = false :=
  ⟨rfl, rfl, by decide +kernel, ⟨rfl, rfl, by decide +kernel⟩, one_releaseSound rfl (by decide +kernel),
    by decide +kernel,
    by decide +kernel⟩

theorem witness_GateWindowEndRemovesTheFront :
    let gone : BoardRecord := { passed with pLead := 59000, pTrail := some 59800 }
    let position (p : Word) : Word := 59000 + BitVec.ofNat 32 laneSet.dGate + (p - 59000) + BitVec.ofNat 32
      laneSet.gateTail
    let last := laneA fun x => { x with transit := [gone], mode := .stopping }
    ((boards []).lane .a).transit = [] ∧ ((boards [gone, board]).lane .a).settings = some laneSet
      ∧ ((boards [board]).lane .a).transit = board :: [] ∧ board.pTrail = none
      ∧ (((boards [gone, board]).lane .a).transit = gone :: [board] ∧ gone.pTrail = some 59800 ∧ gone.state = .decided)
      ∧ reached 100000 (position 59800) = true ∧ reached 100000 (position 59801) = false
      ∧ ((last.lane .a).transit = gone :: [] ∧ (last.lane .a).mode = .stopping ∧ grantLane last = none) := by
  decide +kernel

/-! ### Witnesses: heads -/

theorem witness_ProfileFramesAreChecked :
    let samples : List Half := List.replicate 64 4095
    let high : List Half := List.replicate 64 4096
    let listed := head0 fun h => { h with outstanding := [⟨65540, 0⟩, ⟨65541, 0⟩, ⟨65542, 0⟩] }
    let bare := head0 fun h => { h with settings := none }
    (∀ s ∈ [running, listed, bare, stopped], reachedEvents s = [] ∧ s.resetAsserted = false)
      ∧ (running.head .n1).mode = .unaligned ∧ (listed.head .n0).mode = .aligned
      ∧ ((stopped.head .n0).mode = .aligned ∧ (stopped.lane .a).mode = .disabled
        ∧ ∃ rest, alignmentWords = 0x7E81 :: 0xFFFF :: rest)
      ∧ ((listed.head .n0).settings = some headSet ∧ headSet.lane = some .a ∧ (listed.lane .a).mode ≠ .disabled)
      ∧ ((bare.head .n0).settings = none ∧ (bare.head .n0).mode = .aligned)
      ∧ (profileWords 5 samples = 0x7E81 :: 5 :: 64 :: (samples ++ [crc16 (5 :: 64 :: samples)])
        ∧ (64 : Half).toNat = headSet.samples ∧ samples.length = headSet.samples)
      ∧ (∀ crc : Half, crc + 1 ≠ crc)
      ∧ (∃ w ∈ high, 4095 < w.toNat) ∧ (∀ w ∈ samples, w.toNat ≤ 4095)
      ∧ (∀ e ∈ (listed.head .n0).outstanding, BitVec.ofNat 16 e.index.toNat ≠ (7 : Half))
      ∧ (listed.head .n0).outstanding = [⟨65540, 0⟩] ++ ⟨65541, 0⟩ :: [⟨65542, 0⟩]
      ∧ BitVec.ofNat 16 (65541 : Word).toNat = (5 : Half)
      ∧ ∀ f ∈ ([⟨65540, 0⟩] ++ [⟨65542, 0⟩] : List Outstanding), BitVec.ofNat 16 f.index.toNat ≠ (5 : Half) := by
  refine ⟨by decide +kernel, rfl, rfl, ⟨rfl, rfl, _, rfl⟩, by decide +kernel, ⟨rfl, rfl⟩, ⟨?_, rfl, by decide +kernel⟩, fun crc e => ?_,
    ⟨4096, List.mem_replicate.2 ⟨by decide, rfl⟩, by decide⟩, fun w hw => ?_, by decide +kernel, rfl, by decide +kernel,
      by decide +kernel⟩
  · unfold profileWords syncWord
    rw [List.length_replicate]
    generalize List.replicate 64 (4095 : Half) = samples
    rfl
  · exact absurd (add_eq_left.1 e) (by decide)
  · rw [List.eq_of_mem_replicate hw]
    decide

theorem witness_SweepTriesEveryTap :
    let at' (sw : Sweep) : State := head0 fun h => { h with mode := .aligning sw }
    (reachedEvents (at' aSweep) = [] ∧ reachedEvents running = [] ∧ running.resetAsserted = false)
      ∧ ((at' aSweep).head .n0).mode = .aligning aSweep ∧ (at' aSweep).resetAsserted = false
      ∧ ({ aSweep with frames := 6 } : Sweep).frames + 1 < 8 ∧ 8 ≤ aSweep.frames + 1
      ∧ ({ aSweep with tap := 30 } : Sweep).tap + 1 < 32 ∧ ¬aSweep.tap + 1 < 32
      ∧ (∀ sw, (running.head .n0).mode ≠ .aligning sw)
      ∧ (1 ≤ 1 ∧ (∀ k, 0 ≤ k → k < 0 + 1 → [true][k]? = some true) ∧ ((0 : Nat) = 0) ∧ [true][0 + 1]? ≠ some true)
      ∧ ∀ i n : Nat, 1 ≤ n → (∀ k, i ≤ k → k < i + n → [true][k]? = some true) → n ≤ 1 ∧ (n = 1 → 0 ≤ i) := by
  refine ⟨by decide +kernel, rfl, rfl, by decide, by decide, by decide, by decide, nofun, ⟨le_refl _, fun k _ h => ?_, rfl, by decide⟩,
    fun i n pos run => ⟨?_, fun _ => Nat.zero_le _⟩⟩
  · obtain rfl : k = 0 := by omega
    rfl
  · have here := (List.getElem?_eq_some_iff.1 (run (i + n - 1) (by omega) (by omega))).1
    simp at here
    omega

/-- Unit 2 is BUSY on the joint of a board. -/
def busyOn (r : BoardRecord) (e : Evaluation) : State := (boards [r]).setUnit .n2 (some e)

theorem witness_TriggerTimeoutSettlesMissed :
    let listed := head0 fun h => { h with outstanding := [⟨4, 0⟩, ⟨5, 0⟩, ⟨6, 0⟩] }
    let spare := head0 fun h => { h with settings := some { headSet with lane := none } }
    listed.resetAsserted = false ∧ reachedEvents listed = [] ∧ (∀ e ∈ (listed.head .n0).outstanding, e.index ≠ 7)
      ∧ (listed.head .n0).outstanding = [⟨4, 0⟩] ++ ⟨5, 0⟩ :: [⟨6, 0⟩]
      ∧ (∀ f ∈ ([⟨4, 0⟩] ++ [⟨6, 0⟩] : List Outstanding), f.index ≠ 5)
      ∧ ((listed.head .n0).settings = some headSet ∧ headSet.lane = some .a)
      ∧ ((spare.head .n0).settings = some { headSet with lane := none }
        ∧ ({ headSet with lane := none } : HeadSettings).lane = none)
      ∧ deliverNotice .n0 (.evicted 125 1149) (busyOn scanning anEvaluation)
          = busyOn scanning { anEvaluation with spoiled := true }
      ∧ deliverNotice .n0 (.evicted 126 1150) (busyOn scanning anEvaluation) = busyOn scanning anEvaluation := by
  decide +kernel

/-! ### Witnesses: evaluations -/

theorem witness_EvaluationsCompleteIntoRecords :
    let s := busyOn scanning anEvaluation
    let trailing : BoardRecord := { scanning with pTrail := some 99500 }
    let many : State := s.updSlot .n1 fun x => { x with header := some { oneHeader with jointCount := 2 } }
    reachedEvents s = [] ∧ s.resetAsserted = false ∧ s.unitOf .n0 = none ∧ s.unitOf .n2 = some anEvaluation
      ∧ ({ anEvaluation with discard := true } : Evaluation).discard = true ∧ anEvaluation.discard = false
      ∧ (s.lane anEvaluation.item.lane).transit = [] ++ scanning :: [] ∧ anEvaluation.item.record = scanning.ident
      ∧ scanning.state ≠ .decided ∧ (s.lane anEvaluation.item.lane).ReleaseSound
      ∧ ((scanning.verdictPart.counts.add .dataLost 1).sum = jointCountOf s scanning ∧ scanning.pTrail = none)
      ∧ trailing.pTrail ≠ none ∧ (scanning.verdictPart.counts.add .dataLost 1).sum ≠ jointCountOf many scanning
      ∧ ({ anEvaluation with spoiled := true } : Evaluation).spoiled = true
      ∧ Ring.read [] (anItem.firstNeeded + BitVec.ofNat 32 0) = .notHeld
      ∧ (let line : WorkItem := { anItem with firstNeeded := 1, lastNeeded := 1 }
        ∀ k, k ≤ (line.lastNeeded - line.firstNeeded).toNat →
          Ring.read (ringOf [[], []]) (line.firstNeeded + BitVec.ofNat 32 k) ≠ .notHeld) := by
  refine
    ⟨by decide +kernel, rfl, rfl, rfl, rfl, rfl, rfl, rfl, by decide +kernel,
    one_releaseSound rfl (by decide +kernel), by decide +kernel, by decide +kernel, by decide +kernel, rfl, by decide +kernel, fun k hk => ?_⟩
  obtain rfl : k = 0 := Nat.le_zero.1 hk
  decide +kernel

theorem witness_ArbiterGrantsWhileItCan :
    let waits (seen : Word) : State := laneA fun x => { x with ready := [anItem], triggerSeen := seen }
    ((waits 1129).lane .a).ready = anItem :: [] ∧ anItem.lane = .a
      ∧ (((waits 1129).lane .a).triggerSeen - anItem.firstNeeded).toNat < 1024
      ∧ 1024 ≤ (((waits 1130).lane .a).triggerSeen - anItem.firstNeeded).toNat
      ∧ idleUnit (waits 1129) = some .n0 ∧ grantLane (waits 1129) = some .a ∧ (waits 1129).pointer = .a
      ∧ (((waits 1129).setPointer .b).lane .b).ready = [] ∧ grantLane ((waits 1129).setPointer .b) = some .a
      ∧ grantLane running = none ∧ itemReady (head0 fun h => { h with lastTrigger := some 125 }) anItem = true
      ∧ itemReady (head0 fun h => { h with lastTrigger := some 124 }) anItem = false := by
  decide +kernel

theorem witness_ArbiterGrantsWhileItCan_fields :
    HeadLanesSound running
      ∧ workItem? (boards [scanning]) .a scanning 0 = some anItem ∧ workItem? (boards [scanning]) .a scanning 1 = none
      ∧ headAt running .a 0 = some .n0 ∧ headAt running .a 1 = none
      ∧ (((boards [scanning]).lane anItem.lane).transit = [] ++ scanning :: [] ∧ anItem.record = scanning.ident
        ∧ scanning.binding = some { tag := 77, slot := .n1, boardLines := 1500 }
        ∧ ((boards [scanning]).slot .n1).joints[anItem.joint]? = some oneJoint)
      ∧ ((boards [scanning]).lane anItem.lane).ReleaseSound
      ∧ (scanning.firstLine = some 100 ∧ scanning.snapshot = some [{ zero := 1000, gain := 640, stale := false }]
        ∧ ((boards [scanning]).head anItem.head).settings = some headSet
        ∧ ((boards [scanning]).slot .n1).classes = some [mendClass] ∧ [mendClass][oneJoint.cls]? = some mendClass
        ∧ [({ zero := 1000, gain := 640, stale := false } : SnapEntry)][oneJoint.head]?
          = some { zero := 1000, gain := 640, stale := false })
      ∧ readInputs (boards [scanning]) anItem = anEvaluation.inputs :=
  ⟨head0_sound rfl rfl rfl rfl rfl, by decide +kernel, by decide +kernel, by decide +kernel, by decide +kernel,
    by decide +kernel, one_releaseSound rfl (by decide +kernel), by decide +kernel, by decide +kernel⟩

theorem witness_CellsSamplesAndHeights :
    (mendJoint 1 0 0 8 8 4 8 2 none).margin ≤ (mendJoint 1 0 0 8 8 4 8 2 none).row0
      ∧ oneJoint.margin ≤ oneJoint.col0 ∧ (4094 : Nat) ≤ 4094 ∧ (1023 : Nat) ≤ 1023
      ∧ (∀ j ∈ [mendJoint 1 0 0 8 952 64 8 64 none, mendJoint 1 0 0 1 1 1 1 1 (some mendGap)],
          j.inRanges = true ∧ j.fitsBoard 80 = true)
      ∧ heightOf 0 1023 4094 = 16360 ∧ heightOf 4094 1023 0 = -16360 := by
  decide +kernel

/-- Each outcome of an evaluation is reached: one joint, 2 by 2 cells with margin 1, on one board of heights. -/
theorem witness_OutcomesFollowTheTable :
    let j : Joint := mendJoint 9 0 0 1 1 2 1 2 none
    let c : ClassEntry :=
      { vmin := 400, vmax := 400, pmax := 100, wetHeight := 100, cmin := 1000, validMin := 1000, hclamp := 1000 }
    let gap : GapPart := { gcol0 := 1, gncols := 1, grow0 := 1, gnrows := 1, bridgeHeight := 100, bridgeCount := 1 }
    let i (c : ClassEntry) (g : Option GapPart) : EvalInputs :=
      { joint := { j with gap := g }, cls := c, zero := 1000, gain := 256, samples := 4, firstLine := 0 }
    let ring (edge cell : Nat) : Ring :=
      ringOf [List.replicate 4 1000, [edge, 1100, cell, edge], [edge, 1100, 1100, edge], List.replicate 4 edge]
    let lost : Ring := Ring.put (ring 1000 1100) 1 { index := 1, status := .missed }
    let outcome (c : ClassEntry) (g : Option GapPart) (r : Ring) : JointOutcome := (measureJoint (i c g) r).outcome
    outcome c none (ring 1000 1100) = .good ∧ outcome c none lost = .dataLost
      ∧ outcome c none (ring 1000 4095) = .occluded ∧ outcome c none (ring 4095 1100) = .noRef
      ∧ (validHeights (i c none) (ring 4095 1100) j.ringCells).length = 4
      ∧ outcome c (some gap) (ring 1000 1100) = .bridged
      ∧ outcome c (some { gap with bridgeHeight := 101 }) (ring 1000 1100) = .good
      ∧ outcome { c with pmax := 99 } none (ring 1000 1100) = .lifted
      ∧ outcome { c with vmin := 401, vmax := 401 } none (ring 1000 1100) = .insufficient
      ∧ outcome { c with vmin := 0, vmax := 399 } none (ring 1000 1100) = .excess
      ∧ outcome { c with wetHeight := 101 } none (ring 1000 1100) = .nonWet := by
  decide +kernel

/-! ### Witnesses: verdicts and calibration -/

theorem witness_DecisionsFollowTheTables :
    let v (c : Counts) (f : BoardFlags) : BoardRecord :=
      { scanning with verdictPart := { VerdictFields.start with counts := c, flags := f } }
    let fails : BoardRecord := v { Counts.zero with bridged := 1 } BoardFlags.clear
    let doubts : BoardRecord := v { Counts.zero with occluded := 1 } BoardFlags.clear
    let stale : BoardRecord := v { Counts.zero with good := 1 } { BoardFlags.clear with calStale := true }
    let unbound : BoardRecord := v Counts.zero { BoardFlags.clear with noRecipe := true }
    passed.state = .decided ∧ scanning.state ≠ .decided
      ∧ (Cause.abandon ≠ .withdraw ∧ unbound.verdictPart.flags.noRecipe = true)
      ∧ (0 < fails.verdictPart.counts.bridged ∧ fails.verdictPart.flags = BoardFlags.clear)
      ∧ (0 < doubts.verdictPart.counts.occluded ∧ doubts.verdictPart.counts.bridged = 0)
      ∧ (stale.decideBy .completion .demote 1).verdictPart.verdict = some .review
      ∧ (stale.decideBy .completion .report 1).verdictPart.verdict = some .pass
      ∧ (scanning.decideBy .withdraw .report 1).verdictPart.verdict = some .withdrawn
      ∧ (1 - scanning.work.cursor) + scanning.work.queued + scanning.work.inFlight + scanning.verdictPart.counts.sum
        = 1 := by
  decide +kernel

theorem witness_VerdictsReleaseInLaneOrder :
    let second : BoardRecord := { board with ident := 1 }
    let s := laneA fun x => { x with transit := [passed, second], nextRecord := 2 }
    (s.lane .a).ReleaseSound
      ∧ ((s.lane .a).transit.takeWhile fun r => decide (r.state = .decided)) = [passed]
      ∧ passed.verdictPart.verdict = some .pass ∧ passed.divertDecision = some false := by
  refine ⟨?_, by decide +kernel⟩
  change LaneState.ReleaseSound { running.lane .a with transit := [passed, { board with ident := 1 }], nextRecord := 2 }
  unfold LaneState.ReleaseSound
  decide +kernel

theorem witness_CalibrationAttemptsRunToCompletion :
    let c (balance : Int) (idle : Nat) : CalRecord := { CalRecord.powerOn with balance := balance, idleRun := idle }
    let a (n : Nat) : Attempt :=
      { start := 100, collected := n, zeroSum := 192000, zeroCount := 192, stepSum := 268800, stepCount := 192 }
    let fine := a 16
    (0 < (c 1 0).balance ∧ (c 1 0).attempt = none) ∧ (-8 < (c (-7) 200).balance ∧ 200 ≤ (c (-7) 200).idleRun)
      ∧ ¬(-8 < (c (-8) 200).balance) ∧ ¬200 ≤ (c 0 199).idleRun
      ∧ ({ c 0 0 with attempt := some (a 14) } : CalRecord).attempt = some (a 14)
      ∧ reached 113 (100 + BitVec.ofNat 32 (a 14).collected) = false
      ∧ reached 114 (100 + BitVec.ofNat 32 (a 14).collected) = true ∧ (a 14).collected + 1 < 16
      ∧ 16 ≤ (a 15).collected + 1
      ∧ (192 ≤ fine.zeroCount ∧ 192 ≤ fine.stepCount ∧ CalRecord.compute headSet fine = some (1000, 640))
      ∧ CalRecord.compute headSet { fine with zeroCount := 191 } = none
      ∧ (1 ≤ 4 ∧ ((1 : Int) - 1) * 4 < ((104 : Word) - 100).toInt ∧ ((104 : Word) - 100).toInt ≤ 1 * 4)
      ∧ (((2 : Int) - 1) * 4 < ((105 : Word) - 100).toInt ∧ ((105 : Word) - 100).toInt ≤ 2 * 4)
      ∧ (((0 : Int) - 1) * 4 < ((97 : Word) - 100).toInt ∧ ((97 : Word) - 100).toInt ≤ 0 * 4)
      ∧ ((running.lane .a).settings = some laneSet ∧ (running.lane .a).nextTrigger = some 100004)
      ∧ (let line (k : Word) : Bool := isGapLine (spansOf ((boards [scanning]).lane .a)) k
        line 99 = true ∧ line 100 = false ∧ line 1599 = false ∧ line 1600 = true
          ∧ gapAhead (spansOf ((boards [scanning]).lane .a)) 84 = true
          ∧ gapAhead (spansOf ((boards [scanning]).lane .a)) 85 = false) := by
  decide +kernel

end Sys2Proof.Slice0
end

namespace Sys2Proof.Machine

/-! ### Invariants of the lanes -/

/-- Settles O5: only a new encoder state changes an encoder, and it keeps R2. -/
theorem stepKeepsEncoders : Obligations.StepKeepsEncoders := fun _ _ sound stepped =>
  step_keeps_lanes (P := fun x => x.enc.Sound) LaneEdit.encoder_sound (fun _ p q => decodeEncoder_sound p q)
    (fun _ _ _ => ⟨rfl, Nat.zero_le _⟩) (fun _ kept => kept) sound stepped

theorem powerOn_modeSound (p q eye : Bool) : (LaneState.powerOn p q eye).ModeSound :=
  ⟨fun _ => ⟨rfl, rfl, rfl, rfl⟩, fun runs => absurd rfl runs⟩

/-- Settles O6: every change of a lane keeps it in accordance with its state. -/
theorem stepKeepsLaneModes : Obligations.StepKeepsLaneModes := fun _ _ sound stepped =>
  step_keeps_lanes LaneEdit.mode_sound (fun _ p q => decodeEncoder_modeSound p q) powerOn_modeSound
    (fun _ kept => kept) sound stepped

/-! ### RESET_N -/

theorem inService_unserved {s : State} (reset : s.resetAsserted = true) (f : State → State) :
    inService f s = .next s := by
  simp [inService, reset]

theorem inTurn_unserved {s : State} (reset : s.resetAsserted = true) (f : State → State) :
    inTurn f s = .next s := by
  rw [inTurn, takeReached_reset reset, inService_unserved reset]

/-- While RESET_N is asserted nothing is taken but power-on, RESET_N itself and the level of HOLD_IN (R187). -/
theorem exec_unserved {s : State} (reset : s.resetAsserted = true) (c : Instr) (notPower : ∀ pins, c ≠ .powerOn pins)
    (notReset : c ≠ .resetNAsserted) (notHold : ∀ asserted, c ≠ .holdInChange asserted) : exec c s = .next s := by
  cases c with
  | powerOn pins => exact absurd rfl (notPower pins)
  | resetNAsserted => exact absurd rfl notReset
  | holdInChange asserted => exact absurd rfl (notHold asserted)
  | laneTrigger | deadline | gateWindowStart | gateWindowEnd | floodEnd | frameReceived | headerLengthReject
  | stopBitError | replySent | goodByte => exact inService_unserved reset _
  | _ => exact inTurn_unserved reset _

theorem ofStraps_eq (lrate1 lrate0 : Bool) :
    BitRate.ofStraps lrate1 lrate0 = if lrate1 then .mbit4 else if lrate0 then .mbit2 else .mbit1 := by
  cases lrate1 <;> cases lrate0 <;> rfl

/-- Settles O3: power-on and the assertion of RESET_N by the tables of their values, and what RESET_N holds off. -/
theorem resetLineAndHoldIn : Obligations.ResetLineAndHoldIn := by
  intro s
  refine ⟨fun pins => ?_, rfl, fun asserted => rfl, exec_unserved⟩
  rw [← ofStraps_eq]
  rfl

/-- Settles O45: the due count by whether it has reached cal_interval, the balance by whether it stands at +8. -/
theorem dueEventRaisesTheBalance : Obligations.DueEventRaisesTheBalance := by
  intro s l trigger position h st settings
  have taken : takeTriggerAt l trigger position (.dueCount h) s
      = if st.calInterval ≤ s.dueOf h + 1 then (s.setDue h 0).updCal h CalRecord.due
        else s.setDue h (s.dueOf h + 1) := by
    show dueTrigger h s = _
    rw [dueTrigger, settings]
  refine ⟨fun below => ?_, fun reached => ?_⟩
  · rw [taken, if_neg (by omega)]
  · rw [taken, if_pos (by omega)]
    refine ⟨fun low => ?_, fun full => ?_⟩ <;> simp [State.updCal, CalRecord.due, *]

end Sys2Proof.Machine

namespace Sys2Proof.Machine

/-! ### Numbers of two and four bytes -/

theorem leNat_le16 {n : Nat} (fits : n < 65536) : leNat (le16 n) = n := by
  simp only [le16, leNat, byteOf, BitVec.toNat_ofNat]
  omega

theorem leNat_le32 {n : Nat} (fits : n < 4294967296) : leNat (le32 n) = n := by
  simp only [le32, leNat, byteOf, BitVec.toNat_ofNat]
  omega

theorem leNat_byteOf {n : Nat} (fits : n < 256) : leNat [byteOf n] = n := by
  simp only [leNat, byteOf, BitVec.toNat_ofNat]
  omega

/-! ### LANE_SETUP -/

/-- Checks 3 to 7 of R5 as ranges of numbers. -/
theorem laneSettings_inRanges_iff (st : LaneSettings) : st.inRanges = true ↔
    (1 ≤ st.lineStep ∧ st.lineStep ≤ 64) ∧ (16 * st.lineStep ≤ st.dScan ∧ st.dScan ≤ 1048575)
      ∧ (1 ≤ st.gateLead ∧ st.gateLead ≤ 65535) ∧ (st.dGate ≤ 16777215 ∧ st.dScan + st.gateLead < st.dGate)
      ∧ st.minBoard ≠ 0 ∧ st.minBoard ≤ st.dScan := by
  simp only [LaneSettings.inRanges, within, Bool.and_eq_true, decide_eq_true_eq]
  omega

theorem laneOf?_laneCode (l : Lane) : laneOf? (leNat [laneCode l]) = some l := by
  cases l <;> rfl

theorem stalePolicyOf?_code (p : StalePolicy) : stalePolicyOf? (leNat [stalePolicyCode p]) = some p := by
  cases p <;> rfl

theorem clampTo_within {lo hi n : Nat} (low : lo ≤ n) (high : n ≤ hi) : clampTo lo hi n = n := by
  unfold clampTo
  omega

/-- The fields of the stored settings where a LANE_SETUP payload has them (09, section 9.9). -/
theorem readLaneSettings_bytes (l : Lane) (st : LaneSettings) : readLaneSettings (laneSettingsBytes l st)
    = (stalePolicyOf? (leNat [stalePolicyCode st.stalePolicy])).map fun policy =>
      { lineStep := leNat [byteOf st.lineStep], dScan := leNat (le32 st.dScan), dGate := leNat (le32 st.dGate),
        gateLead := leNat (le16 st.gateLead), gateTail := clampTo 0 4095 (leNat (le16 st.gateTail)),
        minBoard := leNat (le32 st.minBoard), stalePolicy := policy,
        idleCalGap := clampTo 64 4096 (leNat (le16 st.idleCalGap)) } := rfl

/-- Settles O17: each field is read back from where it is written, and none is too large for its bytes. -/
theorem laneSettingsRoundTrip : Obligations.LaneSettingsRoundTrip := by
  intro l st ranges tail gapLow gapHigh
  obtain ⟨step, scan, lead, gate, board⟩ := (laneSettings_inRanges_iff st).mp ranges
  refine ⟨rfl, laneOf?_laneCode l, ?_⟩
  rw [readLaneSettings_bytes, stalePolicyOf?_code, leNat_byteOf (by omega), leNat_le32 (by omega),
    leNat_le32 (by omega), leNat_le16 (by omega), leNat_le16 (by omega), leNat_le32 (by omega), leNat_le16 (by omega),
    clampTo_within (by omega) tail, clampTo_within gapLow gapHigh]
  rfl

/-- stale_policy is a check of its own, whose code is not in the settings (check 8 of R5). -/
theorem stalePolicyOf?_eq (n : Nat) : stalePolicyOf? n
    = if n = 0 ∨ n = 1 then some (if n = 0 then .report else .demote) else none := by
  match n with
  | 0 => rfl
  | 1 => rfl
  | _ + 2 => simp [stalePolicyOf?]

section
variable {s : State} {l : Lane}

/-- Check 2 of R5. -/
theorem setupLane_runs (tag : Byte) (p : List Byte) (runs : (s.lane l).mode ≠ .disabled) :
    setupLane tag p l s = replyRefused kindLaneSetup tag .state [] s :=
  if_pos runs

/-- Checks 3 to 8 of R5. -/
theorem setupLane_outside (tag : Byte) {p : List Byte} (idle : (s.lane l).mode = .disabled)
    (outside : ∀ st, readLaneSettings p = some st → st.inRanges ≠ true) :
    setupLane tag p l s = replyRefused kindLaneSetup tag .range [] s := by
  rw [setupLane, if_neg (not_not_intro idle)]
  split
  · rfl
  · next st read => rw [if_neg (outside st read)]

/-- The settings are stored and answered (R5). -/
theorem setupLane_stores (tag : Byte) {p : List Byte} {st : LaneSettings} (idle : (s.lane l).mode = .disabled)
    (read : readLaneSettings p = some st) (ranges : st.inRanges = true) :
    setupLane tag p l s = replyDone kindLaneSetup tag (laneSettingsBytes l st)
      (s.updLane l fun x => { x with settings := some st }) := by
  rw [setupLane, if_neg (not_not_intro idle), read]
  exact if_pos ranges

end

/-- Settles O29: the checks one after another, as `setupLane` makes them. -/
theorem laneSetupChecksAndStores : Obligations.LaneSetupChecksAndStores := by
  intro s₀ r rest s can u lineStep dScan dGate gateLead gateTail minBoard policy idleCalGap inRange st
  have taken : exec .laneSetup s₀ = .next (laneSetupBody r.tag r.payload u) := takeKind_next can
  have read : readLaneSettings r.payload = if policy = 0 ∨ policy = 1 then some st else none := by
    rw [readLaneSettings, stalePolicyOf?_eq, apply_ite (Option.map _)]
    simp only [clampTo, Nat.zero_max, Nat.min_comm 4095, Nat.min_comm 4096]
    rfl
  have ranges := laneSettings_inRanges_iff st
  rw [taken]
  refine ⟨fun bad => ?_, fun l named => ?_⟩
  · rw [laneSetupBody, laneOf?_none bad]
    rfl
  · have body : laneSetupBody r.tag r.payload u = setupLane r.tag r.payload l u := by rw [laneSetupBody, named]
    rw [body]
    refine ⟨fun runs => congrArg _ (setupLane_runs _ _ runs),
      fun idle bad => congrArg _ (setupLane_outside _ idle fun su readSu within => bad ?_),
      fun idle ⟨step, scan, lead, gate, board, known⟩ =>
        congrArg _ (setupLane_stores _ idle (read.trans (if_pos known)) (ranges.mpr ⟨step, scan, lead, gate, board⟩))⟩
    have known : policy = 0 ∨ policy = 1 := by
      by_contra unknown
      rw [read, if_neg unknown] at readSu
      cases readSu
    obtain rfl : st = su := Option.some.inj ((if_pos known).symm.trans (read.symm.trans readSu))
    obtain ⟨step, scan, lead, gate, board⟩ := ranges.mp within
    exact ⟨step, scan, lead, gate, board, known⟩

end Sys2Proof.Machine

namespace Sys2Proof.Machine

/-! ### HEAD_SETUP -/

section
variable {s : State} {h : HeadId} {st : HeadSettings}

/-- Check 7 of R43: another head at the same lane order of the lane. -/
theorem orderTaken_iff : orderTaken s h st = true ↔ st.lane ≠ none ∧
    ∃ g su, g ≠ h ∧ (s.head g).settings = some su ∧ su.lane = st.lane ∧ su.laneOrder = st.laneOrder := by
  unfold orderTaken
  cases on : st.lane with
  | none => simp
  | some l => simp [serves_iff, four_mem]

/-- Check 2 of R43. -/
theorem setupHead_sweeping (tag : Byte) (sweeping : (s.head h).sweeping = true) :
    setupHead tag h st s = replyRefused kindHeadSetup tag .busy [] s :=
  if_pos sweeping

/-- Checks 3 and 4 of R43. -/
theorem setupHead_active (tag : Byte) (still : (s.head h).sweeping ≠ true)
    (active : headActive s h = true ∨ laneActive s st.lane = true) :
    setupHead tag h st s = replyRefused kindHeadSetup tag .state [] s := by
  rw [setupHead, if_neg still, if_pos (Bool.or_eq_true_iff.mpr active)]

/-- Checks 5 to 7 of R43. -/
theorem setupHead_outside (tag : Byte) (still : (s.head h).sweeping ≠ true)
    (idle : ¬(headActive s h = true ∨ laneActive s st.lane = true))
    (outside : ¬(st.inRanges = true ∧ st.regionsFit = true ∧ orderTaken s h st ≠ true)) :
    setupHead tag h st s = replyRefused kindHeadSetup tag .range [] s := by
  rw [setupHead, if_neg still, if_neg (by simpa using idle), if_pos]
  by_cases ranges : st.inRanges = true <;> by_cases regions : st.regionsFit = true <;> simp_all

/-- The settings are stored and answered (R44). -/
theorem setupHead_stores (tag : Byte) (still : (s.head h).sweeping ≠ true)
    (idle : ¬(headActive s h = true ∨ laneActive s st.lane = true)) (ranges : st.inRanges = true)
    (regions : st.regionsFit = true) (order : orderTaken s h st ≠ true) :
    setupHead tag h st s = replyDone kindHeadSetup tag (headSettingsBytes h st) (storeHead h st s) := by
  rw [setupHead, if_neg still, if_neg (by simpa using idle), if_neg (by simp [ranges, regions, order])]

end

/-- Settles O34: the checks one after another, as `setupHead` makes them. -/
theorem headSetupChecksAndStores : Obligations.HeadSetupChecksAndStores := by
  intro s₀ r rest s can u refusal
  have taken : exec .headSetup s₀ = .next (headSetupBody r.tag r.payload u) := takeKind_next can
  rw [taken]
  refine ⟨fun bad => ?_, fun h target head lane => ?_⟩
  · rw [headSetupBody]
    rcases bad with bad | bad
    · rw [fourOf?_none bad]
      rfl
    · rw [headLaneOf?_none bad]
      cases Four.ofNat? (fieldAt r.payload 0 1) <;> rfl
  · intro st sweeping busyLane inRange regions orderTaken'
    have body : headSetupBody r.tag r.payload u = setupHead r.tag h st u := by
      rw [headSetupBody, head, lane]
      rfl
    have sweeps : (u.head h).sweeping = true ↔ sweeping := sweeping_iff _
    have busy : headActive u h = true ∨ laneActive u st.lane = true ↔ busyLane :=
      or_congr (headActive_iff u h) (laneActive_iff u st.lane)
    have within : st.inRanges = true ↔ inRange := headSettings_inRanges_iff st
    have fit : st.regionsFit = true ↔ regions := headSettings_regionsFit_iff st
    have order : orderTaken u h st = true ↔ orderTaken' := orderTaken_iff
    rw [body, ← sweeps, ← busy, ← within, ← fit, ← order]
    exact ⟨fun sweep => congrArg _ (setupHead_sweeping _ sweep),
      fun still active => congrArg _ (setupHead_active _ still active),
      fun still idle outside => congrArg _ (setupHead_outside _ still idle outside),
      fun still idle ranges regions order => congrArg _ (setupHead_stores _ still idle ranges regions order)⟩

/-! ### LANE_START -/

section
variable {s : State} {l : Lane}

/-- Checks 4 to 6 of R8, with the assignments that R43 admits. -/
theorem headsReady_iff (sound : HeadLanesSound s) : headsReady s l = true ↔
    (∃ h st, (s.head h).settings = some st ∧ st.lane = some l ∧ st.laneOrder = 0)
      ∧ ∀ h st, (s.head h).settings = some st → st.lane = some l → (s.head h).mode = .aligned := by
  have aligned : ∀ x : HeadPort, x.isAligned = true ↔ x.mode = .aligned := fun x => by
    unfold HeadPort.isAligned
    cases x.mode <;> simp
  rw [headsReady, Bool.and_eq_true, headAt_isSome, List.all_eq_true]
  refine and_congr (exists_congr fun h => serves_iff) ⟨fun all h st settings on => ?_, fun all h listed => ?_⟩
  · exact (aligned _).mp (all h (laneHeads_complete sound settings on))
  · obtain ⟨st, settings, on⟩ := laneHeads_assigned listed
    exact (aligned _).mpr (all h st settings on)

/-- Checks 2 to 6 of R8. -/
theorem laneStartOn_refuses (tag : Byte) (not : ¬((s.lane l).mode = .disabled ∧ (s.lane l).settings ≠ none
      ∧ headsReady s l = true)) : laneStartOn tag l s = replyRefused kindLaneStart tag .state [] s := by
  rw [laneStartOn]
  by_cases idle : (s.lane l).mode = .disabled
  · rw [if_neg (not_not_intro idle)]
    split
    · rfl
    · next st settings =>
      rw [if_neg fun ready => not ⟨idle, by simp [settings], ready⟩]
  · rw [if_pos idle]

/-- The lane starts (R8). -/
theorem laneStartOn_starts (tag : Byte) {st : LaneSettings} (idle : (s.lane l).mode = .disabled)
    (settings : (s.lane l).settings = some st) (ready : headsReady s l = true) :
    laneStartOn tag l s = replyDone kindLaneStart tag
      (le32 (s.lane l).enc.position.toNat ++ le32 (s.lane l).triggerIndex.toNat) (startLane st l s) := by
  rw [laneStartOn, if_neg (not_not_intro idle), settings]
  exact if_pos ready

/-- The calibration records of a lane's heads, each changed once. -/
theorem updCals_laneHeads (sound : HeadLanesSound s) (f : CalRecord → CalRecord) (t : State) (h : HeadId) :
    (updCals (laneHeads s l) f t).calOf h = match (s.head h).settings with
      | none => t.calOf h
      | some st => if st.lane = some l then f (t.calOf h) else t.calOf h := by
  rw [updCals_calOf laneHeads_nodup]
  cases settings : (s.head h).settings with
  | none =>
    have : h ∉ laneHeads s l := fun listed => by
      obtain ⟨st, some', _⟩ := laneHeads_assigned listed
      rw [settings] at some'
      cases some'
    rw [if_neg this]
  | some st =>
    have : h ∈ laneHeads s l ↔ st.lane = some l := by
      refine ⟨fun listed => ?_, laneHeads_complete sound settings⟩
      obtain ⟨su, same, on⟩ := laneHeads_assigned listed
      rw [settings] at same
      rwa [Option.some.inj same]
    simp only [this]

end

/-- Settles O30: the refusals of `laneStartOn`, then its start, with the calibration records head by head. -/
theorem laneStartRunsTheLane : Obligations.LaneStartRunsTheLane := by
  intro s₀ r rest s can sound u refusal
  have taken : exec .laneStart s₀ = .next (laneStartBody r.tag r.payload u) := takeKind_next can
  rw [taken]
  refine ⟨fun bad => ?_, fun l named => ?_⟩
  · rw [laneStartBody, laneOf?_none bad]
    rfl
  · intro ready started
    have body : laneStartBody r.tag r.payload u = laneStartOn r.tag l u := by rw [laneStartBody, named]
    have isReady : headsReady u l = true ↔ ready := headsReady_iff sound
    rw [body]
    refine ⟨fun runs => congrArg _ (laneStartOn_refuses _ fun ⟨idle, _⟩ => runs idle),
      fun unset => congrArg _ (laneStartOn_refuses _ fun ⟨_, isSet, _⟩ => isSet unset),
      fun unready => congrArg _ (laneStartOn_refuses _ fun ⟨_, _, isr⟩ => unready (isReady.mp isr)),
      fun st idle settings here => ?_⟩
    have cals (h : HeadId) : (startLane st l u).calOf h = started h := updCals_laneHeads sound _ _ h
    rw [laneStartOn_starts (s := u) _ idle settings (isReady.mpr here), ← cals, ← cals, ← cals, ← cals, startLane,
      updCals_frame]
    rfl

end Sys2Proof.Machine

namespace Sys2Proof.Machine

/-! ### STATUS -/

/-- Three flags as a byte (R188). -/
theorem packFlags_three (a b c : Bool) : packFlags [a, b, c] = flagByte a + 2 * flagByte b + 4 * flagByte c := by
  revert a b c
  decide

/-- Eight flags as a byte (R188). -/
theorem packFlags_eight (a b c d e f g h : Bool) : packFlags [a, b, c, d, e, f, g, h]
    = flagByte a + 2 * flagByte b + 4 * flagByte c + 8 * flagByte d + 16 * flagByte e + 32 * flagByte f
      + 64 * flagByte g + 128 * flagByte h := by
  revert a b c d e f g h
  decide

section
variable {s : State} {tag : Byte} {p : List Byte}

/-- A STATUS for the link (R181, R182). -/
theorem statusBody_link (target : fieldAt p 0 1 = 0) : statusBody tag p s = statusOfLink tag (clearSet p) s := by
  rw [statusBody, target]
  rfl

/-- A STATUS for a lane (R181). -/
theorem statusBody_lane {l : Lane} (target : fieldAt p 0 1 = 1) (named : laneOf? (fieldAt p 1 1) = some l) :
    statusBody tag p s = statusOfLane tag l (clearSet p) s := by
  rw [statusBody, target, named]
  rfl

/-- A STATUS for a head (R181). -/
theorem statusBody_head {h : HeadId} (target : fieldAt p 0 1 = 2) (named : Four.ofNat? (fieldAt p 1 1) = some h) :
    statusBody tag p s = statusOfHead tag h (clearSet p) s := by
  rw [statusBody, target, named]
  rfl

/-- A STATUS for a target that does not exist (R181). -/
theorem statusBody_none (missing : 3 ≤ fieldAt p 0 1 ∨ fieldAt p 0 1 = 1 ∧ 2 ≤ fieldAt p 1 1
      ∨ fieldAt p 0 1 = 2 ∧ 4 ≤ fieldAt p 1 1) : statusBody tag p s = replyRefused kindStatus tag .range [] s := by
  rcases missing with beyond | ⟨target, beyond⟩ | ⟨target, beyond⟩
  · obtain ⟨k, other⟩ := Nat.exists_eq_add_of_le' beyond
    rw [statusBody, other]
    rfl
  · rw [statusBody, target, laneOf?_none beyond]
    rfl
  · rw [statusBody, target, fourOf?_none beyond]
    rfl

end

/-- The entries of lane STATUS as R17 lists them. -/
theorem boardEntryBytes_eq (b : BoardRecord) : boardEntryBytes b =
    le32 (match b.binding with | some t => t.tag.toNat | none => 0)
      ++ [b.state.code, match b.verdictPart.verdict with | some v => v.code | none => 0xFF] := by
  unfold boardEntryBytes BoardRecord.tag
  cases b.binding <;> rfl

theorem headLaneCode_eq (lane : Option Lane) :
    headLaneCode lane = match lane with | some .a => 0 | some .b => 1 | none => 2 := by
  rcases lane with _ | _ | _ <;> rfl

/-- Head STATUS as R65 lists it. -/
theorem headStatusBytes_eq (x : HeadPort) (c : CalRecord) : headStatusBytes x c =
    [flagByte x.settings.isSome,
      match x.settings with
      | none => 2
      | some st => match st.lane with | some .a => 0 | some .b => 1 | none => 2,
      match x.settings with | some st => byteOf st.laneOrder | none => 0,
      match x.mode with | .unaligned => 0 | .aligning _ => 1 | .aligned => 2, byteOf x.tap]
      ++ (match x.front with | some f => 1 :: le32 f.toNat | none => [0, 0, 0, 0, 0])
      ++ [byteOf x.outstanding.length,
          flagByte x.framing + 2 * flagByte x.check + 4 * flagByte x.stray + 8 * flagByte x.skipped
            + 16 * flagByte x.missed + 32 * flagByte x.silent + 64 * flagByte c.overdue + 128 * flagByte c.calFaulted]
      ++ unset16 c.zero ++ unset16 c.gain ++ [BitVec.ofInt 8 c.balance] := by
  simp only [headStatusBytes, headFlagByte, packFlags_eight, headLaneCode_eq]
  cases x.front <;> cases x.settings <;> rfl

/-- Settles O27: each target by its record and its clear set. -/
theorem statusAnswersThenClears : Obligations.StatusAnswersThenClears := by
  intro s₀ r rest s can u target clear refusal
  have link (row : fieldAt r.payload 0 1 = 0 ∨ 3 ≤ fieldAt r.payload 0 1) :
      exec .linkStatus s₀ = .next (statusBody r.tag r.payload u) := takeVariant_next can row
  have lane (row : fieldAt r.payload 0 1 = 1 ∨ 3 ≤ fieldAt r.payload 0 1) :
      exec .laneStatus s₀ = .next (statusBody r.tag r.payload u) := takeVariant_next can row
  have head (row : fieldAt r.payload 0 1 = 2 ∨ 3 ≤ fieldAt r.payload 0 1) :
      exec .headStatus s₀ = .next (statusBody r.tag r.payload u) := takeVariant_next can row
  have cleared : clearSet r.payload = clear := rfl
  have nowhere := statusBody_none (s := u) (tag := r.tag) (p := r.payload)
  refine ⟨⟨rfl, rfl, rfl, rfl⟩, fun isLink => ?_, fun isLane => ?_, fun isHead => ?_, fun beyond => ?_⟩
  · rw [link (.inl isLink), statusBody_link isLink, statusOfLink, cleared]
    refine ⟨fun may => ?_, fun other => ?_⟩
    · rw [if_pos ((namesOnly_link _).mpr may), linkStatusBytes, linkFlagByte, packFlags_three]
      rfl
    · rw [if_neg fun names => absurd ((namesOnly_link _).mp names) (Nat.not_lt.mpr other)]
      rfl
  · refine ⟨fun l named => ?_, fun other => ?_⟩
    · rw [lane (.inl isLane), statusBody_lane isLane named, statusOfLane, cleared]
      refine ⟨fun may => ?_, fun other => ?_⟩
      · rw [if_pos ((namesOnly_lane _).mpr may), laneStatusBytes, laneFlagByte, packFlags_three,
          funext boardEntryBytes_eq]
        rfl
      · rw [if_neg fun names => other ((namesOnly_lane _).mp names)]
        rfl
    · rw [lane (.inl isLane), nowhere (.inr (.inl ⟨isLane, other⟩))]
      rfl
  · refine ⟨fun h named => ?_, fun other => ?_⟩
    · rw [head (.inl isHead), statusBody_head isHead named, statusOfHead, cleared]
      refine ⟨fun may => ?_, fun other => ?_⟩
      · intro x c orUnset lane laneOrder mode
        rw [if_pos ((namesOnly_head _).mpr may), headStatusBytes_eq]
        rfl
      · rw [if_neg fun names => absurd ((namesOnly_head _).mp names) (Nat.not_lt.mpr other)]
        rfl
    · rw [head (.inl isHead), nowhere (.inr (.inr ⟨isHead, other⟩))]
      rfl
  · rw [link (.inr beyond), lane (.inr beyond), head (.inr beyond), nowhere (.inl beyond)]
    exact ⟨rfl, rfl, rfl⟩

end Sys2Proof.Machine

namespace Sys2Proof.Machine

/-! ### LANE_STOP -/

section
variable {s : State} {tag : Byte} {p : List Byte} {l : Lane}

/-- A lane or a mode that does not exist (R10, R12). -/
theorem laneStopBody_range (bad : 2 ≤ fieldAt p 1 1 ∨ 2 ≤ fieldAt p 0 1) :
    laneStopBody tag p s = replyRefused kindLaneStop tag .range [] s := by
  cases named : laneOf? (fieldAt p 0 1) with
  | none => rw [laneStopBody, named]
  | some l =>
    have known := laneOf?_some named
    obtain ⟨k, mode⟩ := Nat.exists_eq_add_of_le' (bad.resolve_right (by omega))
    rw [laneStopBody, named, mode]
    rfl

theorem laneStopBody_drain (named : laneOf? (fieldAt p 0 1) = some l) (mode : fieldAt p 1 1 = 0) :
    laneStopBody tag p s = drainLane tag l s := by
  rw [laneStopBody, named, mode]
  rfl

theorem laneStopBody_abandon (named : laneOf? (fieldAt p 0 1) = some l) (mode : fieldAt p 1 1 = 1) :
    laneStopBody tag p s = abandonOn tag l s := by
  rw [laneStopBody, named, mode]
  rfl

/-- DRAIN of a running lane without boards leaves it (R10). -/
theorem drainLane_empty (runs : (s.lane l).mode = .running) (empty : (s.lane l).transit = []) :
    drainLane tag l s = replyDone kindLaneStop tag (stopResult .disabled 0) (enterDisabled l s) := by
  rw [drainLane, runs]
  exact if_pos empty

/-- DRAIN of a running lane with boards puts it in STOPPING (R10). -/
theorem drainLane_boards (runs : (s.lane l).mode = .running) (boards : (s.lane l).transit ≠ []) :
    drainLane tag l s = replyDone kindLaneStop tag (stopResult .stopping 0)
      (s.updLane l fun x => { x with mode := .stopping }) := by
  rw [drainLane, runs]
  exact if_neg boards

end

/-- Settles O31: each mode by the lane state, with the lane left as `enterDisabled` and `abandonLane` leave it. -/
theorem laneStopDrainsOrAbandons : Obligations.LaneStopDrainsOrAbandons := by
  intro s₀ r rest s can u mode refusal
  have drain (row : mode = 0 ∨ 2 ≤ mode) : exec .laneStopDrain s₀ = .next (laneStopBody r.tag r.payload u) :=
    takeVariant_next can row
  have abandon (row : mode = 1 ∨ 2 ≤ mode) : exec .laneStopAbandon s₀ = .next (laneStopBody r.tag r.payload u) :=
    takeVariant_next can row
  refine ⟨fun bad => ⟨fun row => ?_, fun row => ?_⟩, fun l named => ⟨fun isDrain => ?_, fun isAbandon => ?_⟩⟩
  · rw [drain (by omega), laneStopBody_range bad]
    rfl
  · rw [abandon (by omega), laneStopBody_range bad]
    rfl
  · rw [drain (.inl isDrain), laneStopBody_drain named isDrain]
    refine ⟨fun idle => ?_, fun stopping => ?_, fun runs boards => ?_, fun runs empty => ?_⟩
    · rw [drainLane, show (u.lane l).mode = _ from idle]
      rfl
    · rw [drainLane, show (u.lane l).mode = _ from stopping]
      rfl
    · exact congrArg _ (drainLane_boards (s := u) runs boards)
    · exact ⟨enterDisabled l u, congrArg _ (drainLane_empty (s := u) runs empty), enterDisabled_left l u empty⟩
  · rw [abandon (.inl isAbandon), laneStopBody_abandon named isAbandon]
    refine ⟨fun idle => congrArg _ (if_pos idle), fun runs =>
      ⟨abandonLane l u, congrArg _ (if_neg runs), abandonLane_left l u, ?_⟩⟩
    intro out held parts done first order idle decided released cut
    have left : Abandoned l held u (abandonLane l u) := abandonLane_abandoned parts order done first idle
    exact ⟨left.verdicts, left.outbox, left.ready, left.units, left.pointer, left.other⟩

end Sys2Proof.Machine

namespace Sys2Proof.Machine

/-! ### ENCODER_STATE_CHANGE -/

/-- The table of R1 as turns of the pair: each change from a reference to a new pair. -/
theorem encoderChange_same (p q : Bool) : encoderChange p q p q = .same := by
  cases p <;> cases q <;> rfl

theorem encoderChange_forward (p q : Bool) : encoderChange p q (!q) p = .forward := by
  cases p <;> cases q <;> rfl

theorem encoderChange_backward (p q : Bool) : encoderChange p q q (!p) = .backward := by
  cases p <;> cases q <;> rfl

theorem encoderChange_illegal (p q : Bool) : encoderChange p q (!p) (!q) = .illegal := by
  cases p <;> cases q <;> rfl

section
variable (x : LaneState)

theorem decodeEncoder_same : x.decodeEncoder x.enc.refP x.enc.refQ = x := by
  rw [LaneState.decodeEncoder, encoderChange_same]

/-- A forward step: an advance with deficit 0, else the deficit is paid back (R2). -/
theorem decodeEncoder_forward : x.decodeEncoder (!x.enc.refQ) x.enc.refP = { x with
    enc :=
      { refP := !x.enc.refQ, refQ := x.enc.refP, raw := x.enc.raw + 1,
        position := if x.enc.deficit = 0 then x.enc.position + 1 else x.enc.position,
        deficit := x.enc.deficit - 1 } } := by
  rw [LaneState.decodeEncoder, encoderChange_forward]
  by_cases paid : x.enc.deficit = 0 <;> simp [Encoder.forwardCount, Encoder.observe, paid]

/-- A reverse step that is counted (R2, R3). -/
theorem decodeEncoder_backward (room : x.enc.deficit < 1048575) : x.decodeEncoder x.enc.refQ (!x.enc.refP) = { x with
    enc :=
      { refP := x.enc.refQ, refQ := !x.enc.refP, raw := x.enc.raw - 1, position := x.enc.position,
        deficit := x.enc.deficit + 1 }
    reversed := x.reversed || decide (x.enc.deficit = 4096) } := by
  have counted : x.enc.deficit < Config.deficitLimit := room
  rw [LaneState.decodeEncoder, encoderChange_backward]
  dsimp only
  rw [Encoder.reverseCount, if_pos counted]
  rfl

/-- A reverse step at the limit of the deficit is not counted (R2). -/
theorem decodeEncoder_limit (limit : x.enc.deficit = 1048575) : x.decodeEncoder x.enc.refQ (!x.enc.refP) = { x with
    enc := { x.enc with refP := x.enc.refQ, refQ := !x.enc.refP } } := by
  rw [LaneState.decodeEncoder, encoderChange_backward]
  dsimp only
  rw [Encoder.reverseCount, if_neg (by rw [limit]; decide), limit]
  simp [Encoder.observe, Config.reversedLimit, limit]

/-- An illegal transition (R3). -/
theorem decodeEncoder_illegal : x.decodeEncoder (!x.enc.refP) (!x.enc.refQ) = { x with
    enc := { x.enc with refP := !x.enc.refP, refQ := !x.enc.refQ }, encoderFault := true } := by
  rw [LaneState.decodeEncoder, encoderChange_illegal]
  rfl

end

/-! ### The events reached, counted -/

/-- What each element gives to a count at most once is counted over a list of them. -/
theorem count_flatMap_countP {α : Type} {f : α → List Watched} {w : Watched} {p : α → Bool}
    (each : ∀ a, (f a).count w = if p a then 1 else 0) (as : List α) : (as.flatMap f).count w = as.countP p := by
  induction as with
  | nil => rfl
  | cons a as ih => rw [List.flatMap_cons, List.count_append, List.countP_cons, ih, each, Nat.add_comm]

/-- Whether a record is due an event: its position is reached and its event not yet taken (R37, R39, R40). -/
def recordDue (st : LaneSettings) (position : Word) (w : Watched) (r : BoardRecord) : Bool :=
  match w with
  | .deadline => deadlineDue st position r
  | .gateStart => !r.inWindow && reached position (gateStart st r)
  | .gateEnd =>
    match r.pTrail with
    | some p => reached position (r.pLead + BitVec.ofNat 32 st.dGate + (p - r.pLead) + BitVec.ofNat 32 st.gateTail)
    | none => false
  | .trigger => false
  | .floodEnd => false

/-- Whether the lane is due the event of its flood end (R27). -/
def floodEndDue (x : LaneState) : Bool :=
  match x.floodEnd with
  | .position p => reached x.enc.position p
  | .absent => false
  | .opened => false
  | .passed => false

theorem dueOfRecord_eq (st : LaneSettings) (position : Word) (r : BoardRecord) : dueOfRecord st position r =
    (if recordDue st position .deadline r then [.deadline] else [])
      ++ (if recordDue st position .gateStart r then [.gateStart] else [])
      ++ (if recordDue st position .gateEnd r then [.gateEnd] else []) := by
  unfold dueOfRecord
  congr 1
  · simp [recordDue, deadlineDue]
  · unfold gateEnd? BoardRecord.measuredLength recordDue
    cases r.pTrail <;> rfl

theorem dueOfRecord_count (st : LaneSettings) (position : Word) (w : Watched) (r : BoardRecord) :
    (dueOfRecord st position r).count w = if recordDue st position w r then 1 else 0 := by
  have never : recordDue st position .trigger r = false ∧ recordDue st position .floodEnd r = false := ⟨rfl, rfl⟩
  rw [dueOfRecord_eq, List.count_append, List.count_append, count_ite, count_ite, count_ite]
  cases w <;> simp [never]

theorem dueEvents_eq {x : LaneState} {st : LaneSettings} (settings : x.settings = some st) : dueEvents x =
    (if triggerDue x then [.trigger] else []) ++ x.transit.flatMap (dueOfRecord st x.enc.position)
      ++ (if floodEndDue x then [.floodEnd] else []) := by
  unfold dueEvents floodEndDue
  rw [settings]
  cases x.floodEnd <;> rfl

/-- The events that a lane is due: the trigger and the flood end at most once, the others by its records (R4). -/
theorem dueEvents_count {x : LaneState} {st : LaneSettings} (settings : x.settings = some st) (w : Watched) :
    (dueEvents x).count w = (if triggerDue x ∧ .trigger = w then 1 else 0)
      + x.transit.countP (recordDue st x.enc.position w) + (if floodEndDue x ∧ .floodEnd = w then 1 else 0) := by
  rw [dueEvents_eq settings, List.count_append, List.count_append, count_ite, count_ite,
    count_flatMap_countP (dueOfRecord_count st x.enc.position w)]

/-- Settles O42: the table of R1 case by case; the events reached as a lane and its records give them. -/
theorem encoderCountsTheBelt : Obligations.EncoderCountsTheBelt := by
  refine ⟨?_, fun s => takeReached_reset, fun s service => ?_, ?_⟩
  · intro s₀ l p q s service e
    have taken {p q : Bool} {f : LaneState → LaneState} (decoded : (s.lane l).decodeEncoder p q = f (s.lane l)) :
        exec (.encoderStateChange l p q) s₀ = .next (s.updLane l f) :=
      (inService_next service).trans (congrArg _ (updLane_congr l s decoded))
    refine ⟨?_, ?_, ?_, ?_, ?_⟩
    · rintro ⟨rfl, rfl⟩
      exact (taken (f := id) (decodeEncoder_same _)).trans (congrArg _ (updLane_id l s id rfl))
    · rintro ⟨rfl, rfl⟩
      exact taken (decodeEncoder_forward _)
    · rintro ⟨rfl, rfl⟩ room
      exact taken (decodeEncoder_backward _ room)
    · rintro ⟨rfl, rfl⟩ limit
      exact taken (decodeEncoder_limit _ limit)
    · rintro ⟨rfl, rfl⟩
      exact taken (decodeEncoder_illegal _)
  · have waned := takeReached_waned s
    refine ⟨waned.reset.trans service, ?_, fun l => ⟨(waned.lanes l).enc, (waned.lanes l).reversed,
      (waned.lanes l).fault, inService_next service, inService_next service, inService_next service,
      inService_next service, inService_next service⟩⟩
    rw [takeReached, if_neg (by simp [service])]
    exact takeAll_inOrder _ _ s
  · intro x st settings at'
    have count := dueEvents_count settings
    have never (w : Watched) (n : ∀ r, recordDue st x.enc.position w r = false) :
        x.transit.countP (recordDue st x.enc.position w) = 0 := List.countP_eq_zero.mpr fun r _ => by simp [n]
    have ofRecords {w : Watched} (t : .trigger ≠ w) (f : .floodEnd ≠ w) :
        (dueEvents x).count w = x.transit.countP (recordDue st x.enc.position w) := by simp [count, t, f]
    refine ⟨?_, ofRecords nofun nofun, ofRecords nofun nofun, ofRecords nofun nofun, ?_⟩
    · rw [count, never .trigger fun _ => rfl, triggerDue]
      cases x.nextTrigger <;> simp [at']
    · rw [count, never .floodEnd fun _ => rfl, floodEndDue]
      cases x.floodEnd <;> simp [at']

end Sys2Proof.Machine

namespace Sys2Proof.Machine

/-! ### LEADING_EDGE -/

/-- The lane that counts an untracked board: FLOOD asserts its output (R26, R160). -/
theorem countUntracked_reevaluate (x : LaneState) : x.countUntracked.reevaluate = { x with
    untracked := min 65535 (x.untracked + 1), flood := true, floodEnd := .opened, divert := true } := by
  simp [LaneState.countUntracked, LaneState.reevaluate, divertLevel, Config.counterLimit]

section
variable {s : State} {l : Lane}

/-- The leading edge at a full transit queue (R15, R26, R27). -/
theorem untrackedBoard_blocked {entries : List ExpectEntry} (left : (s.lane l).expect.tail = entries) :
    untrackedBoard l (setEye l true s) = releaseSlots ((s.lane l).expect.head?.map (·.slot)).toList (s.updLane l fun x =>
      { x with
        eyeBlocked := true, expect := entries, untracked := min 65535 (x.untracked + 1), flood := true,
        floodEnd := .opened, divert := true }) := by
  subst left
  rw [untrackedBoard_shape, releaseSlots_shape, funext fun x => countUntracked_reevaluate _]
  cases l <;> rfl

/-- A leading edge of a clear eye on a lane that runs is delivered (R15). -/
theorem takeLeadingEdge_delivers (clear : (s.lane l).eyeBlocked = false) (runs : (s.lane l).mode ≠ .disabled) :
    takeLeadingEdge l s = leadingEdge l (setEye l true s) := by
  rw [takeLeadingEdge, if_neg (by simp [clear]), if_neg runs]

theorem leadingEdge_full (full : 8 ≤ (s.lane l).transit.length) :
    leadingEdge l (setEye l true s) = untrackedBoard l (setEye l true s) :=
  if_pos (by simpa [setEye, Config.transitDepth] using full)

theorem leadingEdge_bound {e : ExpectEntry} {rest : List ExpectEntry} (room : (s.lane l).transit.length < 8)
    (front : (s.lane l).expect = e :: rest) :
    leadingEdge l (setEye l true s) = addBound l e rest (setEye l true s) := by
  rw [leadingEdge, if_neg (by simpa [setEye, Config.transitDepth] using room)]
  simp [setEye, front]

theorem leadingEdge_unbound (room : (s.lane l).transit.length < 8) (none' : (s.lane l).expect = []) :
    leadingEdge l (setEye l true s) = offerRelease l (addUnbound l (setEye l true s)) := by
  rw [leadingEdge, if_neg (by simpa [setEye, Config.transitDepth] using room)]
  simp [setEye, none']

end

/-- Settles O46: by the eye, the lane state, the room of the transit queue and the expect queue. -/
theorem leadingEdgeCreatesARecord : Obligations.LeadingEdgeCreatesARecord := by
  intro s₀ l s service x created flooded
  have taken : exec (.leadingEdge l) s₀ = .next (takeLeadingEdge l s) := inService_next service
  rw [taken]
  refine ⟨fun blocked => congrArg _ (if_pos blocked), fun (clear : (s.lane l).eyeBlocked = false) idle => ?_,
    fun clear runs full => ?_, fun clear runs room => ?_⟩
  · rw [takeLeadingEdge, if_neg (by simp [clear]), if_pos idle]
    rfl
  · rw [takeLeadingEdge_delivers clear runs, leadingEdge_full full]
    refine ⟨fun (none' : (s.lane l).expect = []) => ?_, fun e rest (front : (s.lane l).expect = e :: rest) => ?_⟩
    · rw [untrackedBoard_blocked (entries := []) (by rw [none']; rfl), none']
      rfl
    · rw [untrackedBoard_blocked (entries := rest) (by rw [front]; rfl), front]
      rfl
  · rw [takeLeadingEdge_delivers clear runs]
    refine ⟨fun e rest h front header => ?_, fun none' => ?_⟩
    · rw [leadingEdge_bound room front, addBound, setEye, updLane_updLane]
      refine congrArg _ (updLane_congr l s ?_)
      have binding : bindingOf (s.updLane l fun y => { y with eyeBlocked := true }) e
          = { tag := e.tag, slot := e.slot, boardLines := h.boardLines } := by
        simp [bindingOf, header]
      rw [binding]
      rfl
    · rw [leadingEdge_unbound room none', addUnbound, setEye, updLane_updLane]
      rfl

end Sys2Proof.Machine

namespace Sys2Proof.Machine

/-! ### Removals -/

/-- The lane after a removal, its output re-evaluated: FLOOD and the flood end go if the flood is ended (R27, R160). -/
def LaneState.settleFlood (ended : Bool) (x : LaneState) : LaneState :=
  { x with
    flood := x.flood && !ended
    floodEnd := if ended then .absent else x.floodEnd
    divert := decide (x.mode = .disabled) || (x.flood && !ended)
      || x.transit.any fun q => q.inWindow && decide (q.divertDecision = some true) }

/-- The flood is ended at a removal that empties the transit queue with the flood end reached (R27). -/
def LaneState.floodEnds (x : LaneState) : Bool := decide (x.transit = []) && floodEndReached x

theorem settleFlood_eq (ended : Bool) (x : LaneState) :
    x.settleFlood ended = if ended then x.reevaluate.clearFlood.reevaluate else x.reevaluate := by
  cases ended with
  | true => simp [LaneState.settleFlood, LaneState.reevaluate, LaneState.clearFlood, divertLevel]; rfl
  | false => simp [LaneState.settleFlood, LaneState.reevaluate, divertLevel]

/-- Whether the flood end has been reached, as R27 lists its cases. -/
theorem floodEndReached_eq (x : LaneState) : floodEndReached x = match x.floodEnd with
    | .passed => true
    | .position f => reached x.enc.position f
    | .absent => false
    | .opened => false := by
  unfold floodEndReached
  cases x.floodEnd <;> rfl

section
variable {l : Lane} {s : State}

/-- After a removal the flood is settled, and a STOPPING lane with no record left enters DISABLED (R11, R27). -/
theorem afterRemoval_reevaluate :
    afterRemoval l (reevaluate l s) = stopIfEmpty l (s.updLane l (LaneState.settleFlood (s.lane l).floodEnds)) := by
  have ends : ((reevaluate l s).lane l).transit = [] ∧ floodEndReached ((reevaluate l s).lane l) = true
      ↔ (s.lane l).floodEnds = true := by
    rw [reevaluate, State.lane_updLane, LaneState.floodEnds, Bool.and_eq_true, decide_eq_true_eq]
    rfl
  rw [afterRemoval]
  congr 1
  simp only [ends, funext (settleFlood_eq _)]
  split
  · rw [endFlood, reevaluate, reevaluate, updLane_updLane, updLane_updLane]
  · rfl

theorem stopIfEmpty_stays (stays : (s.lane l).transit ≠ [] ∨ (s.lane l).mode ≠ .stopping) : stopIfEmpty l s = s :=
  if_neg fun ⟨empty, stopping⟩ => stays.elim (· empty) (· stopping)

theorem stopIfEmpty_leaves (empty : (s.lane l).transit = []) (stopping : (s.lane l).mode = .stopping) :
    LaneLeft l s (stopIfEmpty l s) := by
  rw [stopIfEmpty, if_pos ⟨empty, stopping⟩]
  exact enterDisabled_left l s empty

end

/-! ### GATE_WINDOW_END -/

section
variable {l : Lane} {s : State} {st : LaneSettings} {r : BoardRecord} {rest : List BoardRecord}

/-- The front record stays before its gate window end, and while it is not DECIDED (R40). -/
theorem removeFront_stays (settings : (s.lane l).settings = some st) (front : (s.lane l).transit = r :: rest)
    (stays : ∀ p, gateEnd? st r = some p → ¬(reached (s.lane l).enc.position p = true ∧ r.state = .decided)) :
    removeFront l s = s := by
  rw [removeFront, front, settings]
  dsimp only
  split
  · rfl
  · next p ends => exact if_neg (stays p ends)

/-- A DECIDED front record leaves at its gate window end, with its reference (R40). -/
theorem removeFront_removes (settings : (s.lane l).settings = some st) (front : (s.lane l).transit = r :: rest)
    {p : Word} (ends : gateEnd? st r = some p) (passed : reached (s.lane l).enc.position p = true)
    (decided : r.state = .decided) : removeFront l s = afterRemoval l (dropFront l r rest s) := by
  rw [removeFront, front, settings]
  dsimp only
  rw [ends]
  exact if_pos ⟨passed, decided⟩

theorem releaseBinding_updLane (b : Option Binding) (f : LaneState → LaneState) :
    releaseBinding b (s.updLane l f) = (releaseBinding b s).updLane l f := by
  cases b <;> rfl

theorem releaseBinding_updSlot (b : Option Binding) (s : State) : releaseBinding b s = match b with
    | none => s
    | some b => s.updSlot b.slot RecipeSlot.release := by
  cases b <;> rfl

theorem releaseBinding_lane (b : Option Binding) : (releaseBinding b s).lane l = s.lane l := by
  cases b <;> rfl

end

/-- Settles O50: by the front record; what its removal leaves is settled as `afterRemoval` does. -/
theorem gateWindowEndRemovesTheFront : Obligations.GateWindowEndRemovesTheFront := by
  intro s l service x endPassed
  have taken : exec (.gateWindowEnd l) s = .next (removeFront l s) := inService_next service
  rw [taken]
  refine ⟨fun (empty : (s.lane l).transit = []) => ?_, fun st r rest settings front => ⟨fun held => ?_, ?_⟩⟩
  · rw [removeFront, empty]
  · refine congrArg _ (removeFront_stays settings front fun p ends ⟨_, decided⟩ => ?_)
    rcases held with untrailed | undecided
    · simp [gateEnd?, BoardRecord.measuredLength, untrailed] at ends
    · exact undecided decided
  · intro p trailed decided endPosition ended released removed
    have ends : gateEnd? st r = some endPosition := by
      rw [gateEnd?, BoardRecord.measuredLength, trailed]
      rfl
    refine ⟨fun short => congrArg _ (removeFront_stays settings front fun q ends' ⟨passed, _⟩ => ?_), fun passed => ?_⟩
    · obtain rfl := Option.some.inj (ends.symm.trans ends')
      rw [short] at passed
      cases passed
    · have slots : releaseBinding r.binding s = released := releaseBinding_updSlot r.binding s
      have lane : released.lane l = s.lane l := by rw [← slots, releaseBinding_lane]
      have floods : LaneState.floodEnds { s.lane l with transit := rest } = ended :=
        congrArg (decide (rest = []) && ·) (floodEndReached_eq _)
      have settled : afterRemoval l (dropFront l r rest s) = stopIfEmpty l removed := by
        rw [dropFront, afterRemoval_reevaluate, releaseBinding_updLane, slots, updLane_updLane]
        refine congrArg _ (updLane_congr l released ?_)
        rw [State.lane_updLane, lane, floods]
        rfl
      rw [removeFront_removes settings front ends passed decided, settled]
      have left : removed.lane l = _ := State.lane_updLane released l _
      refine ⟨fun stays => congrArg _ (stopIfEmpty_stays ?_), fun empty stopping => ⟨_, rfl, stopIfEmpty_leaves ?_ ?_⟩⟩
      · rw [left, lane]
        exact stays
      · rw [left]
        exact empty
      · rw [left, lane]
        exact stopping

end Sys2Proof.Machine

namespace Sys2Proof.Machine

/-! ### TRAILING_EDGE -/

/-- A trailing edge establishes an open flood end, and no other (R27). -/
theorem establishFloodEnd_eq (st : LaneSettings) (x : LaneState) : establishFloodEnd st x = { x with
    floodEnd :=
      if x.floodEnd = .opened then
        .position (x.enc.position + BitVec.ofNat 32 st.dGate + BitVec.ofNat 32 st.gateTail)
      else x.floodEnd } := by
  by_cases opened : x.floodEnd = .opened
  · simp only [establishFloodEnd, opened]
    rfl
  · rw [if_neg opened, establishFloodEnd]
    split
    · contradiction
    all_goals rfl

/-- What lies up to 2^31 counts ahead is not reached. -/
theorem reached_ahead {position lead gate tail : Word} (low : 1 ≤ gate.toNat) (high : gate.toNat ≤ 16777215)
    (short : tail.toNat ≤ 4095) : reached position (lead + gate + (position - lead) + tail) = false := by
  have ahead : lead + gate + (position - lead) + tail = position + (gate + tail) := by ring
  rw [reached, ahead]
  exact decide_eq_false (by bv_omega)

/-- The gate window end of a board that has just left the eye lies ahead (R39). -/
theorem gateEnd_ahead {st : LaneSettings} (low : 1 ≤ st.dGate) (high : st.dGate ≤ 16777215) (tail : st.gateTail ≤ 4095)
    (position lead : Word) :
    reached position (ahead (ahead lead st.dGate + (position - lead)) st.gateTail) = false := by
  refine reached_ahead ?_ ?_ ?_ <;> rw [BitVec.toNat_ofNat] <;> omega

/-- The length check of R30 as two bounds on the measured length. -/
theorem lengthMismatch_eq (s : State) (st : LaneSettings) (r : BoardRecord) (length : Nat) :
    lengthMismatch s st r length = match r.binding with
      | none => false
      | some b =>
        match (s.slot b.slot).header with
        | none => false
        | some h =>
          decide (length + h.lengthTol < b.boardLines * st.lineStep)
            || decide (b.boardLines * st.lineStep + h.lengthTol < length) := by
  unfold lengthMismatch headerOf
  cases r.binding with
  | none => rfl
  | some b =>
    cases header : (s.slot b.slot).header with
    | none => simp [header]
    | some h =>
      simp only [header]
      rw [← Bool.decide_or]
      congr 1
      simp only [eq_iff_iff]
      omega

/-- The newest record with its trailing edge, the length check taken if it is not DECIDED (R28, R30). -/
theorem takeTrail_eq (s : State) (st : LaneSettings) (position : Word) (r : BoardRecord) :
    takeTrail s st position r = { r with
      pTrail := some position
      verdictPart :=
        { r.verdictPart with
          flags :=
            { r.verdictPart.flags with
              lengthMismatch := r.verdictPart.flags.lengthMismatch
                || (decide (r.state ≠ .decided) && lengthMismatch s st r (position - r.pLead).toNat) } } } := by
  unfold takeTrail
  by_cases decided : r.state = .decided <;>
    cases mismatch : lengthMismatch s st r (position - r.pLead).toNat <;> simp [decided]

/-- What completion decides of a record that is not DECIDED (R35, R148, R149). -/
theorem decideBy_completion {r : BoardRecord} (undecided : r.state ≠ .decided) (policy : StalePolicy) (joints : Nat) :
    r.decideBy .completion policy joints = { r with
      state := .decided
      divertDecision := some (divertFor (verdictOf .completion policy r.verdictPart))
      verdictPart := { r.verdictPart with verdict := some (verdictOf .completion policy r.verdictPart) } } := by
  simp [BoardRecord.decideBy, undecided, BoardRecord.flagBefore, BoardRecord.cut, Cause.cutOutcome,
    BoardRecord.flagAbandon, BoardRecord.fix]

section
variable {l : Lane} {s : State} {st : LaneSettings} {r : BoardRecord}

/-- A trailing edge of a blocked eye on a lane that runs is delivered (R15). -/
theorem takeTrailingEdge_delivers (blocked : (s.lane l).eyeBlocked = true) (runs : (s.lane l).mode ≠ .disabled) :
    takeTrailingEdge l s = trailingEdge l (setEye l false s) := by
  rw [takeTrailingEdge, if_pos blocked, if_neg runs]

/-- The edge is discarded where every record has its trailing edge (R28). -/
theorem trailingEdge_stray (settings : (s.lane l).settings = some st)
    (stray : ∀ r, (s.lane l).transit.getLast? = some r → r.pTrail.isSome = true) :
    trailingEdge l s = s.updLane l (establishFloodEnd st) := by
  rw [trailingEdge, settings]
  dsimp only
  split
  · rfl
  · next r newest => exact if_pos (stray r newest)

/-- A glitch is removed (R29). -/
theorem trailingEdge_glitch (settings : (s.lane l).settings = some st) (newest : (s.lane l).transit.getLast? = some r)
    {b : Binding} (found : r.IsGlitch st (s.lane l).enc.position b) :
    trailingEdge l s = removeGlitch l b (s.updLane l (establishFloodEnd st)) := by
  obtain ⟨bound, untrailed, entering, below⟩ := found
  rw [trailingEdge, settings]
  dsimp only
  rw [newest]
  dsimp only
  rw [if_neg (by simp [untrailed]), bound]
  exact if_pos ⟨entering, below⟩

/-- Any other newest record without a trailing edge is closed (R28). -/
theorem trailingEdge_closes (settings : (s.lane l).settings = some st) (newest : (s.lane l).transit.getLast? = some r)
    (untrailed : r.pTrail = none) (noGlitch : ∀ b, ¬r.IsGlitch st (s.lane l).enc.position b) :
    trailingEdge l s = closeRecord l st r (s.updLane l (establishFloodEnd st)) := by
  rw [trailingEdge, settings]
  dsimp only
  rw [newest]
  dsimp only
  rw [if_neg (by simp [untrailed])]
  split
  · next b bound => exact if_neg fun ⟨entering, below⟩ => noGlitch b ⟨bound, untrailed, entering, below⟩
  · rfl

/-- The closing of a record whose gate window end lies ahead: its trailing edge, and completion if its joints are
complete (R28, R36). -/
theorem closeRecord_ahead (low : 1 ≤ st.dGate) (high : st.dGate ≤ 16777215) (tail : st.gateTail ≤ 4095) :
    closeRecord l st r s =
      if r.state ≠ .decided ∧ r.jointsComplete = true then
        decideRecord .completion l r.ident (closeTrail l st r.ident s)
      else closeTrail l st r.ident s := by
  have position : ∀ t, Quiet (closeTrail l st r.ident s) t → (t.lane l).enc.position = (s.lane l).enc.position := by
    intro t quiet
    rw [(quiet.lanes l).same, closeTrail, State.lane_updLane]
    rfl
  have short : ∀ t, Quiet (closeTrail l st r.ident s) t →
      endReached st (t.lane l) (takeTrail s st (s.lane l).enc.position r) = false := by
    intro t quiet
    rw [endReached, position t quiet, takeTrail_eq]
    exact gateEnd_ahead low high tail _ _
  rw [closeRecord, short, if_neg Bool.false_ne_true]
  split
  · exact decideRecord_quiet _ _ _ _
  · exact .refl _

/-- The newest record takes its trailing edge in its place (R28). -/
theorem closeTrail_last {before : List BoardRecord} (hx : (s.lane l).transit = before ++ [r])
    (sound : (s.lane l).ReleaseSound) : closeTrail l st r.ident s
      = s.updLane l fun x => { x with transit := before ++ [takeTrail s st x.enc.position r] } :=
  updLane_congr l s (mapRecord_eq hx sound _)

/-- A decision by completion, whole: the record is decided in its place and offered for release (R35, R36). -/
theorem decideRecord_completion {before after : List BoardRecord} (hx : (s.lane l).transit = before ++ r :: after)
    (sound : (s.lane l).ReleaseSound) (undecided : r.state ≠ .decided) : decideRecord .completion l r.ident s
      = offerRelease l (s.updLane l fun x => LaneState.reevaluate
          { x with transit := before ++ r.decideBy .completion (stalePolicyOf x) (jointCountOf s r) :: after }) := by
  rw [decideRecord, record?_split hx sound]
  dsimp only
  rw [if_neg undecided, cutItems, if_pos rfl, fixRecord, reevaluate, updLane_updLane]
  refine congrArg _ (updLane_congr l s ?_)
  rw [mapRecord_eq hx sound]

/-- A DECIDED record keeps its decision when its lane is offered for release. -/
theorem offerRelease_decided {before after : List BoardRecord} (hx : (s.lane l).transit = before ++ r :: after)
    (decided : r.state = .decided) : ∃ r', ((offerRelease l s).lane l).transit[before.length]? = some r'
      ∧ r'.ident = r.ident ∧ r'.state = .decided ∧ r'.pTrail = r.pTrail ∧ r'.divertDecision = r.divertDecision
      ∧ r'.verdictPart = { r.verdictPart with released := r'.verdictPart.released } := by
  obtain ⟨r', found, steady⟩ := forall₂_getElem? ((offerRelease_quiet l s).lanes l).records before.length
    (x := r) (by rw [hx]; simp)
  obtain ⟨state, divert, verdict⟩ := steady.decided decided
  exact ⟨r', found, by rw [steady.same], state, by rw [steady.same], divert, verdict⟩

/-- A change of a lane's records and output, and then quiet takings. -/
theorem Quiet.onlyRecords_after {t : State} {f : LaneState → LaneState} (q : Quiet (s.updLane l f) t)
    (shape : f (s.lane l) = { s.lane l with
      transit := (f (s.lane l)).transit, ready := (f (s.lane l)).ready, divert := (f (s.lane l)).divert }) :
    OnlyRecordsChange s t := by
  refine ⟨q.same, fun m => ?_⟩
  rw [(q.lanes m).same, State.lane_updLane_eq]
  split
  · next here =>
    rw [here, shape]
  · rfl

/-- The newest record with its joints complete takes its trailing edge and is decided (R28, R36). -/
theorem closeTrail_completes {before : List BoardRecord} (hx : (s.lane l).transit = before ++ [r])
    (sound : (s.lane l).ReleaseSound) (settings : (s.lane l).settings = some st) (undecided : r.state ≠ .decided) :
    decideRecord .completion l r.ident (closeTrail l st r.ident s)
      = offerRelease l (s.updLane l fun x => LaneState.reevaluate
          { x with
            transit := before ++ [(takeTrail s st (s.lane l).enc.position r).decideBy .completion st.stalePolicy
              (jointCountOf s r)] }) := by
  have lane : (closeTrail l st r.ident s).lane l
      = (s.lane l).mapRecord r.ident (takeTrail s st (s.lane l).enc.position) := State.lane_updLane s l _
  have shown := takeTrail_shown s st (s.lane l).enc.position r
  have at' : ((closeTrail l st r.ident s).lane l).transit
      = before ++ takeTrail s st (s.lane l).enc.position r :: [] := by
    rw [lane, mapRecord_eq hx sound]
  have sound' : ((closeTrail l st r.ident s).lane l).ReleaseSound := by
    rw [lane]
    exact LaneEdit.release_sound (.mapOne _ _ _ (takeTrail_shown s st _)) sound
  have state : (takeTrail s st (s.lane l).enc.position r).state = r.state := by rw [takeTrail_eq]
  have decided := decideRecord_completion at' sound' (by rw [state]; exact undecided)
  rw [shown.ident] at decided
  rw [decided, closeTrail_last hx sound, updLane_updLane]
  refine congrArg _ (updLane_congr l s ?_)
  rw [jointCountOf_binding _ shown.binding, stalePolicyOf]
  dsimp only
  rw [settings]
  rfl

/-- A glitch leaves its entry at the front of the expect queue, and the flood is settled as after any removal (R29). -/
theorem removeGlitch_eq (b : Binding) : removeGlitch l b s = stopIfEmpty l
    (s.updLane l fun x => (x.returnEntry b).settleFlood ((s.lane l).returnEntry b).floodEnds) := by
  rw [removeGlitch, afterRemoval_reevaluate, State.lane_updLane, updLane_updLane]

end

/-- Settles O47: by the eye, the lane state and the newest record: discarded, a glitch, or closed. -/
theorem trailingEdgeClosesTheNewest : Obligations.TrailingEdgeClosesTheNewest := by
  intro s₀ l s service x
  have taken : exec (.trailingEdge l) s₀ = .next (takeTrailingEdge l s) := inService_next service
  rw [taken]
  refine ⟨fun (clear : (s.lane l).eyeBlocked = false) => ?_, fun (blocked : (s.lane l).eyeBlocked = true) idle => ?_, ?_⟩
  · rw [takeTrailingEdge, if_neg (by simp [clear])]
  · rw [takeTrailingEdge, if_pos blocked, if_pos idle]
    rfl
  intro st blocked runs settings low high tail floodEnd endPassed seen
  have sees : (setEye l false s).updLane l (establishFloodEnd st) = seen := by
    rw [setEye, updLane_updLane]
    exact updLane_congr l s (establishFloodEnd_eq st _)
  have eye : (setEye l false s).lane l = { s.lane l with eyeBlocked := false } := State.lane_updLane s l _
  have setup : ((setEye l false s).lane l).settings = some st := by rw [eye]; exact settings
  have seenLane : seen.lane l = { s.lane l with eyeBlocked := false, floodEnd := floodEnd } := State.lane_updLane s l _
  rw [takeTrailingEdge_delivers blocked runs]
  refine ⟨fun stray => ?_, ?_⟩
  · rw [trailingEdge_stray setup ?_, sees]
    rw [eye]
    intro q (newest : (s.lane l).transit.getLast? = some q)
    rcases stray with (empty : (s.lane l).transit = []) | ⟨r, p, last, trailed⟩
    · simp [empty] at newest
    · obtain rfl := Option.some.inj (last.symm.trans newest)
      rw [trailed]
      rfl
  intro before r (records : (s.lane l).transit = before ++ [r]) untrailed sound isGlitch
  have newest : ((setEye l false s).lane l).transit.getLast? = some r := by simp [eye, records]
  refine ⟨fun b ⟨_, entering, below⟩ bound => ?_, fun noGlitch => ?_⟩
  · intro ended returned
    have floods : ((seen.lane l).returnEntry b).floodEnds = ended := by
      rw [seenLane, LaneState.floodEnds, floodEndReached_eq]
      simp only [LaneState.returnEntry, records, List.dropLast_concat]
      rfl
    have settled : removeGlitch l b seen = stopIfEmpty l returned := by
      rw [removeGlitch_eq, floods]
      refine congrArg _ ((updLane_updLane l _ _ s).trans (updLane_congr l s ?_))
      simp only [LaneState.returnEntry, LaneState.settleFlood, records, List.dropLast_concat]
      rw [decide_eq_false runs, Bool.false_or]
    rw [trailingEdge_glitch setup newest ⟨bound, untrailed, entering, by rw [eye]; exact below⟩, sees, settled]
    have left : returned.lane l = _ := State.lane_updLane s l _
    refine ⟨fun stays => congrArg _ (stopIfEmpty_stays ?_), fun empty stopping => ⟨_, rfl, stopIfEmpty_leaves ?_ ?_⟩⟩
    · rw [left]
      exact stays.imp_right fun (running : (s.lane l).mode = .running) => by
        rw [show (s.lane l).mode = _ from running]
        nofun
    · rw [left]
      exact empty
    · rw [left]
      exact stopping
  · intro length mismatch closed
    have closes : takeTrail seen st (seen.lane l).enc.position r = closed := by
      rw [takeTrail_eq, lengthMismatch_eq, seenLane]
      rfl
    have records' : (seen.lane l).transit = before ++ [r] := by rw [seenLane]; exact records
    have sound' : (seen.lane l).ReleaseSound := by rw [seenLane]; exact sound
    have settings' : (seen.lane l).settings = some st := by rw [seenLane]; exact settings
    rw [trailingEdge_closes setup newest untrailed ?_, sees, closeRecord_ahead low high tail]
    · refine ⟨fun open' => ?_, fun undecided complete => ?_⟩
      · rw [if_neg ?_, closeTrail_last records' sound']
        · refine congrArg _ (updLane_congr l seen ?_)
          rw [closes]
        · rintro ⟨undecided, complete⟩
          rcases open' with decided | incomplete
          · exact undecided decided
          · simp [incomplete] at complete
      · rw [if_pos ⟨undecided, complete⟩, closeTrail_completes records' sound' settings' undecided, closes]
        have undecided' : closed.state ≠ .decided := undecided
        let w : State := seen.updLane l fun y => LaneState.reevaluate
          { y with transit := before ++ [closed.decideBy .completion st.stalePolicy (jointCountOf s r)] }
        have decided := decideBy_completion undecided' st.stalePolicy (jointCountOf s r)
        have records'' : (w.lane l).transit
            = before ++ closed.decideBy .completion st.stalePolicy (jointCountOf s r) :: [] := by
          rw [State.lane_updLane]
          rfl
        obtain ⟨r', found, ident, state, trail, divert, part⟩ := offerRelease_decided records'' (by rw [decided])
        rw [decided] at ident trail divert part
        exact ⟨_, r', rfl, found, ident, state, trail, ⟨divert, part⟩, (offerRelease_quiet l w).onlyRecords_after rfl, rfl⟩
    · rintro b ⟨bound, _, entering, below⟩
      exact noGlitch ⟨by simp [bound], entering, by rw [eye] at below; exact below⟩

end Sys2Proof.Machine

namespace Sys2Proof.Machine

/-! ### A trigger at a Head Port -/

/-- The claim after the eviction, with the trigger skipped at the limit and sent below it (R51). -/
theorem takeTrigger_eq (index : Word) (now : Nat) (y : HeadPort) :
    (y.takeTrigger index now).1 =
      let z := (HeadPort.evictFor index { y with lastTrigger := some index }).1
      if 4 ≤ z.outstanding.length then (z.claim index).skip index else (z.claim index).sendTrigger index now := by
  simp only [HeadPort.takeTrigger]
  exact apply_ite Prod.fst ..

/-- An evicted line that is not PENDING and listed leaves no trace at the port (R60). -/
theorem evictFor_silent {index : Word} {z : HeadPort} (quiet : ∀ old, Ring.get z.ring (slotOf index) = some old →
    old.status ≠ .pending ∨ ∀ e ∈ z.outstanding, e.index ≠ old.index) : (z.evictFor index).1 = z := by
  rw [HeadPort.evictFor]
  split
  · rfl
  · next old held =>
    rw [if_neg]
    rintro ⟨pending, listed⟩
    obtain ⟨e, mem, same⟩ := List.any_eq_true.1 listed
    rcases quiet old held with settled | unlisted
    · exact settled pending
    · exact unlisted e mem (of_decide_eq_true same)

/-- An evicted line that is PENDING and listed settles MISSED (R51 step 2). -/
theorem evictFor_loses {index : Word} {z : HeadPort} {old : Line} {e : Outstanding}
    (held : Ring.get z.ring (slotOf index) = some old) (pending : old.status = .pending) (listed : e ∈ z.outstanding)
    (same : e.index = old.index) : (z.evictFor index).1 = z.loseTrigger old.index := by
  rw [HeadPort.evictFor, held]
  dsimp only
  rw [if_pos ⟨pending, List.any_eq_true.2 ⟨e, listed, decide_eq_true same⟩⟩]

/-- Unlisting a trigger listed once takes its entry out and keeps the order of the others. -/
theorem unlist_split {y : HeadPort} {t : Word} {before after : List Outstanding} {e : Outstanding}
    (listed : y.outstanding = before ++ e :: after) (here : e.index = t)
    (others : ∀ f ∈ before ++ after, f.index ≠ t) : y.unlist t = { y with outstanding := before ++ after } := by
  have kept : ∀ fs ⊆ before ++ after, fs.filter (fun f => !decide (f.index = t)) = fs := fun fs sub =>
    List.filter_eq_self.2 fun f mem => by simp [others f (sub mem)]
  rw [HeadPort.unlist, listed, List.filter_append, List.filter_cons_of_neg (by simp [here]),
    kept before (List.subset_append_left ..), kept after (List.subset_append_right ..)]

/-- The count of one more MISSED line: SILENT from the 64th on (R64). -/
theorem countMissed_eq (y : HeadPort) : y.countMissed = { y with
    missedRun := min 64 (y.missedRun + 1), silent := y.silent || decide (63 ≤ y.missedRun) } := by
  have full : min 64 (y.missedRun + 1) = 64 ↔ 63 ≤ y.missedRun := by omega
  simp only [HeadPort.countMissed, Config.silentRun, full]

/-- A settled line changes nothing of the ring outside its slot, so a claim of that slot covers it. -/
theorem put_settle (r : Ring) (t : Word) (status : LineStatus) (x : Line) :
    Ring.put (Ring.settle r t status) (slotOf t) x = Ring.put r (slotOf t) x := by
  unfold Ring.settle
  split
  · rfl
  · split
    · exact ringPut_put ..
    · rfl

/-- A line that has just been claimed settles in its slot. -/
theorem settle_put (r : Ring) (t : Word) (status status' : LineStatus) :
    Ring.settle (Ring.put r (slotOf t) { index := t, status := status }) t status'
      = Ring.put r (slotOf t) { index := t, status := status' } := by
  rw [Ring.settle, Ring.get_put_self]
  exact (if_pos rfl).trans (ringPut_put ..)

theorem claim_skip (z : HeadPort) (index : Word) : (z.claim index).skip index = { z with
    ring := Ring.put z.ring (slotOf index) { index := index, status := .missed }
    missedRun := min 64 (z.missedRun + 1)
    silent := z.silent || decide (63 ≤ z.missedRun)
    skipped := true } := by
  simp only [HeadPort.skip, HeadPort.settle, HeadPort.claim, countMissed_eq, settle_put]

/-- A lost line, its slot claimed by another: the loss shows in the list, the run and the flags alone. -/
theorem loseTrigger_claim {y : HeadPort} {index t : Word} {before after : List Outstanding} {e : Outstanding}
    (slot : slotOf t = slotOf index) (listed : y.outstanding = before ++ e :: after) (here : e.index = t)
    (others : ∀ f ∈ before ++ after, f.index ≠ t) : (y.loseTrigger t).claim index =
      HeadPort.claim index { y with
        outstanding := before ++ after
        missedRun := min 64 (y.missedRun + 1)
        silent := y.silent || decide (63 ≤ y.missedRun)
        missed := true } := by
  simp only [HeadPort.loseTrigger, unlist_split listed here others, HeadPort.settle, countMissed_eq, HeadPort.claim,
    ← slot, put_settle]

section
variable {index : Word} {now : Nat} {y : HeadPort}

/-- A trigger whose slot holds no PENDING listed line, below the limit: sent and listed (R51 step 4). -/
theorem takeTrigger_sends (quiet : ∀ old, Ring.get y.ring (slotOf index) = some old →
      old.status ≠ .pending ∨ ∀ e ∈ y.outstanding, e.index ≠ old.index) (below : y.outstanding.length < 4) :
    (y.takeTrigger index now).1 = { y with
      lastTrigger := some index
      outstanding := y.outstanding ++ [{ index := index, issued := now }]
      ring := Ring.put y.ring (slotOf index) { index := index, status := .pending }
      triggerLine := y.triggerLine ++ [triggerMessage index] } := by
  rw [takeTrigger_eq, evictFor_silent (z := { y with lastTrigger := some index }) quiet]
  exact if_neg (Nat.not_le.2 below)

/-- A trigger whose slot holds no PENDING listed line, at the limit: skipped (R51 step 3). -/
theorem takeTrigger_skips (quiet : ∀ old, Ring.get y.ring (slotOf index) = some old →
      old.status ≠ .pending ∨ ∀ e ∈ y.outstanding, e.index ≠ old.index) (limit : 4 ≤ y.outstanding.length) :
    (y.takeTrigger index now).1 = { y with
      lastTrigger := some index
      ring := Ring.put y.ring (slotOf index) { index := index, status := .missed }
      missedRun := min 64 (y.missedRun + 1)
      silent := y.silent || decide (63 ≤ y.missedRun)
      skipped := true } := by
  rw [takeTrigger_eq, evictFor_silent (z := { y with lastTrigger := some index }) quiet]
  exact (if_pos limit).trans (claim_skip _ index)

variable {old : Line} {before after : List Outstanding} {e : Outstanding}

/-- A trigger that evicts a PENDING listed line: the port takes it as if the loss had been counted before. -/
theorem takeTrigger_loses (held : Ring.get y.ring (slotOf index) = some old) (pending : old.status = .pending)
    (slot : slotOf old.index = slotOf index) (listed : y.outstanding = before ++ e :: after)
    (same : e.index = old.index) (others : ∀ f ∈ before ++ after, f.index ≠ old.index) :
    (y.takeTrigger index now).1 =
      let z : HeadPort := HeadPort.claim index { y with
        lastTrigger := some index
        outstanding := before ++ after
        missedRun := min 64 (y.missedRun + 1)
        silent := y.silent || decide (63 ≤ y.missedRun)
        missed := true }
      if 4 ≤ (before ++ after).length then z.skip index else z.sendTrigger index now := by
  have claimed := loseTrigger_claim (y := { y with lastTrigger := some index }) slot listed same others
  have left : (HeadPort.loseTrigger old.index { y with lastTrigger := some index }).outstanding = before ++ after :=
    congrArg HeadPort.outstanding claimed
  rw [takeTrigger_eq, evictFor_loses (z := { y with lastTrigger := some index }) held pending
    (by rw [listed]; simp) same]
  dsimp only
  rw [left, claimed]

end

/-! ### The receivers of a lane trigger -/

theorem triggerReceivers_nodup (s : State) (l : Lane) : (triggerReceivers s l).Nodup := by
  have ports : ((laneHeads s l).map TriggerTaker.headPort).Nodup :=
    laneHeads_nodup.map fun _ _ same => TriggerTaker.headPort.inj same
  have dues : ((laneHeads s l).map TriggerTaker.dueCount).Nodup :=
    laneHeads_nodup.map fun _ _ same => TriggerTaker.dueCount.inj same
  refine List.Nodup.append (List.Nodup.append ports (by decide) ?_) dues ?_
  · intro r port other
    obtain ⟨h, _, rfl⟩ := List.mem_map.1 port
    simp at other
  · intro r early due
    obtain ⟨h, _, rfl⟩ := List.mem_map.1 due
    simp at early

theorem headPort_mem_receivers {s : State} {l : Lane} {h : HeadId} :
    TriggerTaker.headPort h ∈ triggerReceivers s l ↔ h ∈ laneHeads s l := by
  simp [triggerReceivers]

theorem dueCount_mem_receivers {s : State} {l : Lane} {h : HeadId} :
    TriggerTaker.dueCount h ∈ triggerReceivers s l ↔ h ∈ laneHeads s l := by
  simp [triggerReceivers]

/-- No receiver changes the settings of a head. -/
theorem takeTriggerAt_settings (l : Lane) (t q : Word) (r : TriggerTaker) (s : State) (g : HeadId) :
    ((takeTriggerAt l t q r s).head g).settings = (s.head g).settings := by
  cases r with
  | headPort h =>
    rw [takeTriggerAt_headPort]
    split
    · next same => rw [same, takeTrigger_settings]
    · rfl
  | _ => rw [takeTriggerAt_head s (by simp)]

/-- Another receiver than a head's port leaves the port as it is. -/
theorem takeTriggerAt_head_ne {l : Lane} {t q : Word} {r : TriggerTaker} {h : HeadId} (other : r ≠ .headPort h)
    (s : State) : (takeTriggerAt l t q r s).head h = s.head h := by
  cases r with
  | headPort g => rw [takeTriggerAt_headPort, if_neg fun same => other (by rw [same])]
  | _ => exact takeTriggerAt_head s (by simp) h

theorem Quiet.calOf {s t : State} (quiet : Quiet s t) (g : HeadId) : t.calOf g = s.calOf g := by
  rw [quiet.same]
  rfl

/-- The calibration record of a head that is none of the lane's. -/
theorem takeTriggerAt_calOf_absent {l : Lane} {t q : Word} {r : TriggerTaker} {h : HeadId} {s : State}
    (absent : h ∉ laneHeads s l) (noPort : r ≠ .headPort h) (noDue : r ≠ .dueCount h) :
    (takeTriggerAt l t q r s).calOf h = s.calOf h := by
  cases r with
  | headPort g => exact headEvent_calOf_ne _ _ fun same => noPort (by rw [same])
  | boardSide => exact (boardTrigger_quiet l t q s).calOf h
  | scheduler => rfl
  | calibration =>
    show (calTrigger l t s).calOf h = _
    rw [calTrigger]
    split
    · rfl
    · rw [updCals_calOf laneHeads_nodup, if_neg absent]
  | dueCount g =>
    show (dueTrigger g s).calOf h = _
    rw [dueTrigger]
    split
    · rfl
    · split
      · rw [State.calOf_updCal_eq, if_neg fun same => noDue (by rw [same])]
        rfl
      · rfl

/-- The Window Scheduler alone sees the trigger, on its lane. -/
theorem takeTriggerAt_seen (l m : Lane) (t q : Word) (r : TriggerTaker) (s : State) :
    ((takeTriggerAt l t q r s).lane m).triggerSeen
      = if r = .scheduler ∧ m = l then t else (s.lane m).triggerSeen := by
  cases r with
  | headPort h =>
    show ((headEvent h _ s).lane m).triggerSeen = _
    rw [((headEvent_quiet h _ s).lanes m).same]
    rfl
  | boardSide =>
    show ((boardTrigger l t q s).lane m).triggerSeen = _
    rw [((boardTrigger_quiet l t q s).lanes m).same]
    rfl
  | scheduler =>
    have here : (takeTriggerAt l t q .scheduler s).lane m
        = if m = l then { s.lane l with triggerSeen := t } else s.lane m :=
      State.lane_updLane_eq s l m fun x => { x with triggerSeen := t }
    rw [here]
    by_cases same : m = l <;> simp [same]
  | calibration =>
    show ((calTrigger l t s).lane m).triggerSeen = _
    rw [calTrigger]
    split
    · rfl
    · rw [updCals_frame]
      rfl
  | dueCount h =>
    show ((dueTrigger h s).lane m).triggerSeen = _
    rw [dueTrigger]
    split
    · rfl
    · split <;> rfl

theorem takeTriggerAt_now (l : Lane) (t q : Word) (r : TriggerTaker) (s : State) :
    (takeTriggerAt l t q r s).now = s.now := by
  rw [(Near.takeTriggerAt l t q r s).same]

theorem dueTrigger_dueOf {h : HeadId} {s : State} {st : HeadSettings} (settings : (s.head h).settings = some st) :
    (dueTrigger h s).dueOf h = if st.calInterval ≤ s.dueOf h + 1 then 0 else s.dueOf h + 1 := by
  have counted : ∀ k, (s.setDue h k).dueOf h = k := fun k => Quad.get_set s.due h k
  rw [dueTrigger, settings]
  dsimp only
  split
  · exact counted 0
  · exact counted _

/-! ### All receivers of a lane trigger -/

section
variable {l : Lane} {t q : Word} {s : State} {h : HeadId}

theorem takeReceivers_near : Near s (takeAll (takeTriggerAt l t q) (triggerReceivers s l) s) :=
  takeAll_rel .refl .trans (fun _ _ => .ofQuiet ⟨rfl, fun _ => .refl _⟩) (Near.takeTriggerAt l t q) _ _

/-- The trigger is seen by the Window Scheduler (R13 step 4). -/
theorem takeReceivers_seen : ((takeAll (takeTriggerAt l t q) (triggerReceivers s l) s).lane l).triggerSeen = t := by
  refine takeAll_reaches (P := fun v => (v.lane l).triggerSeen = t) (a := .scheduler) (fun _ _ seen => seen)
    (fun v => ?_) (fun r v seen => ?_) _ s (by simp [triggerReceivers])
  · rw [takeTriggerAt_seen, if_pos ⟨rfl, rfl⟩]
  · rw [takeTriggerAt_seen, seen, ite_self]

theorem takeReceivers_seen_ne {m : Lane} (other : m ≠ l) :
    ((takeAll (takeTriggerAt l t q) (triggerReceivers s l) s).lane m).triggerSeen = (s.lane m).triggerSeen :=
  takeAll_keep (P := fun v => (v.lane m).triggerSeen = (s.lane m).triggerSeen) (fun _ _ same => same) _
    (fun r _ v same => by rw [takeTriggerAt_seen, if_neg fun both => other both.2, same]) s rfl

/-- Each port of the lane takes the trigger once (R51). -/
theorem takeReceivers_head (mem : h ∈ laneHeads s l) :
    (takeAll (takeTriggerAt l t q) (triggerReceivers s l) s).head h = ((s.head h).takeTrigger t s.now).1 := by
  refine takeAll_once (B := fun v => v.head h = s.head h ∧ v.now = s.now)
    (A := fun v => v.head h = ((s.head h).takeTrigger t s.now).1) (a := .headPort h) (fun _ _ same => same)
    (fun _ _ same => same) (fun r v other same => ?_) (fun v same => ?_) (fun r v other taken => ?_) _ s
    (triggerReceivers_nodup s l) (headPort_mem_receivers.2 mem) ⟨rfl, rfl⟩
  · rw [takeTriggerAt_head_ne other, takeTriggerAt_now]
    exact same
  · rw [takeTriggerAt_headPort, if_pos rfl, same.1, same.2]
  · rw [takeTriggerAt_head_ne other, taken]

/-- The due count of each head of the lane advances once (R14). -/
theorem takeReceivers_dueOf (mem : h ∈ laneHeads s l) {su : HeadSettings} (settings : (s.head h).settings = some su) :
    (takeAll (takeTriggerAt l t q) (triggerReceivers s l) s).dueOf h
      = if su.calInterval ≤ s.dueOf h + 1 then 0 else s.dueOf h + 1 := by
  refine takeAll_once (B := fun v => (v.head h).settings = some su ∧ v.dueOf h = s.dueOf h)
    (A := fun v => v.dueOf h = if su.calInterval ≤ s.dueOf h + 1 then 0 else s.dueOf h + 1) (a := .dueCount h)
    (fun _ _ same => same) (fun _ _ same => same) (fun r v other same => ?_) (fun v same => ?_)
    (fun r v other counted => ?_) _ s (triggerReceivers_nodup s l) (dueCount_mem_receivers.2 mem) ⟨settings, rfl⟩
  · rw [takeTriggerAt_settings, takeTriggerAt_due, if_neg other]
    exact same
  · rw [takeTriggerAt_due, if_pos rfl, dueTrigger_dueOf same.1, same.2]
  · rw [takeTriggerAt_due, if_neg other, counted]

/-- The heads of other lanes take nothing. -/
theorem takeReceivers_absent (absent : h ∉ laneHeads s l) :
    let u := takeAll (takeTriggerAt l t q) (triggerReceivers s l) s
    u.head h = s.head h ∧ u.calOf h = s.calOf h ∧ u.dueOf h = s.dueOf h := by
  refine (takeAll_keep (P := fun v => (∀ g, (v.head g).settings = (s.head g).settings)
    ∧ v.head h = s.head h ∧ v.calOf h = s.calOf h ∧ v.dueOf h = s.dueOf h) (fun _ _ same => same) _
    (fun r mem v same => ?_) s ⟨fun _ => rfl, rfl, rfl, rfl⟩).2
  obtain ⟨settings, head, cal, due⟩ := same
  have noPort : r ≠ .headPort h := fun same => absent (headPort_mem_receivers.1 (same ▸ mem))
  have noDue : r ≠ .dueCount h := fun same => absent (dueCount_mem_receivers.1 (same ▸ mem))
  refine ⟨fun g => (takeTriggerAt_settings l t q r v g).trans (settings g), ?_, ?_, ?_⟩
  · rw [takeTriggerAt_head_ne noPort, head]
  · rw [takeTriggerAt_calOf_absent (by rw [laneHeads_congr settings]; exact absent) noPort noDue, cal]
  · rw [takeTriggerAt_due, if_neg noDue, due]

end

/-! ### LANE_TRIGGER -/

/-- No trigger is due on a DISABLED lane or before its next trigger position (R13). -/
theorem issueTrigger_idle {l : Lane} {s : State} (idle : triggerDue (s.lane l) = false) : issueTrigger l s = s := by
  rw [issueTrigger]
  split
  · rw [idle]
    rfl
  · rfl

theorem issueTrigger_due {l : Lane} {s : State} {p : Word} {st : LaneSettings} (due : triggerDue (s.lane l) = true)
    (next : (s.lane l).nextTrigger = some p) (settings : (s.lane l).settings = some st) : issueTrigger l s
      = takeAll (takeTriggerAt l ((s.lane l).triggerIndex + 1) p) (triggerReceivers s l)
          (s.updLane l (LaneState.countTrigger p st.lineStep)) := by
  rw [issueTrigger, next, settings]
  exact if_pos due

/-- Settles O43: whether a trigger is due, then each receiver by its own effect in the free order, and the port of a
head by what its slot holds and how many triggers are outstanding. -/
theorem laneTriggerReachesItsReceivers : Obligations.LaneTriggerReachesItsReceivers := by
  intro s l service x index
  have taken : exec (.laneTrigger l) s = .next (issueTrigger l s) := inService_next service
  rw [taken]
  refine ⟨fun idle => congrArg _ (issueTrigger_idle ?_),
    fun p st runs (next : (s.lane l).nextTrigger = some p) here settings => ?_⟩
  · rcases idle with disabled | (below : ∀ p, (s.lane l).nextTrigger = some p → _)
    · rw [triggerDue, decide_eq_false (not_not_intro disabled), Bool.false_and]
    · rw [triggerDue]
      cases next : (s.lane l).nextTrigger with
      | none => exact Bool.and_false _
      | some p =>
        dsimp only
        rw [show reached (s.lane l).enc.position p = false from below p next, Bool.and_false]
  have due : triggerDue (s.lane l) = true := by
    rw [triggerDue, next, decide_eq_true runs]
    exact here
  let counted : State := s.updLane l (LaneState.countTrigger p st.lineStep)
  have issued : issueTrigger l s = takeAll (takeTriggerAt l index p) (triggerReceivers counted l) counted :=
    issueTrigger_due due next settings
  rw [issued]
  obtain ⟨order, perm, inOrder⟩ := takeAll_inOrder (takeTriggerAt l index p) (triggerReceivers counted l) counted
  have near : Near counted (takeAll (takeTriggerAt l index p) (triggerReceivers counted l) counted) :=
    takeReceivers_near
  refine ⟨_, order, rfl, perm, inOrder, ?_, fun m other => ?_, near.same, fun h absent => ?_, fun h mem => ?_⟩
  · have quiet := (near.lanes l).same
    rw [takeReceivers_seen, State.lane_updLane] at quiet
    exact quiet
  · have quiet := (near.lanes m).same
    rw [takeReceivers_seen_ne other, State.lane_updLane_ne _ _ other] at quiet
    exact quiet
  · exact takeReceivers_absent (s := counted) absent
  · intro y
    have head : (takeAll (takeTriggerAt l index p) (triggerReceivers counted l) counted).head h
        = (y.takeTrigger index s.now).1 := takeReceivers_head (s := counted) mem
    refine ⟨fun su setup => takeReceivers_dueOf (s := counted) mem setup, ?_, fun quiet => ?_, ?_⟩
    · rw [takeTriggerAt_headPort, if_pos rfl]
      exact head
    · rw [head]
      exact ⟨takeTrigger_sends quiet, takeTrigger_skips quiet⟩
    · intro old before e after held pending slot listed same others
      rw [head, takeTrigger_loses held pending slot listed same others]
      refine ⟨fun below => if_neg (Nat.not_le.2 below), fun limit => (if_pos limit).trans ?_⟩
      have run : min 64 (min 64 (y.missedRun + 1) + 1) = min 64 (y.missedRun + 2) := by omega
      have full : 63 ≤ y.missedRun ∨ 63 ≤ min 64 (y.missedRun + 1) ↔ 62 ≤ y.missedRun := by omega
      rw [claim_skip]
      simp only [run, Bool.or_assoc, ← Bool.decide_or, full]

end Sys2Proof.Machine

namespace Sys2Proof.Machine

/-! ### Queues and joints -/

/-- Settles O7: no change of a lane outgrows its queues, and no edit loses a joint. -/
theorem stepKeepsLaneQueues : Obligations.StepKeepsLaneQueues :=
  ⟨fun _ _ modes order queues stepped => step_keeps_queues modes order queues stepped,
    fun _ _ order references joints stepped => step_keeps_joints order references joints stepped⟩

end Sys2Proof.Machine

namespace Sys2Proof.Machine

/-! ### Decisions of a board record -/

/-- The counts and flags on which a cause fixes the verdict: the outstanding joints counted, the cause's flag set (R113,
R114, R147, R150). -/
def BoardRecord.judgedPart (cause : Cause) (joints : Nat) (r : BoardRecord) : VerdictFields :=
  let left := outstandingJoints joints r.work
  let counts := r.verdictPart.counts
  let flags := r.verdictPart.flags
  match cause with
  | .completion => r.verdictPart
  | .deadline =>
    { r.verdictPart with
      counts := { counts with late := counts.late + left }
      flags := { flags with lengthMismatch := flags.lengthMismatch || decide (r.pTrail = none) } }
  | .withdraw => { r.verdictPart with counts := { counts with skipped := counts.skipped + left } }
  | .abandon =>
    { r.verdictPart with
      counts := { counts with skipped := counts.skipped + left }, flags := { flags with abandoned := true } }

/-- What a cause leaves to the Window Scheduler of a record: no joint outstanding, unless by completion (R113, R114). -/
def BoardRecord.judgedWork (cause : Cause) (joints : Nat) (r : BoardRecord) : WorkFields :=
  if cause = .completion then r.work else { cursor := joints, queued := 0, inFlight := 0 }

/-- A decision, whole: by the counts and flags of its cause, the verdict and the divert decision that follow (R150). -/
theorem decideBy_eq {r : BoardRecord} (undecided : r.state ≠ .decided) (cause : Cause) (policy : StalePolicy)
    (joints : Nat) : r.decideBy cause policy joints = { r with
      state := .decided
      divertDecision := some (divertFor (verdictOf cause policy (r.judgedPart cause joints)))
      work := r.judgedWork cause joints
      verdictPart :=
        { r.judgedPart cause joints with verdict := some (verdictOf cause policy (r.judgedPart cause joints)) } } := by
  rw [BoardRecord.decideBy, if_neg undecided]
  cases cause with
  | completion => rfl
  | withdraw => rfl
  | abandon => rfl
  | deadline =>
    cases trail : r.pTrail <;>
      simp [BoardRecord.flagBefore, BoardRecord.cut, BoardRecord.flagAbandon, BoardRecord.fix, BoardRecord.judgedPart,
        BoardRecord.judgedWork, Cause.cutOutcome, Counts.add, trail]

/-- The same with the verdict found. -/
theorem decideBy_of_verdict {r : BoardRecord} (undecided : r.state ≠ .decided) {cause : Cause} {policy : StalePolicy}
    {joints : Nat} {v : Verdict} (found : verdictOf cause policy (r.judgedPart cause joints) = v) :
    r.decideBy cause policy joints = { r with
      state := .decided
      divertDecision := some (divertFor v)
      work := r.judgedWork cause joints
      verdictPart := { r.judgedPart cause joints with verdict := some v } } := by
  rw [decideBy_eq undecided, found]

/-- A cause other than completion counts each outstanding joint once (R118, R142). -/
theorem judgedPart_sum {cause : Cause} (cut : cause ≠ .completion) (joints : Nat) (r : BoardRecord) :
    (r.judgedPart cause joints).counts.sum = r.verdictPart.counts.sum + outstandingJoints joints r.work := by
  cases cause with
  | completion => exact absurd rfl cut
  | deadline => exact Counts.sum_add .late _ _
  | withdraw => exact Counts.sum_add .skipped _ _
  | abandon => exact Counts.sum_add .skipped _ _

/-- Settles O58: the decision by the verdict that `verdictOf` finds, row by row of R148. -/
theorem decisionsFollowTheTables : Obligations.DecisionsFollowTheTables := by
  intro cause policy joints r
  refine ⟨fun decided => if_pos decided, fun undecided => ?_⟩
  intro left counts flags part work unjudged failing doubtful decided
  have rows := verdictOf_cases cause policy (r.judgedPart cause joints)
  have part_eq : r.judgedPart cause joints = part := by
    cases cause <;> rfl
  have decides : ∀ v, verdictOf cause policy part = v → decided v (divertFor v) := fun v found => by
    refine (decideBy_of_verdict undecided (part_eq ▸ found)).trans ?_
    rw [part_eq]
    rfl
  rw [part_eq] at rows
  refine ⟨fun withdrawn => decides .withdrawn (if_pos withdrawn), fun kept u => decides .unjudged ((rows kept).1 u),
    fun kept u f => decides .fail ((rows kept).2.1 u f), fun kept u f d => decides .review ((rows kept).2.2.1 u f d),
    fun kept u f d => decides .pass ((rows kept).2.2.2 u f d), fun cut all => ?_⟩
  have sum : part.counts.sum = counts.sum + left := part_eq ▸ judgedPart_sum cut joints r
  omega

end Sys2Proof.Machine

namespace Sys2Proof.Machine

/-! ### The oldest record with a position to take -/

section
variable {α : Type} {p : α → Bool} {P : α → Prop} {xs before after : List α} {e : α}

/-- A search by a test of `P` finds the first element that has `P`. -/
theorem find?_first (tests : ∀ x, p x = true ↔ P x) (hx : xs = before ++ e :: after) (first : ∀ x ∈ before, ¬P x)
    (here : P e) : xs.find? p = some e := by
  rw [hx]
  exact find?_split p before e after ((tests e).2 here) fun x mem =>
    eq_false_of_ne_true fun h => first x mem ((tests x).1 h)

/-- It finds nothing where no element has `P`. -/
theorem find?_never (tests : ∀ x, p x = true ↔ P x) (never : ∀ x ∈ xs, ¬P x) : xs.find? p = none :=
  List.find?_eq_none.2 fun x mem h => never x mem ((tests x).1 h)

end

/-! ### DEADLINE -/

/-- A record has a deadline to take: it is not DECIDED and its deadline is reached (R37). -/
def BoardRecord.DeadlineDue (st : LaneSettings) (position : Word) (r : BoardRecord) : Prop :=
  r.state ≠ .decided ∧ reached position (deadlineOf st r) = true

section
variable {l : Lane} {s : State} {st : LaneSettings} {r : BoardRecord} {before after : List BoardRecord}

/-- The search for a deadline tests each record for one to take (R37). -/
theorem deadlineDue_iff (position : Word) (r : BoardRecord) :
    (decide (r.state ≠ .decided) && reached position (deadlineOf st r)) = true ↔ r.DeadlineDue st position := by
  rw [Bool.and_eq_true, decide_eq_true_eq, BoardRecord.DeadlineDue]

theorem takeDeadline_idle (settings : (s.lane l).settings = some st)
    (none' : ∀ r ∈ (s.lane l).transit, ¬r.DeadlineDue st (s.lane l).enc.position) : takeDeadline l s = s := by
  have search : dueDeadline (s.lane l) = none := by
    rw [dueDeadline, settings]
    exact find?_never (deadlineDue_iff _) none'
  rw [takeDeadline, search]

theorem takeDeadline_due (settings : (s.lane l).settings = some st) (hx : (s.lane l).transit = before ++ r :: after)
    (first : ∀ q ∈ before, ¬q.DeadlineDue st (s.lane l).enc.position)
    (due : r.DeadlineDue st (s.lane l).enc.position) : takeDeadline l s = decideAndExamine .deadline l r.ident s := by
  have search : dueDeadline (s.lane l) = some r := by
    rw [dueDeadline, settings]
    exact find?_first (deadlineDue_iff _) hx first due
  rw [takeDeadline, search]

/-- The decision of a record and the examination that follows change records only. -/
theorem decideAndExamine_onlyRecords (cause : Cause) (ident : Nat) :
    OnlyRecordsChange s (decideAndExamine cause l ident s) := (decideAndExamine_quiet cause l ident s).onlyRecords

end

/-- Settles O48: the oldest record with a deadline to take, and its decision as `decideAndExamine` makes it. -/
theorem deadlineDecidesTheRecord : Obligations.DeadlineDecidesTheRecord := by
  intro s l st service settings x due
  have taken : exec (.deadline l) s = .next (takeDeadline l s) := inService_next service
  rw [taken]
  refine ⟨fun none' => congrArg _ (takeDeadline_idle settings none'), fun before r after hx first here sound => ?_⟩
  have undecided : r.state ≠ .decided := here.1
  have policy : stalePolicyOf (s.lane l) = st.stalePolicy := by
    rw [stalePolicyOf, settings]
  have cut : Cause.deadline ≠ .completion := nofun
  rw [takeDeadline_due settings hx first here]
  obtain ⟨r', found, ident, state, trail, divert, verdict⟩ :=
    decideAndExamine_decides .deadline cut l s hx sound undecided
  rw [policy, decideBy_eq undecided] at divert verdict
  refine ⟨_, r', rfl, found, ident, state, trail, divert, verdict, decideAndExamine_onlyRecords _ _, ?_⟩
  have decided : decidedInPlace .deadline l before r after s = offerRelease l
      ((s.updLane l fun y => LaneState.reevaluate
          { y with
            transit := before ++ r.decideBy .deadline st.stalePolicy (jointCountOf s r) :: after
            ready := y.ready.filter fun i => !decide (i.record = r.ident) }).mapUnits fun e =>
        if e.item.lane = l ∧ e.item.record = r.ident then { e with discard := true } else e) := by
    rw [decidedInPlace]
    refine congrArg _ (congrArg _ (updLane_congr l s ?_))
    rw [policy]
  rw [decideAndExamine_eq cut hx sound undecided, decided]

end Sys2Proof.Machine

namespace Sys2Proof.Machine

/-! ### GATE_WINDOW_START -/

/-- A record has a gate window start to take: it is not in its window and its gate window start is reached (R39). -/
def BoardRecord.GateStartDue (st : LaneSettings) (position : Word) (r : BoardRecord) : Prop :=
  r.inWindow = false ∧ reached position (gateStart st r) = true

section
variable {l : Lane} {s : State} {st : LaneSettings} {r : BoardRecord} {before after : List BoardRecord}

/-- The search for a gate window start tests each record for one to take (R39). -/
theorem gateStartDue_iff (position : Word) (r : BoardRecord) :
    (!r.inWindow && reached position (gateStart st r)) = true ↔ r.GateStartDue st position := by
  rw [Bool.and_eq_true, Bool.not_eq_true', BoardRecord.GateStartDue]

theorem takeGateStart_idle (settings : (s.lane l).settings = some st)
    (none' : ∀ r ∈ (s.lane l).transit, ¬r.GateStartDue st (s.lane l).enc.position) : takeGateStart l s = s := by
  have search : dueGateStart (s.lane l) = none := by
    rw [dueGateStart, settings]
    exact find?_never (gateStartDue_iff _) none'
  rw [takeGateStart, search]

theorem takeGateStart_due (settings : (s.lane l).settings = some st) (hx : (s.lane l).transit = before ++ r :: after)
    (first : ∀ q ∈ before, ¬q.GateStartDue st (s.lane l).enc.position)
    (due : r.GateStartDue st (s.lane l).enc.position) : takeGateStart l s = enterWindow l r.ident s := by
  have search : dueGateStart (s.lane l) = some r := by
    rw [dueGateStart, settings]
    exact find?_first (gateStartDue_iff _) hx first due
  rw [takeGateStart, search]

/-- The record entered counts for the output by its divert decision alone (R160). -/
theorem divertLevel_entered (x : LaneState) (r : BoardRecord) (before after : List BoardRecord) :
    divertLevel { x with transit := before ++ { r with inWindow := true } :: after } =
      (decide (x.mode = .disabled) || x.flood || decide (r.divertDecision = some true)
        || (before ++ after).any fun q => q.inWindow && decide (q.divertDecision = some true)) := by
  simp only [divertLevel, List.any_append, List.any_cons, Bool.true_and]
  ac_rfl

/-- A gate window start, whole: the record enters its window in its place, and the output follows (R39, R161). -/
theorem enterWindow_eq (hx : (s.lane l).transit = before ++ r :: after) (sound : (s.lane l).ReleaseSound) :
    enterWindow l r.ident s = s.updLane l fun y =>
      { y with
        transit := before ++ { r with inWindow := true } :: after
        divert := decide (y.mode = .disabled) || y.flood || decide (r.divertDecision = some true)
          || (before ++ after).any fun q => q.inWindow && decide (q.divertDecision = some true) } := by
  rw [enterWindow, reevaluate, updLane_updLane]
  refine updLane_congr l s ?_
  rw [mapRecord_eq hx sound, LaneState.reevaluate, divertLevel_entered]

/-! ### FLOOD_END -/

theorem takeFloodEnd_idle (short : ∀ p, (s.lane l).floodEnd = .position p → reached (s.lane l).enc.position p = false) :
    takeFloodEnd l s = s := by
  rw [takeFloodEnd]
  split
  · rfl
  · rfl
  · rfl
  · next p position => rw [short p position, if_neg Bool.false_ne_true]

theorem takeFloodEnd_reached {p : Word} (position : (s.lane l).floodEnd = .position p)
    (passed : reached (s.lane l).enc.position p = true) : takeFloodEnd l s =
      if (s.lane l).transit = [] then endFlood l s else s.updLane l fun x => { x with floodEnd := .passed } := by
  rw [takeFloodEnd, position]
  exact if_pos passed

/-- FLOOD cleared on an empty lane: its output is asserted only while it is DISABLED (R27, R160). -/
theorem endFlood_empty (empty : (s.lane l).transit = []) : endFlood l s = s.updLane l fun y =>
    { y with flood := false, floodEnd := .absent, divert := decide (y.mode = .disabled) } := by
  rw [endFlood, reevaluate, updLane_updLane]
  refine updLane_congr l s ?_
  simp [LaneState.clearFlood, LaneState.reevaluate, divertLevel, empty]

end

/-- Settles O49: the gate window start by the oldest record with one to take, the flood end by whether the lane is
empty. -/
theorem gateWindowAndFloodPositions : Obligations.GateWindowAndFloodPositions := by
  intro s l service x
  have gate : exec (.gateWindowStart l) s = .next (takeGateStart l s) := inService_next service
  have flood : exec (.floodEnd l) s = .next (takeFloodEnd l s) := inService_next service
  rw [gate, flood]
  refine ⟨fun st settings => ?_, fun p position passed => ?_, fun short => congrArg _ (takeFloodEnd_idle short)⟩
  · intro due
    refine ⟨fun none' => congrArg _ (takeGateStart_idle settings none'), fun before r after hx first here sound => ?_⟩
    rw [takeGateStart_due settings hx first here, enterWindow_eq hx sound]
  · rw [takeFloodEnd_reached position passed]
    refine ⟨fun (empty : (s.lane l).transit = []) => ?_, fun boards => congrArg _ (if_neg boards)⟩
    rw [if_pos empty, endFlood_empty empty]

end Sys2Proof.Machine

namespace Sys2Proof.Machine

/-! ### EXPECT -/

section
variable {s : State} {tag : Byte} {p : List Byte} {l : Lane} {n : SlotId} {st : LaneSettings} {h : Header}

/-- The newest record may still prove a glitch, whose entry comes back (R21 check 6). -/
theorem newestProvisional_iff {x : LaneState} : newestProvisional st x = true ↔
    ∃ b, x.transit.getLast? = some b ∧ b.binding ≠ none ∧ b.state = .entering ∧ b.pTrail = none
      ∧ reached x.enc.position (glitchLimit st b) = false := by
  rw [newestProvisional]
  cases x.transit.getLast? with
  | none => simp
  | some b => simp [isProvisional, Option.isSome_iff_ne_none, and_assoc]

/-- Check 6 of R21. -/
theorem expectFull_iff {x : LaneState} : expectFull st x = true ↔
    4 ≤ x.expect.length ∨ (x.expect.length = 3 ∧ newestProvisional st x = true) := by
  rw [expectFull, Bool.or_eq_true, Bool.and_eq_true, decide_eq_true_eq, decide_eq_true_eq]
  rfl

/-- Check 7 of R21. -/
theorem tagStands_iff {x : LaneState} {t : Word} : tagStands t x = true ↔
    (∃ e ∈ x.expect, e.tag = t) ∨ ∃ b ∈ x.transit, b.tag = some t := by
  simp [tagStands]

/-- Check 1 of R21. -/
theorem expectBody_range (bad : 2 ≤ fieldAt p 0 1 ∨ fieldAt p 1 4 = 0 ∨ 4 ≤ fieldAt p 5 1) :
    expectBody tag p s = replyRefused kindExpect tag .range [] s := by
  rw [expectBody]
  rcases bad with lane | zero | slot
  · rw [laneOf?_none lane]
  · split
    · exact if_pos zero
    · rfl
  · rw [fourOf?_none slot]
    cases laneOf? (fieldAt p 0 1) <;> rfl

theorem expectBody_named (lane : laneOf? (fieldAt p 0 1) = some l) (nonzero : fieldAt p 1 4 ≠ 0)
    (slot : Four.ofNat? (fieldAt p 5 1) = some n) :
    expectBody tag p s = expectOn tag l (BitVec.ofNat 32 (fieldAt p 1 4)) n s := by
  rw [expectBody, lane, slot]
  exact if_neg nonzero

/-- Checks 2 and 3 of R21. -/
theorem expectOn_state (t : Word) (bad : (s.lane l).mode ≠ .running ∨ (s.slot n).state ≠ .ready) :
    expectOn tag l t n s = replyRefused kindExpect tag .state [] s := by
  rw [expectOn]
  by_cases stopped : (s.lane l).mode ≠ .running
  · rw [if_pos stopped]
  · rw [if_neg stopped, if_pos (bad.resolve_left stopped)]

/-- Checks 4 to 7 of R21, with the lane RUNNING and the slot READY. -/
theorem expectOn_refuses {t : Word} {code : RefusalCode} (runs : (s.lane l).mode = .running)
    (ready : (s.slot n).state = .ready) (settings : (s.lane l).settings = some st)
    (header : (s.slot n).header = some h) (refused : expectRefusal s l st h t = some code) :
    expectOn tag l t n s = replyRefused kindExpect tag code [] s := by
  rw [expectOn, if_neg (not_not_intro runs), if_neg (not_not_intro ready), settings, header]
  dsimp only
  rw [refused]

/-- The entry is queued (R21). -/
theorem expectOn_queues {t : Word} (runs : (s.lane l).mode = .running) (ready : (s.slot n).state = .ready)
    (settings : (s.lane l).settings = some st) (header : (s.slot n).header = some h)
    (passed : expectRefusal s l st h t = none) : expectOn tag l t n s =
      replyDone kindExpect tag [byteOf ((s.lane l).expect.length + 1)] (addExpect l { tag := t, slot := n } s) := by
  rw [expectOn, if_neg (not_not_intro runs), if_neg (not_not_intro ready), settings, header]
  dsimp only
  rw [passed]

end

/-- Settles O32: the checks one after another, as `expectRefusal` makes them. -/
theorem expectQueuesAnEntry : Obligations.ExpectQueuesAnEntry := by
  intro s₀ r rest s can u refusal tag
  have taken : exec .expect s₀ = .next (expectBody r.tag r.payload u) := takeKind_next can
  rw [taken]
  refine ⟨fun bad => congrArg _ (expectBody_range bad), fun l n lane nonzero slot => ?_⟩
  rw [expectBody_named lane nonzero slot]
  refine ⟨fun stopped => congrArg _ (expectOn_state (s := u) _ (.inl stopped)),
    fun unready => congrArg _ (expectOn_state (s := u) _ (.inr unready)), fun st h runs ready settings header => ?_⟩
  intro mismatch tooLong provisional full stands
  have isFull : expectFull st (u.lane l) = true ↔ full :=
    expectFull_iff.trans (or_congr_right (and_congr_right fun _ => newestProvisional_iff))
  have isStanding : tagStands (BitVec.ofNat 32 tag) (u.lane l) = true ↔ stands := tagStands_iff
  have refuses {code : RefusalCode} (refused : expectRefusal u l st h (BitVec.ofNat 32 tag) = some code) :
      Host.Outcome.next (expectOn r.tag l (BitVec.ofNat 32 tag) n u) = refusal code :=
    congrArg _ (expectOn_refuses (s := u) runs ready settings header refused)
  rw [← isFull, ← isStanding]
  exact ⟨fun m => refuses (if_pos m), fun m g => refuses ((if_neg m).trans (if_pos g)),
    fun m g f => refuses ((if_neg m).trans ((if_neg g).trans (if_pos f))),
    fun m g f d => refuses ((if_neg m).trans ((if_neg g).trans ((if_neg f).trans (if_pos d)))),
    fun m g f d => congrArg _ (expectOn_queues (s := u) runs ready settings header
      ((if_neg m).trans ((if_neg g).trans ((if_neg f).trans (if_neg d)))))⟩

end Sys2Proof.Machine

namespace Sys2Proof.Machine

/-! ### WITHDRAW -/

section
variable {s : State} {tag : Byte} {p : List Byte} {l : Lane} {t : Word}

/-- A lane that does not exist, or the tag 0 (R38). -/
theorem withdrawBody_range (bad : 2 ≤ fieldAt p 0 1 ∨ fieldAt p 1 4 = 0) :
    withdrawBody tag p s = replyRefused kindWithdraw tag .range [] s := by
  rw [withdrawBody]
  rcases bad with lane | zero
  · rw [laneOf?_none lane]
  · split
    · rfl
    · exact if_pos zero

theorem withdrawBody_named (lane : laneOf? (fieldAt p 0 1) = some l) (nonzero : fieldAt p 1 4 ≠ 0) :
    withdrawBody tag p s = withdrawOn tag l (BitVec.ofNat 32 (fieldAt p 1 4)) s := by
  rw [withdrawBody, lane]
  exact if_neg nonzero

/-- The oldest entry of the tag leaves the expect queue at its place (R38). -/
theorem withdrawEntry_eq {before after : List ExpectEntry} {e : ExpectEntry}
    (hx : (s.lane l).expect = before ++ e :: after) (first : ∀ f ∈ before, f.tag ≠ e.tag) : withdrawEntry l e s
      = (s.updLane l fun x => { x with expect := before ++ after }).updSlot e.slot RecipeSlot.release := by
  refine congrArg (releaseSlot e.slot) (updLane_congr l s ?_)
  have erased : (s.lane l).expect.eraseP (fun f => decide (f.tag = e.tag)) = before ++ after := by
    rw [hx, List.eraseP_append_right _ (by simpa using first), List.eraseP_cons_of_pos (by simp)]
  rw [erased]

theorem withdrawOn_entry {before after : List ExpectEntry} {e : ExpectEntry}
    (hx : (s.lane l).expect = before ++ e :: after) (tagged : e.tag = t) (first : ∀ f ∈ before, f.tag ≠ t) :
    withdrawOn tag l t s = replyDone kindWithdraw tag [0, 0xFF]
      ((s.updLane l fun x => { x with expect := before ++ after }).updSlot e.slot RecipeSlot.release) := by
  subst tagged
  have found : (s.lane l).expect.find? (fun f => decide (f.tag = e.tag)) = some e := by
    rw [hx]
    exact find?_split _ _ _ _ (by simp) (by simpa using first)
  rw [withdrawOn, found, ← withdrawEntry_eq hx first]

/-- No entry of the tag stands in the expect queue. -/
theorem noEntry (absent : ∀ e ∈ (s.lane l).expect, e.tag ≠ t) :
    (s.lane l).expect.find? (fun e => decide (e.tag = t)) = none := List.find?_eq_none.2 (by simpa using absent)

theorem withdrawOn_notFound (absent : ∀ e ∈ (s.lane l).expect, e.tag ≠ t) (none' : (s.lane l).taggedRecord t = none) :
    withdrawOn tag l t s = replyRefused kindWithdraw tag .notFound [] s := by
  rw [withdrawOn, noEntry absent, none']

theorem withdrawOn_tooLate {b : BoardRecord} (absent : ∀ e ∈ (s.lane l).expect, e.tag ≠ t)
    (found : (s.lane l).taggedRecord t = some b) (decided : b.state = .decided) :
    withdrawOn tag l t s = replyRefused kindWithdraw tag .tooLate [] s := by
  rw [withdrawOn, noEntry absent, found]
  exact if_pos decided

theorem withdrawOn_decides {b : BoardRecord} (absent : ∀ e ∈ (s.lane l).expect, e.tag ≠ t)
    (found : (s.lane l).taggedRecord t = some b) (undecided : b.state ≠ .decided) : withdrawOn tag l t s
      = replyDone kindWithdraw tag [1, b.state.code] (decideAndExamine .withdraw l b.ident s) := by
  rw [withdrawOn, noEntry absent, found]
  exact if_neg undecided

theorem taggedRecord_none {x : LaneState} (absent : ∀ b ∈ x.transit, b.tag ≠ some t) : x.taggedRecord t = none :=
  List.find?_eq_none.2 (by simpa using absent)

theorem taggedRecord_split {x : LaneState} {before after : List BoardRecord} {b : BoardRecord}
    (hx : x.transit = before ++ b :: after) (tagged : b.tag = some t) (first : ∀ q ∈ before, q.tag ≠ some t) :
    x.taggedRecord t = some b := by
  rw [LaneState.taggedRecord, hx]
  exact find?_split _ _ _ _ (by simpa using tagged) (by simpa using first)

end

/-- Settles O33: the expect queue first, then the transit queue, a record decided as `decideAndExamine` does. -/
theorem withdrawRemovesOrDecides : Obligations.WithdrawRemovesOrDecides := by
  intro s₀ r rest s can u refusal number tag
  have taken : exec .withdraw s₀ = .next (withdrawBody r.tag r.payload u) := takeKind_next can
  rw [taken]
  refine ⟨fun bad => congrArg _ (withdrawBody_range bad), fun l lane nonzero => ?_⟩
  rw [withdrawBody_named lane nonzero]
  refine ⟨fun before e after hx tagged first => congrArg _ (withdrawOn_entry (s := u) hx tagged first),
    fun absent unbound => congrArg _ (withdrawOn_notFound (s := u) absent (taggedRecord_none unbound)),
    fun before b after absent hx tagged first => ?_⟩
  have found : (u.lane l).taggedRecord tag = some b := taggedRecord_split hx tagged first
  refine ⟨fun decided => congrArg _ (withdrawOn_tooLate absent found decided), fun undecided sound => ?_⟩
  have cut : Cause.withdraw ≠ .completion := nofun
  obtain ⟨b', place, ident, state, -, divert, verdict⟩ :=
    decideAndExamine_decides .withdraw cut l u (before := before) hx sound undecided
  rw [decideBy_of_verdict undecided (if_pos rfl)] at divert verdict
  exact ⟨_, b', congrArg _ (withdrawOn_decides absent found undecided), place, ident, state, divert, verdict,
    decideAndExamine_onlyRecords _ _, decideAndExamine_eq cut (s := u) hx sound undecided⟩

end Sys2Proof.Machine

namespace Sys2Proof.Machine

/-! ### Lane triggers at the board side -/

/-- The heads used, read from the slot that the record names; 0 where no header is (R145; log entry 26). -/
theorem headsUsedOf_eq (s : State) (r : BoardRecord) : headsUsedOf s r = match r.binding with
    | none => 0
    | some b => match (s.slot b.slot).header with | none => 0 | some h => h.headsUsed := by
  unfold headsUsedOf headerOf
  cases r.binding <;> rfl

section
variable {s : State} {l : Lane} {st : LaneSettings} {t q : Word}

/-- A record becomes SCANNING at a trigger exactly where it is ENTERING and its scan start, not yet taken, is reached
(R31). -/
theorem scanStarts_iff : scanStarts s l st t q = true ↔ ∃ r ∈ (s.lane l).transit,
    r.state = .entering ∧ r.firstLine = none ∧ reached q (scanStart st r) = true := by
  simp only [scanStarts, List.any_eq_true, Bool.and_eq_true, decide_eq_true_eq]
  refine exists_congr fun r => and_congr_right fun _ => and_congr_right fun entering => ?_
  rw [scanStartAt]
  split
  · next h => simp [h]
  · next h => simp [h, entering]

theorem boardTrigger_starts (settings : (s.lane l).settings = some st) (starts : scanStarts s l st t q = true) :
    boardTrigger l t q s = grants (examine l (scanRecords l st t q s)) := by
  rw [boardTrigger, settings]
  exact if_pos starts

theorem boardTrigger_quietly (settings : (s.lane l).settings = some st) (none' : scanStarts s l st t q ≠ true) :
    boardTrigger l t q s = scanRecords l st t q s := by
  rw [boardTrigger, settings]
  exact if_neg none'

end

/-- Settles O44: scan start and scan end record by record, and the examination where a record starts. -/
theorem scanFollowsTheTriggers : Obligations.ScanFollowsTheTriggers := by
  intro s l st trigger position snapshot start finish scanned starts
  have atStart (r : BoardRecord) : scanStartAt s l st trigger position r = start r := by
    rw [scanStartAt, headsUsedOf_eq]
    rfl
  have atEnd (r : BoardRecord) : scanEndAt trigger r = finish r := by
    dsimp only [scanEndAt, finish]
    cases r.binding with
    | none => rfl
    | some b => cases r.firstLine <;> rfl
  have records : scanRecords l st trigger position s = scanned := by
    refine updLane_congr l s ?_
    rw [List.map_map]
    refine congrArg (fun rs => { s.lane l with transit := rs }) (List.map_congr_left fun r _ => ?_)
    rw [Function.comp_apply, atStart, atEnd]
  refine ⟨records, fun settings => ⟨fun first => ?_, fun none' => ?_⟩⟩
  · rw [← records]
    exact boardTrigger_starts settings (scanStarts_iff.2 first)
  · rw [← records]
    exact boardTrigger_quietly settings fun h => none' (scanStarts_iff.1 h)

end Sys2Proof.Machine

namespace Sys2Proof.Machine

/-! ### One record of a transit queue replaced in its place -/

/-- The state with this record in the place between these of the lane's transit queue. -/
def placeRecord (l : Lane) (before after : List BoardRecord) (q : BoardRecord) (s : State) : State :=
  s.updLane l fun x => { x with transit := before ++ q :: after }

section
variable {l : Lane} {s : State} {before after : List BoardRecord} {r q : BoardRecord}

@[simp] theorem placeRecord_lane : (placeRecord l before after q s).lane l
    = { s.lane l with transit := before ++ q :: after } := State.lane_updLane s l _

@[simp] theorem placeRecord_jointCount : jointCountOf (placeRecord l before after q s) = jointCountOf s := rfl

@[simp] theorem placeRecord_placeRecord : placeRecord l before after r (placeRecord l before after q s)
    = placeRecord l before after r s := updLane_updLane ..

/-- A change by number of the record that stands in its place. -/
theorem updLane_mapRecord (hx : (s.lane l).transit = before ++ r :: after) (sound : (s.lane l).ReleaseSound)
    (f : BoardRecord → BoardRecord) :
    s.updLane l (fun x => x.mapRecord r.ident f) = placeRecord l before after (f r) s :=
  updLane_congr l s (mapRecord_eq hx sound f)

/-- The lane stays released in order where the record keeps what that depends on (R151). -/
theorem placeRecord_sound (hx : (s.lane l).transit = before ++ r :: after) (sound : (s.lane l).ReleaseSound)
    (kept : r.Kept q) : ((placeRecord l before after q s).lane l).ReleaseSound := by
  rw [placeRecord_lane]
  have refl (rs : List BoardRecord) : List.Forall₂ BoardRecord.Kept rs rs :=
    List.forall₂_same.2 fun p _ => (BoardRecord.Shown.refl p).toKept
  refine records_releaseSound sound ?_
  rw [hx]
  exact List.rel_append (refl before) (.cons kept (refl after))

/-! ### Outcomes and joints complete -/

/-- An outcome that does not complete the joints is counted and no more (R141, R144). -/
theorem takeOutcome_counts (hx : (s.lane l).transit = before ++ r :: after) (sound : (s.lane l).ReleaseSound)
    (undecided : r.state ≠ .decided) {o : OutcomeRecord}
    (short : (r.verdictPart.takeOutcome o).counts.sum ≠ jointCountOf s r) : takeOutcome l r.ident o s
      = placeRecord l before after (r.takeOutcome o) s := by
  rw [takeOutcome, record?_split hx sound]
  dsimp only
  rw [if_neg undecided, if_neg short, countOutcome, updLane_mapRecord hx sound]

/-- Joints complete before the trailing edge is remembered (R36). -/
theorem jointsCompleteReport_remembers (hx : (s.lane l).transit = before ++ r :: after)
    (sound : (s.lane l).ReleaseSound) (undecided : r.state ≠ .decided) (untrailed : r.pTrail = none) :
    jointsCompleteReport l r.ident s = placeRecord l before after { r with jointsComplete := true } s := by
  rw [jointsCompleteReport, record?_split hx sound]
  dsimp only
  rw [if_neg undecided, if_neg (by simp [untrailed]), rememberComplete, updLane_mapRecord hx sound]

/-- Joints complete after the trailing edge decides the record (R36). -/
theorem jointsCompleteReport_decides (hx : (s.lane l).transit = before ++ r :: after)
    (sound : (s.lane l).ReleaseSound) (undecided : r.state ≠ .decided) (trailed : r.pTrail ≠ none) :
    jointsCompleteReport l r.ident s = offerRelease l (reevaluate l (placeRecord l before after
      (r.decideBy .completion (stalePolicyOf (s.lane l)) (jointCountOf s r)) s)) := by
  rw [jointsCompleteReport, record?_split hx sound]
  dsimp only
  rw [if_neg undecided, if_pos (Option.isSome_iff_ne_none.2 trailed), decideRecord_completion hx sound undecided,
    reevaluate, placeRecord, updLane_updLane]
  exact congrArg _ (updLane_congr l s rfl)

/-- The last outcome reports joints complete of the record that has taken it (R144). -/
theorem takeOutcome_completes (hx : (s.lane l).transit = before ++ r :: after) (sound : (s.lane l).ReleaseSound)
    (undecided : r.state ≠ .decided) {o : OutcomeRecord}
    (complete : (r.verdictPart.takeOutcome o).counts.sum = jointCountOf s r) : takeOutcome l r.ident o s
      = jointsCompleteReport l r.ident (placeRecord l before after (r.takeOutcome o) s) := by
  rw [takeOutcome, record?_split hx sound]
  dsimp only
  rw [if_neg undecided, if_pos complete, countOutcome, updLane_mapRecord hx sound]

/-- The last outcome before the trailing edge (R36). -/
theorem takeOutcome_remembers (hx : (s.lane l).transit = before ++ r :: after) (sound : (s.lane l).ReleaseSound)
    (undecided : r.state ≠ .decided) {o : OutcomeRecord}
    (complete : (r.verdictPart.takeOutcome o).counts.sum = jointCountOf s r) (untrailed : r.pTrail = none) :
    takeOutcome l r.ident o s = placeRecord l before after { r.takeOutcome o with jointsComplete := true } s := by
  have taken : r.takeOutcome o = { r with verdictPart := r.verdictPart.takeOutcome o } := if_neg undecided
  have counted := placeRecord_sound hx sound (takeOutcome_shown o r).toKept
  rw [takeOutcome_completes hx sound undecided complete]
  rw [taken] at counted ⊢
  have report :=
    jointsCompleteReport_remembers (congrArg LaneState.transit placeRecord_lane) counted undecided untrailed
  exact report.trans placeRecord_placeRecord

/-- The last outcome after the trailing edge (R36). -/
theorem takeOutcome_decides (hx : (s.lane l).transit = before ++ r :: after) (sound : (s.lane l).ReleaseSound)
    (undecided : r.state ≠ .decided) {o : OutcomeRecord}
    (complete : (r.verdictPart.takeOutcome o).counts.sum = jointCountOf s r) (trailed : r.pTrail ≠ none) :
    takeOutcome l r.ident o s = offerRelease l (reevaluate l (placeRecord l before after
      ((r.takeOutcome o).decideBy .completion (stalePolicyOf (s.lane l)) (jointCountOf s r)) s)) := by
  have taken : r.takeOutcome o = { r with verdictPart := r.verdictPart.takeOutcome o } := if_neg undecided
  have counted := placeRecord_sound hx sound (takeOutcome_shown o r).toKept
  rw [takeOutcome_completes hx sound undecided complete]
  rw [taken] at counted ⊢
  have report := jointsCompleteReport_decides (congrArg LaneState.transit placeRecord_lane) counted undecided trailed
  rw [placeRecord_placeRecord, placeRecord_lane] at report
  exact report

end

/-! ### EVALUATION_COMPLETE -/

section
variable {s : State} {u : UnitId} {e : Evaluation} {r : BoardRecord} {before after : List BoardRecord}

theorem completeEvaluation_idle (idle : s.unitOf u = none) : completeEvaluation u s = s := by
  rw [completeEvaluation, idle]

/-- A discarded result is dropped (R117). -/
theorem completeEvaluation_discards (busy : s.unitOf u = some e) (discard : e.discard = true) :
    completeEvaluation u s = grants (s.setUnit u none) := by
  rw [completeEvaluation, busy]
  exact if_pos discard

/-- A record one of whose evaluations has ended (R116). -/
def BoardRecord.landed (r : BoardRecord) : BoardRecord :=
  { r with work := { r.work with inFlight := r.work.inFlight - 1 } }

/-- A record without its item in flight takes the outcome (R116, R141). -/
theorem landed_takeOutcome (undecided : r.state ≠ .decided) (o : OutcomeRecord) : r.landed.takeOutcome o =
    { r with
      work := { r.work with inFlight := r.work.inFlight - 1 }, verdictPart := r.verdictPart.takeOutcome o } :=
  if_neg undecided

/-- A result kept goes to its record, which has one item less in flight, and the unit is IDLE (R116). -/
theorem completeEvaluation_keeps (busy : s.unitOf u = some e) (kept : e.discard = false)
    (hx : (s.lane e.item.lane).transit = before ++ r :: after) (mine : e.item.record = r.ident)
    (sound : (s.lane e.item.lane).ReleaseSound) : completeEvaluation u s = grants (takeOutcome e.item.lane r.ident
      (evaluationOutcome e (s.head e.item.head).ring)
      (placeRecord e.item.lane before after r.landed (s.setUnit u none))) := by
  rw [completeEvaluation, busy]
  dsimp only
  rw [kept, if_neg Bool.false_ne_true, mine, updWork,
    updLane_mapRecord (s := freeUnit u s) hx sound]
  rfl

end

/-! ### Spoiled items -/

section
variable {e : Evaluation} {ring : Ring}

/-- A read of one of the item's lines returns not held (R122). -/
theorem rangeNotHeld_iff {item : WorkItem} : rangeNotHeld ring item = true ↔
    ∃ k, k ≤ (item.lastNeeded - item.firstNeeded).toNat ∧ Ring.read ring (ahead item.firstNeeded k) = .notHeld := by
  simp only [rangeNotHeld, List.any_eq_true, List.mem_range, Nat.lt_succ_iff, decide_eq_true_eq]

theorem evaluationOutcome_lost {i : EvalInputs} (inputs : e.inputs = some i)
    (lost : e.spoiled = true ∨ rangeNotHeld ring e.item = true) :
    evaluationOutcome e ring = { jointId := i.joint.jointId, outcome := .dataLost, measures := .absent } := by
  rw [evaluationOutcome, inputs]
  exact if_pos (Bool.or_eq_true_iff.2 lost)

theorem evaluationOutcome_measures {i : EvalInputs} (inputs : e.inputs = some i) (fresh : e.spoiled = false)
    (held : rangeNotHeld ring e.item ≠ true) : evaluationOutcome e ring = measureJoint i ring := by
  rw [evaluationOutcome, inputs]
  exact if_neg (by simp [fresh, held])

/-- What spoils the items of the units that a condition names (R112). -/
theorem mapUnits_spoil {s : State} {p : Evaluation → Prop} [DecidablePred p] {named : Evaluation → Bool}
    (same : ∀ e, named e = true ↔ p e) : s.mapUnits (fun e => if named e = true then e.spoil else e)
      = s.mapUnits fun e => if p e then { e with spoiled := true } else e :=
  congrArg s.mapUnits (funext fun e => if_congr (same e) rfl rfl)

end

/-- Settles O54: the completion by what the unit holds and by whether the outcome completes the joints of its record. -/
theorem evaluationsCompleteIntoRecords : Obligations.EvaluationsCompleteIntoRecords := by
  refine ⟨fun s₀ u => ?_, fun e i ring inputs => ⟨fun lost => ?_, fun fresh held => ?_⟩,
    fun s l h trigger position line => ?_⟩
  · intro s service idle
    have taken : exec (.evaluationComplete u) s₀ = .next (completeEvaluation u s) := inService_next service
    rw [taken]
    refine ⟨fun none' => congrArg _ (completeEvaluation_idle none'), fun e busy =>
      ⟨fun discard => congrArg _ (completeEvaluation_discards busy discard), ?_⟩⟩
    intro before r after kept hx mine undecided sound o counted part taken' withRecord complete
    have part_eq : r.verdictPart.takeOutcome o = part := takeOutcome_eq o r.verdictPart
    have taken_eq : r.landed.takeOutcome o = taken' := (landed_takeOutcome undecided o).trans (by rw [part_eq])
    let t : State := placeRecord e.item.lane before after r.landed idle
    have tx : (t.lane e.item.lane).transit = before ++ r.landed :: after := congrArg LaneState.transit placeRecord_lane
    have tsound : (t.lane e.item.lane).ReleaseSound :=
      placeRecord_sound (s := idle) hx sound ⟨rfl, rfl, rfl, rfl, id, id, id⟩
    have all : (r.landed.verdictPart.takeOutcome o).counts.sum = jointCountOf t r.landed ↔ complete :=
      Eq.congr_left (congrArg (fun v => v.counts.sum) part_eq)
    rw [completeEvaluation_keeps busy kept hx mine sound, ← all]
    refine ⟨fun short => ?_, fun full untrailed => ?_, fun full trailed => ?_⟩
    · have landedEnd := takeOutcome_counts tx tsound undecided short
      rw [taken_eq, placeRecord_placeRecord] at landedEnd
      exact congrArg _ (congrArg grants landedEnd)
    · have landedEnd := takeOutcome_remembers tx tsound undecided full untrailed
      rw [taken_eq, placeRecord_placeRecord] at landedEnd
      exact congrArg _ (congrArg grants landedEnd)
    · have landedEnd := takeOutcome_decides tx tsound undecided full trailed
      rw [taken_eq, placeRecord_placeRecord, placeRecord_lane] at landedEnd
      exact congrArg _ (congrArg grants landedEnd)
  · exact evaluationOutcome_lost inputs (lost.imp_right rangeNotHeld_iff.2)
  · refine evaluationOutcome_measures inputs fresh fun h => ?_
    obtain ⟨k, le, notHeld⟩ := rangeNotHeld_iff.1 h
    exact held k le notHeld
  · intro spoils
    refine ⟨mapUnits_spoil fun e => ?_, mapUnits_spoil fun e => ?_⟩
    · rw [Bool.and_eq_true, decide_eq_true_eq]
      rfl
    · rw [Bool.and_eq_true, decide_eq_true_eq]
      rfl

end Sys2Proof.Machine

namespace Sys2Proof.Machine

/-! ### Calibration attempts -/

namespace CalRecord

section
variable {idleCalGap : Nat} {ahead16 gap : Bool} {t : Word} {c : CalRecord}

/-- The start test of a lane trigger (R75). -/
theorem starts_iff : (ahead16 && c.attempt.isNone && c.wantsAttempt idleCalGap) = true ↔
    ahead16 = true ∧ c.attempt = none
      ∧ (0 < c.balance ∨ c.requested = true ∨ (-8 < c.balance ∧ idleCalGap ≤ c.idleRun)) := by
  simp [wantsAttempt, and_assoc, or_assoc]

/-- Without a start, the trigger lengthens the idle run on a gap line and ends it on any other (R74). -/
theorem trigger_waits (waits : (ahead16 && c.attempt.isNone && c.wantsAttempt idleCalGap) ≠ true) :
    trigger idleCalGap ahead16 gap t c
      = { c with idleRun := if gap = true then min 4096 (c.idleRun + 1) else 0 } := by
  rw [trigger, if_neg waits]
  cases gap <;> rfl

end

section
variable {st : HeadSettings} {ring : Ring} {front : Word} {n : Nat} {c : CalRecord} {a : Attempt}

theorem collect_short (runs : c.attempt = some a) (short : reached front (ahead a.start a.collected) = false) :
    collect st ring front (n + 1) c = c := by
  rw [collect, runs]
  exact if_neg (by simp [short])

theorem collect_reached (runs : c.attempt = some a) (reach : reached front (ahead a.start a.collected) = true) :
    collect st ring front (n + 1) c =
      if 16 ≤ (collectLine st ring a).collected then c.complete st (collectLine st ring a)
      else collect st ring front n { c with attempt := some (collectLine st ring a) } := by
  rw [collect, runs]
  exact if_pos reach

/-- The samples that a read of a line gives: none unless it is GOOD (R77). -/
def goodSamples : LineRead → List Nat
  | .good samples => samples
  | .missed => []
  | .pending => []
  | .notHeld => []

/-- One line collected: its valid samples added to the two sums and counts (R76). -/
theorem collectLine_eq (st : HeadSettings) (ring : Ring) (a : Attempt) : collectLine st ring a =
    let read := goodSamples (Ring.read ring (ahead a.start a.collected))
    { start := a.start
      collected := a.collected + 1
      zeroSum := a.zeroSum + (region st.zeroCol read).sum
      zeroCount := a.zeroCount + (region st.zeroCol read).length
      stepSum := a.stepSum + (region st.stepCol read).sum
      stepCount := a.stepCount + (region st.stepCol read).length } := by
  rw [collectLine]
  cases Ring.read ring (ahead a.start a.collected) <;> simp [goodSamples, region]

/-- The gain that the means of a completed attempt give (R78). -/
def newGain (st : HeadSettings) (a : Attempt) : Nat :=
  let rise := meanOf a.stepSum a.stepCount - meanOf a.zeroSum a.zeroCount
  (st.stepHeight * 256 + rise / 2) / rise

/-- The five checks of a completed attempt (R78). -/
def Accepted (st : HeadSettings) (a : Attempt) : Prop :=
  Config.validSamples ≤ a.zeroCount ∧ Config.validSamples ≤ a.stepCount
    ∧ meanOf a.zeroSum a.zeroCount < meanOf a.stepSum a.stepCount ∧ (1 ≤ newGain st a ∧ newGain st a ≤ 1023)
    ∧ (st.nominalGain * 3 / 4 ≤ newGain st a ∧ newGain st a ≤ st.nominalGain * 5 / 4)

theorem compute_eq (st : HeadSettings) (a : Attempt) : compute st a =
    if a.zeroCount < Config.validSamples then none
    else if a.stepCount < Config.validSamples then none
    else if meanOf a.stepSum a.stepCount ≤ meanOf a.zeroSum a.zeroCount then none
    else if newGain st a < 1 ∨ 1023 < newGain st a then none
    else if newGain st a < st.nominalGain * 3 / 4 ∨ st.nominalGain * 5 / 4 < newGain st a then none
    else some (meanOf a.zeroSum a.zeroCount, newGain st a) := rfl

theorem compute_accepted (accepted : Accepted st a) :
    compute st a = some (meanOf a.zeroSum a.zeroCount, newGain st a) := by
  obtain ⟨zeros, steps, rises, range, near⟩ := accepted
  rw [compute_eq, if_neg (Nat.not_lt.2 zeros), if_neg (Nat.not_lt.2 steps), if_neg (Nat.not_le.2 rises),
    if_neg (not_or.2 ⟨Nat.not_lt.2 range.1, Nat.not_lt.2 range.2⟩),
    if_neg (not_or.2 ⟨Nat.not_lt.2 near.1, Nat.not_lt.2 near.2⟩)]

theorem compute_refused (refused : ¬Accepted st a) : compute st a = none := by
  rw [compute_eq]
  split_ifs with zeros steps falls range near
  iterate 5 rfl
  rw [not_or, Nat.not_lt, Nat.not_lt] at range near
  exact absurd ⟨Nat.not_lt.1 zeros, Nat.not_lt.1 steps, Nat.not_le.1 falls, range, near⟩ refused

/-- A fault, with CAL_FAULTED set from the third on (R80). -/
theorem fault_eq : c.fault = { c with
    faultCount := min 3 (c.faultCount + 1), calFaulted := c.calFaulted || decide (2 ≤ c.faultCount),
    attempt := none } := by
  have third : min 3 (c.faultCount + 1) = 3 ↔ 2 ≤ c.faultCount := by omega
  simp only [fault, third]

end

end CalRecord

/-! ### Gap lines -/

/-- The grid position that first reaches a point is told by the whole steps up to it, rounded up (R34). -/
theorem indexReaching_eq (index next p : Word) {step : Nat} {k : Int} (positive : 1 ≤ step)
    (above : (k - 1) * step < (p - next).toInt) (within : (p - next).toInt ≤ k * step) :
    indexReaching index next step p = index + 1 + BitVec.ofInt 32 k := by
  have pos : (0 : Int) < step := by omega
  have steps : ((p - next).toInt + step - 1) / step = k := by
    refine le_antisymm (Int.lt_add_one_iff.1 (Int.ediv_lt_of_lt_mul pos ?_)) (Int.le_ediv_of_mul_le pos ?_)
    · linarith [add_mul k 1 (step : Int)]
    · linarith [sub_mul k 1 (step : Int)]
  rw [indexReaching, steps]

section
variable {s : State} {l : Lane} {st : LaneSettings} {next : Word}

/-- A gap line is one that no record of the lane occupies (R73). -/
theorem isGapLine_iff (settings : (s.lane l).settings = some st) (nextTrigger : (s.lane l).nextTrigger = some next)
    (x : Word) : isGapLine (spansOf (s.lane l)) x = true ↔
      ∀ r ∈ (s.lane l).transit, ¬(spanOf st (s.lane l).triggerIndex next r).covers x = true := by
  have spans : spansOf (s.lane l) = (s.lane l).transit.map (spanOf st (s.lane l).triggerIndex next) := by
    rw [spansOf, settings, nextTrigger]
  rw [isGapLine, spans, List.all_map, List.all_eq_true]
  simp

theorem gapAhead_iff (spans : List Span) (t : Word) :
    gapAhead spans t = true ↔ ∀ k < 16, isGapLine spans (ahead t k) = true := by
  simp [gapAhead, Config.attemptLines]

/-- The Calibration Unit's taking of a lane trigger, head by head (R73 to R75). -/
theorem calTrigger_eq (settings : (s.lane l).settings = some st) (t : Word) : calTrigger l t s =
    updCals (laneHeads s l)
      (CalRecord.trigger st.idleCalGap (gapAhead (spansOf (s.lane l)) t) (isGapLine (spansOf (s.lane l)) t) t) s := by
  rw [calTrigger, settings]

end

/-- Settles O60: the trigger, the collection and the completion of one record, and the gap lines by the spans of the
lane's records. -/
theorem calibrationAttemptsRunToCompletion : Obligations.CalibrationAttemptsRunToCompletion := by
  refine ⟨fun idleCalGap ahead16 gap t c => ?_, fun st ring front n c a runs => ?_, fun st a c => ?_,
    fun index next p step k positive above within => indexReaching_eq index next p positive above within,
    fun s l trigger position next st settings nextTrigger => ?_⟩
  · intro starts
    have test : _ ↔ starts := CalRecord.starts_iff
    rw [← test]
    exact ⟨fun start => if_pos start, fun waits => CalRecord.trigger_waits waits⟩
  · intro line valid read a'
    have collected : CalRecord.collectLine st ring a = a' := by
      have good : CalRecord.goodSamples (Ring.read ring line) = read := by
        dsimp only [read]
        cases Ring.read ring line <;> rfl
      have region (col : Nat) : CalRecord.region col read = valid col read :=
        congrArg (fun p => ((read.drop col).take 16).filter p) (funext fun v => (decide_not ..).symm)
      have eq := CalRecord.collectLine_eq st ring a
      rw [show Ring.read ring (ahead a.start a.collected) = Ring.read ring line from rfl, good] at eq
      simp only [region] at eq
      exact eq
    refine ⟨fun short => CalRecord.collect_short runs short, fun reach more => ?_, fun reach full => ?_⟩
    · rw [CalRecord.collect_reached runs reach, collected]
      exact if_neg (Nat.not_le.2 more)
    · rw [CalRecord.collect_reached runs reach, collected]
      exact if_pos full
  · intro level step gain accepted
    refine ⟨fun (ok : CalRecord.Accepted st a) => ?_, fun (refused : ¬CalRecord.Accepted st a) => ?_⟩
    · rw [CalRecord.complete, CalRecord.compute_accepted ok]
      rfl
    · rw [CalRecord.complete, CalRecord.compute_refused refused]
      exact CalRecord.fault_eq
  · intro lineAt first covers occupies isGap
    have occupied (r : BoardRecord) (x : Word) :
        (spanOf st (s.lane l).triggerIndex next r).covers x = true ↔ occupies r x := by
      dsimp only [spanOf, occupies]
      cases r.binding with
      | some b => exact decide_eq_true_iff
      | none =>
        cases r.pTrail with
        | some p => exact decide_eq_true_iff
        | none => exact decide_eq_true_iff
    have gaps (x : Word) : isGapLine (spansOf (s.lane l)) x = true ↔ isGap x :=
      (isGapLine_iff settings nextTrigger x).trans (forall₂_congr fun r _ => not_congr (occupied r x))
    refine ⟨_, _, (gapAhead_iff _ trigger).trans (forall₂_congr fun k _ => gaps _), gaps trigger, ?_⟩
    intro u
    have taken : u = _ := calTrigger_eq settings trigger
    rw [taken]
    exact ⟨updCals_frame _ _ s, fun h => updCals_calOf laneHeads_nodup _ s h⟩

end Sys2Proof.Machine

namespace Sys2Proof.Machine

/-! ### Invariants of the heads -/

theorem headPort_powerOn_sound : HeadPort.powerOn.Sound :=
  ⟨rfl, Nat.zero_le _, Nat.zero_le _, by simp [HeadPort.powerOn], by decide, trivial⟩

/-- Settles O11: every edit keeps the Head Ports sound; the other changes leave them as they are or power them on. -/
theorem stepKeepsHeads : Obligations.StepKeepsHeads := fun _ _ sound stepped =>
  step_keeps_state (I := HeadsSound) (fun _ _ kept => kept)
    (fun pins s h => by rw [powerOn_head]; exact headPort_powerOn_sound) (fun _ kept => kept) (fun _ _ kept => kept)
    (fun _ _ _ _ kept => kept) (fun run kept => run.keep (I := fun _ => HeadsSound) heads_edit kept) sound stepped

/-- Heads without settings serve no lane (R43, R45). -/
theorem headLanes_unset {s : State} (unset : ∀ h, (s.head h).settings = none) : HeadLanesSound s := by
  have never : ∀ {h st}, (s.head h).settings ≠ some st := fun {h st} set => by
    rw [unset h] at set
    cases set
  refine ⟨fun h st set => absurd set never, fun g h st su _ set => absurd set never, fun h active => ?_⟩
  obtain ⟨st, l, set, _⟩ := (headActive_iff s h).1 active
  exact absurd set never

/-- Settles O12: every edit keeps the assignments of the heads; the other changes leave the settings and the lane modes as
they are, or power them on. -/
theorem stepKeepsHeadLanes : Obligations.StepKeepsHeadLanes := fun _ _ sound stepped =>
  step_keeps_state (I := HeadLanesSound) (fun _ _ kept => kept)
    (fun pins s => headLanes_unset fun h => by rw [powerOn_head]; rfl)
    (fun s kept => headLanes_frame kept rfl fun m => by rw [assertReset_lane]; exact id) (fun _ _ kept => kept)
    (fun l p q s kept => headLanes_frame kept rfl (modes_set rfl (by
      obtain ⟨_, _, _, same⟩ := decodeEncoder_frame p q (s.lane l)
      rw [same]
      exact id)))
    (fun run kept => run.keep (I := fun _ => HeadLanesSound) headLanes_edit kept) sound stepped

end Sys2Proof.Machine

namespace Sys2Proof.Machine

/-! ### The bytes of head settings -/

theorem fourOf?_toNat (h : HeadId) : Four.ofNat? (leNat [byteOf h.toNat]) = some h := by
  cases h <;> rfl

theorem headLaneOf?_headLaneCode (l : Option Lane) : headLaneOf? (leNat [headLaneCode l]) = some l := by
  match l with
  | some .a => rfl
  | some .b => rfl
  | none => rfl

/-- The fields of the stored settings where a HEAD_SETUP payload has them (09, section 9.9). -/
theorem readHeadSettings_bytes (h : HeadId) (st : HeadSettings) (lane : Option Lane) :
    readHeadSettings lane (headSettingsBytes h st) =
      { lane := lane, laneOrder := leNat [byteOf st.laneOrder], samples := leNat (le16 st.samples),
        zeroCol := leNat (le16 st.zeroCol), stepCol := leNat (le16 st.stepCol),
        stepHeight := leNat (le16 st.stepHeight), nominalGain := leNat (le16 st.nominalGain),
        calInterval := leNat (le32 st.calInterval), initialZero := leNat (le16 st.initialZero),
        initialGain := leNat (le16 st.initialGain) } := rfl

/-- Settles O18: each field is read back from where it is written, and none is too large for its bytes. -/
theorem headSettingsRoundTrip : Obligations.HeadSettingsRoundTrip := by
  intro h st ranges
  obtain ⟨order, samples, zero, step, height, gain, interval, initialZero, initialGain⟩ :=
    (headSettings_inRanges_iff st).1 ranges
  refine ⟨rfl, fourOf?_toNat h, headLaneOf?_headLaneCode st.lane, ?_⟩
  rw [readHeadSettings_bytes, leNat_byteOf (by omega), leNat_le16 (by omega), leNat_le16 (by omega),
    leNat_le16 (by omega), leNat_le16 (by omega), leNat_le16 (by omega), leNat_le32 (by omega), leNat_le16 (by omega),
    leNat_le16 (by omega)]

/-! ### HEAD_ALIGN -/

section
variable {s : State} {h : HeadId}

/-- Check 2 of R47. -/
theorem alignHead_sweeping (tag : Byte) (sweeping : (s.head h).sweeping = true) :
    alignHead tag h s = replyRefused kindHeadAlign tag .busy [] s :=
  if_pos sweeping

/-- Check 3 of R47. -/
theorem alignHead_active (tag : Byte) (still : (s.head h).sweeping ≠ true) (active : headActive s h = true) :
    alignHead tag h s = replyRefused kindHeadAlign tag .state [] s := by
  rw [alignHead, if_neg still, if_pos active]

/-- The sweep starts, and its reply waits for the end (R47, R48). -/
theorem alignHead_starts (tag : Byte) (still : (s.head h).sweeping ≠ true) (idle : headActive s h ≠ true) :
    alignHead tag h s = s.updHead h (HeadPort.startSweep tag s.now) := by
  rw [alignHead, if_neg still, if_neg idle]

end

/-- Settles O35: the checks one after another, as `alignHead` makes them. -/
theorem headAlignStartsTheSweep : Obligations.HeadAlignStartsTheSweep := by
  intro s₀ r rest s can u
  have taken : exec .headAlign s₀ = .next (headAlignBody r.tag r.payload u) := takeKind_next can
  rw [taken]
  refine ⟨fun bad => ?_, fun h named => ?_⟩
  · rw [headAlignBody, fourOf?_none bad]
    rfl
  · intro sweeping busyLane
    have body : headAlignBody r.tag r.payload u = alignHead r.tag h u := by rw [headAlignBody, named]
    have sweeps : (u.head h).sweeping = true ↔ sweeping := sweeping_iff _
    have busy : headActive u h = true ↔ busyLane := headActive_iff u h
    rw [body, ← sweeps, ← busy]
    exact ⟨fun sweep => congrArg _ (alignHead_sweeping _ sweep),
      fun still active => congrArg _ (alignHead_active _ still active),
      fun still idle => congrArg _ (alignHead_starts _ still idle)⟩

end Sys2Proof.Machine

namespace Sys2Proof.Machine

/-! ### The alignment sweep -/

/-- The tap under trial ends in the part: the head goes on with its sweep or ends it, and then answers HEAD_ALIGN. -/
def endTapIn (h : HeadId) (sw : Sweep) (pass : Bool) (s : State) : State :=
  answerSweep sw.requestTag ((s.head h).endTap sw pass s.now).2
    (s.updHead h fun _ => ((s.head h).endTap sw pass s.now).1)

section
variable {y : HeadPort} {sw : Sweep} {pass : Bool} {now : Nat} {words : List Half} {m : List Bool}

/-- A tap before the last is followed by the next (R48). -/
theorem endTap_continues (more : sw.tap + 1 < 32) : y.endTap sw pass now =
    ({ y with
        mode :=
          .aligning
            { sw with
              passMap := sw.passMap.set sw.tap pass, tap := sw.tap + 1, frames := 0, allMatch := true,
              tapSetAt := now } }, none) :=
  if_pos more

/-- The last tap ends the sweep (R48). -/
theorem endTap_last (last : ¬sw.tap + 1 < 32) : y.endTap sw pass now =
    ((y.endSweep (sw.passMap.set sw.tap pass)).1, some (y.endSweep (sw.passMap.set sw.tap pass)).2) :=
  if_neg last

/-- A frame before the eighth is taken, and the tap goes on (R48 step 2). -/
theorem sweepFrame_counts (few : sw.frames + 1 < 8) : y.sweepFrame sw words now =
    ({ y with
        mode :=
          .aligning { sw with frames := sw.frames + 1, allMatch := sw.allMatch && decide (words = alignmentWords) } },
      none) :=
  if_pos few

/-- The eighth frame ends the tap, which passes if all eight matched (R48 step 3). -/
theorem sweepFrame_eighth (full : 8 ≤ sw.frames + 1) : y.sweepFrame sw words now =
    y.endTap sw (sw.allMatch && decide (words = alignmentWords)) now :=
  if_neg (Nat.not_lt.2 full)

/-- The end of a sweep with a tap passed: ALIGNED at the tap of R49. -/
theorem endSweep_selects {tap : Nat} (selected : HeadPort.selectTap m = some tap) : y.endSweep m =
    ({ y with mode := .aligned, tap := tap, triggerLine := y.triggerLine ++ [[0xA003]] },
      [0] ++ HeadPort.passMapBytes m ++ [byteOf tap]) := by
  rw [HeadPort.endSweep, selected]
  rfl

/-- The end of a sweep with no tap passed: UNALIGNED (R49). -/
theorem endSweep_fails (none' : HeadPort.selectTap m = none) : y.endSweep m =
    ({ y with mode := .unaligned, tap := 0, triggerLine := y.triggerLine ++ [[0xA003]] },
      [1] ++ HeadPort.passMapBytes m ++ [0]) := by
  rw [HeadPort.endSweep, none']
  rfl

end

section
variable {s : State} {h : HeadId} {sw : Sweep} {pass : Bool} {words : List Half}

theorem endTapIn_continues (more : sw.tap + 1 < 32) : endTapIn h sw pass s = s.updHead h fun x =>
    { x with
      mode :=
        .aligning
          { sw with
            passMap := sw.passMap.set sw.tap pass, tap := sw.tap + 1, frames := 0, allMatch := true,
            tapSetAt := s.now } } := by
  rw [endTapIn, endTap_continues more]
  rfl

/-- The last tap ends the sweep, and HEAD_ALIGN is answered with what `endSweep` gives (R49). -/
theorem endTapIn_last (last : ¬sw.tap + 1 < 32) : endTapIn h sw pass s =
    replyDone kindHeadAlign sw.requestTag ((s.head h).endSweep (sw.passMap.set sw.tap pass)).2
      (s.updHead h fun _ => ((s.head h).endSweep (sw.passMap.set sw.tap pass)).1) := by
  rw [endTapIn, endTap_last last]
  rfl

theorem receiveFrame_counts (aligning : (s.head h).mode = .aligning sw) (few : sw.frames + 1 < 8) :
    receiveFrame h words s = s.updHead h fun x =>
      { x with
        mode :=
          .aligning { sw with frames := sw.frames + 1, allMatch := sw.allMatch && decide (words = alignmentWords) } } := by
  rw [receiveFrame, aligning]
  dsimp only
  rw [sweepFrame_counts few]
  rfl

theorem receiveFrame_eighth (aligning : (s.head h).mode = .aligning sw) (full : 8 ≤ sw.frames + 1) :
    receiveFrame h words s = endTapIn h sw (sw.allMatch && decide (words = alignmentWords)) s := by
  rw [receiveFrame, aligning]
  dsimp only
  rw [sweepFrame_eighth full]
  rfl

/-- After 1 ms the tap fails (R48 step 4; log entry 4). -/
theorem failTap_sweeping (aligning : (s.head h).mode = .aligning sw) :
    failTap h s = endTapIn h sw false { s with now := max s.now (sw.tapSetAt + 1000) } := by
  rw [failTap, aligning]
  rfl

theorem failTap_still (still : ∀ sw, (s.head h).mode ≠ .aligning sw) : failTap h s = s := by
  rw [failTap]
  split
  · rfl
  · next sw aligning => exact absurd aligning (still sw)
  · rfl

end

/-- Settles O52: a frame or the time of a tap as `endTapIn` ends it, and the selection by the longest run. -/
theorem sweepTriesEveryTap : Obligations.SweepTriesEveryTap := by
  refine ⟨fun s₀ h sw => ?_, fun s₀ h => ?_, selectTap_spec⟩
  · intro s service aligning endTap
    have ends (u : State) (pass : Bool) : .next (endTapIn h sw pass u) = endTap u pass := by
      by_cases more : sw.tap + 1 < 32
      · exact (congrArg _ (endTapIn_continues more)).trans (if_pos more).symm
      · refine Eq.trans ?_ (if_neg more).symm
        rw [endTapIn_last more]
        cases selected : HeadPort.selectTap (sw.passMap.set sw.tap pass) with
        | some tap =>
          rw [endSweep_selects selected]
          rfl
        | none =>
          rw [endSweep_fails selected]
          rfl
    have frame (words : List Half) : exec (.alignmentFrame h words) s₀ = .next (receiveFrame h words s) :=
      inService_next service
    have time : exec (.tapTimeout h) s₀ = .next (failTap h s) := inService_next service
    refine ⟨fun words => ?_, by rw [time, failTap_sweeping aligning, ends]⟩
    intro pass
    rw [frame]
    exact ⟨fun few => congrArg _ (receiveFrame_counts aligning few),
      fun full => by rw [receiveFrame_eighth aligning full, ends], inService_next service⟩
  · intro s service still
    have time : exec (.tapTimeout h) s₀ = .next (failTap h s) := inService_next service
    rw [time, failTap_still still]

end Sys2Proof.Machine

namespace Sys2Proof.Machine

/-! ### Head events -/

/-- A change that leaves a head as it is. -/
theorem updHead_self (h : HeadId) (s : State) : (s.updHead h fun _ => s.head h) = s := by
  cases h <;> rfl

/-- The report of the settled front as a list of at most one notice (R63). -/
theorem frontNotice_eq (before after : HeadPort) : HeadPort.frontNotice before after =
    if after.front = before.front then [] else after.front.toList.map HeadNotice.frontAdvance := by
  rw [HeadPort.frontNotice]
  cases after.front <;> rfl

/-- At most one taking leaves no choice of an order. -/
theorem takeAll_short {α : Type} (f : α → State → State) {ws : List α} (short : ws.length ≤ 1) (s : State) :
    takeAll f ws s = takeInOrder f ws s := by
  match ws, short with
  | [], _ => rfl
  | [_], _ => rfl

section
variable {h : HeadId} {f : HeadPort → HeadPort × List HeadNotice} {s : State} {x : HeadPort}

/-- A head event without notices changes its head alone. -/
theorem headEvent_silent (event : f (s.head h) = (x, [])) : headEvent h f s = s.updHead h fun _ => x := by
  rw [headEvent, event]
  rfl

/-- A head event that reports the advance of the front, if it advances, and nothing else (R63; log entry 22). -/
theorem headEvent_front (event : f (s.head h) = (x, HeadPort.frontNotice (s.head h) x)) :
    (headEvent h f s).head h = x ∧ OnlyHeadChanges h s (headEvent h f s)
      ∧ headEvent h f s = takeInOrder (deliverNotice h)
          (if x.front = (s.head h).front then [] else x.front.toList.map HeadNotice.frontAdvance)
          (s.updHead h fun _ => x) := by
  obtain ⟨head, only⟩ := onlyHeadChanges_of (f (s.head h)).1 rfl (headEvent_quiet h f s)
  refine ⟨head.trans (by rw [event]), only, ?_⟩
  rw [headEvent, event, frontNotice_eq]
  refine takeAll_short _ ?_ _
  split
  · exact Nat.zero_le 1
  · cases x.front <;> simp

end

/-! ### PROFILE_FRAME -/

/-- The frame has the shape that check 2 of R54 asks for: sync, index, count, as many samples as the head is set to, CRC. -/
def FrameShaped (st : HeadSettings) (words : List Half) (index count : Half) (samples : List Half) (crc : Half) :
    Prop :=
  words = syncWord :: index :: count :: (samples ++ [crc]) ∧ count.toNat = st.samples ∧ samples.length = st.samples

section
variable {y : HeadPort} {active : Bool} {words : List Half} {st : HeadSettings}

/-- Check 1 of R54. -/
theorem checkFrame_ignored (idle : active = false) (rest : List Half) :
    y.checkFrame active (syncWord :: 0xFFFF :: rest) = .ignored :=
  if_pos ⟨rfl, rfl, idle⟩

theorem checkFrame_checks (heard : ¬((∃ rest, words = syncWord :: 0xFFFF :: rest) ∧ active = false)) :
    y.checkFrame active words = y.checkBody words := by
  unfold HeadPort.checkFrame
  split
  · next sync index rest =>
    rw [if_neg]
    rintro ⟨rfl, rfl, idle⟩
    exact heard ⟨⟨rest, rfl⟩, idle⟩
  · rfl

theorem checkBody_unset (unset : y.settings = none) : y.checkBody words = .framing := by
  unfold HeadPort.checkBody
  rw [unset]

/-- Check 2 of R54. -/
theorem checkBody_misshapen (settings : y.settings = some st)
    (misshapen : ¬∃ index count samples crc, FrameShaped st words index count samples crc) :
    y.checkBody words = .framing := by
  unfold HeadPort.checkBody
  rw [settings]
  split
  · next su sync index count rest same =>
    cases same
    rw [if_pos]
    by_contra shaped
    simp only [not_or, not_not] at shaped
    obtain ⟨rfl, counted, length⟩ := shaped
    have length : rest.length = count.toNat + 1 := by simpa using length
    obtain ⟨crc, last⟩ := List.length_eq_one_iff.1 (show (rest.drop count.toNat).length = 1 by simp [length])
    refine misshapen ⟨index, count, rest.take count.toNat, crc, ?_, counted, by simp [length, counted]⟩
    rw [← last, List.take_append_drop]
  · rfl

variable {index count : Half} {samples : List Half} {crc : Half}

/-- Checks 3 to 6 of R54 on a frame of the right shape. -/
theorem checkBody_shaped (settings : y.settings = some st) (shaped : FrameShaped st words index count samples crc) :
    y.checkBody words =
      if crc ≠ crc16 (index :: count :: samples) then .check
      else if ∃ w ∈ samples, 4095 < w.toNat then .framing
      else
        match y.matching index with
        | none => .stray
        | some e => .accepted e.index (samples.map BitVec.toNat) := by
  obtain ⟨rfl, counted, length⟩ := shaped
  have all : count.toNat = samples.length := counted.trans length.symm
  unfold HeadPort.checkBody
  rw [settings]
  dsimp only
  rw [if_neg (by simp [counted, length]), all, List.take_left, List.drop_left]
  refine if_congr (not_congr (List.singleton_inj.trans eq_comm)) rfl (if_congr ?_ rfl rfl)
  simp only [List.any_eq_true, decide_eq_true_eq]

/-- No outstanding trigger carries the index field (R54 check 5). -/
theorem matching_stray (none' : ∀ e ∈ y.outstanding, BitVec.ofNat 16 e.index.toNat ≠ index) :
    y.matching index = none :=
  find?_never (fun _ => decide_eq_true_iff) none'

variable {before after : List Outstanding} {e : Outstanding}

/-- The one outstanding trigger that carries it (R52, R54 check 5). -/
theorem matching_listed (listed : y.outstanding = before ++ e :: after) (here : BitVec.ofNat 16 e.index.toNat = index)
    (others : ∀ f ∈ before ++ after, BitVec.ofNat 16 f.index.toNat ≠ index) : y.matching index = some e :=
  find?_first (fun _ => decide_eq_true_iff) listed (fun f mem => others f (List.mem_append_left _ mem)) here

/-- The port after an accepted frame: the line GOOD, its trigger off the list, the missed run ended (R55, R64). -/
theorem acceptFrame_eq {t : Word} {values : List Nat} (listed : y.outstanding = before ++ e :: after)
    (here : e.index = t) (others : ∀ f ∈ before ++ after, f.index ≠ t) :
    let x : HeadPort := { y with
      outstanding := before ++ after, ring := Ring.settle y.ring t (.good values), missedRun := 0, silent := false }
    y.acceptFrame t values = (x, HeadPort.frontNotice y x) := by
  rw [HeadPort.acceptFrame, unlist_split listed here others]
  rfl

end

section
variable {s : State} {h : HeadId} {words : List Half}

theorem receiveFrame_unaligned (unaligned : (s.head h).mode = .unaligned) : receiveFrame h words s = s := by
  rw [receiveFrame, unaligned]

theorem receiveFrame_aligned (aligned : (s.head h).mode = .aligned) :
    receiveFrame h words s = headEvent h (HeadPort.receiveProfile (headActive s h) words) s := by
  rw [receiveFrame, aligned]

variable (aligned : (s.head h).mode = .aligned)
include aligned

/-- A silent frame changes nothing (R54 check 1). -/
theorem receiveFrame_ignored (found : (s.head h).checkFrame (headActive s h) words = .ignored) :
    receiveFrame h words s = s := by
  rw [receiveFrame_aligned aligned, headEvent_silent (x := s.head h) (by rw [HeadPort.receiveProfile, found]),
    updHead_self]

theorem receiveFrame_framing (found : (s.head h).checkFrame (headActive s h) words = .framing) :
    receiveFrame h words s = s.updHead h fun x => { x with framing := true } :=
  (receiveFrame_aligned aligned).trans (headEvent_silent (by rw [HeadPort.receiveProfile, found]))

theorem receiveFrame_check (found : (s.head h).checkFrame (headActive s h) words = .check) :
    receiveFrame h words s = s.updHead h fun x => { x with check := true } :=
  (receiveFrame_aligned aligned).trans (headEvent_silent (by rw [HeadPort.receiveProfile, found]))

theorem receiveFrame_stray (found : (s.head h).checkFrame (headActive s h) words = .stray) :
    receiveFrame h words s = s.updHead h fun x => { x with stray := true } :=
  (receiveFrame_aligned aligned).trans (headEvent_silent (by rw [HeadPort.receiveProfile, found]))

end

/-- Settles O51: by the state of the head, and at an ALIGNED head by what `checkFrame` finds. -/
theorem profileFramesAreChecked : Obligations.ProfileFramesAreChecked := by
  intro s₀ h words s service y active silent framing
  have taken : exec (.profileFrame h words) s₀ = .next (receiveFrame h words s) := inService_next service
  have running : headActive s h = true ↔ active := headActive_iff s h
  rw [taken]
  refine ⟨inService_next service, fun unaligned => congrArg _ (receiveFrame_unaligned unaligned),
    fun aligned => ⟨?_, fun heard => ?_⟩⟩
  · rintro ⟨⟨rest, rfl⟩, idle⟩
    exact congrArg _ (receiveFrame_ignored aligned (checkFrame_ignored (eq_false_of_ne_true (mt running.1 idle)) rest))
  have checks : y.checkFrame (headActive s h) words = y.checkBody words :=
    checkFrame_checks fun ⟨sync, idle⟩ => heard ⟨sync, fun runs => by simp [running.2 runs] at idle⟩
  refine ⟨fun unset => congrArg _ (receiveFrame_framing aligned (checks.trans (checkBody_unset unset))),
    fun st settings => ⟨fun misshapen => congrArg _ (receiveFrame_framing aligned
      (checks.trans (checkBody_misshapen settings misshapen))), ?_⟩⟩
  intro index count samples crc same counted length
  have body := checks.trans (checkBody_shaped settings ⟨same, counted, length⟩)
  refine ⟨fun wrong => congrArg _ (receiveFrame_check aligned (body.trans (if_pos wrong))), fun right => ?_⟩
  rw [if_neg (not_not_intro right)] at body
  refine ⟨fun high => congrArg _ (receiveFrame_framing aligned (body.trans (if_pos high))), fun low => ?_⟩
  rw [if_neg fun ⟨w, mem, high⟩ => absurd (low w mem) (Nat.not_le.2 high)] at body
  refine ⟨fun none' => congrArg _ (receiveFrame_stray aligned (body.trans (by rw [matching_stray none']))), ?_⟩
  intro before e after listed here others
  rw [matching_listed listed here others] at body
  have apart : ∀ f ∈ before ++ after, f.index ≠ e.index := fun f mem eq => others f mem (by rw [eq, here])
  have accepted := acceptFrame_eq (values := samples.map BitVec.toNat) listed rfl apart
  obtain ⟨head, only, reported⟩ := headEvent_front (h := h) (s := s)
    (f := HeadPort.receiveProfile (headActive s h) words) (Eq.trans (by rw [HeadPort.receiveProfile, body]) accepted)
  refine ⟨_, rfl, ?_⟩
  rw [receiveFrame_aligned aligned]
  refine ⟨head, only, ?_⟩
  rw [head]
  exact reported

end Sys2Proof.Machine

namespace Sys2Proof.Machine

/-! ### TRIGGER_TIMEOUT -/

section
variable {s : State} {h : HeadId} {index : Word}

theorem timeOutTrigger_unlisted (unlisted : ∀ e ∈ (s.head h).outstanding, e.index ≠ index) :
    timeOutTrigger h index s = s := by
  have search : ((s.head h).outstanding.find? fun e => decide (e.index = index)) = none :=
    find?_never (fun _ => decide_eq_true_iff) unlisted
  rw [timeOutTrigger, search]

variable {before after : List Outstanding} {e : Outstanding}

/-- A listed trigger times out 2 ms after its issue (R52; log entry 4). -/
theorem timeOutTrigger_listed (listed : (s.head h).outstanding = before ++ e :: after) (here : e.index = index)
    (others : ∀ f ∈ before ++ after, f.index ≠ index) : timeOutTrigger h index s =
      headEvent h (HeadPort.timeOut index) { s with now := max s.now (e.issued + 2000) } := by
  have search : ((s.head h).outstanding.find? fun e => decide (e.index = index)) = some e :=
    find?_first (fun _ => decide_eq_true_iff) listed (fun f mem => others f (List.mem_append_left _ mem)) here
  rw [timeOutTrigger, search]
  rfl

/-- The port after the timeout of a listed trigger (R52, R64). -/
theorem timeOut_listed {y : HeadPort} (listed : y.outstanding = before ++ e :: after) (here : e.index = index)
    (others : ∀ f ∈ before ++ after, f.index ≠ index) : (y.timeOut index).1 = { y with
      outstanding := before ++ after
      ring := Ring.settle y.ring index .missed
      missedRun := min 64 (y.missedRun + 1)
      silent := y.silent || decide (63 ≤ y.missedRun)
      missed := true } := by
  have lost : y.listed index = true := List.any_eq_true.2 ⟨e, by rw [listed]; simp, decide_eq_true here⟩
  simp only [HeadPort.timeOut, lost, if_true, HeadPort.loseTrigger, unlist_split listed here others, HeadPort.settle,
    countMissed_eq]

/-- What a head reports of the timeout of a listed trigger: the line lost, and the advance of the front (R61, R63). -/
theorem timeOut_reports {y : HeadPort} (listed : y.listed index = true) : (y.timeOut index).2 =
    [.missedLine index] ++ HeadPort.frontNotice y (y.timeOut index).1 := by
  rw [HeadPort.timeOut, if_pos listed]

/-- A head event, whole: the head changes as its function says, and its notices are taken in some order (R146). -/
theorem headEvent_inOrder (f : HeadPort → HeadPort × List HeadNotice) (s : State) :
    ∃ order, order.Perm (f (s.head h)).2 ∧ headEvent h f s
      = takeInOrder (deliverNotice h) order (s.updHead h fun _ => (headEvent h f s).head h) := by
  obtain ⟨order, perm, taken⟩ := takeAll_inOrder (deliverNotice h) (f (s.head h)).2
    (s.updHead h fun _ => (f (s.head h)).1)
  refine ⟨order, perm, ?_⟩
  rw [headEvent_head, if_pos rfl]
  exact taken

end

/-! ### The reports of a head -/

/-- A MISSED report marks the records that are not DECIDED, use the head, and whose span contains the line (R146). -/
theorem linesLost_eq (s : State) (order : Nat) (line : Word) (r : BoardRecord) : linesLost s order line r =
    match r.binding, r.firstLine with
    | some b, some f =>
      match (s.slot b.slot).header with
      | none => r
      | some k =>
        if r.state ≠ .decided ∧ order < k.headsUsed
            ∧ (line - f).toNat ≤ (f + BitVec.ofNat 32 (b.boardLines - 1) - f).toNat then
          { r with verdictPart := { r.verdictPart with flags := { r.verdictPart.flags with linesLost := true } } }
        else r
    | _, _ => r := by
  unfold linesLost headsUsedOf headerOf
  cases bound : r.binding with
  | none => rfl
  | some b =>
    cases first : r.firstLine with
    | none => rfl
    | some f =>
      cases header : (s.slot b.slot).header with
      | none => simp [header]
      | some k => simp [header, inRange, ahead]

theorem evictFor_empty {index : Word} {z : HeadPort} (empty : Ring.get z.ring (slotOf index) = none) :
    z.evictFor index = (z, []) := by
  rw [HeadPort.evictFor, empty]

theorem evictFor_held {index : Word} {z : HeadPort} {old : Line} (held : Ring.get z.ring (slotOf index) = some old) :
    z.evictFor index =
      if old.status = .pending ∧ z.listed old.index = true then
        (z.loseTrigger old.index, [.missedLine old.index, .evicted old.index index])
      else (z, [.evicted old.index index]) := by
  rw [HeadPort.evictFor, held]

/-- The line that a trigger makes a head settle MISSED as it claims its slot: PENDING, and its trigger listed (R51 step
2, R60). -/
def lostLines (index : Word) (y : HeadPort) : List Line :=
  (Ring.get y.ring (slotOf index)).toList.filter fun old =>
    decide (old.status = .pending) && y.outstanding.any fun e => decide (e.index = old.index)

/-- The triggers that stay listed as the slot is claimed. -/
def keptTriggers (index : Word) (y : HeadPort) : List Outstanding :=
  y.outstanding.filter fun e => !(lostLines index y).any fun old => decide (e.index = old.index)

theorem lostLines_empty {index : Word} {y : HeadPort} (empty : Ring.get y.ring (slotOf index) = none) :
    lostLines index y = [] := by
  rw [lostLines, empty]
  rfl

theorem lostLines_held {index : Word} {y : HeadPort} {old : Line} (held : Ring.get y.ring (slotOf index) = some old) :
    lostLines index y = if old.status = .pending ∧ y.listed old.index = true then [old] else [] := by
  rw [lostLines, held]
  refine List.filter_singleton.trans ((cond_eq_ite ..).trans (if_congr ?_ rfl rfl))
  rw [Bool.and_eq_true, decide_eq_true_eq, HeadPort.listed]

/-- What the claim of a slot leaves listed and reports: the lost line, and the line evicted (R60, R61). -/
theorem evictFor_reports (index : Word) (y : HeadPort) :
    (y.evictFor index).1.outstanding = keptTriggers index y
      ∧ (y.evictFor index).2 = (lostLines index y).map (fun old => .missedLine old.index)
          ++ (Ring.get y.ring (slotOf index)).toList.map fun old => .evicted old.index index := by
  rw [keptTriggers]
  cases held : Ring.get y.ring (slotOf index) with
  | none => simp [evictFor_empty held, lostLines_empty held]
  | some old =>
    rw [evictFor_held held, lostLines_held held]
    by_cases lost : old.status = .pending ∧ y.listed old.index = true
    · rw [if_pos lost, if_pos lost]
      simp [HeadPort.loseTrigger, HeadPort.unlist, HeadPort.settle, HeadPort.countMissed]
    · rw [if_neg lost, if_neg lost]
      simp

/-- What a head reports of a lane trigger: the claim's notices, a skip, and the advance of the front (R51, R60, R61,
R63). -/
theorem takeTrigger_reports (index : Word) (now : Nat) (y : HeadPort) : (y.takeTrigger index now).2 =
    (lostLines index y).map (fun old => .missedLine old.index)
      ++ (Ring.get y.ring (slotOf index)).toList.map (fun old => .evicted old.index index)
      ++ (if 4 ≤ (keptTriggers index y).length then [.missedLine index] else [])
      ++ HeadPort.frontNotice y (y.takeTrigger index now).1 := by
  let z : HeadPort := { y with lastTrigger := some index }
  obtain ⟨kept, notices⟩ := evictFor_reports index z
  have claimed : ((z.evictFor index).1.claim index).outstanding = keptTriggers index y := kept
  have limit : 4 ≤ (keptTriggers index y).length ↔
      Config.outstandingLimit ≤ ((z.evictFor index).1.claim index).outstanding.length := by
    rw [claimed]
    rfl
  simp only [HeadPort.takeTrigger]
  by_cases full : 4 ≤ (keptTriggers index y).length
  · rw [if_pos full, if_pos (limit.1 full), notices]
    rfl
  · rw [if_neg full, if_neg (mt limit.2 full), notices, List.append_nil]
    rfl

section
variable {s : State} {h : HeadId} {st : HeadSettings}

/-- A head with lane NONE reports to nobody. -/
theorem deliverNotice_unassigned (settings : (s.head h).settings = some st) (unassigned : st.lane = none)
    (n : HeadNotice) : deliverNotice h n s = s := by
  have lane : headLane s h = none := by rw [headLane, settings]; exact unassigned
  rw [deliverNotice, lane]

variable {l : Lane}

theorem headLane_assigned (settings : (s.head h).settings = some st) (on : st.lane = some l) :
    headLane s h = some l := by
  rw [headLane, settings]
  exact on

/-- A MISSED report goes to the Verdict Unit (R61). -/
theorem deliverNotice_missed (assigned : headLane s h = some l) (line : Word) :
    deliverNotice h (.missedLine line) s = missedReport l h line s := by
  rw [deliverNotice, assigned]

/-- An eviction notice spoils the items of the head that need the line (R60, R112). -/
theorem deliverNotice_evicted (assigned : headLane s h = some l) (line trigger : Word) :
    deliverNotice h (.evicted line trigger) s = s.mapUnits fun e =>
      if e.item.head = h ∧ (line - e.item.firstNeeded).toNat ≤ (e.item.lastNeeded - e.item.firstNeeded).toNat then
        { e with spoiled := true }
      else e := by
  rw [deliverNotice, assigned]
  refine mapUnits_spoil fun e => ?_
  rw [Bool.and_eq_true, decide_eq_true_eq]
  exact and_congr_right fun _ => decide_eq_true_iff

/-- An advance of the front has the lane examined and the head's attempt collect (R63, R76). -/
theorem deliverNotice_front (settings : (s.head h).settings = some st) (assigned : headLane s h = some l)
    (front : Word) : deliverNotice h (.frontAdvance front) s =
      (grants (examine l s)).updCal h (CalRecord.collect st (s.head h).ring front 16) := by
  have head : (examineAndGrant l s).head h = s.head h := (examineAndGrant_quiet l s).head h
  rw [deliverNotice, assigned]
  dsimp only
  rw [calCollect, head, settings]
  rfl

end

/-- Settles O53: the timeout as one head event; the reports of a head, and what each is to its receiver. -/
theorem triggerTimeoutSettlesMissed : Obligations.TriggerTimeoutSettlesMissed := by
  refine ⟨fun s₀ h index => ?_, fun s l h line st settings => ?_, fun s l h trigger position => ?_,
    fun s h st settings => ⟨rfl, deliverNotice_unassigned settings, fun l on => ?_⟩⟩
  · intro s service y
    have taken : exec (.triggerTimeout h index) s₀ = .next (timeOutTrigger h index s) := inService_next service
    rw [taken]
    refine ⟨fun unlisted => congrArg _ (timeOutTrigger_unlisted unlisted), fun before e after listed here others => ?_⟩
    rw [timeOutTrigger_listed listed here others]
    let u : State := { s with now := max s.now (e.issued + 2000) }
    obtain ⟨head, only⟩ := onlyHeadChanges_of _ rfl (headEvent_quiet h (HeadPort.timeOut index) u)
    obtain ⟨order, perm, inOrder⟩ := headEvent_inOrder (h := h) (HeadPort.timeOut index) u
    have isListed : (u.head h).listed index = true :=
      List.any_eq_true.2 ⟨e, listed ▸ List.mem_append_right _ List.mem_cons_self, decide_eq_true here⟩
    refine ⟨_, order, rfl, inOrder, ?_, head.trans (timeOut_listed listed here others), only⟩
    rw [timeOut_reports isListed, frontNotice_eq, ← head] at perm
    exact perm
  · rw [missedReport, settings]
    exact congrArg (fun f => s.updLane l fun x => { x with transit := x.transit.map f })
      (funext fun r => linesLost_eq s st.laneOrder line r)
  · intro y y' held lost kept
    obtain ⟨order, perm, inOrder⟩ := headEvent_inOrder (h := h) (HeadPort.takeTrigger trigger s.now) s
    have head : y' = (y.takeTrigger trigger s.now).1 :=
      (takeTriggerAt_headPort l trigger position h h s).trans (if_pos rfl)
    refine ⟨order, inOrder, ?_⟩
    rw [takeTrigger_reports, frontNotice_eq, ← head] at perm
    exact perm
  · have assigned := headLane_assigned settings on
    exact ⟨deliverNotice_missed assigned, deliverNotice_evicted assigned, deliverNotice_front settings assigned⟩

end Sys2Proof.Machine

namespace Sys2Proof.Machine

/-! ### The calibration records -/

theorem calRecord_powerOn_sound : CalRecord.powerOn.Sound := by
  unfold CalRecord.Sound
  decide

/-- Settles O13: every edit keeps the calibration records sound; power-on gives each its power-on values, and the other
changes leave them as they are. -/
theorem stepKeepsCalibration : Obligations.StepKeepsCalibration := fun _ _ sound stepped =>
  step_keeps_state (I := CalibrationSound) (fun _ _ kept => kept)
    (fun pins s h => by rw [powerOn_calOf]; exact calRecord_powerOn_sound) (fun _ kept => kept) (fun _ _ kept => kept)
    (fun _ _ _ _ kept => kept) (fun run kept => run.keep (I := fun _ => CalibrationSound) cal_edit kept) sound stepped

/-! ### CAL_REQUEST -/

theorem flagByte_isSome {α : Type} (o : Option α) [Decidable (o = none)] :
    flagByte o.isSome = if o = none then 0 else 1 := by
  cases o <;> simp [flagByte]

theorem headLane_unset {s : State} {h : HeadId} (unset : (s.head h).settings = none) : headLane s h = none := by
  rw [headLane, unset]

theorem headLane_unassigned {s : State} {h : HeadId} {st : HeadSettings} (settings : (s.head h).settings = some st)
    (unassigned : st.lane = none) : headLane s h = none := by
  rw [headLane, settings]
  exact unassigned

section
variable {s : State} {h : HeadId}

/-- A head that serves no lane is refused STATE (R72). -/
theorem requestCal_unassigned (tag : Byte) (serves : headLane s h = none) :
    requestCal tag h s = replyRefused kindCalRequest tag .state [] s := by
  rw [requestCal, serves]

/-- A head that serves a lane has its calibration requested, and the balance and the attempt are answered (R72). -/
theorem requestCal_assigned (tag : Byte) {l : Lane} (serves : headLane s h = some l) : requestCal tag h s =
    replyDone kindCalRequest tag [BitVec.ofInt 8 (s.calOf h).balance, if (s.calOf h).attempt = none then 0 else 1]
      (s.updCal h fun c => { c with requested := true }) := by
  rw [requestCal, serves, ← flagByte_isSome]
  rfl

end

/-- Settles O36: the head by its number, then the request by whether the head serves a lane. -/
theorem calRequestSetsRequested : Obligations.CalRequestSetsRequested := by
  intro s₀ r rest s can u
  have taken : exec .calRequest s₀ = .next (calRequestBody r.tag r.payload u) := takeKind_next can
  rw [taken]
  refine ⟨fun bad => ?_, fun h named => ?_⟩
  · rw [calRequestBody, fourOf?_none bad]
    rfl
  · have body : calRequestBody r.tag r.payload u = requestCal r.tag h u := by rw [calRequestBody, named]
    rw [body]
    refine ⟨fun unset => congrArg _ (requestCal_unassigned r.tag (headLane_unset unset)), fun st settings =>
      ⟨fun unassigned => congrArg _ (requestCal_unassigned r.tag (headLane_unassigned settings unassigned)),
        fun assigned => ?_⟩⟩
    obtain ⟨l, on⟩ := Option.ne_none_iff_exists'.1 assigned
    exact congrArg _ (requestCal_assigned r.tag (headLane_assigned settings on))

end Sys2Proof.Machine

namespace Sys2Proof.Machine

/-! ### Invariants of the slots -/

/-- A new encoder state leaves the entries and the records of the lane. -/
theorem decodeEncoder_naming (p q : Bool) (n : SlotId) (x : LaneState) :
    (x.decodeEncoder p q).naming n = x.naming n := by
  obtain ⟨_, _, _, same⟩ := decodeEncoder_frame p q x
  rw [same]
  rfl

/-- After power-on no slot has a reference, and nothing names a slot. -/
theorem powerOn_refSound (pins : PowerOnPins) (s : State) : RefSound (powerOn pins s) := by
  intro n
  rw [powerOn_slot]
  exact ⟨rfl, fun _ => rfl, nofun⟩

theorem assertReset_refSound {s : State} (sound : RefSound s) : RefSound (assertReset s) :=
  ref_same sound rfl fun _ => rfl

theorem observeEncoder_refSound (l : Lane) (p q : Bool) {s : State} (sound : RefSound s) :
    RefSound (observeEncoder l p q s) :=
  ref_lane sound rfl rfl fun n => decodeEncoder_naming p q n (s.lane l)

/-- Settles O10: every edit keeps the counts (`ref_edit`); power-on clears them with all that names a slot, and the
other changes touch neither slots, entries nor records. -/
theorem stepKeepsReferences : Obligations.StepKeepsReferences := fun _ _ sound stepped =>
  step_keeps_state (I := RefSound) (fun _ _ kept => kept) powerOn_refSound (fun _ => assertReset_refSound)
    (fun _ _ kept => kept) (fun l p q _ => observeEncoder_refSound l p q)
    (fun run kept => run.keep (I := fun _ => RefSound) ref_edit kept) sound stepped

/-- After power-on the outbox is empty, no place is reserved and no slot is CLOSING. -/
theorem powerOn_places (pins : PowerOnPins) (s : State) : Places 0 (powerOn pins s) := by
  refine ⟨Nat.zero_le _, fun n => ?_⟩
  rw [powerOn_slot]
  exact ⟨nofun, nofun⟩

/-- Settles O16: every edit keeps the places, counting that of the request in course (`places_edit`), and outside a
command none is in course; power-on frees them all, and the other changes touch neither replies nor lasting work. -/
theorem stepKeepsPlaces : Obligations.StepKeepsPlaces := fun _ _ sound stepped =>
  step_keeps_state (I := Places 0) (fun _ _ kept => kept) powerOn_places (fun _ kept => kept) (fun _ _ kept => kept)
    (fun _ _ _ _ kept => kept) (fun run kept => run.keep (I := Places) places_edit kept) sound stepped

end Sys2Proof.Machine

namespace Sys2Proof.Machine

/-! ### The slot of a recipe request -/

/-- The six recipe rows, each taken first by the checks of R86. -/
theorem recipeRow_onSlot {s₀ : State} {r : Request} {rest : List Request} {row : Instr × Byte}
    (recipe : row ∈ [(Instr.recipeOpen, (0x0C : Byte)), (.recipeClasses, 0x0D), (.recipeJoints, 0x0E),
      (.recipeClose, 0x0F), (.recipeRetire, 0x10), (.recipeQuery, 0x11)])
    (can : CanTake row.2 r rest (takeReached s₀)) : ∃ body,
      exec row.1 s₀ = .next (onSlot row.2 r.tag r.payload body (afterTaking rest (takeReached s₀))) := by
  simp only [List.mem_cons, List.not_mem_nil, or_false] at recipe
  obtain rfl | rfl | rfl | rfl | rfl | rfl := recipe
  · exact ⟨openSlot r.tag r.payload, takeKind_next (body := recipeOpenBody) can⟩
  · exact ⟨loadClasses r.tag r.payload, takeKind_next (body := recipeClassesBody) can⟩
  · exact ⟨loadJoints r.tag r.payload, takeKind_next (body := recipeJointsBody) can⟩
  · exact ⟨closeSlot r.tag, takeKind_next (body := recipeCloseBody) can⟩
  · exact ⟨retireSlot r.tag, takeKind_next (body := recipeRetireBody) can⟩
  · exact ⟨querySlot r.tag, takeKind_next (body := recipeQueryBody) can⟩

/-- A recipe request on a slot that is not CLOSING is handled by its own rules (R86). -/
theorem takeSlot_next {s : State} {kind : Byte} {r : Request} {rest : List Request} {n : SlotId}
    {body : Byte → List Byte → SlotId → State → State} (can : CanTake kind r rest s)
    (named : Four.ofNat? (fieldAt r.payload 0 1) = some n) (free : (s.slot n).state ≠ .closing) :
    inService (takeKind kind fun tag p => onSlot kind tag p (body tag p)) s
      = .next (body r.tag r.payload n (afterTaking rest s)) :=
  (takeKind_next can).trans (congrArg _ (onSlot_here named free))

/-- Settles O37: all six rows make the checks of R86 by `onSlot`, before their own. -/
theorem recipeRequestsCheckTheSlot : Obligations.RecipeRequestsCheckTheSlot := by
  intro s₀ r rest s row recipe can
  obtain ⟨body, taken⟩ := recipeRow_onSlot recipe can
  rw [taken]
  exact ⟨fun beyond => congrArg _ (onSlot_none beyond), fun n named closing => congrArg _ (onSlot_busy named closing)⟩

/-! ### Loading a recipe -/

section
variable {s : State} {n : SlotId} {p : List Byte} {h : Header} {ws : List WireJoint}

theorem classCount_of_header (header : (s.slot n).header = some h) : (s.slot n).classCount = h.classCount := by
  rw [RecipeSlot.classCount, header]

theorem jointCount_of_header (header : (s.slot n).header = some h) : (s.slot n).jointCount = h.jointCount := by
  rw [RecipeSlot.jointCount, header]

/-- Check 1 of R89. -/
theorem openSlot_used (tag : Byte) (p : List Byte) (used : (s.slot n).state ≠ .empty) :
    openSlot tag p n s = replyRefused kindRecipeOpen tag .state [] s :=
  if_pos used

/-- Check 2 of R89. -/
theorem openSlot_outside (tag : Byte) (empty : (s.slot n).state = .empty) (outside : (readHeader p).inRanges ≠ true) :
    openSlot tag p n s = replyRefused kindRecipeOpen tag .range [] s := by
  rw [openSlot, if_neg (not_not_intro empty), if_neg outside]

/-- The header is stored in a LOADING slot and answered (R89). -/
theorem openSlot_opens (tag : Byte) (empty : (s.slot n).state = .empty) (ranges : (readHeader p).inRanges = true) :
    openSlot tag p n s = replyDone kindRecipeOpen tag (byteOf n.toNat :: headerBytes (readHeader p))
      (s.updSlot n fun _ => openedSlot (readHeader p)) := by
  rw [openSlot, if_neg (not_not_intro empty), if_pos ranges]

/-- Check 1 of R90. -/
theorem loadClasses_unopened (tag : Byte) (p : List Byte) (unopened : (s.slot n).state ≠ .loading) :
    loadClasses tag p n s = replyRefused kindRecipeClasses tag .state [] s :=
  if_pos unopened

/-- Check 2 of R90. -/
theorem loadClasses_miscounted (tag : Byte) (loading : (s.slot n).state = .loading)
    (miscounted : (payloadClasses p).length ≠ (s.slot n).classCount) :
    loadClasses tag p n s = replyRefused kindRecipeClasses tag .range [] s := by
  rw [loadClasses, if_neg (not_not_intro loading), if_pos miscounted]

/-- Check 3 of R90, with the index of the first entry outside its ranges. -/
theorem loadClasses_outside (tag : Byte) {k : Nat} (loading : (s.slot n).state = .loading)
    (counted : (payloadClasses p).length = (s.slot n).classCount)
    (outside : firstFailing ClassEntry.inRanges 0 (payloadClasses p) = some k) :
    loadClasses tag p n s = replyRefused kindRecipeClasses tag .range [byteOf k] s := by
  rw [loadClasses, if_neg (not_not_intro loading), if_neg (not_not_intro counted), outside]

/-- The class table is stored whole, and its count answered (R90). -/
theorem loadClasses_stores (tag : Byte) (loading : (s.slot n).state = .loading)
    (counted : (payloadClasses p).length = (s.slot n).classCount)
    (ranges : firstFailing ClassEntry.inRanges 0 (payloadClasses p) = none) :
    loadClasses tag p n s = replyDone kindRecipeClasses tag [byteOf (s.slot n).classCount]
      (s.updSlot n fun x => { x with classes := some (payloadClasses p) }) := by
  rw [loadClasses, if_neg (not_not_intro loading), if_neg (not_not_intro counted), ranges, ← counted]

/-- Check 1 of R91. -/
theorem loadJoints_unopened (tag : Byte) (p : List Byte) (unopened : (s.slot n).state ≠ .loading) :
    loadJoints tag p n s = replyRefused kindRecipeJoints tag .state [] s :=
  if_pos unopened

/-- Check 2 of R91, with the joints loaded. -/
theorem loadJoints_disordered (tag : Byte) (loading : (s.slot n).state = .loading)
    (disordered : fieldAt p 1 2 ≠ (s.slot n).joints.length) :
    loadJoints tag p n s = replyRefused kindRecipeJoints tag .order (le16 (s.slot n).joints.length) s := by
  rw [loadJoints, if_neg (not_not_intro loading), if_pos disordered]

/-- A run that begins where the joint table ends is appended, if its own checks pass. -/
theorem loadJoints_next (tag : Byte) (loading : (s.slot n).state = .loading)
    (next : fieldAt p 1 2 = (s.slot n).joints.length) (read : payloadJoints p = some ws) :
    loadJoints tag p n s = appendJoints tag ws n s := by
  rw [loadJoints, if_neg (not_not_intro loading), if_neg (not_not_intro next), read]
  rfl

/-- Check 3 of R91. -/
theorem appendJoints_unfit (tag : Byte)
    (unfit : ¬(ws ≠ [] ∧ (s.slot n).joints.length + ws.length ≤ (s.slot n).jointCount)) :
    appendJoints tag ws n s = replyRefused kindRecipeJoints tag .range [] s := by
  rw [appendJoints, if_pos]
  by_contra fits
  obtain ⟨filled, room⟩ := not_or.1 fits
  exact unfit ⟨filled, Nat.not_lt.1 room⟩

/-- Check 4 of R91, with the index in the joint table of the first record outside its ranges. -/
theorem appendJoints_outside (tag : Byte) {k : Nat} (filled : ws ≠ [])
    (room : (s.slot n).joints.length + ws.length ≤ (s.slot n).jointCount)
    (outside : firstFailing WireJoint.inRanges (s.slot n).joints.length ws = some k) :
    appendJoints tag ws n s = replyRefused kindRecipeJoints tag .range (le16 k) s := by
  rw [appendJoints, if_neg (not_or.2 ⟨filled, Nat.not_lt.2 room⟩), outside]

/-- The run joins the joint table, and the joints loaded are answered (R91). -/
theorem appendJoints_appends (tag : Byte) (filled : ws ≠ [])
    (room : (s.slot n).joints.length + ws.length ≤ (s.slot n).jointCount)
    (ranges : firstFailing WireJoint.inRanges (s.slot n).joints.length ws = none) :
    appendJoints tag ws n s = replyDone kindRecipeJoints tag (le16 ((s.slot n).joints.length + ws.length))
      (s.updSlot n fun x => { x with joints := x.joints ++ ws.map (·.joint) }) := by
  rw [appendJoints, if_neg (not_or.2 ⟨filled, Nat.not_lt.2 room⟩), ranges]

end

theorem within_iff {lo hi n : Nat} : within lo hi n = true ↔ lo ≤ n ∧ n ≤ hi := by
  simp [within]

/-- Check 3 of R90 as ranges of numbers (05, table Class entry). -/
theorem classEntry_inRanges_iff (c : ClassEntry) : c.inRanges = true ↔
    c.vmin ≤ 16384000 ∧ c.vmax ≤ 16384000 ∧ (1 ≤ c.pmax ∧ c.pmax ≤ 4000) ∧ (1 ≤ c.wetHeight ∧ c.wetHeight ≤ 4000)
      ∧ c.cmin ≤ 1000 ∧ c.validMin ≤ 1000 ∧ (1 ≤ c.hclamp ∧ c.hclamp ≤ 4000) := by
  simp only [ClassEntry.inRanges, Bool.and_eq_true, within_iff, Nat.zero_le, true_and, and_assoc]

/-- The ranges of a gap part as ranges of numbers (05, table Joint record). -/
theorem gapPart_inRanges_iff (g : GapPart) : g.inRanges = true ↔
    g.gcol0 ≤ 1023 ∧ (1 ≤ g.gncols ∧ g.gncols ≤ 64) ∧ g.grow0 ≤ 65535 ∧ (1 ≤ g.gnrows ∧ g.gnrows ≤ 64)
      ∧ (1 ≤ g.bridgeHeight ∧ g.bridgeHeight ≤ 4000) ∧ (1 ≤ g.bridgeCount ∧ g.bridgeCount ≤ 4096) := by
  simp only [GapPart.inRanges, Bool.and_eq_true, within_iff, Nat.zero_le, true_and, and_assoc]

/-- Check 4 of R91 as ranges of numbers (05, table Joint record; R189). -/
theorem wireJoint_inRanges_iff (w : WireJoint) : w.inRanges = true ↔
    w.presence ≤ 1 ∧ (1 ≤ w.joint.jointId ∧ w.joint.jointId ≤ 65535) ∧ w.joint.head ≤ 1 ∧ w.joint.cls ≤ 15
      ∧ (1 ≤ w.joint.margin ∧ w.joint.margin ≤ 8) ∧ w.joint.col0 ≤ 1023 ∧ (1 ≤ w.joint.ncols ∧ w.joint.ncols ≤ 64)
      ∧ w.joint.row0 ≤ 65535 ∧ (1 ≤ w.joint.nrows ∧ w.joint.nrows ≤ 64)
      ∧ ∀ g, w.joint.gap = some g →
          g.gcol0 ≤ 1023 ∧ (1 ≤ g.gncols ∧ g.gncols ≤ 64) ∧ g.grow0 ≤ 65535 ∧ (1 ≤ g.gnrows ∧ g.gnrows ≤ 64)
            ∧ (1 ≤ g.bridgeHeight ∧ g.bridgeHeight ≤ 4000) ∧ (1 ≤ g.bridgeCount ∧ g.bridgeCount ≤ 4096) := by
  simp only [WireJoint.inRanges, Joint.inRanges, Bool.and_eq_true, within_iff, Nat.zero_le, true_and, and_assoc]
  cases w.joint.gap with
  | none => simp
  | some g => simp [gapPart_inRanges_iff, and_assoc]

section
variable {α : Type} {ok : α → Bool} {good : α → Prop} {xs : List α}

/-- The first element that is not good is found, counting from `m`. -/
theorem firstFailing_first (checks : ∀ x, ok x = true ↔ good x) (m : Nat) {k : Nat}
    (before : ∀ i x, i < k → xs[i]? = some x → good x) (here : ∃ x, xs[k]? = some x ∧ ¬good x) :
    firstFailing ok m xs = some (m + k) := by
  obtain ⟨x, at_k, bad⟩ := here
  exact firstFailing_at ok m xs k (fun i x lt at_i => (checks x).2 (before i x lt at_i))
    ⟨x, at_k, Bool.eq_false_iff.2 fun passes => bad ((checks x).1 passes)⟩

/-- In a list of good elements no failure is found. -/
theorem firstFailing_all (checks : ∀ x, ok x = true ↔ good x) (m : Nat) (all : ∀ x ∈ xs, good x) :
    firstFailing ok m xs = none :=
  (firstFailing_none ok m xs).2 fun x mem => (checks x).2 (all x mem)

end

/-- Settles O38: the checks of each row one after another, as `openSlot`, `loadClasses` and `loadJoints` make them. -/
theorem recipeLoadsInOrder : Obligations.RecipeLoadsInOrder := by
  intro s₀ r rest n s named free u
  refine ⟨fun can => ?_, fun can => ?_, fun can => ?_⟩
  · intro h inRange
    have taken : exec .recipeOpen s₀ = .next (openSlot r.tag r.payload n u) :=
      takeSlot_next (body := openSlot) can named free
    have ranges : (readHeader r.payload).inRanges = true ↔ inRange := header_inRanges_iff h
    rw [taken, ← ranges]
    exact ⟨fun used => congrArg _ (openSlot_used _ _ used), fun empty out => congrArg _ (openSlot_outside _ empty out),
      fun empty ok => congrArg _ (openSlot_opens _ empty ok)⟩
  · intro inRange
    have taken : exec .recipeClasses s₀ = .next (loadClasses r.tag r.payload n u) :=
      takeSlot_next (body := loadClasses) can named free
    rw [taken]
    refine ⟨fun unopened => congrArg _ (loadClasses_unopened _ _ unopened), fun h loading header => ?_⟩
    intro cs
    have count : (u.slot n).classCount = h.classCount := classCount_of_header header
    rw [← count]
    exact ⟨fun miscounted => congrArg _ (loadClasses_miscounted _ loading miscounted),
      fun k counted before here => congrArg _ (loadClasses_outside _ loading counted
        ((firstFailing_first classEntry_inRanges_iff 0 before here).trans (congrArg some (Nat.zero_add k)))),
      fun counted all => congrArg _ (loadClasses_stores _ loading counted
        (firstFailing_all classEntry_inRanges_iff 0 all))⟩
  · intro inRange loaded
    have taken : exec .recipeJoints s₀ = .next (loadJoints r.tag r.payload n u) :=
      takeSlot_next (body := loadJoints) can named free
    rw [taken]
    refine ⟨fun unopened => congrArg _ (loadJoints_unopened _ _ unopened),
      fun loading disordered => congrArg _ (loadJoints_disordered _ loading disordered),
      fun h ws loading next header read => ?_⟩
    have run : loadJoints r.tag r.payload n u = appendJoints r.tag ws n u := loadJoints_next r.tag loading next read
    have count : (u.slot n).jointCount = h.jointCount := jointCount_of_header header
    rw [run, ← count]
    exact ⟨fun unfit => congrArg _ (appendJoints_unfit _ unfit),
      fun k ⟨filled, room⟩ before here => congrArg _ (appendJoints_outside _ filled room
        (firstFailing_first wireJoint_inRanges_iff _ before here)),
      fun ⟨filled, room⟩ all => congrArg _ (appendJoints_appends _ filled room
        (firstFailing_all wireJoint_inRanges_iff _ all))⟩

/-! ### RECIPE_CLOSE, RECIPE_RETIRE and RECIPE_QUERY -/

section
variable {s : State} {n : SlotId}

/-- Only a LOADING slot can be closed (R92). -/
theorem closeSlot_unopened (tag : Byte) (unopened : (s.slot n).state ≠ .loading) :
    closeSlot tag n s = replyRefused kindRecipeClose tag .state [] s :=
  if_neg unopened

/-- The close starts, and its reply waits for the end (R92). -/
theorem closeSlot_starts (tag : Byte) (loading : (s.slot n).state = .loading) :
    closeSlot tag n s = s.updSlot n fun x => { x with state := .closing, closeTag := some tag } :=
  if_pos loading

/-- An EMPTY slot holds nothing to retire, and a RETIRING one retires already (R98). -/
theorem retireSlot_refused (tag : Byte) (retired : (s.slot n).state = .empty ∨ (s.slot n).state = .retiring) :
    retireSlot tag n s = replyRefused kindRecipeRetire tag .state [] s := by
  unfold retireSlot
  obtain empty | retiring := retired
  · simp only [empty]
  · simp only [retiring]

/-- A slot without references is emptied (R98). -/
theorem retireSlot_empties (tag : Byte)
    (unused : (s.slot n).state = .loading ∨ ((s.slot n).state = .ready ∧ (s.slot n).refs = 0)) :
    retireSlot tag n s = replyDone kindRecipeRetire tag [0, 0] (s.updSlot n fun _ => RecipeSlot.empty) := by
  unfold retireSlot
  obtain loading | ⟨ready, none'⟩ := unused
  · simp only [loading]
    rfl
  · simp only [ready, if_pos none']
    rfl

/-- A READY slot with references waits for their end (R98, R99). -/
theorem retireSlot_retires (tag : Byte) (ready : (s.slot n).state = .ready) (used : 0 < (s.slot n).refs) :
    retireSlot tag n s = replyDone kindRecipeRetire tag [4, byteOf (s.slot n).refs]
      (s.updSlot n fun x => { x with state := .retiring }) := by
  unfold retireSlot
  simp only [ready, if_neg used.ne']
  rfl

end

/-- The bytes of RECIPE_QUERY, an absent part sent as absent and zeros (R101, R188). -/
theorem recipeQueryBytes_parts (x : RecipeSlot) : recipeQueryBytes x =
    [x.state.code, byteOf x.refs]
      ++ x.header.elim [0, 0, 0, 0, 0, 0, 0, 0, 0, 0] (fun h => 1 :: headerBytes h)
      ++ [if x.classes.isSome then 1 else 0] ++ le16 x.joints.length
      ++ x.lastFailure.elim [0, 0, 0, 0, 0] (fun f => [1, f.code.refusal.code, f.table.code] ++ le16 f.index) := by
  unfold recipeQueryBytes
  cases x.header <;> cases x.lastFailure <;> rfl

/-- Settles O39: the three rows by the state of the slot, and the record of a query part by part. -/
theorem recipeClosesRetiresAndAnswers : Obligations.RecipeClosesRetiresAndAnswers := by
  intro s₀ r rest n s named free u x emptied
  refine ⟨fun can => ?_, fun can => ?_, fun can => ?_⟩
  · have taken : exec .recipeClose s₀ = .next (closeSlot r.tag n u) :=
      takeSlot_next (body := fun tag _ => closeSlot tag) can named free
    rw [taken]
    exact ⟨fun unopened => congrArg _ (closeSlot_unopened _ unopened),
      fun loading => congrArg _ (closeSlot_starts _ loading)⟩
  · have taken : exec .recipeRetire s₀ = .next (retireSlot r.tag n u) :=
      takeSlot_next (body := fun tag _ => retireSlot tag) can named free
    rw [taken]
    exact ⟨fun retired => congrArg _ (retireSlot_refused _ retired),
      fun unused => congrArg _ (retireSlot_empties _ unused),
      fun ready used => congrArg _ (retireSlot_retires _ ready used)⟩
  · intro state code table
    have taken : exec .recipeQuery s₀ = .next (querySlot r.tag n u) :=
      takeSlot_next (body := fun tag _ => querySlot tag) can named free
    have state_eq : x.state.code = state := rfl
    have code_eq (f : CloseFailure) : f.code.refusal.code = code f := by
      unfold code
      cases f.code <;> rfl
    have table_eq (f : CloseFailure) : f.table.code = table f := rfl
    have bytes := recipeQueryBytes_parts x
    simp only [code_eq, table_eq, state_eq] at bytes
    rw [taken]
    refine congrArg (fun b => answersDone 0x11 r b u) (bytes.trans ?_)
    cases x.header <;> cases x.lastFailure <;> rfl

end Sys2Proof.Machine

namespace Sys2Proof.Machine

/-! ### The searches of the close checks -/

/-- A search that answers the lowest index with a property, and nothing where no index has it. -/
def FindsLowest (bad : Nat → Prop) (found : Option Nat) : Prop :=
  (∀ k, (bad k ∧ ∀ i < k, ¬bad i) → found = some k) ∧ ((∀ k, ¬bad k) → found = none)

theorem FindsLowest.congr {bad bad' : Nat → Prop} {found : Option Nat} (finds : FindsLowest bad found)
    (same : ∀ k, bad k ↔ bad' k) : FindsLowest bad' found := by
  rwa [← funext fun k => propext (same k)]

/-- Every element of a table is looked at. -/
theorem firstFailing_findsLowest {α : Type} {ok : α → Bool} {fault : α → Prop} (checks : ∀ x, ok x = false ↔ fault x)
    (xs : List α) : FindsLowest (fun k => ∃ x, xs[k]? = some x ∧ fault x) (firstFailing ok 0 xs) := by
  have same (k : Nat) : (∃ x, xs[k]? = some x ∧ fault x) ↔ ∃ x, xs[k]? = some x ∧ ok x = false := by
    simp only [checks]
  exact ⟨firstFailing_lowest ok _ xs same, firstFailing_never ok _ xs same⟩

/-- Joint `k` is not the first, and its last needed row is below that of the joint before it (check 6 of R93). -/
def DescendsAt (js : List Joint) (k : Nat) : Prop :=
  ∃ i a b, k = i + 1 ∧ js[i]? = some a ∧ js[k]? = some b ∧ b.lastRow < a.lastRow

/-- After a joint with the same last row as the first, a table descends where it does by itself. -/
theorem descendsAt_iff (j : Joint) (js : List Joint) (k : Nat) :
    DescendsAt (j :: js) k ↔ Descends j.lastRow (j :: js) k := by
  cases k with
  | zero => simp [DescendsAt, Descends]
  | succ i =>
    constructor
    · rintro ⟨i', a, b, next, before, here, below⟩
      obtain rfl : i' = i := by omega
      exact ⟨a, b, before, here, below⟩
    · rintro ⟨a, b, before, here, below⟩
      exact ⟨i, a, b, rfl, before, here, below⟩

theorem firstDescent_head (j : Joint) (js : List Joint) :
    firstDescent none 0 (j :: js) = firstDescent (some j.lastRow) 0 (j :: js) :=
  (if_neg (lt_irrefl j.lastRow)).symm

theorem firstDescent_findsLowest (js : List Joint) : FindsLowest (DescendsAt js) (firstDescent none 0 js) := by
  cases js with
  | nil => exact ⟨fun k ⟨⟨_, _, _, _, before, _⟩, _⟩ => by simp at before, fun _ => rfl⟩
  | cons j js =>
    have spec := firstDescent_spec j.lastRow 0 (j :: js)
    rw [← firstDescent_head] at spec
    simp only [Nat.zero_add] at spec
    exact FindsLowest.congr spec fun k => (descendsAt_iff j js k).symm

/-- Joint `k` has the id of an earlier joint (check 7 of R93). -/
def RepeatsAt (js : List Joint) (k : Nat) : Prop :=
  ∃ i a b, i < k ∧ js[i]? = some a ∧ js[k]? = some b ∧ a.jointId = b.jointId

theorem repeatsAt_iff (js : List Joint) (k : Nat) : RepeatsAt js k ↔ Repeats [] js k := by
  constructor
  · rintro ⟨i, a, b, lt, before, here, same⟩
    exact ⟨b, here, .inr ⟨i, a, lt, before, same⟩⟩
  · rintro ⟨b, here, seen | ⟨i, a, lt, before, same⟩⟩
    · simp at seen
    · exact ⟨i, a, b, lt, before, here, same⟩

theorem firstRepeat_findsLowest (js : List Joint) : FindsLowest (RepeatsAt js) (firstRepeat [] 0 js) := by
  have spec := firstRepeat_spec [] 0 js
  simp only [Nat.zero_add] at spec
  exact FindsLowest.congr spec fun k => (repeatsAt_iff js k).symm

/-! ### The close checks one by one -/

/-- Check 2 of R93 on one class entry. -/
theorem classEntry_inconsistent_iff (c : ClassEntry) :
    c.consistent = false ↔ ¬(c.vmin ≤ c.vmax ∧ c.wetHeight ≤ c.hclamp) := by
  rw [← Bool.not_eq_true, ClassEntry.consistent, Bool.and_eq_true, decide_eq_true_eq, decide_eq_true_eq]

/-- Check 3 of R93 on one joint. -/
theorem joint_unnamed_iff (h : Header) (j : Joint) :
    j.namesExist h = false ↔ ¬(j.cls < h.classCount ∧ j.head < h.headsUsed) := by
  rw [← Bool.not_eq_true, Joint.namesExist, Bool.and_eq_true, decide_eq_true_eq, decide_eq_true_eq]

/-- Check 4 of R93 on one joint. The model takes the last columns as natural numbers, which differ from the integers
only where `col0` and `ncols` are both 0; a margin that passes column 1023 then begins before column 0 as well. -/
theorem joint_outside_iff (lines : Nat) (j : Joint) : j.fitsBoard lines = false ↔
    j.firstRow < 0 ∨ (lines : Int) - 1 < j.lastRow ∨ (j.col0 : Int) - j.margin < 0
      ∨ 1023 < (j.col0 : Int) + j.ncols - 1 + j.margin
      ∨ ∃ g, j.gap = some g ∧ 1023 < (g.gcol0 : Int) + g.gncols - 1 := by
  rw [← Bool.not_eq_true, Joint.fitsBoard]
  simp only [Bool.and_eq_true, decide_eq_true_eq]
  cases j.gap with
  | none =>
    simp only [reduceCtorEq, false_and, exists_false, and_true, or_false]
    omega
  | some g =>
    simp only [Option.some.injEq, exists_eq_left', decide_eq_true_eq]
    omega

/-- Check 5 of R93 on one joint. -/
theorem joint_tall_iff (j : Joint) : j.fitsRing = false ↔ 255 < j.lastRow - j.firstRow := by
  rw [Joint.fitsRing, decide_eq_false_iff_not, Int.not_le]

section
variable {bad : Nat → Prop} {found : Option Nat} {more : Option CloseFailure} {k : Nat} {code : CloseCode}
  {table : FailTable}

/-- A check that finds a fault ends the close with it (R93). -/
theorem FindsLowest.or_fault (finds : FindsLowest bad found)
    (lowest : bad k ∧ ∀ i < k, ¬bad i) : (failAt code table found).or more = some ⟨code, table, k⟩ := by
  rw [finds.1 k lowest]
  rfl

/-- A check that finds none hands on to the next (R93). -/
theorem FindsLowest.or_next (finds : FindsLowest bad found) (never : ∀ k, ¬bad k) :
    (failAt code table found).or more = more := by
  rw [finds.2 never]
  rfl

end

/-! ### The end of a close -/

section
variable {s : State} {n : SlotId} {tag : Byte}

theorem closeCheck_unclassed {x : RecipeSlot} (unclassed : x.classes = none) :
    closeCheck x = some ⟨.incomplete, .classTable, 0⟩ := by
  rw [closeCheck, unclassed]

/-- Check 1 of R93 on the joint table. -/
theorem closeCheck_short {x : RecipeSlot} {cs : List ClassEntry} {h : Header} (classes : x.classes = some cs)
    (header : x.header = some h) (short : x.joints.length ≠ h.jointCount) :
    closeCheck x = some ⟨.incomplete, .jointTable, x.joints.length⟩ := by
  rw [closeCheck, classes, header]
  exact if_pos short

/-- Checks 2 to 7 of R93 on a recipe loaded whole. -/
theorem closeCheck_complete {x : RecipeSlot} {cs : List ClassEntry} {h : Header} (classes : x.classes = some cs)
    (header : x.header = some h) (complete : x.joints.length = h.jointCount) : closeCheck x =
      (failAt .range .classTable (firstFailing ClassEntry.consistent 0 cs)).or (checkJoints h x.joints) := by
  rw [closeCheck, classes, header]
  exact if_neg (not_not_intro complete)

/-- A slot that is not CLOSING has no close to end. -/
theorem endClose_idle (idle : (s.slot n).state ≠ .closing) : endClose n s = s :=
  if_neg idle

/-- A close that fails (R96). -/
theorem endClose_fails {f : CloseFailure} (closing : (s.slot n).state = .closing)
    (owed : (s.slot n).closeTag = some tag) (fault : closeCheck (s.slot n) = some f) : endClose n s =
      replyRefused kindRecipeClose tag f.code.refusal (f.table.code :: le16 f.index)
        (s.updSlot n (RecipeSlot.failClose f)) := by
  rw [endClose, if_pos closing, fault, owed]
  rfl

/-- A close that passes (R95). -/
theorem endClose_passes (closing : (s.slot n).state = .closing) (owed : (s.slot n).closeTag = some tag)
    (sound : closeCheck (s.slot n) = none) : endClose n s =
      replyDone kindRecipeClose tag (byteOf n.toNat :: le16 (s.slot n).joints.length)
        (s.updSlot n RecipeSlot.passClose) := by
  rw [endClose, if_pos closing, sound, owed]
  rfl

end

/-- Settles O41: each check of `closeCheck` finds its lowest fault, and hands on to the next where there is none. -/
theorem closeEndsByItsChecks : Obligations.CloseEndsByItsChecks := by
  intro s₀ n s service x
  have taken : exec (.closeEnd n) s₀ = .next (endClose n s) := inService_next service
  rw [taken]
  refine ⟨fun idle => congrArg _ (endClose_idle idle), fun tag closing owed => ?_⟩
  intro fails
  have fails_of {f : CloseFailure} (fault : closeCheck x = some f) : fails f (keptJoints f x.joints) :=
    congrArg _ (endClose_fails closing owed fault)
  refine ⟨fun unclassed => fails_of (closeCheck_unclassed unclassed), fun cs h classes header => ?_⟩
  intro first last inconsistent unnamed outside tall descends repeats lowest never jointFault
  refine ⟨fun short => fails_of (closeCheck_short classes header short), fun complete => ?_⟩
  have checks := closeCheck_complete classes header complete
  have findsClass : FindsLowest inconsistent _ := firstFailing_findsLowest classEntry_inconsistent_iff cs
  have findsName : FindsLowest unnamed _ := firstFailing_findsLowest (joint_unnamed_iff h) x.joints
  have findsPlace : FindsLowest outside _ := firstFailing_findsLowest (joint_outside_iff h.boardLines) x.joints
  have findsTall : FindsLowest tall _ := firstFailing_findsLowest joint_tall_iff x.joints
  have findsOrder : FindsLowest descends _ := firstDescent_findsLowest x.joints
  have findsRepeat : FindsLowest repeats _ := firstRepeat_findsLowest x.joints
  refine ⟨fun k low => fails_of (checks.trans (findsClass.or_fault low)), fun consistent => ?_⟩
  rw [findsClass.or_next consistent, checkJoints] at checks
  have placing (named : never unnamed) := checks.trans (findsName.or_next named)
  have fitting (named : never unnamed) (placed : never outside) :=
    (placing named).trans (findsPlace.or_next placed)
  have ordering (named : never unnamed) (placed : never outside) (fitted : never tall) :=
    (fitting named placed).trans (findsTall.or_next fitted)
  have counting (named : never unnamed) (placed : never outside) (fitted : never tall) (ordered : never descends) :=
    (ordering named placed fitted).trans ((findsOrder.or_next ordered).trans Option.or_none.symm)
  refine ⟨fun k low => fails_of (checks.trans (findsName.or_fault low)),
    fun k named low => fails_of ((placing named).trans (findsPlace.or_fault low)),
    fun k named placed low => fails_of ((fitting named placed).trans (findsTall.or_fault low)),
    fun k named placed fitted low => fails_of ((ordering named placed fitted).trans (findsOrder.or_fault low)),
    fun k named placed fitted ordered low =>
      fails_of ((counting named placed fitted ordered).trans (findsRepeat.or_fault low)),
    fun named placed fitted ordered distinct => ?_⟩
  have sound : closeCheck x = none :=
    (counting named placed fitted ordered).trans (findsRepeat.or_next distinct)
  rw [← complete]
  exact congrArg _ (endClose_passes closing owed sound)

end Sys2Proof.Machine

namespace Sys2Proof.Machine

/-! ### The examination of a lane -/

/-- The records that an examination passes joints of (R106). -/
theorem isActive_iff {r : BoardRecord} :
    r.isActive = true ↔ r.binding ≠ none ∧ (r.state = .scanning ∨ r.state = .draining) := by
  rw [BoardRecord.isActive, Bool.and_eq_true, Bool.or_eq_true, decide_eq_true_eq, decide_eq_true_eq,
    Option.isSome_iff_ne_none]

/-- What an examination does to one record, told by the length of the ready queue that it leaves (R104 to R106). -/
def BoardRecord.Examined (s : State) (l : Lane) (queue : Nat) (r r' : BoardRecord) : Prop :=
  let passed := passedItems s l r r.work.cursor (r'.work.cursor - r.work.cursor)
  r' = { r with work := { r.work with cursor := r'.work.cursor, queued := r.work.queued + passed.length } }
    ∧ r.work.cursor ≤ r'.work.cursor
    ∧ passed.length = r'.work.cursor - r.work.cursor
    ∧ (∀ i ∈ passed, itemReady s i = true)
    ∧ (r.binding = none ∨ (r.state ≠ .scanning ∧ r.state ≠ .draining) → r' = r)
    ∧ (r.binding ≠ none → r.state = .scanning ∨ r.state = .draining →
        jointCountOf s r ≤ r'.work.cursor ∨ (∀ i, workItem? s l r r'.work.cursor = some i → itemReady s i = false)
          ∨ 256 ≤ queue)

/-- The records of a lane as an examination leaves them. -/
def examinedRecords (s : State) (l : Lane) : List BoardRecord :=
  (examineRecords s l (s.lane l).transit (s.lane l).ready).1

/-- An examination gives the lane these records, and appends the joints passed in the order of the records (R106). -/
theorem examine_appends (l : Lane) (s : State) : examine l s = s.updLane l fun x =>
    { x with
      transit := examinedRecords s l
      ready := x.ready ++ ((x.transit.zip (examinedRecords s l)).map fun p =>
        passedItems s l p.1 p.1.work.cursor (p.2.work.cursor - p.1.work.cursor)).flatten } := by
  obtain ⟨queue, _⟩ := examineRecords_all s l (s.lane l).transit (s.lane l).ready
  rw [examine_eq, queue]
  rfl

/-- Each record is examined in its turn. -/
theorem examine_examined (l : Lane) (s : State) : List.Forall₂
    (BoardRecord.Examined s l ((examine l s).lane l).ready.length) (s.lane l).transit (examinedRecords s l) := by
  obtain ⟨_, records⟩ := examineRecords_all s l (s.lane l).transit (s.lane l).ready
  rw [examine_eq, State.lane_updLane]
  refine records.imp fun r r' ⟨same, forward, count, ready, rests, stands, _⟩ =>
    ⟨same, forward, count, ready, fun passive => rests ?_, fun bound active => stands (isActive_iff.2 ⟨bound, active⟩)⟩
  refine Bool.eq_false_iff.2 fun active => ?_
  obtain ⟨bound, scanning | draining⟩ := isActive_iff.1 active
  · exact passive.elim bound fun k => k.1 scanning
  · exact passive.elim bound fun k => k.2 draining

/-! ### Work items -/

/-- What the work item of a joint holds (R104). -/
theorem workItem?_eq_some_iff {s : State} {l : Lane} {r : BoardRecord} {k : Nat} {i : WorkItem} :
    workItem? s l r k = some i ↔
      ∃ b f j rows h, r.binding = some b ∧ r.firstLine = some f ∧ (s.slot b.slot).joints[k]? = some j
        ∧ (s.slot b.slot).needed[k]? = some rows ∧ headAt s l j.head = some h
        ∧ i =
            { lane := l, record := r.ident, joint := k, head := h, firstNeeded := ahead f rows.first,
              lastNeeded := ahead f rows.last } := by
  refine ⟨fun item => ?_, fun ⟨b, f, j, rows, h, binding, first, joint, needed, head, item⟩ => ?_⟩
  · rw [workItem?] at item
    split at item
    · next b f binding first =>
      split at item
      · next j rows joint needed =>
        obtain ⟨h, head, item⟩ := Option.map_eq_some_iff.1 item
        exact ⟨b, f, j, rows, h, binding, first, joint, needed, head, item.symm⟩
      · cases item
    · cases item
  · rw [workItem?, binding, first]
    dsimp only
    rw [joint, needed]
    dsimp only
    rw [head, item]
    rfl

/-- A joint is ready when the settled front has reached its last needed line (R105). -/
theorem itemReady_iff {s : State} {i : WorkItem} : itemReady s i = true ↔
    ∃ front, (front - i.lastNeeded).toNat < 2147483648 ∧ some front = (s.head i.head).front := by
  rw [itemReady]
  cases (s.head i.head).front with
  | none => simp
  | some f => simp [reached]

/-- The head that a lane order names, with the assignments that R43 admits (R104). -/
theorem headAt_eq_some_iff {s : State} (sound : HeadLanesSound s) {l : Lane} {order : Nat} {h : HeadId} :
    headAt s l order = some h ↔
      ∃ st, (s.head h).settings = some st ∧ st.lane = some l ∧ st.laneOrder = order := by
  refine ⟨fun found => serves_iff.1 (headAt_serves found), fun ⟨st, settings, on, at'⟩ => ?_⟩
  obtain ⟨g, found⟩ := Option.isSome_iff_exists.1 (headAt_isSome.2 ⟨h, serves_iff.2 ⟨st, settings, on, at'⟩⟩)
  obtain ⟨su, settings', on', at''⟩ := serves_iff.1 (headAt_serves found)
  obtain ⟨_, apart, _⟩ := sound
  have same : g = h := by
    by_contra differ
    exact apart g h su st differ settings' settings (on'.trans on.symm) (by simp [on']) (at''.trans at'.symm)
  rw [found, same]

/-! ### What the arbiter chooses -/

section
variable {s : State}

theorem idleUnit_eq_none_iff : idleUnit s = none ↔ ∀ u, s.unitOf u ≠ none := by
  simp [idleUnit, List.find?_eq_none, four_mem]

/-- The unit chosen has the lowest number of those that are IDLE (R109). -/
theorem idleUnit_lowest {u v : UnitId} (found : idleUnit s = some u) (lower : v.toNat < u.toNat) :
    s.unitOf v ≠ none := by
  obtain ⟨_, before, after, all, busy⟩ := List.find?_eq_some_iff_append.1 found
  have rising : (before ++ u :: after).Pairwise fun a b => a.toNat < b.toNat := all ▸ (by decide)
  have above := (List.pairwise_cons.1 (List.pairwise_append.1 rising).2.1).1
  have listed : v ∈ before ++ u :: after := all ▸ four_mem v
  rcases List.mem_append.1 listed with earlier | later
  · exact Option.isSome_iff_ne_none.1 (by simpa using busy v earlier)
  · rcases List.mem_cons.1 later with rfl | later
    · exact absurd lower (lt_irrefl _)
    · exact absurd lower (above v later).asymm

theorem grantLane_own (waiting : (s.lane s.pointer).ready ≠ []) : grantLane s = some s.pointer := if_pos waiting

theorem grantLane_other (empty : (s.lane s.pointer).ready = []) (waiting : (s.lane s.pointer.other).ready ≠ []) :
    grantLane s = some s.pointer.other := by
  rw [grantLane, if_neg (not_not_intro empty), if_pos waiting]

/-- The pointer's lane and the other are all the lanes there are. -/
theorem forall_lane_iff {P : Lane → Prop} (l : Lane) : (∀ m, P m) ↔ P l ∧ P l.other := by
  refine ⟨fun all => ⟨all _, all _⟩, fun ⟨own, other⟩ m => ?_⟩
  cases l <;> cases m <;> assumption

theorem grantLane_eq_none_iff : grantLane s = none ↔ ∀ l, (s.lane l).ready = [] := by
  rw [forall_lane_iff s.pointer, grantLane]
  split_ifs with own other
  · simp [own]
  · simp [other]
  · exact iff_of_true rfl ⟨not_not.1 own, not_not.1 other⟩

/-- One grant made, the arbiter grants on from there (R109). -/
theorem grants_grantItem {u : UnitId} {l : Lane} {i : WorkItem} {rest : List WorkItem} (idle : idleUnit s = some u)
    (chosen : grantLane s = some l) (front : (s.lane l).ready = i :: rest) :
    grants s = grants (grantItem u l i rest s) := by
  rw [grants, ← grantItem_ungranted u l i rest s front, grantLoop, idle, chosen]
  dsimp only
  rw [front]
  rfl

end

/-! ### One grant -/

section
variable {s : State} {u : UnitId} {i : WorkItem} {rest : List WorkItem}

/-- The oldest item leaves its queue, in one change of the lane (R109). -/
theorem takeItem_eq (l : Lane) (i : WorkItem) (rest : List WorkItem) (s : State) : takeItem l i rest s =
    { s.updLane l fun x =>
        { x with
          ready := rest
          transit := x.transit.map fun r =>
            if r.ident = i.record then { r with work := { r.work with queued := r.work.queued - 1 } } else r } with
      pointer := l.other } := by
  rw [takeItem, updWork, updLane_updLane]
  rfl

/-- Taking an item moves no trigger, so the test for eviction is that of the state before (R110). -/
theorem evictedAtGrant_takeItem : evictedAtGrant (takeItem i.lane i rest s) i = true ↔
    1024 ≤ ((s.lane i.lane).triggerSeen - i.firstNeeded).toNat := by
  have seen : ((takeItem i.lane i rest s).lane i.lane).triggerSeen = (s.lane i.lane).triggerSeen := by
    cases i.lane <;> rfl
  rw [evictedAtGrant, seen, decide_eq_true_eq]
  rfl

theorem grantItem_evicted (lost : 1024 ≤ ((s.lane i.lane).triggerSeen - i.firstNeeded).toNat) :
    grantItem u i.lane i rest s = examine i.lane (completeEvicted i (takeItem i.lane i rest s)) := by
  rw [grantItem, placeItem, if_pos (evictedAtGrant_takeItem.2 lost)]

theorem grantItem_starts (held : ((s.lane i.lane).triggerSeen - i.firstNeeded).toNat < 1024) :
    grantItem u i.lane i rest s = examine i.lane (startEvaluation u i (takeItem i.lane i rest s)) := by
  rw [grantItem, placeItem, if_neg (mt evictedAtGrant_takeItem.1 (Nat.not_le.2 held))]

end

/-! ### What a unit reads at the grant -/

section
variable {s : State} {i : WorkItem} {r : BoardRecord} {b : Binding} {j : Joint}

theorem jointIdOf_eq (found : (s.lane i.lane).record? i.record = some r) (binding : r.binding = some b)
    (joint : (s.slot b.slot).joints[i.joint]? = some j) : jointIdOf s i = j.jointId := by
  rw [jointIdOf, found]
  dsimp only
  rw [binding]
  dsimp only
  rw [joint]

theorem readInputs_eq {f : Word} {snap : List SnapEntry} {st : HeadSettings} {classes : List ClassEntry}
    {c : ClassEntry} {e : SnapEntry} (found : (s.lane i.lane).record? i.record = some r)
    (binding : r.binding = some b) (joint : (s.slot b.slot).joints[i.joint]? = some j) (first : r.firstLine = some f)
    (snapshot : r.snapshot = some snap) (settings : (s.head i.head).settings = some st)
    (table : (s.slot b.slot).classes = some classes) (cls : classes[j.cls]? = some c)
    (entry : snap[j.head]? = some e) : readInputs s i =
      some { joint := j, cls := c, zero := e.zero, gain := e.gain, samples := st.samples, firstLine := f } := by
  rw [readInputs, found]
  dsimp only
  rw [binding, first, snapshot, settings]
  dsimp only
  rw [joint, table]
  dsimp only
  rw [cls, entry]

end

/-- Settles O55: an examination record by record, the two ends of a grant, the arbiter's choices and its repetition,
then each reading of a work item. -/
theorem arbiterGrantsWhileItCan : Obligations.ArbiterGrantsWhileItCan := by
  refine ⟨fun s l => ⟨examinedRecords s l, examine_appends l s, examine_examined l s⟩, ?_, fun s => ?_,
    fun _ _ _ _ _ => workItem?_eq_some_iff, fun _ _ _ _ sound => headAt_eq_some_iff sound,
    fun _ _ => itemReady_iff, ?_⟩
  · intro s u l i rest _ mine taken
    subst mine
    have item : takeItem i.lane i rest s = taken := takeItem_eq ..
    rw [← item]
    exact ⟨grantItem_evicted, grantItem_starts⟩
  · refine ⟨idleUnit_eq_none_iff, fun u found => ⟨idleUnit_none found, fun v => idleUnit_lowest found⟩,
      grantLane_own, grantLane_other, grantLane_eq_none_iff, grants_none, grantLoop_done _ s le_rfl,
      fun u l i rest => grants_grantItem⟩
  · intro s i before after r b j hx mine sound binding joint
    have found : (s.lane i.lane).record? i.record = some r := mine ▸ record?_split hx sound
    exact ⟨jointIdOf_eq found binding joint, fun f snap st classes c e => readInputs_eq found binding joint⟩

end Sys2Proof.Machine

namespace Sys2Proof.Machine

/-! ### COLLECT and released verdicts -/

section
variable {s : State} {tag : Byte} {v : VerdictRecord}

/-- The oldest verdict of the queue is delivered with the dropped count (R155, R156). -/
theorem collectBody_delivers (p : List Byte) {more : List VerdictRecord} (held : s.verdicts.queue = v :: more) :
    collectBody tag p s =
      withReply (doneReply kindCollect tag (verdictBytes { v with droppedBefore := s.verdicts.dropped }))
        { s with verdicts := { s.verdicts with queue := more, dropped := 0 } } := by
  rw [collectBody, held]
  rfl

/-- Without a verdict to deliver, a COLLECT is parked while fewer than 4 are (R156). -/
theorem collectBody_parks (p : List Byte) (empty : s.verdicts.queue = []) (room : s.verdicts.parked.length < 4) :
    collectBody tag p s = { s with verdicts := { s.verdicts with parked := s.verdicts.parked ++ [tag] } } := by
  rw [collectBody, empty]
  exact if_pos room

/-- A fifth COLLECT finds no place to wait (R156). -/
theorem collectBody_full (p : List Byte) (empty : s.verdicts.queue = []) (full : 4 ≤ s.verdicts.parked.length) :
    collectBody tag p s = withReply (refusedReply kindCollect tag .full []) s := by
  rw [collectBody, empty]
  exact if_neg (Nat.not_lt.2 full)

/-- A released verdict answers the COLLECT that waits longest (R155, R157). -/
theorem emitVerdict_answers {more : List Byte} (waiting : s.verdicts.parked = tag :: more) : emitVerdict v s =
    withReply (doneReply kindCollect tag (verdictBytes { v with droppedBefore := s.verdicts.dropped }))
      { s with verdicts := { s.verdicts with parked := more, dropped := 0 } } := by
  rw [emitVerdict, waiting]
  rfl

/-- With no COLLECT waiting, a released verdict goes to the queue (R154). -/
theorem emitVerdict_unasked (unasked : s.verdicts.parked = []) :
    emitVerdict v s = { s with verdicts := s.verdicts.enqueue v } := by
  rw [emitVerdict, unasked]
  rfl

/-- A queue with room takes the verdict at its back (R154). -/
theorem emitVerdict_joins (unasked : s.verdicts.parked = []) (room : s.verdicts.queue.length < 32) :
    emitVerdict v s = { s with verdicts := { s.verdicts with queue := s.verdicts.queue ++ [v] } } :=
  (emitVerdict_unasked unasked).trans (congrArg (State.setVerdicts · s) (if_neg (Nat.not_le.2 room)))

/-- A full queue drops its oldest verdict and counts it (R154). -/
theorem emitVerdict_drops (unasked : s.verdicts.parked = []) (full : 32 ≤ s.verdicts.queue.length) :
    emitVerdict v s =
      { s with
        verdicts :=
          { s.verdicts with
            queue := s.verdicts.queue.drop 1 ++ [v]
            dropped := min 65535 (s.verdicts.dropped + 1) } } :=
  (emitVerdict_unasked unasked).trans (congrArg (State.setVerdicts · s) (if_pos full))

end

/-! ### The bytes of a verdict record -/

/-- Five flags as a byte (R188). -/
theorem packFlags_five (a b c d e : Bool) : packFlags [a, b, c, d, e]
    = flagByte a + 2 * flagByte b + 4 * flagByte c + 8 * flagByte d + 16 * flagByte e := by
  revert a b c d e
  decide

@[simp] theorem le16_length (n : Nat) : (le16 n).length = 2 := rfl
@[simp] theorem le32_length (n : Nat) : (le32 n).length = 4 := rfl
/-- Verdict records as R152 lists their fields. -/
theorem verdictBytes_eq (v : VerdictRecord) : verdictBytes v =
    le32 (match v.tag with | some t => t.toNat | none => 0)
      ++ [laneCode v.lane, match v.slot with | some n => byteOf n.toNat | none => 0xFF]
      ++ le32 v.pLead.toNat
      ++ (match v.measuredLength with | some m => 1 :: le32 m.toNat | none => [0, 0, 0, 0, 0])
      ++ [v.verdict.code, flagByte v.divert,
          flagByte v.flags.calStale + 2 * flagByte v.flags.linesLost + 4 * flagByte v.flags.lengthMismatch
            + 8 * flagByte v.flags.noRecipe + 16 * flagByte v.flags.abandoned]
      ++ v.counts.toList.flatMap le16 ++ le16 v.overflow ++ le16 v.droppedBefore ++ [byteOf v.defects.length]
      ++ v.defects.flatMap defectBytes := by
  rw [verdictBytes, boardFlagByte, packFlags_five]
  cases v.measuredLength <;> rfl

/-- A defect entry has 15 bytes, whichever measures it has (R188). -/
theorem defectBytes_length (d : OutcomeRecord) : (defectBytes d).length = 15 := by
  unfold defectBytes
  cases d.measures <;> rfl

/-- A verdict record has 45 bytes and 15 for each defect (R188). -/
theorem verdictBytes_length (v : VerdictRecord) : (verdictBytes v).length = 45 + 15 * v.defects.length := by
  have counts : (v.counts.toList.flatMap le16).length = 22 := rfl
  have defects : (v.defects.flatMap defectBytes).length = 15 * v.defects.length := by
    simp [List.length_flatMap, defectBytes_length, Nat.mul_comm]
  rw [verdictBytes_eq]
  cases v.measuredLength <;> simp only [List.length_append, List.length_cons, List.length_nil, le32_length,
    le16_length, counts, defects]

/-- Settles O40: COLLECT by what waits, the bytes of a record and of its entries, and a released verdict by who waits
for it. -/
theorem collectDeliversVerdictsInOrder : Obligations.CollectDeliversVerdictsInOrder := by
  refine ⟨?_, fun v => ⟨verdictBytes_eq v, verdictBytes_length v⟩,
    fun _ _ => ⟨rfl, fun _ => rfl, fun _ _ _ _ _ => rfl⟩, rfl, rfl,
    fun v s => ⟨fun _ _ => emitVerdict_answers, emitVerdict_joins, emitVerdict_drops⟩⟩
  intro s₀ r rest s can u
  have taken : exec .collect s₀ = .next (collectBody r.tag r.payload u) := takeKind_next can
  rw [taken]
  exact ⟨fun _ _ held => congrArg _ (collectBody_delivers _ held),
    fun empty room => congrArg _ (collectBody_parks _ empty room),
    fun empty full => congrArg _ (collectBody_full _ empty full)⟩

end Sys2Proof.Machine

namespace Sys2Proof.Machine

/-! ### Cells -/

theorem rectangle_length (row0 nrows col0 ncols : Nat) : (rectangle row0 nrows col0 ncols).length = ncols * nrows := by
  simp [rectangle, List.length_flatMap, Nat.mul_comm]

section
variable {j : Joint}

theorem inPad_iff {c : Cell} : j.inPad c = true ↔
    (j.row0 ≤ c.row ∧ c.row < j.row0 + j.nrows) ∧ (j.col0 ≤ c.col ∧ c.col < j.col0 + j.ncols) := by
  simp only [Joint.inPad, Bool.and_eq_true, decide_eq_true_eq, and_assoc]

theorem mem_padCells {c : Cell} : c ∈ j.padCells ↔ j.inPad c = true := by
  rw [inPad_iff, Joint.padCells, mem_rectangle]

/-- The rectangle that holds pad and ring: the pad grown by the margin on all sides (R121). -/
def Joint.grownPad (j : Joint) : List Cell :=
  rectangle (j.row0 - j.margin) (j.nrows + 2 * j.margin) (j.col0 - j.margin) (j.ncols + 2 * j.margin)

theorem ringCells_eq_filter (j : Joint) : j.ringCells = j.grownPad.filter fun c => !j.inPad c := rfl

theorem mem_grownPad (above : j.margin ≤ j.row0) (inside : j.margin ≤ j.col0) {c : Cell} : c ∈ j.grownPad ↔
    (j.row0 ≤ c.row + j.margin ∧ c.row < j.row0 + j.nrows + j.margin)
      ∧ (j.col0 ≤ c.col + j.margin ∧ c.col < j.col0 + j.ncols + j.margin) := by
  rw [Joint.grownPad, mem_rectangle]
  omega

theorem mem_ringCells (above : j.margin ≤ j.row0) (inside : j.margin ≤ j.col0) {c : Cell} : c ∈ j.ringCells ↔
    ((j.row0 ≤ c.row + j.margin ∧ c.row < j.row0 + j.nrows + j.margin)
      ∧ (j.col0 ≤ c.col + j.margin ∧ c.col < j.col0 + j.ncols + j.margin)) ∧ ¬j.inPad c = true := by
  rw [ringCells_eq_filter, List.mem_filter, mem_grownPad above inside, Bool.not_eq_true']
  exact and_congr_right fun _ => Bool.not_eq_true _ ▸ Iff.rfl

theorem mem_gapCells {c : Cell} : c ∈ j.gapCells ↔ ∃ g, j.gap = some g
    ∧ (g.grow0 ≤ c.row ∧ c.row < g.grow0 + g.gnrows) ∧ (g.gcol0 ≤ c.col ∧ c.col < g.gcol0 + g.gncols) := by
  rw [Joint.gapCells]
  cases j.gap with
  | none => simp
  | some g => simp [mem_rectangle]

theorem nodup_padCells (j : Joint) : j.padCells.Nodup := nodup_rectangle ..

theorem nodup_grownPad (j : Joint) : j.grownPad.Nodup := nodup_rectangle ..

theorem nodup_ringCells (j : Joint) : j.ringCells.Nodup := (nodup_grownPad j).filter _

theorem nodup_gapCells (j : Joint) : j.gapCells.Nodup := by
  rw [Joint.gapCells]
  cases j.gap with
  | none => exact List.nodup_nil
  | some g => exact nodup_rectangle ..

theorem padCells_length (j : Joint) : j.padCells.length = j.ncols * j.nrows := rectangle_length ..

theorem gapCells_length {g : GapPart} (gap : j.gap = some g) : j.gapCells.length = g.gncols * g.gnrows := by
  rw [Joint.gapCells, gap]
  exact rectangle_length ..

/-- The cells of the grown rectangle that the ring leaves out are those of the pad. -/
theorem grownPad_filter_inPad_perm (above : j.margin ≤ j.row0) (inside : j.margin ≤ j.col0) :
    (j.grownPad.filter j.inPad).Perm j.padCells := by
  refine (List.perm_ext_iff_of_nodup ((nodup_grownPad j).filter _) (nodup_padCells j)).2 fun c => ?_
  rw [List.mem_filter, mem_grownPad above inside, mem_padCells, inPad_iff]
  omega

theorem padCells_length_add_ringCells_length (above : j.margin ≤ j.row0) (inside : j.margin ≤ j.col0) :
    j.padCells.length + j.ringCells.length = (j.ncols + 2 * j.margin) * (j.nrows + 2 * j.margin) := by
  have grown : j.grownPad.length = (j.ncols + 2 * j.margin) * (j.nrows + 2 * j.margin) := rectangle_length ..
  rw [← (grownPad_filter_inPad_perm above inside).length_eq, ringCells_eq_filter, ← grown]
  exact (List.length_eq_length_filter_add _).symm

/-- The ring is the grown rectangle less the pad (R121). -/
theorem ringCells_length (above : j.margin ≤ j.row0) (inside : j.margin ≤ j.col0) :
    j.ringCells.length = (j.ncols + 2 * j.margin) * (j.nrows + 2 * j.margin) - j.ncols * j.nrows := by
  have both := padCells_length_add_ringCells_length above inside
  rw [padCells_length] at both
  omega

end

/-! ### Cells of a joint that the close checks pass -/

/-- A rectangle with sides of 1 to 64 cells has 1 to 4096 cells. -/
theorem area_bounds {a b : Nat} (ha : 1 ≤ a ∧ a ≤ 64) (hb : 1 ≤ b ∧ b ≤ 64) : 1 ≤ a * b ∧ a * b ≤ 4096 :=
  ⟨Nat.mul_pos ha.1 hb.1, Nat.mul_le_mul ha.2 hb.2⟩

section
variable {j : Joint} {boardLines : Nat}

/-- The ranges of a joint on which the number and the place of its cells depend (05, table Joint record). -/
theorem inRanges_sizes (ranges : j.inRanges = true) :
    (1 ≤ j.margin ∧ j.margin ≤ 8) ∧ (1 ≤ j.ncols ∧ j.ncols ≤ 64) ∧ (1 ≤ j.nrows ∧ j.nrows ≤ 64)
      ∧ ∀ g, j.gap = some g → (1 ≤ g.gncols ∧ g.gncols ≤ 64) ∧ (1 ≤ g.gnrows ∧ g.gnrows ≤ 64) := by
  have wire : ({ presence := 0, joint := j } : WireJoint).inRanges = true := ranges
  obtain ⟨-, -, -, -, margin, -, ncols, -, nrows, gap⟩ := (wireJoint_inRanges_iff _).1 wire
  refine ⟨margin, ncols, nrows, fun g here => ?_⟩
  obtain ⟨-, gncols, -, gnrows, -⟩ := gap g here
  exact ⟨gncols, gnrows⟩

/-- The needed rows begin at or above the ring (R94). -/
theorem firstRow_le_ring (j : Joint) : j.firstRow ≤ (j.row0 : Int) - j.margin := by
  unfold Joint.firstRow
  cases j.gap with
  | none => exact le_rfl
  | some g => exact min_le_left ..

theorem firstRow_le_gap {g : GapPart} (gap : j.gap = some g) : j.firstRow ≤ g.grow0 := by
  rw [Joint.firstRow, gap]
  exact min_le_right ..

/-- The needed rows end at or below the ring (R94). -/
theorem ring_le_lastRow (j : Joint) : (j.row0 : Int) + j.nrows - 1 + j.margin ≤ j.lastRow := by
  unfold Joint.lastRow
  cases j.gap with
  | none => exact le_rfl
  | some g => exact le_max_left ..

theorem gap_le_lastRow {g : GapPart} (gap : j.gap = some g) : (g.grow0 : Int) + g.gnrows - 1 ≤ j.lastRow := by
  rw [Joint.lastRow, gap]
  exact le_max_right ..

/-- Check 4 of R93: the joint lies on the board from its first row on, and within the columns 0..1023 (R94). -/
theorem fitsBoard_bounds (fits : j.fitsBoard boardLines = true) :
    j.margin ≤ j.row0 ∧ j.margin ≤ j.col0 ∧ j.col0 + j.ncols + j.margin ≤ 1024
      ∧ ∀ g, j.gap = some g → g.gcol0 + g.gncols ≤ 1024 := by
  have inside := mt (joint_outside_iff boardLines j).2 (by rw [fits]; nofun)
  simp only [not_or, not_exists, not_and, Int.not_lt] at inside
  obtain ⟨first, -, left, right, gap⟩ := inside
  have above := firstRow_le_ring j
  refine ⟨by omega, by omega, by omega, fun g here => ?_⟩
  have := gap g here
  omega

/-- The number of ring cells of a joint within its ranges (R121): the margin is at least 1, and at most 8. -/
theorem ringCells_length_bounds (ranges : j.inRanges = true) (above : j.margin ≤ j.row0) (inside : j.margin ≤ j.col0) :
    8 ≤ j.ringCells.length ∧ j.ringCells.length ≤ 2304 := by
  obtain ⟨margin, ncols, nrows, -⟩ := inRanges_sizes ranges
  have both := padCells_length_add_ringCells_length above inside
  have ring : j.ringCells.length = 2 * (j.margin * (j.ncols + j.nrows)) + 4 * (j.margin * j.margin) := by
    rw [padCells_length] at both
    linarith
  have sides : 1 * 2 ≤ j.margin * (j.ncols + j.nrows) ∧ j.margin * (j.ncols + j.nrows) ≤ 8 * 128 :=
    ⟨Nat.mul_le_mul margin.1 (by omega), Nat.mul_le_mul margin.2 (by omega)⟩
  have corners : 1 * 1 ≤ j.margin * j.margin ∧ j.margin * j.margin ≤ 8 * 8 :=
    ⟨Nat.mul_le_mul margin.1 margin.1, Nat.mul_le_mul margin.2 margin.2⟩
  omega

/-- Every cell of a joint that fits the board lies in its needed rows and in the columns of a line (R94, R121). -/
theorem cells_within_neededRows (fits : j.fitsBoard boardLines = true) {c : Cell}
    (cell : c ∈ j.padCells ∨ c ∈ j.ringCells ∨ c ∈ j.gapCells) :
    j.firstRow ≤ (c.row : Int) ∧ (c.row : Int) ≤ j.lastRow ∧ c.col ≤ 1023 := by
  obtain ⟨above, left, right, gapRight⟩ := fitsBoard_bounds fits
  have first := firstRow_le_ring j
  have last := ring_le_lastRow j
  rcases cell with pad | ring | gap
  · have place := inPad_iff.1 (mem_padCells.1 pad)
    omega
  · have place := ((mem_ringCells above left).1 ring).1
    omega
  · obtain ⟨g, here, place⟩ := mem_gapCells.1 gap
    have first := firstRow_le_gap here
    have last := gap_le_lastRow here
    have right := gapRight g here
    omega

end

/-! ### Samples and heights -/

/-- A sample is valid when its line was read GOOD, its column is below S and it is not 4095 (R123). -/
theorem validSample_eq_some_iff {i : EvalInputs} {ring : Ring} {c : Cell} {r : Nat} : validSample i ring c = some r ↔
    ∃ samples, Ring.read ring (i.firstLine + BitVec.ofNat 32 c.row) = .good samples ∧ c.col < i.samples
      ∧ samples[c.col]? = some r ∧ r ≠ 4095 := by
  have line : readRow ring i.firstLine c.row = Ring.read ring (i.firstLine + BitVec.ofNat 32 c.row) := rfl
  rw [validSample, line]
  cases Ring.read ring (i.firstLine + BitVec.ofNat 32 c.row) with
  | missed => simp
  | pending => simp
  | notHeld => simp
  | good samples =>
    simp only [LineRead.good.injEq, exists_eq_left']
    by_cases column : c.col < i.samples
    · rw [if_pos column]
      cases samples[c.col]? with
      | none => simp
      | some x => grind
    · simp [column]

theorem validHeights_eq (i : EvalInputs) (ring : Ring) (cells : List Cell) : validHeights i ring cells =
    cells.filterMap fun c => (validSample i ring c).map (heightOf i.zero i.gain) :=
  List.map_filterMap ..

section
variable (level gain r : Nat)

/-- The height is the product of R125 over 256, rounded half up. -/
theorem heightOf_rounds : 256 * heightOf level gain r ≤ ((r : Int) - level) * gain + 128
    ∧ ((r : Int) - level) * gain + 128 < 256 * (heightOf level gain r + 1) := by
  unfold heightOf
  omega

theorem heightOf_zero : heightOf level gain level = 0 := by
  simp [heightOf]

variable {level gain r}

/-- The product of R125 for levels and gains that a calibration can have and samples that are valid. -/
theorem heightProduct_bounds (levels : level ≤ 4094) (gains : gain ≤ 1023) (valid : r ≤ 4094) :
    -4188162 ≤ ((r : Int) - level) * gain ∧ ((r : Int) - level) * gain ≤ 4188162 := by
  have apart : |(r : Int) - level| ≤ 4094 := abs_le.2 (by omega)
  have scaled : |((r : Int) - level) * gain| ≤ 4094 * 1023 := by
    rw [abs_mul, Nat.abs_cast]
    exact mul_le_mul apart (by exact_mod_cast gains) (Int.natCast_nonneg _) (by norm_num)
  exact abs_le.1 scaled

theorem heightOf_bounds (levels : level ≤ 4094) (gains : gain ≤ 1023) (valid : r ≤ 4094) :
    -16360 ≤ heightOf level gain r ∧ heightOf level gain r ≤ 16360 := by
  have product := heightProduct_bounds levels gains valid
  have rounds := heightOf_rounds level gain r
  omega

end

/-- Settles O56: the cells as rectangles, the ring as the grown pad less the pad; then samples one by one and the
rounding of heights. -/
theorem cellsSamplesAndHeights : Obligations.CellsSamplesAndHeights := by
  refine ⟨?_, ?_, fun _ _ _ _ => validSample_eq_some_iff, validHeights_eq, fun level gain r => ?_,
    rfl, rfl, rfl, rfl⟩
  · intro j c above inside inPad
    have pad : j.inPad c = true ↔ inPad := inPad_iff
    rw [← pad]
    exact ⟨mem_padCells, mem_ringCells above inside, mem_gapCells, nodup_padCells j, nodup_ringCells j,
      nodup_gapCells j, padCells_length j, ringCells_length above inside, fun _ => gapCells_length⟩
  · intro j boardLines ranges fits
    obtain ⟨-, ncols, nrows, gap⟩ := inRanges_sizes ranges
    obtain ⟨above, inside, -⟩ := fitsBoard_bounds fits
    refine ⟨?_, ringCells_length_bounds ranges above inside, fun present => ?_,
      fun c => cells_within_neededRows fits⟩
    · rw [padCells_length]
      exact area_bounds ncols nrows
    · obtain ⟨g, here⟩ := Option.isSome_iff_exists.1 present
      obtain ⟨gncols, gnrows⟩ := gap g here
      rw [gapCells_length here]
      exact area_bounds gncols gnrows
  · obtain ⟨low, high⟩ := heightOf_rounds level gain r
    exact ⟨low, high, heightOf_zero level gain, fun levels gains valid =>
      ⟨by omega, heightProduct_bounds levels gains valid, heightOf_bounds levels gains valid⟩⟩

end Sys2Proof.Machine

namespace Sys2Proof.Machine

/-! ### The measures of a joint -/

/-- A pad row read MISSED is one of the rows of the pad (R124). -/
theorem padRowMissed_iff {i : EvalInputs} {ring : Ring} : padRowMissed i ring = true ↔
    ∃ k < i.joint.nrows, Ring.read ring (i.firstLine + BitVec.ofNat 32 (i.joint.row0 + k)) = .missed := by
  simp only [padRowMissed, List.any_eq_true, List.mem_range]
  exact exists_congr fun _ => and_congr_right fun _ => decide_eq_true_iff

theorem isOccluded_iff {c : ClassEntry} {valid cells : Nat} :
    isOccluded c valid cells = true ↔ valid = 0 ∨ 1000 * valid / cells < c.validMin := by
  simp only [isOccluded, Bool.or_eq_true, decide_eq_true_eq]

/-- A height above reference, clamped into 0..hclamp (R130). -/
theorem clampedHeight_eq (hclamp : Nat) (zRef z : Int) :
    clampedHeight hclamp zRef z = (min (hclamp : Int) (max 0 (z - zRef))).toNat := by
  unfold clampedHeight
  omega

/-- Scaled volume and coverage of the heights of the valid pad samples, and the peak as found (R131 to R133). -/
theorem padMeasures_eq (c : ClassEntry) (cells : Nat) (heights : List Nat) : padMeasures c cells heights =
    { vScaled := (heights.sum * cells + heights.length / 2) / heights.length, peak := heights.foldl max 0,
      coverage := 1000 * heights.countP (fun h => decide (c.wetHeight ≤ h)) / heights.length } := by
  rw [padMeasures, List.countP_eq_length_filter]

/-- The peak is the greatest of the heights (R132). -/
theorem peak_greatest {heights : List Nat} (some' : heights ≠ []) :
    (∀ h ∈ heights, h ≤ heights.foldl max 0) ∧ heights.foldl max 0 ∈ heights := by
  obtain ⟨above, -, zero | found⟩ := foldl_max_spec heights 0
  · obtain ⟨h, held⟩ := List.exists_mem_of_ne_nil heights some'
    have lowest : h = 0 := Nat.le_zero.1 (zero ▸ above h held)
    exact ⟨above, zero.symm ▸ lowest ▸ held⟩
  · exact ⟨above, found⟩

theorem isBridged_iff {j : Joint} {zRef : Int} {gapHeights : List Int} : isBridged j zRef gapHeights = true ↔
    ∃ g, j.gap = some g ∧ g.bridgeCount
      ≤ gapHeights.countP fun z => decide ((g.bridgeHeight : Int) ≤ z - zRef) := by
  rw [isBridged]
  cases j.gap with
  | none => simp
  | some g => simp [List.countP_eq_length_filter]

/-! ### The table of outcomes -/

/-- Rows 4 to 9 of R136: the first condition that holds grades the joint. -/
theorem gradeOutcome_first (c : ClassEntry) (bridged : Bool) (m : PadMeasures) :
    (bridged = true → gradeOutcome c bridged m = .bridged)
    ∧ (¬bridged = true → c.pmax < m.peak → gradeOutcome c bridged m = .lifted)
    ∧ (¬bridged = true → m.peak ≤ c.pmax → m.vScaled < c.vmin → gradeOutcome c bridged m = .insufficient)
    ∧ (¬bridged = true → m.peak ≤ c.pmax → c.vmin ≤ m.vScaled → c.vmax < m.vScaled →
        gradeOutcome c bridged m = .excess)
    ∧ (¬bridged = true → m.peak ≤ c.pmax → c.vmin ≤ m.vScaled → m.vScaled ≤ c.vmax → m.coverage < c.cmin →
        gradeOutcome c bridged m = .nonWet)
    ∧ (¬bridged = true → m.peak ≤ c.pmax → c.vmin ≤ m.vScaled → m.vScaled ≤ c.vmax → c.cmin ≤ m.coverage →
        gradeOutcome c bridged m = .good) := by
  unfold gradeOutcome
  refine ⟨fun holds => if_pos holds, fun apart => ?_, fun apart => ?_, fun apart => ?_, fun apart => ?_,
    fun apart => ?_⟩
  all_goals rw [if_neg apart]
  · exact fun high => if_pos high
  all_goals
    intro flat
    rw [if_neg (Nat.not_lt.2 flat)]
  · exact fun little => if_pos little
  all_goals
    intro enough
    rw [if_neg (Nat.not_lt.2 enough)]
  · exact fun much => if_pos much
  all_goals
    intro fits
    rw [if_neg (Nat.not_lt.2 fits)]
  · exact fun dry => if_pos dry
  · exact fun wet => if_neg (Nat.not_lt.2 wet)

section
variable {i : EvalInputs} {ring : Ring}

/-- The heights above reference of the valid pad samples (R130). -/
def padHeights (i : EvalInputs) (ring : Ring) (zRef : Int) : List Nat :=
  (validHeights i ring i.joint.padCells).map (clampedHeight i.cls.hclamp zRef)

/-- Row 1 of R136. -/
theorem measureJoint_missed (missed : padRowMissed i ring = true) :
    measureJoint i ring = { jointId := i.joint.jointId, outcome := .dataLost, measures := .absent } :=
  if_pos missed

variable (read : ¬padRowMissed i ring = true)
include read

/-- Row 2 of R136. -/
theorem measureJoint_occluded
    (occluded : isOccluded i.cls (validHeights i ring i.joint.padCells).length i.joint.padSize = true) :
    measureJoint i ring =
      { jointId := i.joint.jointId, outcome := .occluded,
        measures := .validOnly (validHeights i ring i.joint.padCells).length } :=
  (if_neg read).trans (if_pos occluded)

variable (seen : ¬isOccluded i.cls (validHeights i ring i.joint.padCells).length i.joint.padSize = true)
include seen

/-- Row 3 of R136. -/
theorem measureJoint_noRef (few : (validHeights i ring i.joint.ringCells).length < 8) :
    measureJoint i ring =
      { jointId := i.joint.jointId, outcome := .noRef,
        measures := .validOnly (validHeights i ring i.joint.padCells).length } :=
  (if_neg read).trans ((if_neg seen).trans (if_pos few))

/-- Rows 4 to 9 of R136: pad and ring suffice, and the joint is graded by its measures. -/
theorem measureJoint_graded {zRef : Int} {m : PadMeasures} {o : JointOutcome}
    (enough : 8 ≤ (validHeights i ring i.joint.ringCells).length)
    (reference : referenceHeight (validHeights i ring i.joint.ringCells) = zRef)
    (measures : padMeasures i.cls i.joint.padSize (padHeights i ring zRef) = m)
    (grade : gradeOutcome i.cls (isBridged i.joint zRef (validHeights i ring i.joint.gapCells)) m = o) :
    measureJoint i ring =
      { jointId := i.joint.jointId, outcome := o,
        measures := .full m.vScaled m.peak m.coverage zRef (validHeights i ring i.joint.padCells).length } := by
  subst grade measures reference
  exact (if_neg read).trans ((if_neg seen).trans (if_neg (Nat.not_lt.2 enough)))

end

/-- Settles O57: the rows of R136 one after another, each condition and measure in the words of its rule. -/
theorem outcomesFollowTheTable : Obligations.OutcomesFollowTheTable := by
  intro i ring j c pad refs cells valid zRef heights volume coverage missed occluded bridged outcome
  have rowMissed : padRowMissed i ring = true ↔ missed := padRowMissed_iff
  have padOccluded : isOccluded c valid j.padSize = true ↔ occluded := isOccluded_iff
  have gapBridged : isBridged j zRef (validHeights i ring j.gapCells) = true ↔ bridged := isBridged_iff
  have clamped : padHeights i ring zRef = heights := List.map_congr_left fun z _ => clampedHeight_eq ..
  have measured : heights.length = valid := List.length_map ..
  rw [← rowMissed, ← padOccluded, ← gapBridged]
  refine ⟨measureJoint_missed, measureJoint_occluded, measureJoint_noRef, fun read seen enough => ?_⟩
  have some' : heights ≠ [] := by
    intro none'
    refine seen (padOccluded.2 (.inl ?_))
    rw [← measured, none', List.length_nil]
  obtain ⟨above, attained⟩ := peak_greatest some'
  have measures : padMeasures c j.padSize (padHeights i ring zRef) = ⟨volume, heights.foldl max 0, coverage⟩ := by
    rw [clamped, padMeasures_eq, measured]
    rfl
  have graded {o : JointOutcome} := measureJoint_graded (o := o) read seen enough rfl measures
  obtain ⟨row4, row5, row6, row7, row8, row9⟩ := gradeOutcome_first c
    (isBridged j zRef (validHeights i ring j.gapCells)) ⟨volume, heights.foldl max 0, coverage⟩
  exact ⟨_, above, attained, fun b => graded (row4 b), fun b p => graded (row5 b p), fun b p v => graded (row6 b p v),
    fun b p v x => graded (row7 b p v x), fun b p v x y => graded (row8 b p v x y),
    fun b p v x y => graded (row9 b p v x y)⟩

end Sys2Proof.Machine

namespace Sys2Proof.Machine

/-! ### Releases in lane order -/

/-- Where verdicts are released in order, the run of DECIDED records at the front ends before a record that is not
released (R151). -/
theorem LaneState.ReleaseSound.head_held {x : LaneState} (sound : x.ReleaseSound) {r : BoardRecord}
    (first : r ∈ (x.transit.dropWhile fun q => decide (q.state = .decided)).head?) :
    r.state ≠ .decided ∧ r.verdictPart.released = false := by
  have undecided : r.state ≠ .decided := by
    have stops := List.head?_dropWhile_not (fun q : BoardRecord => decide (q.state = .decided)) x.transit
    rw [Option.mem_def.1 first] at stops
    exact of_decide_eq_false stops
  have mem : r ∈ x.transit := (List.dropWhile_sublist _).subset (List.mem_of_mem_head? first)
  exact ⟨undecided, Bool.eq_false_iff.2 fun released => undecided ((sound.2 r mem).2 released)⟩

theorem map_markReleased_released {rs : List BoardRecord} (released : ∀ r ∈ rs, r.verdictPart.released = true) :
    rs.map BoardRecord.markReleased = rs :=
  (List.map_congr_left fun r mem => markReleased_released r (released r mem)).trans (List.map_id rs)

/-- An offer marks the run of DECIDED records at the front released, and the unreleased ones of them go out, oldest first
(R151). -/
theorem offerRelease_eq {s : State} {l : Lane} (sound : (s.lane l).ReleaseSound) {ready held : List BoardRecord}
    (run : ready = (s.lane l).transit.takeWhile fun r => decide (r.state = .decided))
    (after : held = (s.lane l).transit.dropWhile fun r => decide (r.state = .decided)) :
    offerRelease l s =
      (ready.filter fun r => !r.verdictPart.released).foldl (fun u r => emitVerdict (verdictRecordOf l r) u)
        (s.updLane l fun x => { x with transit := ready.map BoardRecord.markReleased ++ held }) := by
  have pairwise := sound.1
  have queue : (s.lane l).transit = ready ++ held := by
    rw [run, after, List.takeWhile_append_dropWhile]
  have decided : ∀ r ∈ ready, r.state = .decided := fun r mem => by
    rw [run] at mem
    simpa using List.mem_takeWhile_imp mem
  have order : ready.Pairwise fun a b => b.verdictPart.released = true → a.verdictPart.released = true := by
    rw [queue] at pairwise
    exact (List.pairwise_append.1 pairwise).1.imp fun older => older.2
  obtain ⟨out, due, split, released, unreleased, filtered⟩ := released_first ready order
  have marked : ready.map BoardRecord.markReleased = out ++ due.map BoardRecord.markReleased := by
    rw [split, List.map_append, map_markReleased_released released]
  rw [split] at queue decided
  rw [filtered, marked]
  exact releaseChain_releases l held (fun r first => sound.head_held (after ▸ first)) due
    (s.lane l).transit.length out s (by rw [queue]; simp only [List.length_append]; omega) queue released
    (fun r mem => ⟨unreleased r mem, decided r (List.mem_append_right _ mem)⟩) (queue ▸ pairwise.imp fun older => older.1)

/-- The verdict record of a decided record, field by field (R152). -/
theorem verdictRecordOf_eq (l : Lane) {r : BoardRecord} {v : Verdict} {divert : Bool}
    (verdict : r.verdictPart.verdict = some v) (decision : r.divertDecision = some divert) : verdictRecordOf l r =
      { tag := r.binding.map fun b => b.tag, lane := l, slot := r.binding.map fun b => b.slot, pLead := r.pLead,
        measuredLength := r.pTrail.map fun p => p - r.pLead, verdict := v, divert := divert,
        flags := r.verdictPart.flags, counts := r.verdictPart.counts, defects := r.verdictPart.defects,
        overflow := r.verdictPart.overflow, droppedBefore := 0 } := by
  rw [verdictRecordOf, verdict, decision]
  rfl

/-- Settles O59: the unreleased records of the DECIDED run go out one after another, and each record goes out with the
verdict and the divert decision that its decision left. -/
theorem verdictsReleaseInLaneOrder : Obligations.VerdictsReleaseInLaneOrder :=
  ⟨fun _ _ sound => offerRelease_eq sound rfl rfl, fun l _ _ _ => verdictRecordOf_eq l⟩

theorem powerOn_releaseSound (p q eye : Bool) : (LaneState.powerOn p q eye).ReleaseSound :=
  ⟨.nil, fun _ mem => absurd mem List.not_mem_nil⟩

/-- Settles O9: every change of a lane keeps the order of its releases, and after power-on it has no record. -/
theorem stepKeepsReleaseOrder : Obligations.StepKeepsReleaseOrder := fun _ _ sound stepped =>
  step_keeps_lanes LaneEdit.release_sound (fun _ p q => decodeEncoder_releaseSound p q) powerOn_releaseSound
    (fun _ kept => kept) sound stepped

/-! ### The Verdict Unit -/

theorem powerOn_verdictUnitSound (pins : PowerOnPins) (s : State) : VerdictUnitSound (powerOn pins s) :=
  ⟨Nat.zero_le _, Nat.zero_le _, .inl rfl, Nat.zero_le _⟩

/-- Settles O14: every edit keeps the Verdict Unit within its limits (`verdict_edit`); power-on empties it, and the other
changes leave it as it is. -/
theorem stepKeepsVerdictUnit : Obligations.StepKeepsVerdictUnit := fun _ _ sound stepped =>
  step_keeps_state (I := VerdictUnitSound) (fun _ _ kept => kept) powerOn_verdictUnitSound (fun _ kept => kept)
    (fun _ _ kept => kept) (fun _ _ _ _ kept => kept)
    (fun run kept => run.keep (I := fun _ => VerdictUnitSound) verdict_edit kept) sound stepped

/-! ### The divert outputs -/

section
variable {s t : State}

/-- A run of edits leaves RESET_N as it is. -/
theorem Edits.resetAsserted {d e : Nat} (run : Edits d s e t) : t.resetAsserted = s.resetAsserted :=
  run.keep (I := fun _ u => u.resetAsserted = s.resetAsserted)
    (fun edit same => (outside_edit edit).2.trans same) rfl

/-- While RESET_N is deasserted, each output stands at the level of R160. -/
theorem divertSound_iff_level (service : s.resetAsserted = false) :
    DivertSound s ↔ ∀ l, (s.lane l).divert = divertLevel (s.lane l) := by
  rw [divertSound_iff, service]
  simp only [Bool.false_or]

/-- While RESET_N is asserted, so is each output (R162). -/
theorem divertSound_iff_asserted (reset : s.resetAsserted = true) : DivertSound s ↔ ∀ l, (s.lane l).divert = true := by
  rw [divertSound_iff, reset]
  simp only [Bool.true_or]

theorem Edits.divertSound {d e : Nat} (service : s.resetAsserted = false) (run : Edits d s e t)
    (sound : DivertSound s) : DivertSound t := by
  rw [divertSound_iff_level service] at sound
  exact (divertSound_iff_level (run.resetAsserted.trans service)).2 fun l =>
    run.lane_keep LaneEdit.divert_sound l (sound l)

theorem observeEncoder_divertSound (service : s.resetAsserted = false) (sound : DivertSound s) (l : Lane) (p q : Bool) :
    DivertSound (observeEncoder l p q s) := by
  rw [divertSound_iff_level service] at sound
  refine (divertSound_iff_level (s := observeEncoder l p q s) service).2 fun m => ?_
  rw [observeEncoder, State.lane_updLane_eq]
  split
  · exact decodeEncoder_divert p q (sound l)
  · exact sound m

theorem powerOn_divertSound (pins : PowerOnPins) (s : State) : DivertSound (powerOn pins s) :=
  (divertSound_iff_level rfl).2 fun l => by
    obtain ⟨p, q, eye, fresh⟩ := powerOn_lane pins s l
    rw [fresh]
    rfl

theorem assertReset_divertSound (s : State) : DivertSound (assertReset s) :=
  (divertSound_iff_asserted rfl).2 fun l => by rw [assertReset_lane]

/-- R160, R162: the outputs follow the edits while RESET_N is deasserted; its assertion asserts them, and power-on finds
both lanes DISABLED. -/
theorem Effect.divertSound (effect : Effect s t) (sound : DivertSound s) : DivertSound t := by
  cases effect with
  | powerOn pins => exact powerOn_divertSound pins s
  | assertReset _ => exact assertReset_divertSound _
  | holdIn _ => exact sound
  | unserved _ => exact sound
  | served _ service run => exact run.divertSound service sound
  | encoder l p q service run =>
    exact observeEncoder_divertSound (run.resetAsserted.trans service) (run.divertSound service sound) l p q

end

/-- Settles O8: every effect of a command keeps the divert outputs. -/
theorem stepKeepsDivertOutputs : Obligations.StepKeepsDivertOutputs := fun _ _ sound stepped =>
  step_keeps (fun _ _ kept => kept) Effect.divertSound sound stepped

end Sys2Proof.Machine

namespace Sys2Proof.Machine

/-! ### The inbox -/

section
variable {s t : State}

theorem InboxLevel.sound (level : InboxLevel s) : InboxSound s := ⟨level.1, fun _ => level.2⟩

/-- While RESET_N is deasserted, HOLD_OUT follows the level of the inbox (R165). -/
theorem InboxSound.level (service : s.resetAsserted = false) (sound : InboxSound s) : InboxLevel s :=
  ⟨sound.1, sound.2 service⟩

/-- A run of edits keeps the inbox and HOLD_OUT (R165, R174). -/
theorem Edits.inboxLevel {d e : Nat} (run : Edits d s e t) (level : InboxLevel s) : InboxLevel t :=
  run.keep (I := fun _ => InboxLevel) inbox_edit level

/-- The events already reached bring no request and take none (R4, R176). -/
theorem takeReached_inbox (s : State) : (takeReached s).link.inbox = s.link.inbox := by
  rw [(takeReached_waned s).link]

theorem powerOn_inboxSound (pins : PowerOnPins) (s : State) : InboxSound (powerOn pins s) :=
  ⟨Nat.zero_le _, fun _ => ⟨fun full => absurd full (Nat.not_succ_le_zero _), fun _ => rfl⟩⟩

/-- RESET_N leaves the inbox as it stands; HOLD_OUT follows its level only after power-on (R187). -/
theorem assertReset_inboxSound (room : s.link.inbox.length ≤ 8) : InboxSound (assertReset s) :=
  ⟨room, fun service => absurd service Bool.true_eq_false_eq_False⟩

/-- R165, R174: the inbox and HOLD_OUT change by edits alone while RESET_N is deasserted; its assertion deasserts
HOLD_OUT whatever the level, and power-on empties the inbox. -/
theorem Effect.inboxSound (effect : Effect s t) (sound : InboxSound s) : InboxSound t := by
  cases effect with
  | powerOn pins => exact powerOn_inboxSound pins s
  | assertReset _ => exact assertReset_inboxSound ((takeReached_inbox s).symm ▸ sound.1)
  | holdIn _ => exact sound
  | unserved _ => exact sound
  | served _ service run => exact (run.inboxLevel (sound.level service)).sound
  | encoder _ _ _ service run => exact (run.inboxLevel (sound.level service)).sound

end

/-- Settles O15: every effect of a command keeps the inbox within its 8 requests and HOLD_OUT at its level. -/
theorem stepKeepsInbox : Obligations.StepKeepsInbox := fun _ _ sound stepped =>
  step_keeps (fun _ _ kept => kept) Effect.inboxSound sound stepped

/-! ### Every command -/

section
variable {s t : State}

/-- A run of edits leaves the queue of commands alone. -/
theorem Edits.pending {d e : Nat} (run : Edits d s e t) : t.pending = s.pending :=
  run.keep (I := fun _ u => u.pending = s.pending) (fun edit same => (outside_edit edit).1.trans same) rfl

/-- No effect of a command touches the queue of commands. -/
theorem Effect.pending (effect : Effect s t) : t.pending = s.pending := by
  cases effect with
  | powerOn _ => rfl
  | assertReset run => exact run.pending
  | holdIn _ => rfl
  | unserved _ => rfl
  | served _ _ run => exact run.pending
  | encoder _ _ _ _ run => exact run.pending

end

/-- Settles O2: every command answers (`exec_answers`), and no effect of it touches the queue. -/
theorem everyCommandAnswers : Obligations.EveryCommandAnswers := fun c s => by
  obtain ⟨t, answers⟩ := exec_answers c s
  exact ⟨t, answers, (exec_effect c s t answers).pending⟩

/-- Settles O1: `step` by whether a command waits. -/
theorem stepTakesTheFront : Obligations.StepTakesTheFront := by
  refine ⟨fun c rest s front => ?_, fun s empty => ?_⟩
  · rw [step, front]
  · rw [step, empty]

/-! ### Right after reset -/

section
variable (pins : PowerOnPins) (s : State)

/-- What holds of every lane with power-on values holds of each lane after power-on. -/
theorem powerOn_lane_holds {P : LaneState → Prop} (fresh : ∀ p q eye, P (LaneState.powerOn p q eye)) (l : Lane) :
    P ((powerOn pins s).lane l) := by
  obtain ⟨p, q, eye, lane⟩ := powerOn_lane pins s l
  rw [lane]
  exact fresh p q eye

theorem powerOn_encodersSound : EncodersSound (powerOn pins s) :=
  powerOn_lane_holds pins s (P := fun x => x.enc.Sound) fun _ _ _ => ⟨rfl, Nat.zero_le _⟩

theorem powerOn_laneModesSound : LaneModesSound (powerOn pins s) :=
  powerOn_lane_holds pins s powerOn_modeSound

/-- After power-on every queue of a lane is empty, and no record asks for a place (R19, R42, R119). -/
theorem powerOn_laneQueuesSound : LaneQueuesSound (powerOn pins s) :=
  powerOn_lane_holds pins s (P := fun x => x.QueuesSound ∧ x.GlitchRoom) fun _ _ _ =>
    ⟨⟨Nat.zero_le _, Nat.zero_le _, Nat.zero_le _, Nat.zero_le _⟩, empty_glitchRoom rfl nofun⟩

theorem powerOn_releaseOrderSound : ReleaseOrderSound (powerOn pins s) :=
  powerOn_lane_holds pins s powerOn_releaseSound

theorem powerOn_unitOf (u : UnitId) : (powerOn pins s).unitOf u = none := by
  cases u <;> rfl

/-- After power-on every evaluation unit is idle (R119). -/
theorem powerOn_heldOf (l : Lane) (ident : Nat) : heldOf (powerOn pins s) l ident = 0 :=
  List.countP_eq_zero.2 fun u _ => by rw [powerOn_unitOf]; exact Bool.false_ne_true

/-- After power-on there is no record to account for, and no item of one is held (R42, R119). -/
theorem powerOn_jointsSound : JointsSound (powerOn pins s) := fun l =>
  powerOn_lane_holds pins s (P := fun x => x.JointsSound (jointCountOf (powerOn pins s)) (heldOf (powerOn pins s) l) l)
    (fun _ _ _ => ⟨fun _ mem => absurd mem List.not_mem_nil, fun _ mem => absurd mem List.not_mem_nil,
      fun ident held => absurd (powerOn_heldOf pins s l ident) held⟩) l

theorem powerOn_headsSound : HeadsSound (powerOn pins s) := fun h => by
  rw [powerOn_head]
  exact headPort_powerOn_sound

theorem powerOn_headLanesSound : HeadLanesSound (powerOn pins s) :=
  headLanes_unset fun h => by rw [powerOn_head]; rfl

theorem powerOn_calibrationSound : CalibrationSound (powerOn pins s) := fun h => by
  rw [powerOn_calOf]
  exact calRecord_powerOn_sound

/-- Every block's power-on values meet its invariant (R187). -/
theorem powerOn_sound : (powerOn pins s).Sound :=
  ⟨powerOn_encodersSound pins s, powerOn_laneModesSound pins s, powerOn_laneQueuesSound pins s,
    powerOn_divertSound pins s, powerOn_releaseOrderSound pins s, powerOn_refSound pins s, powerOn_jointsSound pins s,
    powerOn_headsSound pins s, powerOn_headLanesSound pins s, powerOn_calibrationSound pins s,
    powerOn_verdictUnitSound pins s, powerOn_inboxSound pins s, powerOn_places pins s⟩

end

/-- Settles O4: the machine right after reset has the power-on values, with the inputs at `resetPins`. -/
theorem resetIsSound : Obligations.ResetIsSound := powerOn_sound resetPins State.reset

end Sys2Proof.Machine

namespace Sys2Proof.Machine

/-! ### The receiver -/

section
variable {s : State} {b lo hi kind tag : Byte} {got : List Byte}

theorem takeByte_hunt (hunting : s.link.receiver = .hunt) :
    takeByte b s = if b = syncByte then collectInto (.header []) s else s := by
  rw [takeByte, hunting]

/-- The first three bytes of a header are collected (R168). -/
theorem takeByte_header (receiving : s.link.receiver = .header got) (short : got.length < 3) :
    takeByte b s = collectInto (.header (got ++ [b])) s := by
  rw [takeByte, receiving]
  match got, short with
  | [], _ => rfl
  | [_], _ => rfl
  | [_, _], _ => rfl

/-- The fourth byte of a header, its tag, completes it (R168). -/
theorem takeByte_tag (receiving : s.link.receiver = .header [lo, hi, kind]) :
    takeByte b s = completeHeader lo hi kind b s := by
  rw [takeByte, receiving]

/-- The header gives a payload that a frame may have (R169). -/
theorem completeHeader_goesOn (fits : headerLength lo hi ≤ 1020) :
    completeHeader lo hi kind tag s = collectInto (.body lo hi kind tag []) s :=
  if_neg (Nat.not_lt.2 fits)

/-- The header gives a payload above 1020 bytes (R169). -/
theorem completeHeader_rejects (long : 1020 < headerLength lo hi) :
    completeHeader lo hi kind tag s = rejectFrame kind tag .length s :=
  if_pos long

/-- A byte of the payload is collected (R168). -/
theorem takeByte_payload (receiving : s.link.receiver = .body lo hi kind tag got)
    (short : got.length < headerLength lo hi) :
    takeByte b s = collectInto (.body lo hi kind tag (got ++ [b])) s := by
  rw [takeByte, receiving]
  exact if_neg (Nat.not_le.2 short)

/-- The byte after the payload is the check byte, and completes the frame (R170). -/
theorem takeByte_check (receiving : s.link.receiver = .body lo hi kind tag got)
    (whole : headerLength lo hi ≤ got.length) : takeByte b s = completeFrame lo hi kind tag got b s := by
  rw [takeByte, receiving]
  exact if_pos whole

/-- The check byte is not that of the bytes received (R170 step 1). -/
theorem completeFrame_wrong (wrong : crc8 ([lo, hi, kind, tag] ++ got) ≠ b) :
    completeFrame lo hi kind tag got b s = rejectFrame kind tag .check s :=
  if_pos wrong

/-- The inbox is full (R170 step 2). -/
theorem completeFrame_full (right : crc8 ([lo, hi, kind, tag] ++ got) = b) (full : 8 ≤ s.link.inbox.length) :
    completeFrame lo hi kind tag got b s = rejectFrame kind tag .full s := by
  rw [completeFrame, if_neg (not_not_intro right)]
  exact if_pos full

/-- The frame enters the inbox (R170 step 3). -/
theorem completeFrame_enters (right : crc8 ([lo, hi, kind, tag] ++ got) = b) (room : s.link.inbox.length < 8) :
    completeFrame lo hi kind tag got b s
      = enterInbox { kind := kind, tag := tag, payload := got, marked := false } (toHunt s) := by
  rw [completeFrame, if_neg (not_not_intro right)]
  exact if_neg (Nat.not_le.2 room)

/-- A place is free exactly while the replies held and the places reserved are below 16 (R175). -/
theorem freePlaces_pos (s : State) : 0 < freePlaces s ↔ s.link.outbox.length + reservedPlaces s < 16 := by
  unfold freePlaces Config.outboxDepth
  omega

/-- A REJECT, after the events already reached: placed while a place is free, else only noted (R173). -/
theorem rejectFrame_eq (kind tag : Byte) (code : RejectCode) {v : State} (after : takeReached s = v) :
    rejectFrame kind tag code s =
      if v.link.outbox.length + reservedPlaces v < 16 then
        { v with
          link :=
            { v.link with
              receiver := .hunt
              outbox := v.link.outbox ++ [{ kind := 0x82, tag := tag, payload := [code.code, kind] }] } }
      else { v with link := { v.link with receiver := .hunt, rejectsDropped := true } } := by
  rw [rejectFrame, after, offerReject]
  exact if_congr (freePlaces_pos (toHunt v)) rfl rfl

/-- A byte whose stop bit is high is taken while RESET_N is deasserted (R168). -/
theorem exec_goodByte (service : s.resetAsserted = false) : exec (.goodByte b) s = .next (takeByte b s) :=
  inService_next service

/-- The row of a check byte is the taking of that byte (log entry 9). -/
theorem exec_frameReceived (service : s.resetAsserted = false) (receiving : s.link.receiver = .body lo hi kind tag got)
    (whole : headerLength lo hi ≤ got.length) :
    exec (.frameReceived b) s = .next (completeFrame lo hi kind tag got b s) := by
  have awaits : awaitsCheck s.link.receiver = true := by
    rw [receiving]
    exact decide_eq_true whole
  rw [← takeByte_check receiving whole]
  exact (inService_next service).trans (congrArg _ (if_pos awaits))

/-- The row of the tag byte of a header too long is the taking of that byte (log entry 9). -/
theorem exec_headerLengthReject (service : s.resetAsserted = false)
    (receiving : s.link.receiver = .header [lo, hi, kind]) (long : 1020 < headerLength lo hi) :
    exec (.headerLengthReject b) s = .next (completeHeader lo hi kind b s) := by
  have awaits : awaitsBadTag s.link.receiver = true := by
    rw [receiving]
    exact decide_eq_true long
  rw [← takeByte_tag receiving]
  exact (inService_next service).trans (congrArg _ (if_pos awaits))

/-- In HUNT no time is measured (R171). -/
theorem abandonSlowFrame_hunt (hunting : s.link.receiver = .hunt) : abandonSlowFrame s = s := by
  rw [abandonSlowFrame, hunting]

/-- A frame in course is abandoned (R171). -/
theorem abandonSlowFrame_inCourse (inCourse : s.link.receiver ≠ .hunt) : abandonSlowFrame s = loseSlowFrame s := by
  rw [abandonSlowFrame]
  split
  · next hunting => exact absurd hunting inCourse
  · rfl
  · rfl

/-- A command taken in turn has its effect on the state after the events already reached. -/
theorem inTurn_next {s₀ : State} {f : State → State} (service : (takeReached s₀).resetAsserted = false) :
    inTurn f s₀ = .next (f (takeReached s₀)) :=
  inService_next service

end

/-- Settles O21: `takeByte` by the state of the receiver; a REJECT and the timeout come after the events already
reached, which leave the receiver and the time alone. -/
theorem receiverTakesBytes : Obligations.ReceiverTakesBytes := by
  intro s b service goOn v reject
  have waned := takeReached_waned s
  have good : exec (.goodByte b) s = .next (takeByte b s) := exec_goodByte service
  have rejected (kind tag : Byte) (code : RejectCode) : .next (rejectFrame kind tag code s) = reject kind tag code :=
    congrArg _ (rejectFrame_eq kind tag code rfl)
  have receiver : v.link.receiver = s.link.receiver := by rw [waned.link]
  have lastByte : v.link.lastByteAt = s.link.lastByteAt := by rw [waned.link]
  have timeout : exec .interByteTimeout s = .next (abandonSlowFrame v) := inTurn_next (waned.reset.trans service)
  refine ⟨fun hunting => ?_, fun got receiving short => ?_,
    fun lo hi kind receiving => ⟨fun fits => ?_, fun long => ?_⟩,
    fun lo hi kind tag got receiving => ⟨fun short => ?_, fun whole => ?_⟩, ⟨receiver, lastByte, waned.now⟩,
    fun inCourse => ?_, fun hunting => ?_⟩
  · rw [good, takeByte_hunt hunting]
    exact apply_ite (.next : State → Result) _ _ _
  · rw [good, takeByte_header receiving short]
    rfl
  · rw [good, takeByte_tag receiving, completeHeader_goesOn fits]
    rfl
  · rw [good, exec_headerLengthReject service receiving long, takeByte_tag receiving, completeHeader_rejects long,
      rejected]
    exact ⟨rfl, rfl⟩
  · rw [good, takeByte_payload receiving short]
    rfl
  · rw [good, exec_frameReceived service receiving whole, takeByte_check receiving whole]
    refine ⟨rfl, fun wrong => ?_, fun right full => ?_, fun right room => ?_⟩
    · rw [completeFrame_wrong wrong, rejected]
    · rw [completeFrame_full right full, rejected]
    · rw [completeFrame_enters right room, enterInbox, toHunt]
      simp [State.updLink, LinkPort.withInbox, holdLevel]
  · rw [timeout, abandonSlowFrame_inCourse (receiver ▸ inCourse), ← lastByte, ← waned.now]
    rfl
  · rw [timeout, abandonSlowFrame_hunt (receiver.trans hunting)]

/-- Settles O22: `execStopBitError` while RESET_N is deasserted. -/
theorem stopBitErrorAbandonsTheFrame : Obligations.StopBitErrorAbandonsTheFrame := fun _ service =>
  inService_next service

/-! ### A frame byte by byte -/

section
variable {s : State} {b lo hi kind tag : Byte} {got : List Byte}

/-- One byte after another. -/
theorem runAll_goodByte {t : State} {bs : List Byte} (service : s.resetAsserted = false) (taken : takeByte b s = t) :
    runAll ((b :: bs).map .goodByte) s = runAll (bs.map .goodByte) t := by
  rw [List.map_cons, runAll, exec_goodByte service, taken]

/-- The next byte of the frame in course. -/
theorem runAll_inCourse {r : Receiver} {t : State} {bs : List Byte} (service : s.resetAsserted = false)
    (taken : takeByte b (collectInto r s) = t) :
    runAll ((b :: bs).map .goodByte) (collectInto r s) = runAll (bs.map .goodByte) t :=
  runAll_goodByte (s := collectInto r s) service taken

/-- The bytes of the header after the sync byte (R168, R169). -/
theorem runAll_header {bs : List Byte} (service : s.resetAsserted = false) (fits : headerLength lo hi ≤ 1020) :
    runAll ((lo :: hi :: kind :: tag :: bs).map .goodByte) (collectInto (.header []) s)
      = runAll (bs.map .goodByte) (collectInto (.body lo hi kind tag []) s) := by
  have header (got : List Byte) (b : Byte) (short : got.length < 3) :
      takeByte b (collectInto (.header got) s) = collectInto (.header (got ++ [b])) s :=
    takeByte_header rfl short
  have complete : takeByte tag (collectInto (.header [lo, hi, kind]) s) = collectInto (.body lo hi kind tag []) s :=
    (takeByte_tag rfl).trans (completeHeader_goesOn fits)
  calc
    _ = runAll ((hi :: kind :: tag :: bs).map .goodByte) (collectInto (.header [lo]) s) :=
      runAll_inCourse service (header [] lo (Nat.zero_lt_succ _))
    _ = runAll ((kind :: tag :: bs).map .goodByte) (collectInto (.header [lo, hi]) s) :=
      runAll_inCourse service (header [lo] hi (Nat.le_succ 2))
    _ = runAll ((tag :: bs).map .goodByte) (collectInto (.header [lo, hi, kind]) s) :=
      runAll_inCourse service (header [lo, hi] kind (Nat.le_refl 3))
    _ = _ := runAll_inCourse service complete

/-- The bytes of the payload, one after another (R168). -/
theorem runAll_payload {payload bs : List Byte} (service : s.resetAsserted = false)
    (short : got.length + payload.length ≤ headerLength lo hi) :
    runAll ((payload ++ bs).map .goodByte) (collectInto (.body lo hi kind tag got) s)
      = runAll (bs.map .goodByte) (collectInto (.body lo hi kind tag (got ++ payload)) s) := by
  induction payload generalizing got with
  | nil => rw [List.append_nil, List.nil_append]
  | cons b payload ih =>
    rw [List.length_cons] at short
    have taken : takeByte b (collectInto (.body lo hi kind tag got) s)
        = collectInto (.body lo hi kind tag (got ++ [b])) s := takeByte_payload rfl (by omega)
    calc
      _ = runAll ((payload ++ bs).map .goodByte) (collectInto (.body lo hi kind tag (got ++ [b])) s) :=
        runAll_inCourse service taken
      _ = _ := by
        rw [ih (by rw [List.length_append, List.length_singleton]; omega), List.append_assoc, List.singleton_append]

/-- The two length bytes of a header give the payload length they code (R188). -/
theorem headerLength_byteOf {n : Nat} (fits : n < 65536) : headerLength (byteOf n) (byteOf (n / 256)) = n :=
  leNat_le16 fits

/-- A frame in its parts: the sync byte, the four bytes of the header, the payload, and the check byte over all but the
first (table Frame). -/
theorem frameOf_eq (kind tag : Byte) (payload : List Byte) {lo hi : Byte} (low : byteOf payload.length = lo)
    (high : byteOf (payload.length / 256) = hi) : frameOf { kind := kind, tag := tag, payload := payload }
      = syncByte :: lo :: hi :: kind :: tag :: (payload ++ [crc8 ([lo, hi, kind, tag] ++ payload)]) := by
  subst low high
  rfl

end

/-- Settles O20: the sync byte starts the header, the header gives the payload's length, the payload follows byte by
byte, and the check byte is that of the bytes received. -/
theorem frameReachesTheInbox : Obligations.FrameReachesTheInbox := by
  intro s kind tag payload service hunting room fits
  have length := headerLength_byteOf (n := payload.length) (by omega)
  rw [frameOf_eq kind tag payload rfl rfl]
  generalize byteOf payload.length = lo, byteOf (payload.length / 256) = hi at length ⊢
  have sync : takeByte syncByte s = collectInto (.header []) s := (takeByte_hunt hunting).trans (if_pos rfl)
  have check : takeByte (crc8 ([lo, hi, kind, tag] ++ payload)) (collectInto (.body lo hi kind tag payload) s)
      = enterInbox { kind := kind, tag := tag, payload := payload, marked := false }
          (toHunt (collectInto (.body lo hi kind tag payload) s)) :=
    (takeByte_check rfl length.le).trans (completeFrame_enters rfl room)
  calc
    _ = runAll ([crc8 ([lo, hi, kind, tag] ++ payload)].map .goodByte)
          (collectInto (.body lo hi kind tag payload) s) := by
      rw [runAll_goodByte service sync, runAll_header service (by omega), runAll_payload service (by simp [length]),
        List.nil_append]
    _ = .next (enterInbox { kind := kind, tag := tag, payload := payload, marked := false }
          (toHunt (collectInto (.body lo hi kind tag payload) s))) := runAll_inCourse service check
    _ = _ := by
      simp [enterInbox, toHunt, collectInto, State.updLink, LinkPort.withInbox, holdLevel, hunting]

/-! ### The transmitter -/

section
variable {s : State}

theorem startTransmit_starts {r : Reply} {rest : List Reply} (idle : s.link.transmitter = .idle)
    (oldest : s.link.outbox = r :: rest) (free : s.link.holdIn = false) :
    startTransmit s = s.updLink fun k => { k with transmitter := .sending (frameOf r) } := by
  rw [startTransmit, idle, oldest, free]
  rfl

/-- With no reply to send, or HOLD_IN asserted, the transmitter stays IDLE (R166). -/
theorem startTransmit_waits (waits : s.link.outbox = [] ∨ s.link.holdIn = true) : startTransmit s = s := by
  rw [startTransmit]
  split
  · next r rest _ reply =>
    rcases waits with none | held
    · rw [none] at reply
      cases reply
    · rw [if_pos held]
  · rfl

/-- A frame being sent is not interrupted (R166). -/
theorem startTransmit_sending {frame : List Byte} (sending : s.link.transmitter = .sending frame) :
    startTransmit s = s := by
  rw [startTransmit, sending]

theorem finishTransmit_idle (idle : s.link.transmitter = .idle) : finishTransmit s = s := by
  rw [finishTransmit, idle]

/-- The end of a frame frees the place of its reply (R166). -/
theorem finishTransmit_sending {frame : List Byte} (sending : s.link.transmitter = .sending frame) :
    finishTransmit s
      = s.updLink fun k => { k with transmitter := .idle, outbox := k.outbox.drop 1, sent := k.sent ++ [frame] } := by
  rw [finishTransmit, sending]

end

/-- Settles O23: the two rows of the transmitter by its state. -/
theorem transmitterSendsReplies : Obligations.TransmitterSendsReplies := by
  refine ⟨?_, fun s service => ?_⟩
  · intro s₀ s service
    have start : exec .transmitStart s₀ = .next (startTransmit s) := inTurn_next service
    rw [start]
    exact ⟨fun r rest idle oldest free => congrArg _ (startTransmit_starts idle oldest free),
      fun _ waits => congrArg _ (startTransmit_waits waits),
      fun frame sending => congrArg _ (startTransmit_sending sending)⟩
  · have finish : exec .replySent s = .next (finishTransmit s) := inService_next service
    rw [finish]
    exact ⟨fun frame sending => congrArg _ (finishTransmit_sending sending),
      fun idle => congrArg _ (finishTransmit_idle idle)⟩

end Sys2Proof.Machine

namespace Sys2Proof.Machine

/-! ### The taking of a request -/

section
variable {s s₀ : State} {c : Instr} {kind : Byte} {r : Request} {rest : List Request}

/-- The oldest request waits while no place of the outbox is free, and there is none in an empty inbox (R176). -/
theorem takeRequest_waits (wanted : Request → Bool) (act : Request → State → State)
    (waits : s.link.inbox = [] ∨ 16 ≤ s.link.outbox.length + reservedPlaces s) : takeRequest wanted act s = s := by
  unfold takeRequest
  split
  · rfl
  · next r rest front =>
    have full : ¬0 < freePlaces s := fun free => by
      rcases waits with empty | full
      · rw [empty] at front
        cases front
      · exact absurd ((freePlaces_pos s).1 free) (Nat.not_lt.2 full)
    rw [decide_eq_false full, Bool.and_false]
    rfl

/-- A taking that finds nothing to do leaves the state after the events already reached. -/
theorem inTurn_idle {f : State → State} (idle : f (takeReached s₀) = takeReached s₀) :
    inTurn f s₀ = .next (takeReached s₀) := by
  rw [inTurn, inService, idle, ite_self]

/-- A row of the request handler (R176): it takes some requests of the inbox, and does something with each. -/
def TakesRequests (c : Instr) : Prop := ∃ wanted act, ∀ s, exec c s = inTurn (takeRequest wanted act) s

/-- A row of a kind: of the unmarked requests of that kind it takes at least those of a wrong length, and refuses these
LENGTH (R177; log entry 21). -/
def ChecksKind (c : Instr) (kind : Byte) : Prop :=
  ∃ wanted body, (∀ s, exec c s = inTurn (takeRequest wanted (checkedRequest body)) s)
    ∧ ∀ r : Request, r.marked = false → r.kind = kind → lengthOk kind r.payload = false → wanted r = true

theorem ChecksKind.takes (row : ChecksKind c kind) : TakesRequests c := by
  obtain ⟨wanted, body, takes, _⟩ := row
  exact ⟨wanted, checkedRequest body, takes⟩

theorem checksKind_of_takeKind {body : Byte → List Byte → State → State}
    (takes : ∀ s, exec c s = inTurn (takeKind kind body) s) : ChecksKind c kind :=
  ⟨_, body, takes, fun r unmarked isKind _ => by rw [unmarked, isKind, decide_eq_true rfl]; rfl⟩

theorem checksKind_of_takeVariant {place code limit : Nat} {body : Byte → List Byte → State → State}
    (takes : ∀ s, exec c s = inTurn (takeVariant kind place code limit body) s) : ChecksKind c kind :=
  ⟨_, body, takes, fun r unmarked isKind wrong => by rw [unmarked, isKind, wrong, decide_eq_true rfl]; rfl⟩

/-- Every row that stands for a kind of requests checks them as R177 says. -/
theorem checksKind_of_requestKind (row : requestKind c = some kind) : ChecksKind c kind := by
  cases c with
  | linkStatus | laneStatus | headStatus | laneStopDrain | laneStopAbandon =>
    cases row
    exact checksKind_of_takeVariant fun _ => rfl
  | describe | restart | laneSetup | laneStart | expect | withdraw | headSetup | headAlign | calRequest | recipeOpen
  | recipeClasses | recipeJoints | recipeClose | recipeRetire | recipeQuery | collect =>
    cases row
    exact checksKind_of_takeKind fun _ => rfl
  | _ => cases row

/-- The request rows are rows of the request handler. -/
theorem takesRequests_of_row (row : (requestKind c).isSome = true ∨ c = .unknownKind ∨ c = .markedRequest) :
    TakesRequests c := by
  rcases row with some | rfl | rfl
  · obtain ⟨_, isKind⟩ := Option.isSome_iff_exists.1 some
    exact (checksKind_of_requestKind isKind).takes
  · exact ⟨_, _, fun _ => rfl⟩
  · exact ⟨_, _, fun _ => rfl⟩

/-- A taking in turn of the oldest request, when it is the one wanted and a place is free (R176). -/
theorem inTurn_takeRequest {wanted : Request → Bool} {act : Request → State → State}
    (service : (takeReached s₀).resetAsserted = false) (front : (takeReached s₀).link.inbox = r :: rest)
    (free : (takeReached s₀).link.outbox.length + reservedPlaces (takeReached s₀) < 16) (w : wanted r = true) :
    inTurn (takeRequest wanted act) s₀ = .next (act r (afterTaking rest (takeReached s₀))) := by
  rw [inTurn_next service, takeRequest_next front w free]

end

/-- Settles O25: a row of the request handler finds no request, or no place for its reply. -/
theorem handlerWaitsForAPlace : Obligations.HandlerWaitsForAPlace := by
  intro s₀ c s waits row
  obtain ⟨wanted, act, takes⟩ := takesRequests_of_row row
  rw [takes]
  exact inTurn_idle (takeRequest_waits wanted act waits)

/-- Settles O26: DESCRIBE is taken whatever the state, and its body answers the fixed record. -/
theorem describeAnswersTheCapabilities : Obligations.DescribeAnswersTheCapabilities := fun _ _ _ can =>
  takeKind_next (body := describeBody) can

/-! ### The checks of the request handler -/

section
variable {s : State} {r : Request}

/-- Check 1 of R177. -/
theorem refuseMarked_unknown (unknown : knownKind r.kind ≠ true) : refuseMarked r s = refuseKind r s :=
  if_neg unknown

/-- Check 2 of R177, before RESTARTED (R184). -/
theorem refuseMarked_wrongLength (known : knownKind r.kind = true) (wrong : lengthOk r.kind r.payload = false) :
    refuseMarked r s = replyRefused r.kind r.tag .length [] s := by
  rw [refuseMarked, if_pos known, wrong]
  rfl

/-- A marked request that passes both checks is refused RESTARTED (R184). -/
theorem refuseMarked_restarted (known : knownKind r.kind = true) (right : lengthOk r.kind r.payload = true) :
    refuseMarked r s = replyRefused r.kind r.tag .restarted [] s := by
  rw [refuseMarked, if_pos known, if_pos right]

/-- A request of a wrong length does not reach the block that owns it (R177, R178). -/
theorem checkedRequest_wrongLength (body : Byte → List Byte → State → State)
    (wrong : lengthOk r.kind r.payload = false) :
    checkedRequest body r s = replyRefused r.kind r.tag .length [] s := by
  rw [checkedRequest, wrong]
  rfl

/-- A kind of one fixed payload length (table Requests). -/
theorem lengthOk_fixed {kind : Byte} {n : Nat} (fixed : fixedLength kind = some n) (p : List Byte) :
    lengthOk kind p = true ↔ p.length = n := by
  rw [lengthOk, fixed]
  exact decide_eq_true_iff

/-- A class table of 1 to 16 entries of 16 bytes, after the slot (R189). -/
theorem lengthOk_classes (p : List Byte) : lengthOk 0x0D p = true ↔ ∃ k, 1 ≤ k ∧ k ≤ 16 ∧ p.length = 1 + 16 * k := by
  have check : lengthOk 0x0D p = (decide (p.length % 16 = 1) && within 17 257 p.length) := rfl
  rw [check, Bool.and_eq_true, decide_eq_true_iff, within_iff]
  constructor
  · rintro ⟨whole, low, high⟩
    exact ⟨p.length / 16, by omega, by omega, by omega⟩
  · rintro ⟨k, low, high, length⟩
    omega

/-- Whole joint records, after the slot and the first index (R189). -/
theorem lengthOk_joints (p : List Byte) :
    lengthOk 0x0E p = true ↔ 3 ≤ p.length ∧ (payloadJoints p).isSome = true := by
  have check : lengthOk 0x0E p = (decide (3 ≤ p.length) && (payloadJoints p).isSome) := rfl
  rw [check, Bool.and_eq_true, decide_eq_true_iff]

end

/-- Settles O24: the refusals by the rows that take such a request, the lengths by `lengthOk`, the codes as listed. -/
theorem handlerRefusesBadRequests : Obligations.HandlerRefusesBadRequests := by
  refine ⟨?_, ?_, lengthOk_classes, lengthOk_joints, rfl, rfl⟩
  · intro s₀ r rest s service front free
    have known := knownKind_iff r.kind
    have unknownRow (unknown : knownKind r.kind ≠ true) :
        exec .unknownKind s₀ = .next (refuseKind r (afterTaking rest s)) :=
      inTurn_takeRequest service front free (by rw [Bool.eq_false_iff.2 unknown]; rfl)
    have markedRow (marked : r.marked = true) : exec .markedRequest s₀ = .next (refuseMarked r (afterTaking rest s)) :=
      inTurn_takeRequest service front free marked
    rw [← known]
    refine ⟨fun unknown => ⟨unknownRow unknown, fun marked => ?_⟩,
      fun isKnown marked => ⟨fun wrong => ?_, fun right => ?_⟩, fun unmarked wrong c row => ?_⟩
    · exact (markedRow marked).trans (congrArg _ (refuseMarked_unknown unknown))
    · exact (markedRow marked).trans (congrArg _ (refuseMarked_wrongLength isKnown wrong))
    · exact (markedRow marked).trans (congrArg _ (refuseMarked_restarted isKnown right))
    · obtain ⟨wanted, body, takes, takesWrong⟩ := checksKind_of_requestKind row
      rw [takes, inTurn_takeRequest service front free (takesWrong r unmarked rfl wrong)]
      exact congrArg _ (checkedRequest_wrongLength body wrong)
  · intro p row mem
    have fixed : fixedLength row.1 = some row.2 := by
      revert row
      decide
    exact lengthOk_fixed fixed p

end Sys2Proof.Machine

namespace Sys2Proof.Machine

/-! ### The replies of RESTART -/

/-- A state with some replies added at the back of the outbox (R175). -/
def withReplies (rs : List Reply) (s : State) : State :=
  { s with link := { s.link with outbox := s.link.outbox ++ rs } }

theorem withReplies_nil (s : State) : withReplies [] s = s := by
  rw [withReplies, List.append_nil]

/-- A reply placed after others. -/
theorem replyRefused_withReplies (kind tag : Byte) (code : RefusalCode) (detail : List Byte) (rs : List Reply)
    (s : State) : replyRefused kind tag code detail (withReplies rs s)
      = withReplies (rs ++ [refusedReply kind tag code detail]) s := by
  unfold withReplies
  rw [← List.append_assoc]
  rfl

/-- One after another, some things each place the reply that they are owed, if any. -/
theorem foldl_withReplies {α : Type} {place : State → α → State} {owed : α → Option Reply} {s : State}
    (each : ∀ rs a, place (withReplies rs s) a = withReplies (rs ++ (owed a).toList) s) (as : List α)
    (rs : List Reply) : as.foldl place (withReplies rs s) = withReplies (rs ++ as.filterMap owed) s := by
  induction as generalizing rs with
  | nil => rw [List.filterMap_nil, List.append_nil]; rfl
  | cons a as ih =>
    rw [List.foldl_cons, each, ih, List.append_assoc]
    cases owes : owed a with
    | none => rw [List.filterMap_cons_none owes]; rfl
    | some reply => rw [List.filterMap_cons_some owes]; rfl

/-- The refusal that a running sweep owes at RESTART (R184). -/
def HeadPort.endedAlign (h : HeadPort) : Option Reply :=
  match h.mode with
  | .aligning sw => some (refusedReply kindHeadAlign sw.requestTag .restarted [])
  | .unaligned => none
  | .aligned => none

/-- The refusal that a running close owes at RESTART (R184). -/
def RecipeSlot.endedClose (n : RecipeSlot) : Option Reply :=
  n.closeTag.map fun tag => refusedReply kindRecipeClose tag .restarted []

/-- Step 1 of R184. -/
theorem endCollects_eq (s : State) : endCollects s
    = withReplies (s.verdicts.parked.map fun tag => refusedReply kindCollect tag .restarted []) s := by
  have all := foldl_withReplies (place := fun s tag => replyRefused kindCollect tag .restarted [] s)
    (owed := fun tag => some (refusedReply kindCollect tag .restarted []))
    (fun rs tag => replyRefused_withReplies kindCollect tag .restarted [] rs s) s.verdicts.parked []
  rwa [List.filterMap_eq_map', withReplies_nil] at all

/-- Step 2 of R184, after other replies. -/
theorem endSweeps_withReplies (rs : List Reply) (s : State) : endSweeps (withReplies rs s)
    = withReplies (rs ++ (Four.all.map s.head).filterMap HeadPort.endedAlign) s := by
  rw [List.filterMap_map]
  refine foldl_withReplies (fun rs h => ?_) Four.all rs
  have same : (withReplies rs s).head h = s.head h := rfl
  rw [Function.comp, HeadPort.endedAlign, same]
  cases (s.head h).mode with
  | aligning sw => exact replyRefused_withReplies kindHeadAlign sw.requestTag .restarted [] rs s
  | unaligned | aligned => rw [Option.toList_none, List.append_nil]

/-- Step 3 of R184, after other replies. -/
theorem endCloses_withReplies (rs : List Reply) (s : State) : endCloses (withReplies rs s)
    = withReplies (rs ++ (Four.all.map s.slot).filterMap RecipeSlot.endedClose) s := by
  rw [List.filterMap_map]
  refine foldl_withReplies (fun rs n => ?_) Four.all rs
  have same : (withReplies rs s).slot n = s.slot n := rfl
  rw [Function.comp, RecipeSlot.endedClose, same]
  cases (s.slot n).closeTag with
  | some tag => exact replyRefused_withReplies kindRecipeClose tag .restarted [] rs s
  | none => rw [Option.map_none, Option.toList_none, List.append_nil]

/-- The replies of R184, in its order. -/
theorem restartReplies_eq (s : State) : endCloses (endSweeps (endCollects s))
    = withReplies ((s.verdicts.parked.map fun tag => refusedReply kindCollect tag .restarted [])
        ++ (Four.all.map s.head).filterMap HeadPort.endedAlign
        ++ (Four.all.map s.slot).filterMap RecipeSlot.endedClose) s := by
  rw [endCollects_eq, endSweeps_withReplies, endCloses_withReplies]

/-! ### The blocks after RESTART -/

/-- HOLD_OUT follows the same level twice as once (R165). -/
theorem holdLevel_holdLevel (n : Nat) (before : Bool) : holdLevel n (holdLevel n before) = holdLevel n before := by
  unfold holdLevel
  split
  · rfl
  · split <;> rfl

/-- A Head Port at RESTART: a sweep ends UNALIGNED, with the alignment stop sent (R50, R67). -/
theorem headPort_restart_eq (x : HeadPort) : x.restart =
    { HeadPort.powerOn with
      settings := x.settings
      mode := if x.mode = .aligned then .aligned else .unaligned
      tap := if x.mode = .aligned then x.tap else 0
      triggerLine := if x.sweeping then x.triggerLine ++ [[0xA003]] else x.triggerLine } := by
  cases x with
  | mk settings mode => cases mode <;> rfl

/-- A slot at RESTART: a READY one keeps its recipe, any other is EMPTY (R102). -/
theorem recipeSlot_restart_eq (x : RecipeSlot) :
    x.restart = if x.state = .ready then { x with refs := 0, lastFailure := none } else RecipeSlot.empty := by
  unfold RecipeSlot.restart
  cases x.state <;> rfl

/-- The replies placed before the blocks take their values after RESTART stay in the outbox (R184, R185). -/
theorem restartBlocks_replies (tag : Byte) (rs : List Reply) (rest : List Request) (s : State) :
    restartBlocks (replyDone kindRestart tag [] (withReplies rs (afterTaking rest s)))
      = { restartBlocks s with
          link :=
            { s.link with
              inbox := rest.map fun q => { q with marked := true }
              holdOut := holdLevel rest.length s.link.holdOut
              linkFraming := false
              timeout := false
              rejectsDropped := false
              outbox := s.link.outbox ++ rs ++ [doneReply kindRestart tag []] } } := by
  have level : holdLevel (rest.map fun q => { q with marked := true }).length (holdLevel rest.length s.link.holdOut)
      = holdLevel rest.length s.link.holdOut := by
    rw [List.length_map, holdLevel_holdLevel]
  rw [← level]
  rfl

/-- Both lanes are DISABLED (R183). -/
theorem restartBody_restarts {s : State} (tag : Byte) (p : List Byte)
    (idle : (s.lane .a).mode = .disabled ∧ (s.lane .b).mode = .disabled) :
    restartBody tag p s = restartBlocks (replyDone kindRestart tag [] (endCloses (endSweeps (endCollects s)))) :=
  if_pos idle

/-- A lane runs (R183). -/
theorem restartBody_refuses {s : State} (tag : Byte) (p : List Byte)
    (runs : ¬((s.lane .a).mode = .disabled ∧ (s.lane .b).mode = .disabled)) :
    restartBody tag p s = replyRefused kindRestart tag .state [] s :=
  if_neg runs

/-- Settles O28: the replies in the order of R184, then each block by its own values after RESTART. -/
theorem restartActsOnEveryBlock : Obligations.RestartActsOnEveryBlock := by
  intro s₀ r rest s can lane head cal slot ended
  have taken : exec .restart s₀ = .next (restartBody r.tag r.payload (afterTaking rest s)) := takeKind_next can
  rw [taken]
  refine ⟨fun idle => congrArg _ ?_, fun runs => congrArg _ (restartBody_refuses _ _ runs)⟩
  refine (restartBody_restarts (s := afterTaking rest s) r.tag r.payload idle).trans ?_
  have heads : s.heads.map HeadPort.restart = s.heads.map head :=
    congrArg (s.heads.map ·) (funext headPort_restart_eq)
  have slots : s.slots.map RecipeSlot.restart = s.slots.map slot :=
    congrArg (s.slots.map ·) (funext recipeSlot_restart_eq)
  rw [restartReplies_eq, restartBlocks_replies, restartBlocks, heads, slots, ← List.append_assoc, ← List.append_assoc]
  rfl

end Sys2Proof.Machine

namespace Sys2Proof.Machine

/-! ### Recipe headers and class tables -/

theorem leNat_le24 {n : Nat} (fits : n < 16777216) : leNat (le24 n) = n := by
  simp only [le24, leNat, byteOf, BitVec.toNat_ofNat]
  omega

/-- The fields of a header where a RECIPE_OPEN payload has them, after the slot (09, section 9.9). -/
theorem readHeader_bytes (slot : Byte) (h : Header) : readHeader (slot :: headerBytes h) =
    { jointCount := leNat (le16 h.jointCount), classCount := leNat [byteOf h.classCount],
      boardLines := leNat (le16 h.boardLines), lineStep := leNat [byteOf h.lineStep],
      lengthTol := leNat (le16 h.lengthTol), headsUsed := leNat [byteOf h.headsUsed] } := rfl

/-- A header in its ranges is read back (R89). -/
theorem readHeader_headerBytes (slot : Byte) {h : Header} (ranges : h.inRanges = true) :
    readHeader (slot :: headerBytes h) = h := by
  obtain ⟨joints, classes, lines, step, tolerance, heads⟩ := (header_inRanges_iff h).1 ranges
  rw [readHeader_bytes, leNat_le16 (by omega), leNat_byteOf (by omega), leNat_le16 (by omega), leNat_byteOf (by omega),
    leNat_le16 (by omega), leNat_byteOf (by omega)]

/-- The fields of a class entry where the table Class entry has them. -/
theorem readClass_bytes (c : ClassEntry) : readClass (classBytes c) =
    { vmin := leNat (le24 c.vmin), vmax := leNat (le24 c.vmax), pmax := leNat (le16 c.pmax),
      wetHeight := leNat (le16 c.wetHeight), cmin := leNat (le16 c.cmin), validMin := leNat (le16 c.validMin),
      hclamp := leNat (le16 c.hclamp) } := rfl

/-- A class entry in its ranges is read back (R90). -/
theorem readClass_classBytes {c : ClassEntry} (ranges : c.inRanges = true) : readClass (classBytes c) = c := by
  obtain ⟨vmin, vmax, pmax, wet, cmin, valid, clamp⟩ := (classEntry_inRanges_iff c).1 ranges
  rw [readClass_bytes, leNat_le24 (by omega), leNat_le24 (by omega), leNat_le16 (by omega), leNat_le16 (by omega),
    leNat_le16 (by omega), leNat_le16 (by omega), leNat_le16 (by omega)]

theorem length_classBytes (c : ClassEntry) : (classBytes c).length = 16 := rfl

/-- A class table has 16 bytes for each entry (R189). -/
theorem length_flatMap_classBytes (cs : List ClassEntry) : (cs.flatMap classBytes).length = 16 * cs.length := by
  induction cs with
  | nil => rfl
  | cons c cs ih => rw [List.flatMap_cons, List.length_append, ih, length_classBytes, List.length_cons]; omega

/-- A class table in its ranges is read back, entry 0 first (R189). -/
theorem readClasses_classBytes {cs : List ClassEntry} (ranges : ∀ c ∈ cs, c.inRanges = true) :
    readClasses cs.length (cs.flatMap classBytes) = cs := by
  induction cs with
  | nil => rfl
  | cons c cs ih =>
    obtain ⟨here, others⟩ := List.forall_mem_cons.1 ranges
    rw [List.length_cons, List.flatMap_cons, readClasses, List.take_left' (length_classBytes c),
      List.drop_left' (length_classBytes c), readClass_classBytes here, ih others]

/-! ### Joint records -/

/-- A joint record as it is received: its gap presence says whether it has a gap part (R189). -/
def Joint.wire (j : Joint) : WireJoint := { presence := if j.gap.isSome then 1 else 0, joint := j }

/-- The fields of a joint record where the table Joint record has them, whatever follows it. -/
theorem readJoint_bytes (j : Joint) (bs : List Byte) : readJoint (jointBytes j ++ bs) =
    { presence := if j.gap.isSome then 1 else 0
      joint :=
        { jointId := leNat (le16 j.jointId), head := leNat [byteOf j.head], cls := leNat [byteOf j.cls],
          margin := leNat [byteOf j.margin], col0 := leNat (le16 j.col0), ncols := leNat [byteOf j.ncols],
          row0 := leNat (le16 j.row0), nrows := leNat [byteOf j.nrows]
          gap := j.gap.map fun g =>
            { gcol0 := leNat (le16 g.gcol0), gncols := leNat [byteOf g.gncols], grow0 := leNat (le16 g.grow0),
              gnrows := leNat [byteOf g.gnrows], bridgeHeight := leNat (le16 g.bridgeHeight),
              bridgeCount := leNat (le16 g.bridgeCount) } } } := by
  cases j with
  | mk _ _ _ _ _ _ _ _ gap => cases gap <;> rfl

/-- A joint record in its ranges is read back, with its gap presence (R189). -/
theorem readJoint_jointBytes {j : Joint} (ranges : j.inRanges = true) (bs : List Byte) :
    readJoint (jointBytes j ++ bs) = j.wire := by
  have fields := (wireJoint_inRanges_iff { presence := 0, joint := j }).1 ranges
  dsimp only at fields
  obtain ⟨_, ident, head, cls, margin, col, cols, row, rows, gapRanges⟩ := fields
  have gap : (j.gap.map fun g : GapPart =>
      { gcol0 := leNat (le16 g.gcol0), gncols := leNat [byteOf g.gncols], grow0 := leNat (le16 g.grow0),
        gnrows := leNat [byteOf g.gnrows], bridgeHeight := leNat (le16 g.bridgeHeight),
        bridgeCount := leNat (le16 g.bridgeCount) : GapPart }) = j.gap := by
    cases part : j.gap with
    | none => rfl
    | some g =>
      obtain ⟨gcol, gcols, grow, grows, height, count⟩ := gapRanges g part
      rw [Option.map_some, leNat_le16 (by omega), leNat_byteOf (by omega), leNat_le16 (by omega),
        leNat_byteOf (by omega), leNat_le16 (by omega), leNat_le16 (by omega)]
  rw [readJoint_bytes, gap, leNat_le16 (by omega), leNat_byteOf (by omega), leNat_byteOf (by omega),
    leNat_byteOf (by omega), leNat_le16 (by omega), leNat_byteOf (by omega), leNat_le16 (by omega),
    leNat_byteOf (by omega)]
  rfl

/-- The length of a record as its gap presence gives it (R189). -/
theorem jointSize_jointBytes (j : Joint) (bs : List Byte) :
    jointSize (jointBytes j ++ bs) = (jointBytes j).length := by
  cases j with
  | mk _ _ _ _ _ _ _ _ gap => cases gap <;> rfl

/-- The record that begins a run of joint records is read, and then the rest of the run (R189). -/
theorem readJoints_jointBytes {j : Joint} (ranges : j.inRanges = true) (n : Nat) (bs : List Byte) :
    readJoints (n + 1) (jointBytes j ++ bs) = (readJoints n bs).map (j.wire :: ·) := by
  have first : readJoints (n + 1) (jointBytes j ++ bs)
      = if (jointBytes j ++ bs).length < jointSize (jointBytes j ++ bs) then none
        else (readJoints n ((jointBytes j ++ bs).drop (jointSize (jointBytes j ++ bs)))).map
          (readJoint (jointBytes j ++ bs) :: ·) := rfl
  rw [first, jointSize_jointBytes, List.drop_left, readJoint_jointBytes ranges, List.length_append,
    if_neg (Nat.not_lt.2 (Nat.le_add_right _ _))]

/-- A run of joint records in their ranges is read back, given room for as many (R189). -/
theorem readJoints_flatMap {js : List Joint} {n : Nat} (ranges : ∀ j ∈ js, j.inRanges = true) (room : js.length ≤ n) :
    readJoints n (js.flatMap jointBytes) = some (js.map Joint.wire) := by
  induction js generalizing n with
  | nil => cases n <;> rfl
  | cons j js ih =>
    obtain ⟨here, others⟩ := List.forall_mem_cons.1 ranges
    obtain ⟨m, rfl⟩ := Nat.exists_eq_add_of_le' (Nat.le_trans (Nat.le_add_left 1 js.length) room)
    rw [List.flatMap_cons, readJoints_jointBytes here, ih others (Nat.le_of_succ_le_succ room), Option.map_some,
      List.map_cons]

/-- Settles O19: each layout as written, and each field read back from where it is written. -/
theorem recipeRecordsRoundTrip : Obligations.RecipeRecordsRoundTrip := by
  refine ⟨fun n => ?_, fun _ => rfl, fun _ => rfl, fun slot h ranges => ⟨rfl, readHeader_headerBytes _ ranges⟩,
    fun cs ranges => ⟨length_flatMap_classBytes cs, readClasses_classBytes ranges⟩,
    fun js n ranges room => readJoints_flatMap ranges room⟩
  simp [le16, le24, le32, byteOf]

end Sys2Proof.Machine
